-- ==== Sys2Proof/Word.lean ====
section
/-! DEFINITION. The word types of VWU: a register is 32 bits numbered 31 to 0 (00_scope.md R11), an offset or length
register 16 bits (20_memory.md R61), a byte 8 bits (20_memory.md R60). -/

namespace Sys2Proof

/-- An octet of a buffer (20_memory.md R60). -/
abbrev Byte := BitVec 8

/-- An offset or length register (20_memory.md R61). -/
abbrev Half := BitVec 16

/-- A 32-bit register, or the command word (00_scope.md R11, 30_encoding.md R80). -/
abbrev Word := BitVec 32

end Sys2Proof
end

