-- ==== Sys2Proof/Syntax.lean ====
section
/-! DEFINITION. The rows of spec/opcode_table.json, one constructor each: the 34 commands of 30_encoding.md R81 with
their 8-bit argument where they take one, then the 11 wire-byte rows of 30_encoding.md R106 with the raw bits of the
byte or 16-bit word they describe. -/

namespace Sys2Proof

/-- One row of the opcode table. `arg`, `w`, `n` and `c` are the `arg` field of the command word (30_encoding.md R80). -/
inductive Instr where
  -- system (45_system.md)
  | nop
  | srst
  | ob2ib
  | rb2ib (c : BitVec 8)
  -- primitives (40_primitives.md)
  | vwrd2
  | vwrd3
  | vwwr2
  | vwwr3
  | bfext (w : BitVec 8)
  | bfins (w : BitVec 8)
  | twoc (n : BitVec 8)
  | idsplit
  | idjoin
  | rdbe (n : BitVec 8)
  | wrbe (n : BitVec 8)
  -- Flex (41_flex.md)
  | tlvrd
  | tlvwr
  | flexdec
  | flexenc
  -- unified ASL (42_asl.md)
  | asldec
  | aslenc
  -- legacy frame (43_frame.md)
  | lldec
  | nldec
  | pldec
  | framedec
  | llenc
  | nlenc
  | plenc
  | frameenc
  -- AMA (44_ama.md)
  | amahdr
  | amarx (c : BitVec 8)
  | amaabt (c : BitVec 8)
  | amatxi
  | amatxc
  -- wire-byte rows: "they are not commands and no command word selects them" (30_encoding.md R106)
  | llFixed (bits : BitVec 16)
  | nlByte (bits : BitVec 8)
  | plByte (bits : BitVec 8)
  | flexTlvByte (bits : BitVec 8)
  | aslFlags (bits : BitVec 8)
  | aslVersion (bits : BitVec 8)
  | aslStatus (bits : BitVec 8)
  | aslOpaddr (bits : BitVec 8)
  | amaHdr (bits : BitVec 16)
  | vw2Lead (bits : BitVec 8)
  | vw3Lead (bits : BitVec 8)
deriving DecidableEq, Repr

end Sys2Proof
end

