-- ==== Sys2Proof/WellFormed.lean ====
section
/-! DEFINITION. Which terms of `Instr` are commands of the block. Every 8-bit argument is part of a legal word
(30_encoding.md R82: an argument out of its command's range is "not an illegal word"), so the one check is that the row
is a command and not a wire-byte row (30_encoding.md R106). -/

namespace Sys2Proof

/-- The row is one of the 34 commands (30_encoding.md R81), not a wire-byte row (R106). -/
def Instr.isCommand : Instr → Bool
  | .nop | .srst | .ob2ib | .rb2ib _ => true
  | .vwrd2 | .vwrd3 | .vwwr2 | .vwwr3 | .bfext _ | .bfins _ | .twoc _ | .idsplit | .idjoin | .rdbe _ | .wrbe _ => true
  | .tlvrd | .tlvwr | .flexdec | .flexenc => true
  | .asldec | .aslenc => true
  | .lldec | .nldec | .pldec | .framedec | .llenc | .nlenc | .plenc | .frameenc => true
  | .amahdr | .amarx _ | .amaabt _ | .amatxi | .amatxc => true
  | .llFixed _ | .nlByte _ | .plByte _ | .flexTlvByte _ | .aslFlags _ | .aslVersion _ | .aslStatus _ | .aslOpaddr _
  | .amaHdr _ | .vw2Lead _ | .vw3Lead _ => false

/-- A well-formed instruction is one that a command word can select. -/
abbrev WellFormed (i : Instr) : Prop := i.isCommand = true

end Sys2Proof
end

