-- ==== Sys2Proof/Decode.lean ====
section
/-! DEFINITION. The command word of 30_encoding.md R80 to R82: the decoder, total on 32-bit words and refusing by name,
then the encoder, written from the same table, and the opcode table's mask and match rows (R106). -/

namespace Sys2Proof

/-- Why a word is illegal (30_encoding.md R82). -/
inductive IllegalWord where
  /-- Bits 31:16 are not 0. -/
  | highBits
  /-- The opcode is not in the table of R81. -/
  | opcode
  /-- The command takes no argument and `arg` is not 0. -/
  | argument
deriving DecidableEq, Repr

/-- `w[7:0]` (30_encoding.md R80). -/
def opOf (w : Word) : Byte := w.extractLsb' 0 8

/-- `w[15:8]` (30_encoding.md R80). -/
def argOf (w : Word) : Byte := w.extractLsb' 8 8

/-- `w[31:16]` (30_encoding.md R80). -/
def zeroOf (w : Word) : Half := w.extractLsb' 16 16

/-- The command named by an opcode and an argument that is checked to be 0 (30_encoding.md R82). -/
def noArg (arg : Byte) (i : Instr) : Except IllegalWord Instr :=
  if arg = 0 then .ok i else .error .argument

/-- The table of 30_encoding.md R81, read by opcode. -/
def decodeOp (op arg : Byte) : Except IllegalWord Instr :=
  match op.toNat with
  | 0x00 => noArg arg .nop
  | 0x01 => noArg arg .srst
  | 0x02 => noArg arg .ob2ib
  | 0x03 => .ok (.rb2ib arg)
  | 0x10 => noArg arg .vwrd2
  | 0x11 => noArg arg .vwrd3
  | 0x12 => noArg arg .vwwr2
  | 0x13 => noArg arg .vwwr3
  | 0x14 => .ok (.bfext arg)
  | 0x15 => .ok (.bfins arg)
  | 0x16 => .ok (.twoc arg)
  | 0x17 => noArg arg .idsplit
  | 0x18 => noArg arg .idjoin
  | 0x19 => .ok (.rdbe arg)
  | 0x1A => .ok (.wrbe arg)
  | 0x20 => noArg arg .tlvrd
  | 0x21 => noArg arg .tlvwr
  | 0x22 => noArg arg .flexdec
  | 0x23 => noArg arg .flexenc
  | 0x30 => noArg arg .asldec
  | 0x31 => noArg arg .aslenc
  | 0x40 => noArg arg .lldec
  | 0x41 => noArg arg .nldec
  | 0x42 => noArg arg .pldec
  | 0x43 => noArg arg .framedec
  | 0x44 => noArg arg .llenc
  | 0x45 => noArg arg .nlenc
  | 0x46 => noArg arg .plenc
  | 0x47 => noArg arg .frameenc
  | 0x50 => noArg arg .amahdr
  | 0x51 => .ok (.amarx arg)
  | 0x52 => .ok (.amaabt arg)
  | 0x53 => noArg arg .amatxi
  | 0x54 => noArg arg .amatxc
  | _ => .error .opcode

/-- The instruction a word written to `CMD` selects, or why the word is illegal (30_encoding.md R82). -/
def decode (w : Word) : Except IllegalWord Instr :=
  if zeroOf w ≠ 0 then .error .highBits else decodeOp (opOf w) (argOf w)

/-- The instruction the decoder reads from a table row's word of `nbits` bits, the bits above `nbits` being 0
(30_encoding.md R80: there is one length, 32 bits, and a register has no byte order, 20_memory.md R63). -/
def decodeTableWord (nbits w : Nat) : Option Instr :=
  if w % 2 ^ nbits < 2 ^ 32 then
    match decode (BitVec.ofNat 32 (w % 2 ^ nbits)) with
    | .ok i => some i
    | .error _ => none
  else none

/-- The word with `op` in bits 7:0, `arg` in bits 15:8 and 0 above (30_encoding.md R80). -/
def cmdWord (op arg : Byte) : Word := (0 : Half) ++ arg ++ op

/-- The word of a command (30_encoding.md R81); a wire-byte row has none (30_encoding.md R106). -/
def encode : Instr → Option Word
  | .nop => some (cmdWord 0x00 0)
  | .srst => some (cmdWord 0x01 0)
  | .ob2ib => some (cmdWord 0x02 0)
  | .rb2ib c => some (cmdWord 0x03 c)
  | .vwrd2 => some (cmdWord 0x10 0)
  | .vwrd3 => some (cmdWord 0x11 0)
  | .vwwr2 => some (cmdWord 0x12 0)
  | .vwwr3 => some (cmdWord 0x13 0)
  | .bfext w => some (cmdWord 0x14 w)
  | .bfins w => some (cmdWord 0x15 w)
  | .twoc n => some (cmdWord 0x16 n)
  | .idsplit => some (cmdWord 0x17 0)
  | .idjoin => some (cmdWord 0x18 0)
  | .rdbe n => some (cmdWord 0x19 n)
  | .wrbe n => some (cmdWord 0x1A n)
  | .tlvrd => some (cmdWord 0x20 0)
  | .tlvwr => some (cmdWord 0x21 0)
  | .flexdec => some (cmdWord 0x22 0)
  | .flexenc => some (cmdWord 0x23 0)
  | .asldec => some (cmdWord 0x30 0)
  | .aslenc => some (cmdWord 0x31 0)
  | .lldec => some (cmdWord 0x40 0)
  | .nldec => some (cmdWord 0x41 0)
  | .pldec => some (cmdWord 0x42 0)
  | .framedec => some (cmdWord 0x43 0)
  | .llenc => some (cmdWord 0x44 0)
  | .nlenc => some (cmdWord 0x45 0)
  | .plenc => some (cmdWord 0x46 0)
  | .frameenc => some (cmdWord 0x47 0)
  | .amahdr => some (cmdWord 0x50 0)
  | .amarx c => some (cmdWord 0x51 c)
  | .amaabt c => some (cmdWord 0x52 c)
  | .amatxi => some (cmdWord 0x53 0)
  | .amatxc => some (cmdWord 0x54 0)
  | .llFixed _ | .nlByte _ | .plByte _ | .flexTlvByte _ | .aslFlags _ | .aslVersion _ | .aslStatus _ | .aslOpaddr _
  | .amaHdr _ | .vw2Lead _ | .vw3Lead _ => none

/-- The word of a command as a raise records it in `ECMD` (60_exceptions.md R270). -/
def commandWord (i : Instr) : Word := (encode i).getD 0

/-- `mask` and `match` of the row of a command in opcode_table.json (30_encoding.md R106): "a word `w` is the command iff
`w AND mask == match`". The eight commands that take an argument leave bits 15:8 free. -/
def maskMatch : Instr → Option (Word × Word)
  | .nop => some (0xFFFFFFFF, 0x00000000)
  | .srst => some (0xFFFFFFFF, 0x00000001)
  | .ob2ib => some (0xFFFFFFFF, 0x00000002)
  | .rb2ib _ => some (0xFFFF00FF, 0x00000003)
  | .vwrd2 => some (0xFFFFFFFF, 0x00000010)
  | .vwrd3 => some (0xFFFFFFFF, 0x00000011)
  | .vwwr2 => some (0xFFFFFFFF, 0x00000012)
  | .vwwr3 => some (0xFFFFFFFF, 0x00000013)
  | .bfext _ => some (0xFFFF00FF, 0x00000014)
  | .bfins _ => some (0xFFFF00FF, 0x00000015)
  | .twoc _ => some (0xFFFF00FF, 0x00000016)
  | .idsplit => some (0xFFFFFFFF, 0x00000017)
  | .idjoin => some (0xFFFFFFFF, 0x00000018)
  | .rdbe _ => some (0xFFFF00FF, 0x00000019)
  | .wrbe _ => some (0xFFFF00FF, 0x0000001A)
  | .tlvrd => some (0xFFFFFFFF, 0x00000020)
  | .tlvwr => some (0xFFFFFFFF, 0x00000021)
  | .flexdec => some (0xFFFFFFFF, 0x00000022)
  | .flexenc => some (0xFFFFFFFF, 0x00000023)
  | .asldec => some (0xFFFFFFFF, 0x00000030)
  | .aslenc => some (0xFFFFFFFF, 0x00000031)
  | .lldec => some (0xFFFFFFFF, 0x00000040)
  | .nldec => some (0xFFFFFFFF, 0x00000041)
  | .pldec => some (0xFFFFFFFF, 0x00000042)
  | .framedec => some (0xFFFFFFFF, 0x00000043)
  | .llenc => some (0xFFFFFFFF, 0x00000044)
  | .nlenc => some (0xFFFFFFFF, 0x00000045)
  | .plenc => some (0xFFFFFFFF, 0x00000046)
  | .frameenc => some (0xFFFFFFFF, 0x00000047)
  | .amahdr => some (0xFFFFFFFF, 0x00000050)
  | .amarx _ => some (0xFFFF00FF, 0x00000051)
  | .amaabt _ => some (0xFFFF00FF, 0x00000052)
  | .amatxi => some (0xFFFFFFFF, 0x00000053)
  | .amatxc => some (0xFFFFFFFF, 0x00000054)
  | .llFixed _ | .nlByte _ | .plByte _ | .flexTlvByte _ | .aslFlags _ | .aslVersion _ | .aslStatus _ | .aslOpaddr _
  | .amaHdr _ | .vw2Lead _ | .vw3Lead _ => none

end Sys2Proof
end

