-- ==== Sys2Proof/Config.lean ====
section
/-! DEFINITION. The parameters of 00_scope.md R9, which "a model takes as arguments", their laws (R9, R10), the spec's
default configuration, and the free values: the bytes the spec leaves unspecified and the set of known Flex keys, which
has no default. The prefix functions are finite tables of (prefix bytes, length): by law (a) of R10 such a table is all a
prefix function can be on a window of finite size (log 9). -/

namespace Sys2Proof

/-- The byte buffers of 20_memory.md R60. -/
inductive BufId where
  | ibuf
  | obuf
  /-- `RBUF[c]`. -/
  | rbuf (c : Nat)
deriving DecidableEq, Repr

/-- DESIGN CHOICE (log 4), safe: the value of a byte that nothing has written since it became unspecified
(70_reset_and_hazards.md R302: "may see any byte"). The second argument counts how often the buffer's contents became
unspecified, the third is the offset. It has no body: no proof can know it. -/
opaque Config.unwrittenByte : BufId → Nat → Nat → Byte

/-- DESIGN CHOICE (log 8), safe: whether a Flex key is known where the configuration names no set, `FLEX_KNOWN_KEYS`
being `OPEN` without a default (00_scope.md R9, 91_not_in_source.md N12). It has no body. -/
opaque Config.openFlexKey : BitVec 6 → Bool

/-- A length-prefix decoder (00_scope.md R9, R10): the prefix bytes it recognises, each with the length it announces. -/
abbrev PrefixTable := List (List Byte × Nat)

/-- The inverse of a length-prefix decoder (00_scope.md R9, R10): the bytes it writes for a length. -/
abbrev PrefixEncTable := List (Nat × List Byte)

/-- The parameters of 00_scope.md R9. They are no machine state (10_state.md R21): a state carries them so that a
statement about every state is one about every configuration (log 1). -/
structure Params where
  ibufSize : Nat
  obufSize : Nat
  rbufSize : Nat
  amaNctx : Nat
  tlvMax : Nat
  /-- Width in bytes by 2-bit code, `none` reserved. -/
  vw2Width : Vector (Option Nat) 4
  /-- Width in bytes by 3-bit code, `none` reserved. -/
  vw3Width : Vector (Option Nat) 8
  fmtIsCloud : Vector Bool 4
  frameTypeAck : Nat
  frameTypeMax : Nat
  /-- Size in bytes by 3-bit code, `none` reserved. -/
  authSize : Vector (Option Nat) 8
  amaTypeCont : Nat
  /-- The set as a 64-bit mask, or `none` where the configuration names no set (`OPEN`). -/
  flexKnownKeys : Option (BitVec 64)
  /-- `none` is "absent". -/
  aslBlobPrefix : Option PrefixTable
  aslBlobPrefixEnc : Option PrefixEncTable
  aslStatusCodeBytes : Nat
  aslAadPrefix : Option PrefixTable
  aslAadPrefixEnc : Option PrefixEncTable
deriving DecidableEq, Repr

/-- A width of a variable-width field: reserved, or 1 to 4 bytes ("the value always fits a 32-bit register (`W ≤ 4`)",
and "`W` counts the leading byte", 30_encoding.md R85). -/
def widthLawful : Option Nat → Bool
  | none => true
  | some w => 1 ≤ w && w ≤ 4

/-- An authentication code size: reserved, or one of the document's six sizes (00_scope.md R9). -/
def authLawful : Option Nat → Bool
  | none => true
  | some n => [0, 2, 4, 8, 12, 16].contains n

/-- No recognised prefix starts another: law (a) of 00_scope.md R10, the answer depends only on the bytes read. -/
def prefixFree (t : PrefixTable) : Bool :=
  t.all (fun e => 1 ≤ e.1.length) && decide (t.Pairwise fun e e' => e.1.isPrefixOf e'.1 = false ∧ e'.1.isPrefixOf e.1 = false)

/-- Law (b) of 00_scope.md R10: what the inverse writes for `n` the decoder reads as `n`. -/
def prefixInverse (dec : Option PrefixTable) (enc : Option PrefixEncTable) : Bool :=
  (enc.getD []).all fun e => (dec.getD []).contains (e.2, e.1)

/-- The laws of the parameters (00_scope.md R9 "type", R10). -/
def Params.valid (p : Params) : Bool :=
  1 ≤ p.ibufSize && p.ibufSize ≤ 65535 && 1 ≤ p.obufSize && p.obufSize ≤ 65535 && 1 ≤ p.rbufSize && p.rbufSize ≤ 65535
  && 1 ≤ p.amaNctx && p.amaNctx ≤ 256 && 1 ≤ p.tlvMax && p.tlvMax ≤ 64
  && p.vw2Width.toList.all widthLawful && p.vw3Width.toList.all widthLawful
  && p.frameTypeAck ≤ 7 && p.frameTypeMax ≤ 7 && p.authSize.toList.all authLawful
  && 1 ≤ p.amaTypeCont && p.amaTypeCont ≤ 2 && 1 ≤ p.aslStatusCodeBytes && p.aslStatusCodeBytes ≤ 4
  && prefixFree (p.aslBlobPrefix.getD []) && prefixInverse p.aslBlobPrefix p.aslBlobPrefixEnc
  && prefixFree (p.aslAadPrefix.getD []) && prefixInverse p.aslAadPrefix p.aslAadPrefixEnc

/-- The defaults of 00_scope.md R9; the prefix functions are "absent by default" (92_eei_decisions.md D31, D32). -/
def Params.defaults : Params where
  ibufSize := 65535
  obufSize := 65535
  rbufSize := 65535
  amaNctx := 1
  tlvMax := 64
  vw2Width := #v[some 1, some 2, some 4, none]
  vw3Width := #v[none, some 1, some 2, some 3, some 4, none, none, none]
  fmtIsCloud := #v[true, false, false, false]
  frameTypeAck := 3
  frameTypeMax := 3
  authSize := #v[some 0, some 2, some 4, some 8, some 12, some 16, none, none]
  amaTypeCont := 1
  flexKnownKeys := none
  aslBlobPrefix := none
  aslBlobPrefixEnc := none
  aslStatusCodeBytes := 1
  aslAadPrefix := none
  aslAadPrefixEnc := none

end Sys2Proof
end

