-- ==== Sys2Proof/Machine/State.lean ====
section
/-! DEFINITION. The state of VWU (10_state.md R20: the list is exact), the host's accesses (20_memory.md R67), the causes
of a raise (60_exceptions.md R261), the reasons a step can stop, and reset (10_state.md R42, 70_reset_and_hazards.md R290). -/

namespace Sys2Proof.Machine

/-- Why the machine stops with a fault: never. "Every command word, every register value and every byte sequence has a
defined outcome (completion or a raise)" (70_reset_and_hazards.md R302), a host access outside a buffer reads 0 or is
ignored (60_exceptions.md R277), and a raise is a next state (60_exceptions.md R270, R271). Nothing raises a fault. -/
inductive Fault where
deriving DecidableEq, Repr

/-- Why the model gives an instruction no next state. -/
inductive Refusal where
  /-- An instruction whose meaning is not written yet: raised by an arm of `exec` only. Safe. -/
  | notModelled (mnemonic : String)
  /-- A wire-byte row of the opcode table: "they are not commands and no command word selects them" (30_encoding.md
  R106). Raised by the meanings of Machine/WireRows.lean; no word decodes to such a row, so no step reaches it. Safe. -/
  | notACommand (mnemonic : String)
deriving DecidableEq, Repr

/-- The error causes of 60_exceptions.md R261. -/
inductive Cause where
  | malformedField
  | invalidDiscriminant
  | unknownCommandClass
  | fragmentSequence
  | encodingConstraint
  | illegalCommand
  | badOperand
  | capacity
  | badState
  | unsupported
  | duplicateKey
deriving DecidableEq, Repr

/-- A byte buffer: the bytes written since its contents last became unspecified, by rising offset, and how often that
has happened (the model's own counter, log 4). -/
structure Buf where
  cells : List Host.Cell
  epoch : Nat
deriving DecidableEq, Repr

/-- One entry of the Flex field table: `TLVK[i]`, `TLVO[i]`, `TLVL[i]` (10_state.md R34). -/
structure TlvEntry where
  key : BitVec 6
  off : BitVec 16
  len : BitVec 8
deriving DecidableEq, Repr

/-- A reassembly context (10_state.md R36). -/
structure Ctx where
  rstate : BitVec 2
  rtotal : Half
  rlen : Half
  rsid : BitVec 4
  rtrxn : BitVec 4
  rseq : BitVec 4
  rbuf : Buf
deriving DecidableEq, Repr

/-- The fragmenter registers (10_state.md R37). -/
structure Frag where
  txstate : BitVec 1
  txoff : Half
  txend : Half
  txseq : BitVec 4
  txm : Byte
  txb0 : Byte
  txfl : BitVec 2
deriving DecidableEq, Repr

/-- One access of the host port (20_memory.md R67), or the platform's reset (70_reset_and_hazards.md R290). -/
inductive HostOp where
  | regRead (i : Nat)
  | regWrite (i : Nat) (w : Word)
  | bufRead (b : BufId) (a : Nat)
  | bufWrite (b : BufId) (a : Nat) (v : Byte)
  | platformReset
deriving DecidableEq, Repr

/-- The state of the block (10_state.md R20), with the model's own fields `params`, `hostQueue` and `hostData`. -/
structure State where
  /-- The parameters (00_scope.md R9): the model's argument, changed by no step (log 1). -/
  params : Params
  /-- Operand registers `A[0..3]` (10_state.md R23). -/
  a : Vector Word 4
  /-- Result registers `F[0..31]` (10_state.md R24). -/
  f : Vector Word 32
  /-- Presence mask (10_state.md R25). -/
  pres : Word
  /-- Flags (10_state.md R29). -/
  flg : Word
  /-- Cursor (10_state.md R26). -/
  cur : Half
  /-- Number of valid bytes of `IBUF` (10_state.md R27). -/
  ilen : Half
  /-- Number of valid bytes of `OBUF` (10_state.md R28). -/
  olen : Half
  /-- `DONE` in bit 0, `ERR` in bit 1 (10_state.md R31). -/
  status : Word
  /-- `CAUSE` (10_state.md R32). -/
  cause : Byte
  /-- `EINFO` (10_state.md R32). -/
  einfo : Word
  /-- `ECMD` (10_state.md R32). -/
  ecmd : Word
  /-- `ESTICKY` (10_state.md R33). -/
  esticky : Word
  /-- The Flex field table (10_state.md R34). -/
  tlv : Vector TlvEntry 64
  /-- Its count (10_state.md R35). -/
  tlvn : BitVec 7
  /-- The reassembly contexts, `AMA_NCTX` of them (10_state.md R36). -/
  ctxs : List Ctx
  /-- The fragmenter registers (10_state.md R37). -/
  tx : Frag
  /-- `IBUF` (10_state.md R38). -/
  ibuf : Buf
  /-- `OBUF` (10_state.md R39). -/
  obuf : Buf
  /-- The model's own: host accesses not yet performed, in program order (20_memory.md R70; log 2). -/
  hostQueue : List HostOp
  /-- The model's own: the value the last host read returned (log 3). -/
  hostData : Word
deriving DecidableEq, Repr

/-- A buffer of unspecified contents. -/
def Buf.unspecified (epoch : Nat) : Buf := { cells := [], epoch := epoch }

/-- A context in `AWAITING_FRAGMENT`: "all six registers are 0" (10_state.md R36). -/
def Ctx.idle (b : Buf) : Ctx :=
  { rstate := 0, rtotal := 0, rlen := 0, rsid := 0, rtrxn := 0, rseq := 0, rbuf := b }

/-- The fragmenter after reset (10_state.md R42). -/
def Frag.idle : Frag := { txstate := 0, txoff := 0, txend := 0, txseq := 0, txm := 0, txb0 := 0, txfl := 0 }

/-- The state after reset (10_state.md R42, 70_reset_and_hazards.md R290) in a given configuration. -/
def State.resetWith (p : Params) : State where
  params := p
  a := Vector.replicate 4 0
  f := Vector.replicate 32 0
  pres := 0
  flg := 0
  cur := 0
  ilen := 0
  olen := 0
  status := 0
  cause := 0
  einfo := 0
  ecmd := 0
  esticky := 0
  tlv := Vector.replicate 64 { key := 0, off := 0, len := 0 }
  tlvn := 0
  ctxs := List.replicate p.amaNctx (Ctx.idle (Buf.unspecified 0))
  tx := Frag.idle
  ibuf := Buf.unspecified 0
  obuf := Buf.unspecified 0
  hostQueue := []
  hostData := 0

/-- The machine right after reset, in the default configuration of 00_scope.md R9. -/
def State.reset : State := State.resetWith Params.defaults

end Sys2Proof.Machine
end

