-- ==== Sys2Proof/Machine/Flags.lean ====
section
/-! DEFINITION. The flag word `FLG` (10_state.md R29): "the bits its rule sets are 1 and all others 0". Which flags a
command sets is said by its own rule. -/

namespace Sys2Proof.Machine

/-- The flags of 10_state.md R29, by name. -/
structure FlagSet where
  encrypted : Bool := false
  noncanon : Bool := false
  unknownKey : Bool := false
  trail : Bool := false
  complete : Bool := false
  needMore : Bool := false
  last : Bool := false
deriving DecidableEq, Repr

/-- `FLG` as a register: bit 0 `ENCRYPTED`, 1 `NONCANON`, 2 `UNKNOWNKEY`, 3 `TRAIL`, 4 `COMPLETE`, 5 `NEEDMORE`, 6 `LAST`,
31:7 read as 0 (10_state.md R29). -/
def flagWord (x : FlagSet) : Word :=
  (0 : BitVec 25) ++ BitVec.ofBool x.last ++ BitVec.ofBool x.needMore ++ BitVec.ofBool x.complete
    ++ BitVec.ofBool x.trail ++ BitVec.ofBool x.unknownKey ++ BitVec.ofBool x.noncanon ++ BitVec.ofBool x.encrypted

end Sys2Proof.Machine
end

