-- ==== Sys2Proof/Machine/Ops.lean ====
section
/-! DEFINITION. The operations every command shares: bytes of the buffers (20_memory.md), the result registers
(10_state.md R24, R25), contexts (10_state.md R36), the common prologue (30_encoding.md R83), completing (10_state.md
R22) and raising (60_exceptions.md R270), which is how this machine takes an exception; there is nothing to return to
(60_exceptions.md R273). -/

namespace Sys2Proof.Machine

/-! ### Codes -/

/-- `DONE = 1`, `ERR = 0` (10_state.md R31). -/
def statusDone : Word := 1

/-- `DONE = 0`, `ERR = 1` (10_state.md R31). -/
def statusErr : Word := 2

/-- `RSTATE` 0 (10_state.md R36). -/
def awaitingFragment : BitVec 2 := 0

/-- `RSTATE` 1 (10_state.md R36). -/
def accumulating : BitVec 2 := 1

/-- `RSTATE` 2 (10_state.md R36). -/
def ctxComplete : BitVec 2 := 2

/-- `TXSTATE` 0 (10_state.md R37). -/
def txIdle : BitVec 1 := 0

/-- `TXSTATE` 1 (10_state.md R37). -/
def txSending : BitVec 1 := 1

/-- The numeric code of a cause (60_exceptions.md R261). -/
def causeCode : Cause → Byte
  | .malformedField => 0x01
  | .invalidDiscriminant => 0x02
  | .unknownCommandClass => 0x03
  | .fragmentSequence => 0x04
  | .encodingConstraint => 0x05
  | .illegalCommand => 0x10
  | .badOperand => 0x11
  | .capacity => 0x12
  | .badState => 0x13
  | .unsupported => 0x14
  | .duplicateKey => 0x15

/-! ### Raises -/

/-- `raise C(info)` (00_scope.md R13): the cause and the information word of a command that raises. -/
structure Raise where
  cause : Cause
  info : Word
deriving DecidableEq, Repr

/-- What a piece of pseudocode gives: a raise, or a value. -/
abbrev Result (α : Type) := Except Raise α

/-- `raise C(info)` as the end of a piece of pseudocode (00_scope.md R13). -/
def raising {α : Type} (c : Cause) (info : Nat) : Result α := .error { cause := c, info := BitVec.ofNat 32 info }

/-- `if bad then raise C(info)`. -/
def raiseIf (bad : Bool) (c : Cause) (info : Nat) : Result Unit := if bad then raising c info else .ok ()

/-- `Need(p, n, end)` (00_scope.md R13). -/
def need (p n stop : Nat) : Result Unit := raiseIf (decide (p + n > stop)) .malformedField p

/-! ### Bytes of a buffer -/

/-- The byte listed at an offset, if any. -/
def cellAt : List Host.Cell → Nat → Option Byte
  | [], _ => none
  | (k, v) :: rest, a => if k = a then some v else cellAt rest a

/-- List a byte at an offset, keeping the offsets strictly rising. -/
def cellSet : List Host.Cell → Nat → Byte → List Host.Cell
  | [], a, v => [(a, v)]
  | (k, x) :: rest, a, v =>
    if a < k then (a, v) :: (k, x) :: rest else if a = k then (a, v) :: rest else (k, x) :: cellSet rest a v

/-- The byte of a buffer at an offset. An unlisted byte is a free value (70_reset_and_hazards.md R302: "any value";
log 4). -/
def bufByte (id : BufId) (b : Buf) (a : Nat) : Byte := (cellAt b.cells a).getD (Config.unwrittenByte id b.epoch a)

/-- Store one byte. -/
def bufSet (b : Buf) (a : Nat) (v : Byte) : Buf := { b with cells := cellSet b.cells a v }

/-- `MemRead(S, a, n)` (00_scope.md R13): the bytes at offsets `a .. a + n - 1`. -/
def bufRead (id : BufId) (b : Buf) (a n : Nat) : List Byte := (List.range n).map fun i => bufByte id b (a + i)

/-- `MemWrite(S, a, n, bs)` (00_scope.md R13): store `bs` from offset `a` on. -/
def bufWrite : Buf → Nat → List Byte → Buf
  | b, _, [] => b
  | b, a, v :: vs => bufWrite (bufSet b a v) (a + 1) vs

/-- Every byte becomes unspecified (44_ama.md R228, 70_reset_and_hazards.md R290; log 4, 5). -/
def bufForget (b : Buf) : Buf := Buf.unspecified (b.epoch + 1)

/-- Every byte not written becomes unspecified anew (10_state.md R36: bytes of `RBUF[c]` at offsets `≥ RLEN[c]`; log 5). -/
def bufRefresh (b : Buf) : Buf := { b with epoch := b.epoch + 1 }

/-- The byte of `IBUF` at an offset. -/
def ibufByte (s : State) (a : Nat) : Byte := bufByte .ibuf s.ibuf a

/-- The byte of `OBUF` at an offset. -/
def obufByte (s : State) (a : Nat) : Byte := bufByte .obuf s.obuf a

/-- `MemRead(IBUF, a, n)` (00_scope.md R13). -/
def ibufBytes (s : State) (a n : Nat) : List Byte := bufRead .ibuf s.ibuf a n

/-- `MemRead(OBUF, a, n)` (00_scope.md R13). -/
def obufBytes (s : State) (a n : Nat) : List Byte := bufRead .obuf s.obuf a n

/-- `Append(bs)` (00_scope.md R13), the raise `Capacity(OLEN)` included. -/
def append (s : State) (bs : List Byte) : Result State :=
  if s.olen.toNat + bs.length > s.params.obufSize then raising .capacity s.olen.toNat
  else .ok { s with obuf := bufWrite s.obuf s.olen.toNat bs, olen := BitVec.ofNat 16 (s.olen.toNat + bs.length) }

/-! ### Registers -/

/-- `A[i]` as a number. -/
def aVal (s : State) (i : Fin 4) : Nat := s.a[i].toNat

/-- `F[i]` as a number. -/
def fVal (s : State) (i : Fin 32) : Nat := s.f[i].toNat

/-- Whether `PRES[i] = 1`. -/
def presBit (s : State) (i : Fin 32) : Bool := s.pres.getLsbD i.val

/-- The fields a decode reports as present: result register and value. -/
abbrev Fields := List (Fin 32 × Nat)

/-- `F` after a decode: the value of each present field, 0 in every other register (10_state.md R24). -/
def resultRegs (fs : Fields) : Vector Word 32 := Vector.ofFn fun i => BitVec.ofNat 32 ((fs.lookup i).getD 0)

/-- `PRES` after a decode: 1 for each present field, 0 for every other bit (10_state.md R25). -/
def presMask : Fields → Word
  | [] => 0
  | (i, _) :: rest => (1#32 <<< i.val) ||| presMask rest

/-- What a decode command computes: the present fields, the new cursor, the flags. -/
structure Decoded where
  fields : Fields
  cur : Nat
  flags : FlagSet
deriving DecidableEq, Repr

/-- The writes of a decode command (10_state.md R24, R25, R26, R29). -/
def writeDecoded (s : State) (d : Decoded) : State :=
  { s with f := resultRegs d.fields, pres := presMask d.fields, cur := BitVec.ofNat 16 d.cur, flg := flagWord d.flags }

/-- The writes of an encode command that appends `bs` and sets the flags `x` (10_state.md R28, R29). -/
def writeEncoded (s : State) (bs : List Byte) (x : FlagSet) : Result State := do
  let t ← append s bs
  pure { t with flg := flagWord x }

/-! ### Contexts -/

/-- Context `c`. The prologue has tested `c < AMA_NCTX`; outside the list it reads as an idle context, which no state of
`AMA_NCTX` contexts can show. -/
def ctxAt (s : State) (c : Nat) : Ctx := s.ctxs.getD c (Ctx.idle (Buf.unspecified 0))

/-- Replace context `c`. -/
def setCtx (s : State) (c : Nat) (x : Ctx) : State := { s with ctxs := s.ctxs.set c x }

/-- A context aborted or discarded: `AWAITING_FRAGMENT`, registers 0, its bytes unspecified (44_ama.md R228, R229). -/
def idleCtx (x : Ctx) : Ctx := Ctx.idle (bufForget x.rbuf)

/-- Abort context `c` (44_ama.md R228). No other context is affected. -/
def abortCtx (s : State) (c : Nat) : State := setCtx s c (idleCtx (ctxAt s c))

/-- `MemRead(RBUF[c], a, n)` (00_scope.md R13). -/
def rbufBytes (s : State) (c a n : Nat) : List Byte := bufRead (.rbuf c) (ctxAt s c).rbuf a n

/-! ### The common prologue -/

/-- Column `I` of 30_encoding.md R81: the command reads `IBUF` and performs the input check. -/
def readsIbuf : Instr → Bool
  | .vwrd2 | .vwrd3 | .bfext _ | .rdbe _ | .tlvrd | .tlvwr | .flexdec | .flexenc | .asldec | .aslenc => true
  | .lldec | .nldec | .pldec | .framedec | .nlenc | .frameenc | .amahdr | .amarx _ | .amatxi | .amatxc => true
  | .nop | .srst | .ob2ib | .rb2ib _ | .vwwr2 | .vwwr3 | .bfins _ | .twoc _ | .idsplit | .idjoin | .wrbe _ => false
  | .llenc | .plenc | .amaabt _ => false
  | .llFixed _ | .nlByte _ | .plByte _ | .flexTlvByte _ | .aslFlags _ | .aslVersion _ | .aslStatus _ | .aslOpaddr _
  | .amaHdr _ | .vw2Lead _ | .vw3Lead _ => false

/-- Column `O` of 30_encoding.md R81: the command writes `OBUF` and performs the output check. -/
def writesObuf : Instr → Bool
  | .vwwr2 | .vwwr3 | .bfins _ | .wrbe _ | .tlvwr | .flexenc | .aslenc => true
  | .llenc | .nlenc | .plenc | .frameenc | .amatxi | .amatxc => true
  | .nop | .srst | .ob2ib | .rb2ib _ | .vwrd2 | .vwrd3 | .bfext _ | .twoc _ | .idsplit | .idjoin | .rdbe _ => false
  | .tlvrd | .flexdec | .asldec | .lldec | .nldec | .pldec | .framedec | .amahdr | .amarx _ | .amaabt _ => false
  | .llFixed _ | .nlByte _ | .plByte _ | .flexTlvByte _ | .aslFlags _ | .aslVersion _ | .aslStatus _ | .aslOpaddr _
  | .amaHdr _ | .vw2Lead _ | .vw3Lead _ => false

/-- `arg` and whether it is in the range its command states (30_encoding.md R81, R82): a width or number of bits 1 to 32,
a number of bytes 1 to 4, a context below `AMA_NCTX`. -/
def argInRange (p : Params) : Instr → Bool
  | .bfext w | .bfins w | .twoc w => decide (1 ≤ w.toNat ∧ w.toNat ≤ 32)
  | .rdbe n | .wrbe n => decide (1 ≤ n.toNat ∧ n.toNat ≤ 4)
  | .rb2ib c | .amarx c | .amaabt c => decide (c.toNat < p.amaNctx)
  | .nop | .srst | .ob2ib | .vwrd2 | .vwrd3 | .vwwr2 | .vwwr3 | .idsplit | .idjoin => true
  | .tlvrd | .tlvwr | .flexdec | .flexenc | .asldec | .aslenc => true
  | .lldec | .nldec | .pldec | .framedec | .llenc | .nlenc | .plenc | .frameenc => true
  | .amahdr | .amatxi | .amatxc => true
  | .llFixed _ | .nlByte _ | .plByte _ | .flexTlvByte _ | .aslFlags _ | .aslVersion _ | .aslStatus _ | .aslOpaddr _
  | .amaHdr _ | .vw2Lead _ | .vw3Lead _ => true

/-- `CUR ≤ ILEN` and `ILEN ≤ IBUF_SIZE` (30_encoding.md R83 (3)). -/
def inputOk (s : State) : Bool := decide (s.cur.toNat ≤ s.ilen.toNat ∧ s.ilen.toNat ≤ s.params.ibufSize)

/-- `OLEN ≤ OBUF_SIZE` (30_encoding.md R83 (4)). -/
def outputOk (s : State) : Bool := decide (s.olen.toNat ≤ s.params.obufSize)

/-- Tests (2) to (4) of the common prologue, in that order (30_encoding.md R83); test (1), legality, is the decoder's. -/
def prologue (i : Instr) (s : State) : Result Unit := do
  raiseIf (!argInRange s.params i) .badOperand (argOf (commandWord i)).toNat
  raiseIf (readsIbuf i && !inputOk s) .badOperand s.cur.toNat
  raiseIf (writesObuf i && !outputOk s) .badOperand s.olen.toNat

/-! ### Completing and raising -/

/-- A raise by the command whose word is `w`: TAKING AN EXCEPTION on this machine (60_exceptions.md R270). -/
def takeRaise (s : State) (w : Word) (r : Raise) : State :=
  { s with
    cause := causeCode r.cause
    einfo := r.info
    ecmd := w
    esticky := s.esticky ||| (1#32 <<< (causeCode r.cause).toNat)
    status := statusErr }

/-- The end of a command that completes (10_state.md R22 (a)). -/
def finish (t : State) : State := { t with status := statusDone }

/-- One command (10_state.md R22, 30_encoding.md R83): the prologue, then its own pseudocode `body`, evaluated on the
state at its start. A raise of the body leaves `onRaise s`, which is `s` for every command but `AMARX` (44_ama.md R228),
and writes the error registers. -/
def runCommand (i : Instr) (s : State) (onRaise : State → State) (body : Result State) :
    Host.Outcome State Fault Refusal :=
  match prologue i s with
  | .error r => .next (takeRaise s (commandWord i) r)
  | .ok _ =>
    match body with
    | .error r => .next (takeRaise (onRaise s) (commandWord i) r)
    | .ok t => .next (finish t)

/-- A command whose raise changes nothing but the error registers (60_exceptions.md R270). -/
def run (i : Instr) (s : State) (body : Result State) : Host.Outcome State Fault Refusal := runCommand i s id body

/-- A decode command (30_encoding.md R81, kind `dec`). -/
def runDecode (i : Instr) (s : State) (body : Result Decoded) : Host.Outcome State Fault Refusal :=
  run i s (do let d ← body; pure (writeDecoded s d))

/-- An encode command that appends its bytes and clears `FLG` (30_encoding.md R81, kind `enc`; 40_primitives.md R120). -/
def runEncode (i : Instr) (s : State) (body : Result (List Byte)) : Host.Outcome State Fault Refusal :=
  run i s (do let bs ← body; writeEncoded s bs {})

end Sys2Proof.Machine
end

