-- ==== Sys2Proof/Machine/Operands.lean ====
section
/-! DEFINITION. The operand forms: big-endian numbers (00_scope.md R12), slices (00_scope.md R15), width-checked
registers (`Fit`, 42_asl.md R173), bits of a buffer (40_primitives.md R126), variable-width fields (30_encoding.md R85 to
R87), extended addresses (R91), length-prefixed blobs (42_asl.md R170). -/

namespace Sys2Proof.Machine

/-! ### Numbers -/

/-- `BE(bs)` (00_scope.md R12). -/
def beNat (bs : List Byte) : Nat := bs.foldl (fun acc b => 256 * acc + b.toNat) 0

/-- `bytesBE(v, n)` (00_scope.md R12). -/
def bytesBE (v : Nat) : Nat → List Byte
  | 0 => []
  | n + 1 => bytesBE (v / 256) n ++ [BitVec.ofNat 8 v]

/-- `sext_n(u)` as a number: the 32-bit two's-complement image of an `n`-bit `u` (00_scope.md R12). -/
def sext32 (n u : Nat) : Nat := if u.testBit (n - 1) then u + 2 ^ 32 - 2 ^ n else u

/-- `MinBytes(x)` (42_asl.md R170). -/
def minBytes (x : Nat) : Nat := if x < 2 ^ 8 then 1 else if x < 2 ^ 16 then 2 else if x < 2 ^ 24 then 3 else 4

/-- The bit of the buffer byte `b` that bit position `q` names: bit `7 - (q mod 8)` (40_primitives.md R126). -/
def bitIndex (q : Nat) : Nat := 7 - q % 8

/-- The number whose binary digits are the given bits, the first the most significant (40_primitives.md R126). -/
def bitsNat (bs : List Bool) : Nat := bs.foldl (fun acc b => 2 * acc + b.toNat) 0

/-- A byte with bit `n` set to `v`. -/
def setBit (b : Byte) (n : Nat) (v : Bool) : Byte := if v then b ||| (1#8 <<< n) else b &&& ~~~(1#8 <<< n)

/-! ### Slices and fixed-width operands -/

/-- The bytes of a slice operand of an encode command, which must lie in the valid bytes (00_scope.md R15):
`if o + n > ILEN then raise BadOperand(info)`. -/
def slice (s : State) (o n info : Nat) : Result (List Byte) :=
  if o + n > s.ilen.toNat then raising .badOperand info else .ok (ibufBytes s o n)

/-- `Fit(i, n)`: `if F[i] >= 2^n then raise EncodingConstraint(i)` (42_asl.md R173, 43_frame.md R196). -/
def fit (s : State) (i : Fin 32) (n : Nat) : Result Unit :=
  raiseIf (decide (fVal s i ≥ 2 ^ n)) .encodingConstraint i.val

/-! ### Variable-width fields -/

/-- The two variable-width patterns (30_encoding.md R85): sequence numbers and addresses. -/
inductive VwKind where
  | seq2
  | addr3
deriving DecidableEq, Repr

/-- `k`, the number of code bits. -/
def vwBits : VwKind → Nat
  | .seq2 => 2
  | .addr3 => 3

/-- `VWk_WIDTH(code)` (00_scope.md R9), `none` for a reserved code. -/
def vwWidth (p : Params) (k : VwKind) (code : Nat) : Option Nat :=
  match k with
  | .seq2 => p.vw2Width[code]?.getD none
  | .addr3 => p.vw3Width[code]?.getD none

/-- A variable-width field as read: value with the code bits cleared, width, code. -/
structure VwField where
  value : Nat
  width : Nat
  code : Nat
deriving DecidableEq, Repr

/-- `VWDecode(k, p, end)` (30_encoding.md R85). -/
def vwDecode (s : State) (k : VwKind) (p stop : Nat) : Result VwField := do
  need p 1 stop
  let code := (ibufByte s p).toNat / 2 ^ (8 - vwBits k)
  match vwWidth s.params k code with
  | none => raising .invalidDiscriminant p
  | some w => do
    need p w stop
    pure { value := beNat (ibufBytes s p w) % 2 ^ (8 * w - vwBits k), width := w, code := code }

/-- The width classes that hold `v`, as (width, code) by rising code: `C` of 30_encoding.md R86. -/
def vwClasses (p : Params) (k : VwKind) (v : Nat) : List (Nat × Nat) :=
  (List.range (2 ^ vwBits k)).filterMap fun c =>
    match vwWidth p k c with
    | none => none
    | some w => if v < 2 ^ (8 * w - vwBits k) then some (w, c) else none

/-- The member of the smallest width; among equals, the first, which has the smallest code (30_encoding.md R86). -/
def narrowest : List (Nat × Nat) → Option (Nat × Nat)
  | [] => none
  | x :: xs =>
    match narrowest xs with
    | none => some x
    | some y => if y.1 < x.1 then some y else some x

/-- `VWEncode(k, v)` (30_encoding.md R86). -/
def vwEncode (p : Params) (k : VwKind) (v : Nat) : Result (List Byte) :=
  match narrowest (vwClasses p k v) with
  | none => raising .encodingConstraint v
  | some (w, c) => .ok (bytesBE (c * 2 ^ (8 * w - vwBits k) + v) w)

/-- `VWCanon(k, val, W)` (30_encoding.md R87 (c)). -/
def vwCanon (p : Params) (k : VwKind) (v w : Nat) : Bool :=
  match vwEncode p k v with
  | .ok bs => bs.length == w
  | .error _ => false

/-! ### Addresses and length-prefixed blobs -/

/-- `AddrDecode(addr_enc, p, end)` (30_encoding.md R91): the address and its extended width. -/
def addrDecode (s : State) (addrEnc p stop : Nat) : Result (Nat × Nat) :=
  if addrEnc ≤ 0xB then .ok (addrEnc, 0)
  else do
    need p (addrEnc - 0xB) stop
    pure (beNat (ibufBytes s p (addrEnc - 0xB)), addrEnc - 0xB)

/-- The answer of a prefix function on the bytes of the window: prefix length and announced length (00_scope.md R9). -/
def prefixRead : PrefixTable → List Byte → Option (Nat × Nat)
  | [], _ => none
  | (pre, n) :: rest, bs => if pre.isPrefixOf bs then some (pre.length, n) else prefixRead rest bs

/-- The answer of an inverse prefix function (00_scope.md R9). -/
def prefixWrite : PrefixEncTable → Nat → Option (List Byte)
  | [], _ => none
  | (m, pre) :: rest, n => if m = n then some pre else prefixWrite rest n

/-- A length-prefixed blob as located in `IBUF`. -/
structure Located where
  off : Nat
  len : Nat
  next : Nat
deriving DecidableEq, Repr

/-- `LenPrefixed(PFX, p)` (42_asl.md R170). -/
def lenPrefixed (s : State) (pfx : Option PrefixTable) (p : Nat) : Result Located :=
  match pfx with
  | none => raising .unsupported p
  | some t =>
    match prefixRead t (ibufBytes s p (s.ilen.toNat - p)) with
    | none => raising .malformedField p
    | some (k, n) => do
      need (p + k) n s.ilen.toNat
      pure { off := p + k, len := n, next := p + k + n }

/-- The encoding of a blob operand held in `F[o]`, `F[l]` (42_asl.md R173): its prefix, then its bytes. -/
def lenPrefixedEnc (s : State) (pfx : Option PrefixEncTable) (o l : Fin 32) : Result (List Byte) :=
  match pfx with
  | none => raising .unsupported o.val
  | some t => do
    let bs ← slice s (fVal s o) (fVal s l) o.val
    match prefixWrite t (fVal s l) with
    | none => raising .encodingConstraint l.val
    | some pre => pure (pre ++ bs)

/-- A piece of a header as parsed: its present fields, the offset after it, and whether it held a non-canonical field. -/
structure Parsed where
  fields : Fields
  next : Nat
  noncanon : Bool := false
deriving DecidableEq, Repr

/-- A piece that is there only if its gate is set (42_asl.md "Each optional block's presence is gated strictly by its
corresponding flag bit"). -/
def gated (g : Bool) (p : Nat) (m : Result Parsed) : Result Parsed := if g then m else .ok { fields := [], next := p }

/-- The bytes of an optional piece of an encoding. -/
def gatedBytes (g : Bool) (m : Result (List Byte)) : Result (List Byte) := if g then m else .ok []

/-- A slice `(off, len)` reported in two registers, absent when empty (00_scope.md R15, 10_state.md R25). -/
def sliceFields (o l : Fin 32) (off len : Nat) : Fields := if len > 0 then [(o, off), (l, len)] else []

end Sys2Proof.Machine
end

