-- ==== Sys2Proof/Machine/Wire.lean ====
section
/-! DEFINITION. The bit-packed wire formats of 30_encoding.md R88 to R97 (the `WIRE8` and `WIRE16` rows of
opcode_table.json, R106): each format's fields, taken from its bits and put back with every pad bit 0 (R84). -/

namespace Sys2Proof.Machine

/-- Link-layer fixed part (30_encoding.md R88): row `LL_FIXED`. -/
structure LinkFixed where
  frameType : BitVec 3
  protocolVersion : BitVec 4
  srcFormat : BitVec 2
  dstFormat : BitVec 2
  ackReq : BitVec 1
  broadcastAck : BitVec 1
deriving DecidableEq, Repr

/-- 15:13, 12:9, 8:7, 6:5, 4, 3; 2:0 is pad (30_encoding.md R88). -/
def linkFixedOf (h : BitVec 16) : LinkFixed where
  frameType := h.extractLsb' 13 3
  protocolVersion := h.extractLsb' 9 4
  srcFormat := h.extractLsb' 7 2
  dstFormat := h.extractLsb' 5 2
  ackReq := h.extractLsb' 4 1
  broadcastAck := h.extractLsb' 3 1

/-- The word of a link-layer fixed part (30_encoding.md R88, 43_frame.md R196). -/
def linkFixedBits (x : LinkFixed) : BitVec 16 :=
  x.frameType ++ x.protocolVersion ++ x.srcFormat ++ x.dstFormat ++ x.ackReq ++ x.broadcastAck ++ (0 : BitVec 3)

/-- Network-layer byte (30_encoding.md R89): row `NL_BYTE`. -/
structure NetByte where
  isFragment : BitVec 1
  framePldType : BitVec 1
  encrEna : BitVec 1
  authCode : BitVec 3
deriving DecidableEq, Repr

/-- 7, 6, 5, 4:2; 1:0 is pad (30_encoding.md R89). -/
def netByteOf (n : Byte) : NetByte where
  isFragment := n.extractLsb' 7 1
  framePldType := n.extractLsb' 6 1
  encrEna := n.extractLsb' 5 1
  authCode := n.extractLsb' 2 3

/-- The byte of a network-layer header (30_encoding.md R89). -/
def netByteBits (x : NetByte) : Byte := x.isFragment ++ x.framePldType ++ x.encrEna ++ x.authCode ++ (0 : BitVec 2)

/-- Presentation-layer byte (30_encoding.md R90): row `PL_BYTE`. -/
structure PresByte where
  opc : BitVec 2
  seqnInc : BitVec 1
  rspReq : BitVec 1
  addrEnc : BitVec 4
deriving DecidableEq, Repr

/-- 7:6, 5, 4, 3:0 (30_encoding.md R90). -/
def presByteOf (q : Byte) : PresByte where
  opc := q.extractLsb' 6 2
  seqnInc := q.extractLsb' 5 1
  rspReq := q.extractLsb' 4 1
  addrEnc := q.extractLsb' 0 4

/-- The byte of a presentation-layer header (30_encoding.md R90). -/
def presByteBits (x : PresByte) : Byte := x.opc ++ x.seqnInc ++ x.rspReq ++ x.addrEnc

/-- Flex header-field byte (30_encoding.md R93): row `FLEX_TLV_BYTE`. -/
structure TlvByte where
  lengthClass : BitVec 2
  key : BitVec 6
deriving DecidableEq, Repr

/-- 7:6, 5:0 (30_encoding.md R93). -/
def tlvByteOf (t : Byte) : TlvByte where
  lengthClass := t.extractLsb' 6 2
  key := t.extractLsb' 0 6

/-- The byte of a Flex header field (30_encoding.md R93). -/
def tlvByteBits (x : TlvByte) : Byte := x.lengthClass ++ x.key

/-- ASL flag byte (30_encoding.md R94): row `ASL_FLAGS`. -/
structure AslFlagByte where
  versionInc : BitVec 1
  respReq : BitVec 1
  seqnInc : BitVec 1
  appEncEna : BitVec 1
  statusHdrInc : BitVec 1
  nwDataBlobInc : BitVec 1
deriving DecidableEq, Repr

/-- 7, 6, 5, 4, 3, 2; 1:0 is not described (30_encoding.md R94). -/
def aslFlagsOf (g : Byte) : AslFlagByte where
  versionInc := g.extractLsb' 7 1
  respReq := g.extractLsb' 6 1
  seqnInc := g.extractLsb' 5 1
  appEncEna := g.extractLsb' 4 1
  statusHdrInc := g.extractLsb' 3 1
  nwDataBlobInc := g.extractLsb' 2 1

/-- The ASL flag byte (30_encoding.md R94). -/
def aslFlagsBits (x : AslFlagByte) : Byte :=
  x.versionInc ++ x.respReq ++ x.seqnInc ++ x.appEncEna ++ x.statusHdrInc ++ x.nwDataBlobInc ++ (0 : BitVec 2)

/-- ASL version byte (30_encoding.md R95): row `ASL_VERSION`. -/
structure AslVersionByte where
  version : BitVec 2
  classMajorMinor : BitVec 6
deriving DecidableEq, Repr

/-- 7:6, 5:0 (30_encoding.md R95). -/
def aslVersionOf (v : Byte) : AslVersionByte where
  version := v.extractLsb' 6 2
  classMajorMinor := v.extractLsb' 0 6

/-- The ASL version byte (30_encoding.md R95). -/
def aslVersionBits (x : AslVersionByte) : Byte := x.version ++ x.classMajorMinor

/-- ASL status byte (30_encoding.md R95): row `ASL_STATUS`. -/
structure AslStatusByte where
  statusCodeInc : BitVec 1
  additionalAppDataInc : BitVec 1
deriving DecidableEq, Repr

/-- 7, 6; 5:0 is pad (30_encoding.md R95). -/
def aslStatusOf (v : Byte) : AslStatusByte where
  statusCodeInc := v.extractLsb' 7 1
  additionalAppDataInc := v.extractLsb' 6 1

/-- The ASL status byte (30_encoding.md R95). -/
def aslStatusBits (x : AslStatusByte) : Byte := x.statusCodeInc ++ x.additionalAppDataInc ++ (0 : BitVec 6)

/-- ASL opcode/address byte (30_encoding.md R96): row `ASL_OPADDR`. -/
structure AslOpaddrByte where
  opc : BitVec 2
  ext : BitVec 1
  cf : BitVec 2
  idf : BitVec 2
deriving DecidableEq, Repr

/-- 7:6, 4, 3:2, 1:0; 5 is pad (30_encoding.md R96). -/
def aslOpaddrOf (z : Byte) : AslOpaddrByte where
  opc := z.extractLsb' 6 2
  ext := z.extractLsb' 4 1
  cf := z.extractLsb' 2 2
  idf := z.extractLsb' 0 2

/-- The ASL opcode/address byte (30_encoding.md R96). -/
def aslOpaddrBits (x : AslOpaddrByte) : Byte := x.opc ++ (0 : BitVec 1) ++ x.ext ++ x.cf ++ x.idf

/-- AMA fragment header (30_encoding.md R97): row `AMA_HDR`. -/
structure AmaHeader where
  streamId : BitVec 4
  trxn : BitVec 4
  seq : BitVec 4
  type : BitVec 2
  ack : BitVec 1
  ext : BitVec 1
deriving DecidableEq, Repr

/-- Byte 0 is bits 15:8: 15:12, 11:8, 7:4, 3:2, 1, 0 (30_encoding.md R97). -/
def amaHeaderOf (h : BitVec 16) : AmaHeader where
  streamId := h.extractLsb' 12 4
  trxn := h.extractLsb' 8 4
  seq := h.extractLsb' 4 4
  type := h.extractLsb' 2 2
  ack := h.extractLsb' 1 1
  ext := h.extractLsb' 0 1

/-- The two bytes of an AMA fragment header as a big-endian word (30_encoding.md R97). -/
def amaHeaderBits (x : AmaHeader) : BitVec 16 := x.streamId ++ x.trxn ++ x.seq ++ x.type ++ x.ack ++ x.ext

end Sys2Proof.Machine
end

