-- ==== Sys2Proof/Machine/Ama.lean ====
section
/-! DEFINITION. The AMA fragment codec, the reassembly state machine and the fragmenter (44_ama.md): `AMAHDR`, `AMARX`,
`AMAABT`, `AMATXI`, `AMATXC`. -/

namespace Sys2Proof.Machine

/-- A fragment as parsed (44_ama.md R220): the header, `total_trxn_len` (0 for a non-initial fragment), `pkt_len` and the
offset of the payload. -/
structure Fragment where
  header : AmaHeader
  total : Nat
  pktLen : Nat
  poff : Nat
deriving DecidableEq, Repr

/-- `AmaParse(base)` (44_ama.md R220), its checks "in exactly this order". -/
def amaParse (s : State) (base : Nat) : Result Fragment := do
  let ilen := s.ilen.toNat
  raiseIf (decide (ilen - base ≤ 2)) .malformedField base
  let h := amaHeaderOf (ibufByte s base ++ ibufByte s (base + 1))
  raiseIf (decide (h.type = 3)) .invalidDiscriminant (base + 1)
  raiseIf (decide (h.type = 0 ∧ ilen - base ≤ 5)) .malformedField base
  let total := if h.type = 0 then beNat (ibufBytes s (base + 2) 2) else 0
  let lenoff := if h.type = 0 then base + 4 else base + 2
  let pl := (ibufByte s lenoff).toNat
  raiseIf (decide (lenoff + 1 + pl > ilen)) .malformedField lenoff
  pure { header := h, total := total, pktLen := pl, poff := lenoff + 1 }

/-- `F[0..9]` (44_ama.md R221). -/
def fragmentFields (x : Fragment) : Fields :=
  [(0, x.header.streamId.toNat), (1, x.header.trxn.toNat), (2, x.header.seq.toNat), (3, x.header.type.toNat),
    (4, x.header.ack.toNat), (5, x.header.ext.toNat)]
    ++ (if x.header.type = 0 then [(6, x.total)] else []) ++ [(7, x.pktLen)] ++ sliceFields 8 9 x.poff x.pktLen

/-- `AMAHDR` (44_ama.md R222): no context is touched. -/
def execAmahdr (s : State) : Host.Outcome State Fault Refusal :=
  runDecode .amahdr s (do
    let x ← amaParse s s.cur.toNat
    pure {
      fields := fragmentFields x
      cur := x.poff
      flags := { trail := decide (x.poff + x.pktLen < s.ilen.toNat) } })

/-- The context after an INITIAL fragment, accepted in every state (44_ama.md R223, R225). -/
def ctxInitial (s : State) (x : Ctx) (fr : Fragment) : Result Ctx := do
  raiseIf (decide (fr.total > s.params.rbufSize)) .capacity (s.cur.toNat + 2)
  raiseIf (decide (fr.pktLen > fr.total)) .fragmentSequence (s.cur.toNat + 4)
  pure {
    rstate := if fr.pktLen = fr.total then ctxComplete else accumulating
    rtotal := BitVec.ofNat 16 fr.total
    rlen := BitVec.ofNat 16 fr.pktLen
    rsid := fr.header.streamId
    rtrxn := fr.header.trxn
    rseq := fr.header.seq
    rbuf := bufWrite (bufForget x.rbuf) 0 (ibufBytes s fr.poff fr.pktLen) }

/-- The context after a non-initial fragment (44_ama.md R223, R226). -/
def ctxAppend (s : State) (x : Ctx) (fr : Fragment) : Result Ctx := do
  raiseIf (decide (x.rstate ≠ accumulating)) .fragmentSequence s.cur.toNat
  raiseIf (decide (x.rlen.toNat + fr.pktLen > x.rtotal.toNat)) .fragmentSequence (s.cur.toNat + 2)
  pure { x with
    rstate := if x.rlen.toNat + fr.pktLen = x.rtotal.toNat then ctxComplete else accumulating
    rlen := BitVec.ofNat 16 (x.rlen.toNat + fr.pktLen)
    rseq := fr.header.seq
    rbuf := bufWrite (bufRefresh x.rbuf) x.rlen.toNat (ibufBytes s fr.poff fr.pktLen) }

/-- The body of `AMARX c` (44_ama.md R223). -/
def amaReceive (c : Nat) (s : State) : Result State := do
  let fr ← amaParse s s.cur.toNat
  let x ← if fr.header.type = 0 then ctxInitial s (ctxAt s c) fr else ctxAppend s (ctxAt s c) fr
  let done := decide (x.rlen = x.rtotal)
  pure (writeDecoded (setCtx s c x) {
    fields := fragmentFields fr ++ [(10, done.toNat), (11, x.rlen.toNat), (12, x.rtotal.toNat)]
    cur := s.ilen.toNat
    flags := {
      complete := done
      needMore := !done
      trail := decide (fr.poff + fr.pktLen < s.ilen.toNat) } })

/-- `AMARX c` (44_ama.md R223): a raise after the prologue aborts context `c` (44_ama.md R228). -/
def execAmarx (c : BitVec 8) (s : State) : Host.Outcome State Fault Refusal :=
  runCommand (.amarx c) s (fun t => abortCtx t c.toNat) (amaReceive c.toNat s)

/-- `AMAABT c` (44_ama.md R229). -/
def execAmaabt (c : BitVec 8) (s : State) : Host.Outcome State Fault Refusal :=
  run (.amaabt c) s (.ok { abortCtx s c.toNat with flg := 0 })

/-- `AMATXI` (44_ama.md R232). -/
def execAmatxi (s : State) : Host.Outcome State Fault Refusal :=
  run .amatxi s (do
    let len := s.ilen.toNat - s.cur.toNat
    let m := aVal s 0
    raiseIf (decide (m = 0 ∨ m > 255)) .badOperand m
    raiseIf (decide (aVal s 1 ≥ 256)) .encodingConstraint 1
    raiseIf (decide (aVal s 2 ≥ 4)) .encodingConstraint 2
    raiseIf (decide (len = 0)) .encodingConstraint 0
    let n := min len m
    let t ← writeEncoded s
      ([BitVec.ofNat 8 (aVal s 1), BitVec.ofNat 8 (aVal s 2)] ++ bytesBE len 2 ++ [BitVec.ofNat 8 n]
        ++ ibufBytes s s.cur.toNat n)
      { last := decide (n = len) }
    pure { t with
      tx := {
        txstate := if n = len then txIdle else txSending
        txoff := BitVec.ofNat 16 (s.cur.toNat + n)
        txend := s.ilen
        txseq := 1
        txm := BitVec.ofNat 8 m
        txb0 := BitVec.ofNat 8 (aVal s 1)
        txfl := BitVec.ofNat 2 (aVal s 2) } })

/-- `AMATXC` (44_ama.md R233). "The window registers `CUR`, `ILEN` are not used, though the prologue still checks them; the
payload bytes are read from `IBUF` at the offsets captured by `AMATXI`", whatever `ILEN` is now (70_reset_and_hazards.md R298;
that the general sentences of R38 and R69 give way here: log 13). -/
def execAmatxc (s : State) : Host.Outcome State Fault Refusal :=
  run .amatxc s (do
    raiseIf (decide (s.tx.txstate = txIdle)) .badState 0
    let off := s.tx.txoff.toNat
    let n := min (s.tx.txend.toNat - off) s.tx.txm.toNat
    let last := decide (off + n = s.tx.txend.toNat)
    let t ← writeEncoded s
      ([s.tx.txb0, BitVec.ofNat 8 (16 * s.tx.txseq.toNat + 4 * s.params.amaTypeCont + s.tx.txfl.toNat), BitVec.ofNat 8 n]
        ++ ibufBytes s off n)
      { last := last }
    pure { t with
      tx := { s.tx with
        txoff := BitVec.ofNat 16 (off + n)
        txseq := s.tx.txseq + 1
        txstate := if last then txIdle else txSending } })

end Sys2Proof.Machine
end

