-- ==== Sys2Proof/Machine/Asl.lean ====
section
/-! DEFINITION. The unified ASL header codec (42_asl.md): `ASLDEC`, `ASLENC`. -/

namespace Sys2Proof.Machine

/-- Version block (42_asl.md R172). -/
def aslVersionParse (s : State) (p : Nat) : Result Parsed := do
  need p 1 s.ilen.toNat
  let v := aslVersionOf (ibufByte s p)
  pure { fields := [(7, v.version.toNat), (8, v.classMajorMinor.toNat)], next := p + 1 }

/-- Sequence-number block (42_asl.md R172). -/
def aslSeqnParse (s : State) (p : Nat) : Result Parsed := do
  let x ← vwDecode s .seq2 p s.ilen.toNat
  pure {
    fields := [(9, x.value), (10, x.width)]
    next := p + x.width
    noncanon := !vwCanon s.params .seq2 x.value x.width }

/-- Network-data-blob block (42_asl.md R172). -/
def aslBlobParse (s : State) (p : Nat) : Result Parsed := do
  let x ← lenPrefixed s s.params.aslBlobPrefix p
  pure { fields := [(11, x.off), (12, x.len)], next := x.next }

/-- `status_code` (42_asl.md R172). -/
def aslCodeParse (s : State) (p : Nat) : Result Parsed := do
  need p s.params.aslStatusCodeBytes s.ilen.toNat
  pure {
    fields := [(15, beNat (ibufBytes s p s.params.aslStatusCodeBytes))]
    next := p + s.params.aslStatusCodeBytes }

/-- `additional_app_data` (42_asl.md R172). -/
def aslAadParse (s : State) (p : Nat) : Result Parsed := do
  let x ← lenPrefixed s s.params.aslAadPrefix p
  pure { fields := [(16, x.off), (17, x.len)], next := x.next }

/-- Status block (42_asl.md R172). -/
def aslStatusParse (s : State) (p : Nat) : Result Parsed := do
  need p 1 s.ilen.toNat
  let x := aslStatusOf (ibufByte s p)
  let code ← gated (decide (x.statusCodeInc = 1)) (p + 1) (aslCodeParse s (p + 1))
  let aad ← gated (decide (x.additionalAppDataInc = 1)) code.next (aslAadParse s code.next)
  pure {
    fields := [(13, x.statusCodeInc.toNat), (14, x.additionalAppDataInc.toNat)] ++ code.fields ++ aad.fields
    next := aad.next }

/-- Opcode/address block (42_asl.md R172, 30_encoding.md R96). -/
def aslOpaddrParse (s : State) (p : Nat) : Result Parsed := do
  need p 1 s.ilen.toNat
  let raw := ibufByte s p
  let z := aslOpaddrOf raw
  if z.ext = 0 then
    pure {
      fields := [(18, z.opc.toNat), (19, 0), (20, z.cf.toNat), (21, 0), (22, z.idf.toNat), (23, 0), (26, raw.toNat)]
      next := p + 1 }
  else do
    let cw := z.cf.toNat + 1
    need (p + 1) cw s.ilen.toNat
    let cls := beNat (ibufBytes s (p + 1) cw)
    let iw := z.idf.toNat + 1
    need (p + 1 + cw) iw s.ilen.toNat
    let id := beNat (ibufBytes s (p + 1 + cw) iw)
    pure {
      fields := [(18, z.opc.toNat), (19, 1), (20, cls), (21, cw), (22, id), (23, iw), (26, raw.toNat)]
      next := p + 1 + cw + iw
      noncanon := decide (cw > minBytes cls ∨ iw > minBytes id) }

/-- The flag byte as reported, `F[0..6]` (42_asl.md R171). -/
def aslFlagFields (raw : Byte) : Fields :=
  let g := aslFlagsOf raw
  [(0, raw.toNat), (1, g.versionInc.toNat), (2, g.respReq.toNat), (3, g.seqnInc.toNat), (4, g.appEncEna.toNat),
    (5, g.statusHdrInc.toNat), (6, g.nwDataBlobInc.toNat)]

/-- The body of `ASLDEC` (42_asl.md R172): with `app_enc_ena` set decoding stops after the flag byte; otherwise the
blocks follow "in a fixed order", and in both cases the remainder is reported as one slice. -/
def aslDecode (s : State) : Result Decoded := do
  let base := s.cur.toNat
  let ilen := s.ilen.toNat
  need base 1 ilen
  let raw := ibufByte s base
  let g := aslFlagsOf raw
  if g.appEncEna = 1 then
    pure {
      fields := aslFlagFields raw ++ sliceFields 24 25 (base + 1) (ilen - (base + 1))
      cur := ilen
      flags := { encrypted := true } }
  else do
    let ver ← gated (decide (g.versionInc = 1)) (base + 1) (aslVersionParse s (base + 1))
    let seqn ← gated (decide (g.seqnInc = 1)) ver.next (aslSeqnParse s ver.next)
    let blob ← gated (decide (g.nwDataBlobInc = 1)) seqn.next (aslBlobParse s seqn.next)
    let stat ← gated (decide (g.statusHdrInc = 1)) blob.next (aslStatusParse s blob.next)
    let addr ← aslOpaddrParse s stat.next
    pure {
      fields := aslFlagFields raw ++ ver.fields ++ seqn.fields ++ blob.fields ++ stat.fields ++ addr.fields
        ++ sliceFields 24 25 addr.next (ilen - addr.next)
      cur := ilen
      flags := { noncanon := seqn.noncanon || addr.noncanon } }

/-- `ASLDEC` (42_asl.md R172). -/
def execAsldec (s : State) : Host.Outcome State Fault Refusal := runDecode .asldec s (aslDecode s)

/-- The flag byte `ASLENC` writes, `F[1..6]` having passed `Fit` (42_asl.md R173). -/
def aslFlagsEmit (s : State) : Byte :=
  aslFlagsBits {
    versionInc := BitVec.ofNat 1 (fVal s 1), respReq := BitVec.ofNat 1 (fVal s 2), seqnInc := BitVec.ofNat 1 (fVal s 3)
    appEncEna := BitVec.ofNat 1 (fVal s 4), statusHdrInc := BitVec.ofNat 1 (fVal s 5)
    nwDataBlobInc := BitVec.ofNat 1 (fVal s 6) }

/-- Version block of `ASLENC` (42_asl.md R173). -/
def aslVersionEmit (s : State) : Result (List Byte) := do
  fit s 7 2
  fit s 8 6
  pure [aslVersionBits { version := BitVec.ofNat 2 (fVal s 7), classMajorMinor := BitVec.ofNat 6 (fVal s 8) }]

/-- `status_code` of `ASLENC` (42_asl.md R173). -/
def aslCodeEmit (s : State) : Result (List Byte) := do
  fit s 15 (8 * s.params.aslStatusCodeBytes)
  pure (bytesBE (fVal s 15) s.params.aslStatusCodeBytes)

/-- Status block of `ASLENC` (42_asl.md R173). -/
def aslStatusEmit (s : State) : Result (List Byte) := do
  fit s 13 1
  fit s 14 1
  let code ← gatedBytes (decide (fVal s 13 = 1)) (aslCodeEmit s)
  let aad ← gatedBytes (decide (fVal s 14 = 1)) (lenPrefixedEnc s s.params.aslAadPrefixEnc 16 17)
  pure ([aslStatusBits { statusCodeInc := BitVec.ofNat 1 (fVal s 13), additionalAppDataInc := BitVec.ofNat 1 (fVal s 14) }]
    ++ code ++ aad)

/-- Opcode/address block of `ASLENC` (42_asl.md R173). -/
def aslOpaddrEmit (s : State) : Result (List Byte) := do
  fit s 18 2
  fit s 19 1
  if fVal s 19 = 0 then do
    fit s 20 2
    fit s 22 2
    pure [aslOpaddrBits {
      opc := BitVec.ofNat 2 (fVal s 18), ext := 0, cf := BitVec.ofNat 2 (fVal s 20), idf := BitVec.ofNat 2 (fVal s 22) }]
  else do
    let cw := minBytes (fVal s 20)
    let iw := minBytes (fVal s 22)
    pure ([aslOpaddrBits {
        opc := BitVec.ofNat 2 (fVal s 18), ext := 1, cf := BitVec.ofNat 2 (cw - 1), idf := BitVec.ofNat 2 (iw - 1) }]
      ++ bytesBE (fVal s 20) cw ++ bytesBE (fVal s 22) iw)

/-- The blocks after the flag byte (42_asl.md R173). -/
def aslBlocksEmit (s : State) : Result (List Byte) := do
  let ver ← gatedBytes (decide (fVal s 1 = 1)) (aslVersionEmit s)
  let seqn ← gatedBytes (decide (fVal s 3 = 1)) (vwEncode s.params .seq2 (fVal s 9))
  let blob ← gatedBytes (decide (fVal s 6 = 1)) (lenPrefixedEnc s s.params.aslBlobPrefixEnc 11 12)
  let stat ← gatedBytes (decide (fVal s 5 = 1)) (aslStatusEmit s)
  let addr ← aslOpaddrEmit s
  pure (ver ++ seqn ++ blob ++ stat ++ addr)

/-- The bytes `ASLENC` appends (42_asl.md R173): with `F[4] = 1` only the flag byte and the opaque slice. -/
def aslEncode (s : State) : Result (List Byte) := do
  fit s 1 1
  fit s 2 1
  fit s 3 1
  fit s 4 1
  fit s 5 1
  fit s 6 1
  let blocks ← gatedBytes (decide (fVal s 4 = 0)) (aslBlocksEmit s)
  let rest ← gatedBytes (presBit s 24) (slice s (fVal s 24) (fVal s 25) 24)
  pure ([aslFlagsEmit s] ++ blocks ++ rest)

/-- `ASLENC` (42_asl.md R173). -/
def execAslenc (s : State) : Host.Outcome State Fault Refusal := runEncode .aslenc s (aslEncode s)

end Sys2Proof.Machine
end

