-- ==== Sys2Proof/Machine/Flex.lean ====
section
/-! DEFINITION. The Flex frame codec (41_flex.md): `TLVRD`, `TLVWR`, `FLEXDEC`, `FLEXENC`. -/

namespace Sys2Proof.Machine

/-- A header field as parsed (41_flex.md R150). -/
structure TlvField where
  key : BitVec 6
  lc : Nat
  len : Nat
  voff : Nat
  next : Nat
deriving DecidableEq, Repr

/-- The value length that a length class other than 3 says: `(1, 2, 4)[lc]` (41_flex.md R150). -/
def tlvFixedLen (lc : Nat) : Nat := 2 ^ lc

/-- `TlvParse(p, end)` (41_flex.md R150). -/
def tlvParse (s : State) (p stop : Nat) : Result TlvField := do
  need p 1 stop
  let t := tlvByteOf (ibufByte s p)
  if t.lengthClass = 3 then do
    need p 2 stop
    let len := (ibufByte s (p + 1)).toNat
    need p (2 + len) stop
    pure { key := t.key, lc := 3, len := len, voff := p + 2, next := p + 2 + len }
  else do
    let len := tlvFixedLen t.lengthClass.toNat
    need p (1 + len) stop
    pure { key := t.key, lc := t.lengthClass.toNat, len := len, voff := p + 1, next := p + 1 + len }

/-- `TlvClass(len)` (41_flex.md R150). -/
def tlvClass (len : Nat) : Nat := if len = 1 then 0 else if len = 2 then 1 else if len = 4 then 2 else 3

/-- `TlvCanon(lc, len)` (41_flex.md R150). -/
def tlvCanon (lc len : Nat) : Bool := lc == tlvClass len

/-- `TlvEmit(key, bs)` (41_flex.md R150). -/
def tlvEmit (key : BitVec 6) (bs : List Byte) : List Byte :=
  [tlvByteBits { lengthClass := BitVec.ofNat 2 (tlvClass bs.length), key := key }]
    ++ (if tlvClass bs.length = 3 then [BitVec.ofNat 8 bs.length] else []) ++ bs

/-- `key ∈ FLEX_KNOWN_KEYS` (00_scope.md R9; log 8). -/
def flexKnown (p : Params) (key : BitVec 6) : Bool :=
  match p.flexKnownKeys with
  | some mask => mask.getLsbD key.toNat
  | none => Config.openFlexKey key

/-- `TLVRD` (41_flex.md R152). -/
def execTlvrd (s : State) : Host.Outcome State Fault Refusal :=
  runDecode .tlvrd s (do
    let t ← tlvParse s s.cur.toNat s.ilen.toNat
    let known := flexKnown s.params t.key
    pure {
      fields := [(0, t.key.toNat), (1, t.lc), (2, t.len), (3, t.voff), (4, known.toNat)]
      cur := t.next
      flags := {
        noncanon := !tlvCanon t.lc t.len
        unknownKey := !known
        trail := decide (t.next < s.ilen.toNat) } })

/-- `TLVWR` (41_flex.md R153). -/
def execTlvwr (s : State) : Host.Outcome State Fault Refusal :=
  runEncode .tlvwr s (do
    raiseIf (decide (aVal s 0 > 63)) .badOperand (aVal s 0)
    raiseIf (decide (aVal s 2 > 255)) .encodingConstraint (aVal s 2)
    let bs ← slice s (aVal s 1) (aVal s 2) (aVal s 1)
    pure (tlvEmit (BitVec.ofNat 6 (aVal s 0)) bs))

/-- What `FLEXDEC` gathers while it walks the header: the known fields in frame order, the number of unknown fields
skipped, whether a field was not canonical (41_flex.md R154). -/
structure FlexAcc where
  fields : List TlvField := []
  skipped : Nat := 0
  noncanon : Bool := false
deriving DecidableEq, Repr

/-- The loop `while p < hend` of `FLEXDEC` (41_flex.md R154). A field takes at least one byte (70_reset_and_hazards.md
R304), so a first argument above `hend - p` is never used up. -/
def flexLoop (s : State) (hend : Nat) : Nat → Nat → FlexAcc → Result FlexAcc
  | 0, _, acc => .ok acc
  | fuel + 1, p, acc =>
    if p < hend then do
      let t ← tlvParse s p hend
      let nc := acc.noncanon || !tlvCanon t.lc t.len
      if flexKnown s.params t.key then do
        raiseIf (acc.fields.any fun x => x.key == t.key) .duplicateKey p
        raiseIf (acc.fields.length == s.params.tlvMax) .capacity p
        flexLoop s hend fuel t.next { acc with fields := acc.fields ++ [t], noncanon := nc }
      else flexLoop s hend fuel t.next { acc with skipped := acc.skipped + 1, noncanon := nc }
    else .ok acc

/-- The Flex field table with the first entries replaced (10_state.md R34: "leaves entries at and above `TLVN`
unchanged"). -/
def storeTlv (tbl : Vector TlvEntry 64) (es : List TlvEntry) : Vector TlvEntry 64 :=
  Vector.ofFn fun i => (es[i.val]?).getD tbl[i]

/-- The table entry of a parsed field (41_flex.md R154). -/
def tlvEntryOf (t : TlvField) : TlvEntry :=
  { key := t.key, off := BitVec.ofNat 16 t.voff, len := BitVec.ofNat 8 t.len }

/-- The body of `FLEXDEC` (41_flex.md R154). -/
def flexDecode (s : State) : Result State := do
  let base := s.cur.toNat
  let ilen := s.ilen.toNat
  raiseIf (decide (ilen - base < 5)) .malformedField base
  let hl := (ibufByte s base).toNat
  let hend := base + 1 + hl
  raiseIf (decide (hend + 4 > ilen)) .malformedField base
  let acc ← flexLoop s hend (hl + 1) (base + 1) {}
  let cls := beNat (ibufBytes s hend 2)
  let idr := beNat (ibufBytes s (hend + 2) 2)
  let doff := hend + 4
  let dlen := ilen - doff
  let n := acc.fields.length
  let t := writeDecoded s {
    fields := [(0, hl), (1, cls), (2, idr), (3, idr / 4), (4, idr % 4), (7, n), (8, acc.skipped)]
      ++ sliceFields 5 6 doff dlen
    cur := ilen
    flags := { noncanon := acc.noncanon, unknownKey := decide (acc.skipped > 0) } }
  pure { t with tlv := storeTlv s.tlv (acc.fields.map tlvEntryOf), tlvn := BitVec.ofNat 7 n }

/-- `FLEXDEC` (41_flex.md R154). -/
def execFlexdec (s : State) : Host.Outcome State Fault Refusal := run .flexdec s (flexDecode s)

/-- The header fields of `FLEXENC`, from table entry `i` on, `seen` being the keys of the entries before it (41_flex.md
R155). -/
def flexEncFields (s : State) : Nat → List (BitVec 6) → List TlvEntry → Result (List Byte)
  | _, _, [] => .ok []
  | i, seen, e :: es => do
    raiseIf (seen.contains e.key) .duplicateKey i
    let bs ← slice s e.off.toNat e.len.toNat i
    let rest ← flexEncFields s (i + 1) (e.key :: seen) es
    pure (tlvEmit e.key bs ++ rest)

/-- The frame `FLEXENC` appends (41_flex.md R155). -/
def flexEncode (s : State) : Result (List Byte) := do
  let n := s.tlvn.toNat
  raiseIf (decide (n > s.params.tlvMax)) .badOperand n
  let hdr ← flexEncFields s 0 [] (s.tlv.toList.take n)
  raiseIf (decide (hdr.length > 255)) .encodingConstraint hdr.length
  raiseIf (decide (fVal s 1 ≥ 2 ^ 16)) .encodingConstraint (fVal s 1)
  raiseIf (decide (fVal s 2 ≥ 2 ^ 16)) .encodingConstraint (fVal s 2)
  let data ← gatedBytes (presBit s 5) (slice s (fVal s 5) (fVal s 6) (fVal s 5))
  pure ([BitVec.ofNat 8 hdr.length] ++ hdr ++ bytesBE (fVal s 1) 2 ++ bytesBE (fVal s 2) 2 ++ data)

/-- `FLEXENC` (41_flex.md R155). -/
def execFlexenc (s : State) : Host.Outcome State Fault Refusal := runEncode .flexenc s (flexEncode s)

end Sys2Proof.Machine
end

