-- ==== Sys2Proof/Machine/Frame.lean ====
section
/-! DEFINITION. The legacy frame codec (43_frame.md): `LLDEC`, `NLDEC`, `PLDEC`, `FRAMEDEC`, `LLENC`, `NLENC`, `PLENC`,
`FRAMEENC`. -/

namespace Sys2Proof.Machine

/-! ### Parsers (43_frame.md R190) -/

/-- `FMT_IS_CLOUD(code)` (00_scope.md R9). -/
def fmtIsCloud (p : Params) (code : Nat) : Bool := p.fmtIsCloud[code]?.getD false

/-- `AUTH_SIZE(code)` (00_scope.md R9), `none` for a reserved code. -/
def authSize (p : Params) (code : Nat) : Option Nat := p.authSize[code]?.getD none

/-- A variable-width field reported as value and width in two registers. -/
def vwParse (s : State) (k : VwKind) (v w : Fin 32) (p : Nat) : Result Parsed := do
  let x ← vwDecode s k p s.ilen.toNat
  pure {
    fields := [(v, x.value), (w, x.width)]
    next := p + x.width
    noncanon := !vwCanon s.params k x.value x.width }

/-- `LLParse(p)` with the registers of 43_frame.md R190, R191; `ack_req` is absent from an ack frame. -/
def llParse (s : State) (p : Nat) : Result Parsed := do
  need p 2 s.ilen.toNat
  let h := linkFixedOf (BitVec.ofNat 16 (beNat (ibufBytes s p 2)))
  raiseIf (decide (h.frameType.toNat > s.params.frameTypeMax)) .invalidDiscriminant p
  let src ← gated (!fmtIsCloud s.params h.srcFormat.toNat) (p + 2) (vwParse s .addr3 6 7 (p + 2))
  let dst ← gated (!fmtIsCloud s.params h.dstFormat.toNat) src.next (vwParse s .addr3 8 9 src.next)
  let seqn ← vwParse s .seq2 10 11 dst.next
  pure {
    fields := [(0, h.frameType.toNat), (1, h.protocolVersion.toNat), (2, h.srcFormat.toNat), (3, h.dstFormat.toNat)]
      ++ (if h.frameType.toNat = s.params.frameTypeAck then [] else [(4, h.ackReq.toNat)])
      ++ [(5, h.broadcastAck.toNat)] ++ src.fields ++ dst.fields ++ seqn.fields
    next := seqn.next
    noncanon := src.noncanon || dst.noncanon || seqn.noncanon }

/-- One byte reported in a register: `fragment_info` (43_frame.md R190). -/
def byteParse (s : State) (i : Fin 32) (p : Nat) : Result Parsed := do
  need p 1 s.ilen.toNat
  pure { fields := [(i, (ibufByte s p).toNat)], next := p + 1 }

/-- The authentication code, reported by its offset (43_frame.md R190, R191). -/
def authParse (s : State) (sz p : Nat) : Result Parsed := do
  need p sz s.ilen.toNat
  pure { fields := [(17, p)], next := p + sz }

/-- `NLParse(p)` (43_frame.md R190, R191), with `encr_ena`. -/
def nlParse (s : State) (p : Nat) : Result (Parsed × Bool) := do
  need p 1 s.ilen.toNat
  let n := netByteOf (ibufByte s p)
  match authSize s.params n.authCode.toNat with
  | none => raising .invalidDiscriminant p
  | some sz => do
    let info ← gated (decide (n.isFragment = 1)) (p + 1) (byteParse s 16 (p + 1))
    let auth ← gated (decide (sz > 0)) info.next (authParse s sz info.next)
    pure ({
      fields := [(12, n.isFragment.toNat), (13, n.framePldType.toNat), (14, n.encrEna.toNat), (15, sz)]
        ++ info.fields ++ auth.fields ++ [(28, n.authCode.toNat)]
      next := auth.next }, decide (n.encrEna = 1))

/-- `PLParse(p)` (43_frame.md R190, R191). -/
def plParse (s : State) (p : Nat) : Result Parsed := do
  need p 1 s.ilen.toNat
  let b := presByteOf (ibufByte s p)
  let (addr, aw) ← addrDecode s b.addrEnc.toNat (p + 1) s.ilen.toNat
  let seqn ← gated (decide (b.seqnInc = 1)) (p + 1 + aw) (vwParse s .seq2 24 25 (p + 1 + aw))
  pure {
    fields := [(18, b.opc.toNat), (19, b.seqnInc.toNat), (20, b.rspReq.toNat), (21, b.addrEnc.toNat), (22, addr), (23, aw)]
      ++ seqn.fields
    next := seqn.next
    noncanon := seqn.noncanon }

/-! ### Decode commands -/

/-- A single-layer decode at the cursor (43_frame.md R192 to R194). -/
def layerDecode (s : State) (m : Result Parsed) : Result Decoded := do
  let x ← m
  pure {
    fields := x.fields
    cur := x.next
    flags := { noncanon := x.noncanon, trail := decide (x.next < s.ilen.toNat) } }

/-- `LLDEC` (43_frame.md R192). -/
def execLldec (s : State) : Host.Outcome State Fault Refusal :=
  runDecode .lldec s (layerDecode s (llParse s s.cur.toNat))

/-- `NLDEC` (43_frame.md R193): `encr_ena` is reported and has no effect. -/
def execNldec (s : State) : Host.Outcome State Fault Refusal :=
  runDecode .nldec s (layerDecode s (do let x ← nlParse s s.cur.toNat; pure x.1))

/-- `PLDEC` (43_frame.md R194). -/
def execPldec (s : State) : Host.Outcome State Fault Refusal :=
  runDecode .pldec s (layerDecode s (plParse s s.cur.toNat))

/-- The body of `FRAMEDEC` (43_frame.md R195). -/
def frameDecode (s : State) : Result Decoded := do
  let ll ← llParse s s.cur.toNat
  let (nl, enc) ← nlParse s ll.next
  let pl ← gated (!enc) nl.next (plParse s nl.next)
  pure {
    fields := ll.fields ++ nl.fields ++ pl.fields ++ sliceFields 26 27 pl.next (s.ilen.toNat - pl.next)
    cur := s.ilen.toNat
    flags := { noncanon := ll.noncanon || pl.noncanon, encrypted := enc } }

/-- `FRAMEDEC` (43_frame.md R195). -/
def execFramedec (s : State) : Host.Outcome State Fault Refusal := runDecode .framedec s (frameDecode s)

/-! ### Encode commands -/

/-- The address bytes of `LLEmit()`: none for a cloud format (43_frame.md R196). -/
def addrEmit (s : State) (fmt v : Fin 32) : Result (List Byte) :=
  gatedBytes (!fmtIsCloud s.params (fVal s fmt)) (vwEncode s.params .addr3 (fVal s v))

/-- `LLEmit()` (43_frame.md R196). -/
def llEmit (s : State) : Result (List Byte) := do
  fit s 0 3
  fit s 1 4
  fit s 2 2
  fit s 3 2
  fit s 4 1
  fit s 5 1
  raiseIf (decide (fVal s 0 > s.params.frameTypeMax)) .encodingConstraint 0
  let ar := if fVal s 0 = s.params.frameTypeAck then 0 else fVal s 4
  let h := linkFixedBits {
    frameType := BitVec.ofNat 3 (fVal s 0), protocolVersion := BitVec.ofNat 4 (fVal s 1)
    srcFormat := BitVec.ofNat 2 (fVal s 2), dstFormat := BitVec.ofNat 2 (fVal s 3)
    ackReq := BitVec.ofNat 1 ar, broadcastAck := BitVec.ofNat 1 (fVal s 5) }
  let src ← addrEmit s 2 6
  let dst ← addrEmit s 3 8
  let seqn ← vwEncode s.params .seq2 (fVal s 10)
  pure (bytesBE h.toNat 2 ++ src ++ dst ++ seqn)

/-- `LLENC` (43_frame.md R196). -/
def execLlenc (s : State) : Host.Outcome State Fault Refusal := runEncode .llenc s (llEmit s)

/-- The smallest code of an authentication code size (43_frame.md R197). -/
def authCodeOf (p : Params) (size : Nat) : Option Nat := (List.range 8).find? fun c => authSize p c == some size

/-- `NLEmit()` (43_frame.md R197). -/
def nlEmit (s : State) : Result (List Byte) := do
  fit s 12 1
  fit s 13 1
  fit s 14 1
  match authCodeOf s.params (fVal s 15) with
  | none => raising .encodingConstraint 15
  | some code => do
    let n := netByteBits {
      isFragment := BitVec.ofNat 1 (fVal s 12), framePldType := BitVec.ofNat 1 (fVal s 13)
      encrEna := BitVec.ofNat 1 (fVal s 14), authCode := BitVec.ofNat 3 code }
    let info ← gatedBytes (decide (fVal s 12 = 1)) (do fit s 16 8; pure [BitVec.ofNat 8 (fVal s 16)])
    let auth ← gatedBytes (decide (fVal s 15 > 0)) (slice s (fVal s 17) (fVal s 15) 17)
    pure ([n] ++ info ++ auth)

/-- `NLENC` (43_frame.md R197). -/
def execNlenc (s : State) : Host.Outcome State Fault Refusal := runEncode .nlenc s (nlEmit s)

/-- The address bytes of `PLEmit()`: inline, or `addr_enc - 0xB` bytes (43_frame.md R198). -/
def plAddrEmit (s : State) : Result (List Byte) :=
  if fVal s 21 ≤ 0xB then do
    raiseIf (decide (fVal s 22 ≠ fVal s 21)) .encodingConstraint 22
    pure []
  else do
    fit s 22 (8 * (fVal s 21 - 0xB))
    pure (bytesBE (fVal s 22) (fVal s 21 - 0xB))

/-- `PLEmit()` (43_frame.md R198). -/
def plEmit (s : State) : Result (List Byte) := do
  fit s 18 2
  fit s 19 1
  fit s 20 1
  fit s 21 4
  let b := presByteBits {
    opc := BitVec.ofNat 2 (fVal s 18), seqnInc := BitVec.ofNat 1 (fVal s 19), rspReq := BitVec.ofNat 1 (fVal s 20)
    addrEnc := BitVec.ofNat 4 (fVal s 21) }
  let addr ← plAddrEmit s
  let seqn ← gatedBytes (decide (fVal s 19 = 1)) (vwEncode s.params .seq2 (fVal s 24))
  pure ([b] ++ addr ++ seqn)

/-- `PLENC` (43_frame.md R198). -/
def execPlenc (s : State) : Host.Outcome State Fault Refusal := runEncode .plenc s (plEmit s)

/-- The frame `FRAMEENC` appends (43_frame.md R199). -/
def frameEncode (s : State) : Result (List Byte) := do
  let ll ← llEmit s
  let nl ← nlEmit s
  let pl ← gatedBytes (decide (fVal s 14 = 0)) (plEmit s)
  let data ← gatedBytes (presBit s 26) (slice s (fVal s 26) (fVal s 27) 26)
  pure (ll ++ nl ++ pl ++ data)

/-- `FRAMEENC` (43_frame.md R199). -/
def execFrameenc (s : State) : Host.Outcome State Fault Refusal := runEncode .frameenc s (frameEncode s)

end Sys2Proof.Machine
end

