-- ==== Sys2Proof/Machine/Primitive.lean ====
section
/-! DEFINITION. The primitive codec commands (40_primitives.md): `VWRD2`, `VWRD3`, `VWWR2`, `VWWR3`, `BFEXT`, `BFINS`,
`TWOC`, `IDSPLIT`, `IDJOIN`, `RDBE`, `WRBE`. Which flags a command sets is as its own rule says (log 11). -/

namespace Sys2Proof.Machine

/-- Read one variable-width field at the cursor (40_primitives.md R122, R123). -/
def vwReadField (k : VwKind) (s : State) : Result Decoded := do
  let x ← vwDecode s k s.cur.toNat s.ilen.toNat
  pure {
    fields := [(0, x.value), (1, x.width), (2, x.code)]
    cur := s.cur.toNat + x.width
    flags := {
      noncanon := !vwCanon s.params k x.value x.width
      trail := decide (s.cur.toNat + x.width < s.ilen.toNat) } }

/-- `VWRD2` (40_primitives.md R122). -/
def execVwrd2 (s : State) : Host.Outcome State Fault Refusal := runDecode .vwrd2 s (vwReadField .seq2 s)

/-- `VWRD3` (40_primitives.md R123). -/
def execVwrd3 (s : State) : Host.Outcome State Fault Refusal := runDecode .vwrd3 s (vwReadField .addr3 s)

/-- `VWWR2` (40_primitives.md R124). -/
def execVwwr2 (s : State) : Host.Outcome State Fault Refusal := runEncode .vwwr2 s (vwEncode s.params .seq2 (aVal s 0))

/-- `VWWR3` (40_primitives.md R125). -/
def execVwwr3 (s : State) : Host.Outcome State Fault Refusal := runEncode .vwwr3 s (vwEncode s.params .addr3 (aVal s 0))

/-- The bit of `IBUF` at bit position `q` (40_primitives.md R126). -/
def ibufBit (s : State) (q : Nat) : Bool := (ibufByte s (q / 8)).getLsbD (bitIndex q)

/-- `BFEXT w` (40_primitives.md R126). `CUR` is not moved. -/
def execBfext (w : BitVec 8) (s : State) : Host.Outcome State Fault Refusal :=
  runDecode (.bfext w) s (do
    let p := aVal s 0
    raiseIf (decide (p + w.toNat > 8 * s.ilen.toNat)) .malformedField (p / 8)
    pure {
      fields := [(0, bitsNat ((List.range w.toNat).map fun i => ibufBit s (p + i)))]
      cur := s.cur.toNat
      flags := { trail := decide (s.cur.toNat < s.ilen.toNat) } })

/-- Store a bit of `OBUF` at bit position `q` (40_primitives.md R127). -/
def obufSetBit (b : Buf) (q : Nat) (v : Bool) : Buf :=
  bufSet b (q / 8) (setBit (bufByte .obuf b (q / 8)) (bitIndex q) v)

/-- Store bits of `OBUF` from bit position `q` on, the first in the highest place (40_primitives.md R127). -/
def obufSetBits : Buf → Nat → List Bool → Buf
  | b, _, [] => b
  | b, q, v :: vs => obufSetBits (obufSetBit b q v) (q + 1) vs

/-- The `w` low bits of `v`, the most significant first (40_primitives.md R127: bit `i` of the field is `v[w-1-i]`). -/
def fieldBits (v w : Nat) : List Bool := (List.range w).map fun i => v.testBit (w - 1 - i)

/-- `BFINS w` (40_primitives.md R127): bytes newly taken in start as zero. -/
def execBfins (w : BitVec 8) (s : State) : Host.Outcome State Fault Refusal :=
  run (.bfins w) s (do
    let p := aVal s 0
    let v := aVal s 1
    raiseIf (decide (w.toNat < 32 ∧ v ≥ 2 ^ w.toNat)) .encodingConstraint v
    raiseIf (decide (p + w.toNat > 8 * s.params.obufSize)) .capacity (p / 8)
    let newlen := max s.olen.toNat ((p + w.toNat + 7) / 8)
    let zeroed := bufWrite s.obuf s.olen.toNat (List.replicate (newlen - s.olen.toNat) 0)
    pure { s with
      obuf := obufSetBits zeroed p (fieldBits v w.toNat)
      olen := BitVec.ofNat 16 newlen
      flg := 0 })

/-- `TWOC n` (40_primitives.md R128). -/
def execTwoc (n : BitVec 8) (s : State) : Host.Outcome State Fault Refusal :=
  runDecode (.twoc n) s (do
    let u := aVal s 0
    raiseIf (decide (n.toNat < 32 ∧ u ≥ 2 ^ n.toNat)) .badOperand u
    pure { fields := [(0, sext32 n.toNat u)], cur := s.cur.toNat, flags := {} })

/-- `IDSPLIT` (40_primitives.md R129). -/
def execIdsplit (s : State) : Host.Outcome State Fault Refusal :=
  runDecode .idsplit s (.ok { fields := [(0, aVal s 0 / 4), (1, aVal s 0 % 4)], cur := s.cur.toNat, flags := {} })

/-- `IDJOIN` (40_primitives.md R130). -/
def execIdjoin (s : State) : Host.Outcome State Fault Refusal :=
  runDecode .idjoin s (do
    raiseIf (decide (aVal s 1 > 3)) .badOperand (aVal s 1)
    raiseIf (decide (aVal s 0 ≥ 2 ^ 30)) .badOperand (aVal s 0)
    pure { fields := [(0, 4 * aVal s 0 + aVal s 1)], cur := s.cur.toNat, flags := {} })

/-- `RDBE n` (40_primitives.md R131). -/
def execRdbe (n : BitVec 8) (s : State) : Host.Outcome State Fault Refusal :=
  runDecode (.rdbe n) s (do
    need s.cur.toNat n.toNat s.ilen.toNat
    pure {
      fields := [(0, beNat (ibufBytes s s.cur.toNat n.toNat)), (1, n.toNat)]
      cur := s.cur.toNat + n.toNat
      flags := { trail := decide (s.cur.toNat + n.toNat < s.ilen.toNat) } })

/-- `WRBE n` (40_primitives.md R132). -/
def execWrbe (n : BitVec 8) (s : State) : Host.Outcome State Fault Refusal :=
  runEncode (.wrbe n) s (do
    raiseIf (decide (n.toNat < 4 ∧ aVal s 0 ≥ 2 ^ (8 * n.toNat))) .encodingConstraint (aVal s 0)
    pure (bytesBE (aVal s 0) n.toNat))

end Sys2Proof.Machine
end

