-- ==== Sys2Proof/Machine/System.lean ====
section
/-! DEFINITION. The system and transfer commands (45_system.md): `NOP`, `SRST`, `OB2IB`, `RB2IB`. -/

namespace Sys2Proof.Machine

/-- `NOP`: `FLG <- 0`, nothing else but `STATUS` (45_system.md R251). -/
def execNop (s : State) : Host.Outcome State Fault Refusal := run .nop s (.ok { s with flg := 0 })

/-- Every register of 10_state.md R20 at its reset value (10_state.md R42). The bytes of `IBUF` and `OBUF` are unchanged,
those of every `RBUF[c]` become unspecified (45_system.md R252). -/
def softReset (s : State) : State :=
  { s with
    a := Vector.replicate 4 0
    f := Vector.replicate 32 0
    pres := 0
    flg := 0
    cur := 0
    ilen := 0
    olen := 0
    status := 0
    cause := 0
    einfo := 0
    ecmd := 0
    esticky := 0
    tlv := Vector.replicate 64 { key := 0, off := 0, len := 0 }
    tlvn := 0
    ctxs := s.ctxs.map idleCtx
    tx := Frag.idle }

/-- `SRST`: soft reset, then `STATUS <- DONE` (45_system.md R252). -/
def execSrst (s : State) : Host.Outcome State Fault Refusal := run .srst s (.ok (softReset s))

/-- `OB2IB`: the bytes just encoded become the next input (45_system.md R253). -/
def execOb2ib (s : State) : Host.Outcome State Fault Refusal :=
  run .ob2ib s (do
    raiseIf (decide (s.olen.toNat > s.params.obufSize)) .badOperand s.olen.toNat
    raiseIf (decide (s.olen.toNat > s.params.ibufSize)) .capacity s.olen.toNat
    pure { s with
      ibuf := bufWrite s.ibuf 0 (obufBytes s 0 s.olen.toNat)
      ilen := s.olen
      cur := 0
      olen := 0
      flg := 0 })

/-- `RB2IB c`: a reassembled payload becomes the next input and its context is released (45_system.md R254). A raise does
not abort the context. -/
def execRb2ib (c : BitVec 8) (s : State) : Host.Outcome State Fault Refusal :=
  run (.rb2ib c) s (do
    let x := ctxAt s c.toNat
    raiseIf (decide (x.rstate ≠ ctxComplete)) .badState x.rstate.toNat
    raiseIf (decide (x.rlen.toNat > s.params.ibufSize)) .capacity x.rlen.toNat
    pure { abortCtx s c.toNat with
      ibuf := bufWrite s.ibuf 0 (rbufBytes s c.toNat 0 x.rlen.toNat)
      ilen := x.rlen
      cur := 0
      flg := 0 })

end Sys2Proof.Machine
end

