-- ==== Sys2Proof/Machine/WireRows.lean ====
section
/-! DEFINITION. The eleven wire-byte rows of opcode_table.json (30_encoding.md R106): "copies of the bit-packed wire
bytes of this file …; they are not commands and no command word selects them". The spec gives them no effect as an
instruction, and every word outside the table of R81 is illegal (R82), so no step reaches these meanings (log 7). Their
layouts are Machine/Wire.lean. -/

namespace Sys2Proof.Machine

/-- Row `LL_FIXED` (30_encoding.md R106). -/
def execLlFixed (_bits : BitVec 16) (_s : State) : Host.Outcome State Fault Refusal := .refused (.notACommand "LL_FIXED")

/-- Row `NL_BYTE` (30_encoding.md R106). -/
def execNlByte (_bits : BitVec 8) (_s : State) : Host.Outcome State Fault Refusal := .refused (.notACommand "NL_BYTE")

/-- Row `PL_BYTE` (30_encoding.md R106). -/
def execPlByte (_bits : BitVec 8) (_s : State) : Host.Outcome State Fault Refusal := .refused (.notACommand "PL_BYTE")

/-- Row `FLEX_TLV_BYTE` (30_encoding.md R106). -/
def execFlexTlvByte (_bits : BitVec 8) (_s : State) : Host.Outcome State Fault Refusal :=
  .refused (.notACommand "FLEX_TLV_BYTE")

/-- Row `ASL_FLAGS` (30_encoding.md R106). -/
def execAslFlags (_bits : BitVec 8) (_s : State) : Host.Outcome State Fault Refusal := .refused (.notACommand "ASL_FLAGS")

/-- Row `ASL_VERSION` (30_encoding.md R106). -/
def execAslVersion (_bits : BitVec 8) (_s : State) : Host.Outcome State Fault Refusal :=
  .refused (.notACommand "ASL_VERSION")

/-- Row `ASL_STATUS` (30_encoding.md R106). -/
def execAslStatus (_bits : BitVec 8) (_s : State) : Host.Outcome State Fault Refusal := .refused (.notACommand "ASL_STATUS")

/-- Row `ASL_OPADDR` (30_encoding.md R106). -/
def execAslOpaddr (_bits : BitVec 8) (_s : State) : Host.Outcome State Fault Refusal := .refused (.notACommand "ASL_OPADDR")

/-- Row `AMA_HDR` (30_encoding.md R106). -/
def execAmaHdr (_bits : BitVec 16) (_s : State) : Host.Outcome State Fault Refusal := .refused (.notACommand "AMA_HDR")

/-- Row `VW2_LEAD` (30_encoding.md R106). -/
def execVw2Lead (_bits : BitVec 8) (_s : State) : Host.Outcome State Fault Refusal := .refused (.notACommand "VW2_LEAD")

/-- Row `VW3_LEAD` (30_encoding.md R106). -/
def execVw3Lead (_bits : BitVec 8) (_s : State) : Host.Outcome State Fault Refusal := .refused (.notACommand "VW3_LEAD")

end Sys2Proof.Machine
end

