-- ==== Sys2Proof/Machine/Dispatch.lean ====
section
/-! DEFINITION. The meaning of each instruction: one arm per constructor of `Instr`. -/

namespace Sys2Proof.Machine

def exec (i : Instr) (s : State) : Host.Outcome State Fault Refusal :=
  match i with
  | .nop => Sys2Proof.Machine.execNop s
  | .srst => Sys2Proof.Machine.execSrst s
  | .ob2ib => Sys2Proof.Machine.execOb2ib s
  | .rb2ib c => Sys2Proof.Machine.execRb2ib c s
  | .vwrd2 => Sys2Proof.Machine.execVwrd2 s
  | .vwrd3 => Sys2Proof.Machine.execVwrd3 s
  | .vwwr2 => Sys2Proof.Machine.execVwwr2 s
  | .vwwr3 => Sys2Proof.Machine.execVwwr3 s
  | .bfext w => Sys2Proof.Machine.execBfext w s
  | .bfins w => Sys2Proof.Machine.execBfins w s
  | .twoc n => Sys2Proof.Machine.execTwoc n s
  | .idsplit => Sys2Proof.Machine.execIdsplit s
  | .idjoin => Sys2Proof.Machine.execIdjoin s
  | .rdbe n => Sys2Proof.Machine.execRdbe n s
  | .wrbe n => Sys2Proof.Machine.execWrbe n s
  | .tlvrd => Sys2Proof.Machine.execTlvrd s
  | .tlvwr => Sys2Proof.Machine.execTlvwr s
  | .flexdec => Sys2Proof.Machine.execFlexdec s
  | .flexenc => Sys2Proof.Machine.execFlexenc s
  | .asldec => Sys2Proof.Machine.execAsldec s
  | .aslenc => Sys2Proof.Machine.execAslenc s
  | .lldec => Sys2Proof.Machine.execLldec s
  | .nldec => Sys2Proof.Machine.execNldec s
  | .pldec => Sys2Proof.Machine.execPldec s
  | .framedec => Sys2Proof.Machine.execFramedec s
  | .llenc => Sys2Proof.Machine.execLlenc s
  | .nlenc => Sys2Proof.Machine.execNlenc s
  | .plenc => Sys2Proof.Machine.execPlenc s
  | .frameenc => Sys2Proof.Machine.execFrameenc s
  | .amahdr => Sys2Proof.Machine.execAmahdr s
  | .amarx c => Sys2Proof.Machine.execAmarx c s
  | .amaabt c => Sys2Proof.Machine.execAmaabt c s
  | .amatxi => Sys2Proof.Machine.execAmatxi s
  | .amatxc => Sys2Proof.Machine.execAmatxc s
  | .llFixed bits => Sys2Proof.Machine.execLlFixed bits s
  | .nlByte bits => Sys2Proof.Machine.execNlByte bits s
  | .plByte bits => Sys2Proof.Machine.execPlByte bits s
  | .flexTlvByte bits => Sys2Proof.Machine.execFlexTlvByte bits s
  | .aslFlags bits => Sys2Proof.Machine.execAslFlags bits s
  | .aslVersion bits => Sys2Proof.Machine.execAslVersion bits s
  | .aslStatus bits => Sys2Proof.Machine.execAslStatus bits s
  | .aslOpaddr bits => Sys2Proof.Machine.execAslOpaddr bits s
  | .amaHdr bits => Sys2Proof.Machine.execAmaHdr bits s
  | .vw2Lead bits => Sys2Proof.Machine.execVw2Lead bits s
  | .vw3Lead bits => Sys2Proof.Machine.execVw3Lead bits s

end Sys2Proof.Machine
end

