-- ==== Sys2Proof/Machine/HostPort.lean ====
section
/-! DEFINITION. The host port: the register index map (10_state.md R40), buffer accesses (20_memory.md R67), the
platform's reset (70_reset_and_hazards.md R290). A write to `CMD` is executed by Machine/Step.lean. -/

namespace Sys2Proof.Machine

/-- The register of context `x` at offset `k` of its group (10_state.md R40). -/
def ctxReg (x : Ctx) (k : Nat) : Word :=
  match k with
  | 0 => x.rstate.setWidth 32
  | 1 => x.rtotal.setWidth 32
  | 2 => x.rlen.setWidth 32
  | 3 => x.rsid.setWidth 32
  | 4 => x.rtrxn.setWidth 32
  | 5 => x.rseq.setWidth 32
  | _ => 0

/-- Entry `i` of the Flex field table where the configuration has it (10_state.md R40: `i < TLV_MAX`). -/
def tlvAt (s : State) (i : Nat) : Option TlvEntry := if i < s.params.tlvMax then s.tlv[i]? else none

/-- `RegRead(i)` (20_memory.md R67, 10_state.md R40): `CMD` and an index not in the table read 0. -/
def regRead (s : State) (i : Nat) : Word :=
  match i with
  | 0x00 => 0
  | 0x01 => s.status
  | 0x02 => s.cause.setWidth 32
  | 0x03 => s.einfo
  | 0x04 => s.ecmd
  | 0x05 => s.esticky
  | 0x06 => s.flg
  | 0x07 => s.pres
  | 0x08 => s.ilen.setWidth 32
  | 0x09 => s.cur.setWidth 32
  | 0x0A => s.olen.setWidth 32
  | 0x0B => s.tlvn.setWidth 32
  | 0x0C => s.tx.txstate.setWidth 32
  | 0x0D => s.tx.txoff.setWidth 32
  | 0x0E => s.tx.txend.setWidth 32
  | 0x0F => s.tx.txseq.setWidth 32
  | 0x14 => s.tx.txm.setWidth 32
  | 0x15 => s.tx.txb0.setWidth 32
  | 0x16 => s.tx.txfl.setWidth 32
  | _ =>
    if 0x10 ≤ i ∧ i < 0x14 then (s.a[i - 0x10]?).getD 0
    else if 0x20 ≤ i ∧ i < 0x40 then (s.f[i - 0x20]?).getD 0
    else if 0x40 ≤ i ∧ i < 0x80 then ((tlvAt s (i - 0x40)).map fun e => e.key.setWidth 32).getD 0
    else if 0x80 ≤ i ∧ i < 0xC0 then ((tlvAt s (i - 0x80)).map fun e => e.off.setWidth 32).getD 0
    else if 0xC0 ≤ i ∧ i < 0x100 then ((tlvAt s (i - 0xC0)).map fun e => e.len.setWidth 32).getD 0
    else if 0x100 ≤ i ∧ (i - 0x100) / 8 < s.params.amaNctx then ctxReg (ctxAt s ((i - 0x100) / 8)) ((i - 0x100) % 8)
    else 0

/-- Replace entry `i` of the Flex field table where the configuration has it (10_state.md R40). -/
def tlvUpdate (s : State) (i : Nat) (g : TlvEntry → TlvEntry) : State :=
  match tlvAt s i with
  | none => s
  | some e => { s with tlv := s.tlv.setIfInBounds i (g e) }

/-- `RegWrite(i, w)` for every index but that of `CMD` (10_state.md R40, 60_exceptions.md R277): a value is truncated to
the register's width, `ESTICKY` is write-one-to-clear (10_state.md R33), read-only and undefined indices ignore the
write. -/
def regWrite (s : State) (i : Nat) (w : Word) : State :=
  match i with
  | 0x05 => { s with esticky := s.esticky &&& ~~~w }
  | 0x07 => { s with pres := w }
  | 0x08 => { s with ilen := w.setWidth 16 }
  | 0x09 => { s with cur := w.setWidth 16 }
  | 0x0A => { s with olen := w.setWidth 16 }
  | 0x0B => { s with tlvn := w.setWidth 7 }
  | _ =>
    if 0x10 ≤ i ∧ i < 0x14 then { s with a := s.a.setIfInBounds (i - 0x10) w }
    else if 0x20 ≤ i ∧ i < 0x40 then { s with f := s.f.setIfInBounds (i - 0x20) w }
    else if 0x40 ≤ i ∧ i < 0x80 then tlvUpdate s (i - 0x40) fun e => { e with key := w.setWidth 6 }
    else if 0x80 ≤ i ∧ i < 0xC0 then tlvUpdate s (i - 0x80) fun e => { e with off := w.setWidth 16 }
    else if 0xC0 ≤ i ∧ i < 0x100 then tlvUpdate s (i - 0xC0) fun e => { e with len := w.setWidth 8 }
    else s

/-- `BufRead(S, a)` (20_memory.md R67): 0 outside the space. -/
def hostBufRead (s : State) (b : BufId) (a : Nat) : Byte :=
  match b with
  | .ibuf => if a < s.params.ibufSize then bufByte .ibuf s.ibuf a else 0
  | .obuf => if a < s.params.obufSize then bufByte .obuf s.obuf a else 0
  | .rbuf c => if c < s.params.amaNctx ∧ a < s.params.rbufSize then bufByte (.rbuf c) (ctxAt s c).rbuf a else 0

/-- `BufWrite(S, a, b)` (20_memory.md R67): ignored outside the space, and in `RBUF[c]`, which the host only reads
(20_memory.md R60). -/
def hostBufWrite (s : State) (b : BufId) (a : Nat) (v : Byte) : State :=
  match b with
  | .ibuf => if a < s.params.ibufSize then { s with ibuf := bufSet s.ibuf a v } else s
  | .obuf => if a < s.params.obufSize then { s with obuf := bufSet s.obuf a v } else s
  | .rbuf _ => s

/-- Reset as the platform applies it (70_reset_and_hazards.md R290): the registers of 10_state.md R42, every buffer byte
unspecified anew. The parameters and the host are no part of the block (10_state.md R21). -/
def platformReset (s : State) : State :=
  { State.resetWith s.params with
    ctxs := s.ctxs.map idleCtx
    ibuf := bufForget s.ibuf
    obuf := bufForget s.obuf
    hostQueue := s.hostQueue
    hostData := s.hostData }

/-- One host access other than a write to `CMD` (20_memory.md R67, R70). -/
def hostAccess (s : State) (op : HostOp) : State :=
  match op with
  | .regRead i => { s with hostData := regRead s i }
  | .regWrite i w => regWrite s i w
  | .bufRead b a => { s with hostData := (hostBufRead s b a).setWidth 32 }
  | .bufWrite b a v => hostBufWrite s b a v
  | .platformReset => platformReset s

/-- The word that a host access writes to `CMD`, if it does (10_state.md R30, R40: index 0). -/
def commandWrite (op : HostOp) : Option Word :=
  match op with
  | .regWrite i w => if i = 0x00 then some w else none
  | .regRead _ | .bufRead _ _ | .bufWrite _ _ _ | .platformReset => none

/-- An illegal word raises `IllegalCommand(w)` and changes nothing else (30_encoding.md R82). -/
def illegalCommand (s : State) (w : Word) : State := takeRaise s w { cause := .illegalCommand, info := w }

/-- The host access that writes a command word to `CMD` (10_state.md R30). -/
def cmdAccess (w : Word) : HostOp := .regWrite 0x00 w

end Sys2Proof.Machine
end

