-- ==== Sys2Proof/Machine/Step.lean ====
section
/-! DEFINITION. One step: the block performs the host's next access (20_memory.md R70); a write to `CMD` executes the
command it encodes to completion (10_state.md R30). With no access pending the block waits (70_reset_and_hazards.md
R291). -/

namespace Sys2Proof.Machine

/-- Execute the word written to `CMD` (10_state.md R30, 30_encoding.md R82). -/
def runWord (w : Word) (s : State) : Host.Outcome State Fault Refusal :=
  match decode w with
  | .ok i => exec i s
  | .error _ => .next (illegalCommand s w)

/-- One step of the block. -/
def step (s : State) : Host.Outcome State Fault Refusal :=
  match s.hostQueue with
  | [] => .next s
  | op :: rest =>
    match commandWrite op with
    | some w => runWord w { s with hostQueue := rest }
    | none => .next (hostAccess { s with hostQueue := rest } op)

/-- The state in which the host's next access writes the given word to `CMD` (log 2): it stands for the host. -/
def State.withFetchWord (s : State) (nbits w : Nat) : State :=
  { s with hostQueue := cmdAccess (BitVec.ofNat 32 (w % 2 ^ nbits)) :: s.hostQueue }

end Sys2Proof.Machine
end

