-- ==== Sys2Proof/Layout.lean ====
section
/-! DEFINITION. The wire layouts of 30_encoding.md as relations between bytes and fields, in the terms the statements
use: for each format the bytes of a header with given field values, written as sums of the fields at their places, when
those values are legal, and the result registers that report them. They are written from the format tables of
30_encoding.md and the register tables of 41_flex.md to 44_ama.md, not from the parsers of Machine/. -/

namespace Sys2Proof.Layout

open Sys2Proof.Machine

/-- A byte of a given value. -/
abbrev octet (n : Nat) : Byte := BitVec.ofNat 8 n

/-- A field that is there only if a flag is 1. -/
def ifSet {α : Type} (flag : Nat) (xs : List α) : List α := if flag = 1 then xs else []

/-- A slice reported in two registers, absent when empty (10_state.md R25). -/
def sliceAt (o l : Fin 32) (off len : Nat) : Fields := if len = 0 then [] else [(o, off), (l, len)]

/-- `FLG` with the flags `ENCRYPTED`, `NONCANON`, `UNKNOWNKEY`, `TRAIL` (10_state.md R29). -/
def decodeFlags (encrypted noncanon unknownKey trail : Bool) : Word :=
  BitVec.ofNat 32 (encrypted.toNat + 2 * noncanon.toNat + 4 * unknownKey.toNat + 8 * trail.toNat)

/-- A header is its fields one after the other; where only the first `n` bytes are there, this is the offset of the first
field of which bytes are missing, the header standing at `at_` (43_frame.md R192, 42_asl.md R172: "at the first field whose
bytes run past `ILEN` (the offset is that field's first byte)"). -/
def cutAt (at_ : Nat) : List (List Byte) → Nat → Nat
  | [], _ => at_
  | x :: xs, n => if n < x.length then at_ else cutAt (at_ + x.length) xs (n - x.length)

/-- A test of an encoder: whether the operands fail it, and the raise that then follows. -/
structure Check where
  fails : Bool
  cause : Cause
  info : Nat
deriving DecidableEq, Repr

/-- The raise of the first test that fails: an encoder makes its tests in order and "the first failure is reported"
(43_frame.md R199). -/
def firstFailing (l : List Check) : Option (Cause × Nat) := (l.find? (·.fails)).map fun c => (c.cause, c.info)

/-- `Fit(i, n)` (42_asl.md R173, 43_frame.md R196). -/
def fitCheck (s : State) (i : Fin 32) (n : Nat) : Check := ⟨decide (2 ^ n ≤ fVal s i), .encodingConstraint, i.val⟩

/-- The slice that `F[o]`, `F[l]` name lies in the valid bytes (00_scope.md R15). -/
def sliceCheck (s : State) (o l : Fin 32) (info : Nat) : Check :=
  ⟨decide (s.ilen.toNat < fVal s o + fVal s l), .badOperand, info⟩

/-! ### Variable-width fields (30_encoding.md R85 to R87) -/

/-- `bs` is a variable-width field of value `v`: the code in the top bits of its leading byte selects its length, and `v`
is its big-endian value with the code bits cleared (30_encoding.md R85). -/
def vwField (p : Params) (k : VwKind) (bs : List Byte) (v : Nat) : Bool :=
  match bs with
  | [] => false
  | lead :: _ =>
    (vwWidth p k (lead.toNat / 2 ^ (8 - vwBits k)) == some bs.length) && (v == beNat bs % 2 ^ (8 * bs.length - vwBits k))

/-- Some width class narrower than `w` holds `v`: the field is non-canonical (30_encoding.md R87 (c)). -/
def vwNarrower (p : Params) (k : VwKind) (v w : Nat) : Bool :=
  (List.range (2 ^ vwBits k)).any fun c =>
    match vwWidth p k c with
    | none => false
    | some w' => decide (w' < w ∧ v < 2 ^ (8 * w' - vwBits k))

/-- `bs` is the field of value `v` that 30_encoding.md R86 chooses: no class that holds `v` is narrower, and none of the
same width has a smaller code. -/
def vwMinimal (p : Params) (k : VwKind) (bs : List Byte) (v : Nat) : Bool :=
  match bs with
  | [] => false
  | lead :: _ =>
    vwField p k bs v &&
    (List.range (2 ^ vwBits k)).all fun c =>
      match vwWidth p k c with
      | none => true
      | some w =>
        decide (v < 2 ^ (8 * w - vwBits k) →
          bs.length < w ∨ (bs.length = w ∧ lead.toNat / 2 ^ (8 - vwBits k) ≤ c))

/-- No width class holds `v` (30_encoding.md R86). -/
def vwUnencodable (p : Params) (k : VwKind) (v : Nat) : Bool :=
  (List.range (2 ^ vwBits k)).all fun c =>
    match vwWidth p k c with
    | none => true
    | some w => decide (2 ^ (8 * w - vwBits k) ≤ v)

/-- `VWEncode(k, F[i])`: no width class holds the value (30_encoding.md R86). -/
def vwCheck (s : State) (k : VwKind) (i : Fin 32) : Check :=
  ⟨vwUnencodable s.params k (fVal s i), .encodingConstraint, fVal s i⟩

/-! ### Link-layer header (30_encoding.md R88, 43_frame.md R191) -/

/-- The fields of a link-layer header; `src`, `dst` and `seqn` are the bytes of its variable-width fields, empty where
the field is absent, and `srcVal`, `dstVal`, `seqnVal` their values. -/
structure Link where
  frameType : Nat
  protocolVersion : Nat
  srcFormat : Nat
  dstFormat : Nat
  ackReq : Nat
  broadcastAck : Nat
  pad : Nat
  src : List Byte
  srcVal : Nat
  dst : List Byte
  dstVal : Nat
  seqn : List Byte
  seqnVal : Nat
deriving DecidableEq, Repr

/-- An address is there iff its format code is not a cloud code (30_encoding.md R88). -/
def addrLegal (p : Params) (fmt : Nat) (bs : List Byte) (v : Nat) : Bool :=
  if fmtIsCloud p fmt then bs == [] else vwField p .addr3 bs v

/-- The values the fixed part of a link-layer header may hold (30_encoding.md R88, R100). -/
def linkFixedLegal (p : Params) (x : Link) : Bool :=
  decide (x.frameType < 8 ∧ x.frameType ≤ p.frameTypeMax ∧ x.protocolVersion < 16 ∧ x.srcFormat < 4 ∧ x.dstFormat < 4
    ∧ x.ackReq < 2 ∧ x.broadcastAck < 2 ∧ x.pad < 8)

/-- The values a link-layer header may hold (30_encoding.md R88, R100). -/
def linkLegal (p : Params) (x : Link) : Bool :=
  linkFixedLegal p x && addrLegal p x.srcFormat x.src x.srcVal && addrLegal p x.dstFormat x.dst x.dstVal
  && vwField p .seq2 x.seqn x.seqnVal

/-- The 16-bit word of the fixed part (30_encoding.md R88). -/
def linkWord (x : Link) : Nat :=
  8192 * x.frameType + 512 * x.protocolVersion + 128 * x.srcFormat + 32 * x.dstFormat + 16 * x.ackReq
    + 8 * x.broadcastAck + x.pad

/-- The two bytes of the fixed part, the high byte first (30_encoding.md R88). -/
def linkFixedBytes (x : Link) : List Byte := [octet (linkWord x / 256), octet (linkWord x % 256)]

/-- The fields of the header: fixed part, source address, destination address, `seqn_num` (30_encoding.md R88). -/
def linkPieces (x : Link) : List (List Byte) := [linkFixedBytes x, x.src, x.dst, x.seqn]

/-- The bytes of the header (30_encoding.md R88). -/
def linkBytes (x : Link) : List Byte := (linkPieces x).flatten

/-- `F[0..11]` (43_frame.md R191). -/
def linkFields (p : Params) (x : Link) : Fields :=
  [(0, x.frameType), (1, x.protocolVersion), (2, x.srcFormat), (3, x.dstFormat)]
    ++ (if x.frameType = p.frameTypeAck then [] else [(4, x.ackReq)]) ++ [(5, x.broadcastAck)]
    ++ (if fmtIsCloud p x.srcFormat then [] else [(6, x.srcVal), (7, x.src.length)])
    ++ (if fmtIsCloud p x.dstFormat then [] else [(8, x.dstVal), (9, x.dst.length)])
    ++ [(10, x.seqnVal), (11, x.seqn.length)]

/-- Some variable-width field of the header is non-canonical (30_encoding.md R87 (c)). -/
def linkNoncanon (p : Params) (x : Link) : Bool :=
  (!fmtIsCloud p x.srcFormat && vwNarrower p .addr3 x.srcVal x.src.length)
    || (!fmtIsCloud p x.dstFormat && vwNarrower p .addr3 x.dstVal x.dst.length)
    || vwNarrower p .seq2 x.seqnVal x.seqn.length

/-- The header an encoder writes: pad 0, `ack_req` 0 in an ack frame, every variable-width field minimal (43_frame.md
R196). -/
def linkCanonical (p : Params) (x : Link) : Bool :=
  linkLegal p x && (x.pad == 0) && (x.frameType != p.frameTypeAck || x.ackReq == 0)
  && (fmtIsCloud p x.srcFormat || vwMinimal p .addr3 x.src x.srcVal)
  && (fmtIsCloud p x.dstFormat || vwMinimal p .addr3 x.dst x.dstVal)
  && vwMinimal p .seq2 x.seqn x.seqnVal

/-- The operand registers of `LLENC` hold the header (43_frame.md R196): an absent address's register is not looked at,
and `F[4]` of an ack frame only has to fit its bit. -/
def linkHeld (s : State) (x : Link) : Bool :=
  decide (fVal s 0 = x.frameType ∧ fVal s 1 = x.protocolVersion ∧ fVal s 2 = x.srcFormat ∧ fVal s 3 = x.dstFormat
    ∧ fVal s 4 < 2 ∧ (x.frameType ≠ s.params.frameTypeAck → fVal s 4 = x.ackReq) ∧ fVal s 5 = x.broadcastAck
    ∧ fVal s 10 = x.seqnVal)
  && (fmtIsCloud s.params x.srcFormat || fVal s 6 == x.srcVal) && (fmtIsCloud s.params x.dstFormat || fVal s 8 == x.dstVal)

/-- The tests of `LLEmit()` in the order written (43_frame.md R196). -/
def linkChecks (s : State) : List Check :=
  [fitCheck s 0 3, fitCheck s 1 4, fitCheck s 2 2, fitCheck s 3 2, fitCheck s 4 1, fitCheck s 5 1,
    ⟨decide (s.params.frameTypeMax < fVal s 0), .encodingConstraint, 0⟩]
    ++ (if fmtIsCloud s.params (fVal s 2) then [] else [vwCheck s .addr3 6])
    ++ (if fmtIsCloud s.params (fVal s 3) then [] else [vwCheck s .addr3 8]) ++ [vwCheck s .seq2 10]

/-! ### Network-layer header (30_encoding.md R89, 43_frame.md R191) -/

/-- The fields of a network-layer header. -/
structure Net where
  isFragment : Nat
  framePldType : Nat
  encrEna : Nat
  code : Nat
  pad : Nat
  info : Nat
  auth : List Byte
deriving DecidableEq, Repr

/-- The values a network-layer header may hold: the code is not reserved and selects the length of `auth_code`
(30_encoding.md R89). -/
def netLegal (p : Params) (x : Net) : Bool :=
  decide (x.isFragment < 2 ∧ x.framePldType < 2 ∧ x.encrEna < 2 ∧ x.code < 8 ∧ x.pad < 4 ∧ x.info < 256)
  && (authSize p x.code == some x.auth.length)

/-- The fields of the header: leading byte, `fragment_info`, `auth_code` (30_encoding.md R89). -/
def netPieces (x : Net) : List (List Byte) :=
  [[octet (128 * x.isFragment + 64 * x.framePldType + 32 * x.encrEna + 4 * x.code + x.pad)],
    ifSet x.isFragment [octet x.info], x.auth]

/-- The bytes of the header (30_encoding.md R89). -/
def netBytes (x : Net) : List Byte := (netPieces x).flatten

/-- `F[12..17]`, `F[28]` of a header at offset `at_` (43_frame.md R191). -/
def netFields (at_ : Nat) (x : Net) : Fields :=
  [(12, x.isFragment), (13, x.framePldType), (14, x.encrEna), (15, x.auth.length)] ++ ifSet x.isFragment [(16, x.info)]
    ++ (if x.auth.length = 0 then [] else [(17, at_ + 1 + x.isFragment)]) ++ [(28, x.code)]

/-- The header an encoder writes: pad 0 and the smallest code of the size (43_frame.md R197). -/
def netCanonical (p : Params) (x : Net) : Bool :=
  netLegal p x && (x.pad == 0)
  && (List.range 8).all fun c => decide (authSize p c = some x.auth.length → x.code ≤ c)

/-- The operand registers of `NLENC` hold the header (43_frame.md R197): the authentication code is the slice at
`F[17]`. -/
def netHeld (s : State) (x : Net) : Bool :=
  decide (fVal s 12 = x.isFragment ∧ fVal s 13 = x.framePldType ∧ fVal s 14 = x.encrEna ∧ fVal s 15 = x.auth.length
    ∧ (x.isFragment = 1 → fVal s 16 = x.info)
    ∧ (0 < x.auth.length →
        fVal s 17 + x.auth.length ≤ s.ilen.toNat ∧ ibufBytes s (fVal s 17) x.auth.length = x.auth))

/-- The tests of `NLEmit()` in the order written (43_frame.md R197). -/
def netChecks (s : State) : List Check :=
  [fitCheck s 12 1, fitCheck s 13 1, fitCheck s 14 1,
    ⟨(List.range 8).all fun c => authSize s.params c != some (fVal s 15), .encodingConstraint, 15⟩]
    ++ ifSet (fVal s 12) [fitCheck s 16 8] ++ (if 0 < fVal s 15 then [sliceCheck s 17 15 17] else [])

/-! ### Presentation-layer header (30_encoding.md R90, R91, 43_frame.md R191) -/

/-- The fields of a presentation-layer header; `ext` is the extended address, empty when the address is inline. -/
structure Pres where
  opc : Nat
  seqnInc : Nat
  rspReq : Nat
  addrEnc : Nat
  ext : List Byte
  seqn : List Byte
  seqnVal : Nat
deriving DecidableEq, Repr

/-- The values a presentation-layer header may hold before its `seqn` (30_encoding.md R90). -/
def presHeadLegal (x : Pres) : Bool :=
  decide (x.opc < 4 ∧ x.seqnInc < 2 ∧ x.rspReq < 2 ∧ x.addrEnc < 16 ∧ x.ext.length = x.addrEnc - 0xB)

/-- The values a presentation-layer header may hold (30_encoding.md R90). -/
def presLegal (p : Params) (x : Pres) : Bool :=
  presHeadLegal x && (if x.seqnInc = 1 then vwField p .seq2 x.seqn x.seqnVal else x.seqn == [])

/-- The fields of the header before its `seqn`: leading byte, extended address (30_encoding.md R90, R91). -/
def presHead (x : Pres) : List (List Byte) :=
  [[octet (64 * x.opc + 32 * x.seqnInc + 16 * x.rspReq + x.addrEnc)], x.ext]

/-- The fields of the header (30_encoding.md R90). -/
def presPieces (x : Pres) : List (List Byte) := presHead x ++ [x.seqn]

/-- The bytes of the header (30_encoding.md R90). -/
def presBytes (x : Pres) : List Byte := (presPieces x).flatten

/-- The address: `addr_enc` itself, or the bytes that follow (30_encoding.md R91). -/
def presAddr (x : Pres) : Nat := if x.addrEnc ≤ 0xB then x.addrEnc else beNat x.ext

/-- `F[18..25]` (43_frame.md R191). -/
def presFields (x : Pres) : Fields :=
  [(18, x.opc), (19, x.seqnInc), (20, x.rspReq), (21, x.addrEnc), (22, presAddr x), (23, x.ext.length)]
    ++ ifSet x.seqnInc [(24, x.seqnVal), (25, x.seqn.length)]

/-- `seqn` is there and non-canonical (30_encoding.md R87 (c)). -/
def presNoncanon (p : Params) (x : Pres) : Bool := (x.seqnInc == 1) && vwNarrower p .seq2 x.seqnVal x.seqn.length

/-- The header an encoder writes (43_frame.md R198). -/
def presCanonical (p : Params) (x : Pres) : Bool := presLegal p x && (x.seqnInc != 1 || vwMinimal p .seq2 x.seqn x.seqnVal)

/-- The operand registers of `PLENC` hold the header (43_frame.md R198). -/
def presHeld (s : State) (x : Pres) : Bool :=
  decide (fVal s 18 = x.opc ∧ fVal s 19 = x.seqnInc ∧ fVal s 20 = x.rspReq ∧ fVal s 21 = x.addrEnc ∧ fVal s 22 = presAddr x
    ∧ (x.seqnInc = 1 → fVal s 24 = x.seqnVal))

/-- The tests of `PLEmit()` in the order written (43_frame.md R198). -/
def presChecks (s : State) : List Check :=
  [fitCheck s 18 2, fitCheck s 19 1, fitCheck s 20 1, fitCheck s 21 4,
    if fVal s 21 ≤ 0xB then ⟨fVal s 22 != fVal s 21, .encodingConstraint, 22⟩ else fitCheck s 22 (8 * (fVal s 21 - 0xB))]
    ++ ifSet (fVal s 19) [vwCheck s .seq2 24]

/-- The tests of `FRAMEENC`: link, network, presentation unless `encr_ena` is set, payload (43_frame.md R199). -/
def frameChecks (s : State) : List Check :=
  linkChecks s ++ netChecks s ++ (if fVal s 14 = 0 then presChecks s else [])
    ++ (if presBit s 26 then [sliceCheck s 26 27 26] else [])

/-! ### Flex header fields (30_encoding.md R93, 41_flex.md R150) -/

/-- A Flex header field: key, length class, value. -/
structure Tlv where
  key : BitVec 6
  lc : Nat
  value : List Byte
deriving DecidableEq, Repr

/-- "0=1 byte,1=2 bytes,2=4 bytes,3=extended (explicit length byte follows)" (30_encoding.md R93). -/
def tlvLegal (x : Tlv) : Bool :=
  decide ((x.lc = 0 ∧ x.value.length = 1) ∨ (x.lc = 1 ∧ x.value.length = 2) ∨ (x.lc = 2 ∧ x.value.length = 4)
    ∨ (x.lc = 3 ∧ x.value.length ≤ 255))

/-- The bytes of the field before its value: one, or two for class 3 (30_encoding.md R93). -/
def tlvHead (x : Tlv) : List Byte :=
  if x.lc = 3 then [octet (192 + x.key.toNat), octet x.value.length] else [octet (64 * x.lc + x.key.toNat)]

/-- The bytes of the field (30_encoding.md R93). -/
def tlvBytes (x : Tlv) : List Byte := tlvHead x ++ x.value

/-- Class 3 for a length that another class has (30_encoding.md R100). -/
def tlvNoncanon (x : Tlv) : Bool :=
  decide (x.lc = 3 ∧ (x.value.length = 1 ∨ x.value.length = 2 ∨ x.value.length = 4))

/-- The table entries `FLEXDEC` stores for fields that stand from offset `off` on: those of known keys, in frame order
(41_flex.md R154). -/
def tlvEntries (p : Params) : Nat → List Tlv → List TlvEntry
  | _, [] => []
  | off, x :: xs =>
    (if flexKnown p x.key then
      [{ key := x.key, off := BitVec.ofNat 16 (off + (tlvHead x).length), len := BitVec.ofNat 8 x.value.length }] else [])
    ++ tlvEntries p (off + (tlvBytes x).length) xs

/-- The field the encoder writes for a table entry: its slice in the class `TlvClass` gives (41_flex.md R150, R155). -/
def tlvOfEntry (s : State) (e : TlvEntry) : Tlv :=
  { key := e.key
    lc := if e.len = 1 then 0 else if e.len = 2 then 1 else if e.len = 4 then 2 else 3
    value := ibufBytes s e.off.toNat e.len.toNat }

/-- The entries of the Flex field table that are in use (10_state.md R34). -/
def flexEntries (s : State) : List TlvEntry := s.tlv.toList.take s.tlvn.toNat

/-- The header fields of the frame `FLEXENC` appends, in table order (41_flex.md R155). -/
def flexHeader (s : State) : List Byte := (flexEntries s).flatMap fun e => tlvBytes (tlvOfEntry s e)

/-- The tests of `FLEXENC` in the order written (41_flex.md R155). -/
def flexChecks (s : State) : List Check :=
  [⟨decide (s.params.tlvMax < s.tlvn.toNat), .badOperand, s.tlvn.toNat⟩]
    ++ (flexEntries s).zipIdx.flatMap (fun (e, i) =>
      [⟨((flexEntries s).take i).any fun e' => e'.key == e.key, .duplicateKey, i⟩,
        ⟨decide (s.ilen.toNat < e.off.toNat + e.len.toNat), .badOperand, i⟩])
    ++ [⟨decide (255 < (flexHeader s).length), .encodingConstraint, (flexHeader s).length⟩,
      ⟨decide (2 ^ 16 ≤ fVal s 1), .encodingConstraint, fVal s 1⟩,
      ⟨decide (2 ^ 16 ≤ fVal s 2), .encodingConstraint, fVal s 2⟩]
    ++ (if presBit s 5 then [sliceCheck s 5 6 (fVal s 5)] else [])

/-! ### Unified ASL header (30_encoding.md R94 to R96, 42_asl.md R171) -/

/-- The fields of a unified ASL header that is not encrypted. -/
structure Asl where
  versionInc : Nat
  respReq : Nat
  seqnInc : Nat
  statusHdrInc : Nat
  blobInc : Nat
  flagPad : Nat
  version : Nat
  classMajorMinor : Nat
  seqn : List Byte
  seqnVal : Nat
  blobPrefix : List Byte
  blob : List Byte
  codeInc : Nat
  aadInc : Nat
  statusPad : Nat
  code : List Byte
  aadPrefix : List Byte
  aad : List Byte
  opc : Nat
  addrPad : Nat
  ext : Nat
  cf : Nat
  idf : Nat
  cls : List Byte
  id : List Byte
deriving DecidableEq, Repr

/-- A blob is there iff its flag is 1, and then its prefix announces its length (30_encoding.md R95). -/
def blobLegal (pfx : Option PrefixTable) (flag : Nat) (pre bs : List Byte) : Bool :=
  if flag = 1 then pfx.isSome && (pfx.getD []).contains (pre, bs.length) else pre == [] && bs == []

/-- The values the flag byte and the version byte may hold (30_encoding.md R94, R95). -/
def aslHeadLegal (x : Asl) : Bool :=
  decide (x.versionInc < 2 ∧ x.respReq < 2 ∧ x.seqnInc < 2 ∧ x.statusHdrInc < 2 ∧ x.blobInc < 2 ∧ x.flagPad < 4
    ∧ x.version < 4 ∧ x.classMajorMinor < 64)

/-- The values of the blocks before the blob (30_encoding.md R94, R95). -/
def aslLegal1 (p : Params) (x : Asl) : Bool :=
  aslHeadLegal x && (if x.seqnInc = 1 then vwField p .seq2 x.seqn x.seqnVal else x.seqn == [])

/-- The values of the blocks before `additional_app_data` (30_encoding.md R94, R95). -/
def aslLegal2 (p : Params) (x : Asl) : Bool :=
  aslLegal1 p x && blobLegal p.aslBlobPrefix x.blobInc x.blobPrefix x.blob
  && decide (x.codeInc < 2 ∧ x.aadInc < 2 ∧ x.statusPad < 64
    ∧ x.code.length = (if x.statusHdrInc = 1 ∧ x.codeInc = 1 then p.aslStatusCodeBytes else 0))

/-- The values a unified ASL header may hold (30_encoding.md R94 to R96). -/
def aslLegal (p : Params) (x : Asl) : Bool :=
  aslLegal2 p x && blobLegal p.aslAadPrefix (x.statusHdrInc * x.aadInc) x.aadPrefix x.aad
  && decide (x.opc < 4 ∧ x.addrPad < 2 ∧ x.ext < 2 ∧ x.cf < 4 ∧ x.idf < 4
    ∧ x.cls.length = (if x.ext = 1 then x.cf + 1 else 0) ∧ x.id.length = (if x.ext = 1 then x.idf + 1 else 0))

/-- The flag byte (30_encoding.md R94), `app_enc_ena` being 0. -/
def aslFlagByte (x : Asl) : Nat :=
  128 * x.versionInc + 64 * x.respReq + 32 * x.seqnInc + 8 * x.statusHdrInc + 4 * x.blobInc + x.flagPad

/-- The opcode/address byte (30_encoding.md R96). -/
def aslAddrByte (x : Asl) : Nat := 64 * x.opc + 32 * x.addrPad + 16 * x.ext + 4 * x.cf + x.idf

/-- The fields before the sequence number: flag byte, version byte (30_encoding.md R94, R95). -/
def aslHead (x : Asl) : List (List Byte) :=
  [[octet (aslFlagByte x)], ifSet x.versionInc [octet (64 * x.version + x.classMajorMinor)]]

/-- The fields before the blob: flag byte, version block, sequence-number block (30_encoding.md R95). -/
def aslPieces1 (x : Asl) : List (List Byte) := aslHead x ++ [x.seqn]

/-- The fields before `additional_app_data`: the blob, then the status block up to `status_code` (30_encoding.md R95). -/
def aslPieces2 (x : Asl) : List (List Byte) :=
  aslPieces1 x
    ++ [x.blobPrefix, x.blob, ifSet x.statusHdrInc [octet (128 * x.codeInc + 64 * x.aadInc + x.statusPad)], x.code]

/-- The fields of the header, "in a fixed order" (30_encoding.md R95, R96). -/
def aslPieces (x : Asl) : List (List Byte) :=
  aslPieces2 x ++ [x.aadPrefix, x.aad, [octet (aslAddrByte x)], x.cls, x.id]

/-- The bytes before the blob. -/
def aslBytes1 (x : Asl) : List Byte := (aslPieces1 x).flatten

/-- The bytes before `additional_app_data`. -/
def aslBytes2 (x : Asl) : List Byte := (aslPieces2 x).flatten

/-- The bytes of the header (30_encoding.md R95, R96). -/
def aslBytes (x : Asl) : List Byte := (aslPieces x).flatten

/-- `cmd_class`: inline or extended (30_encoding.md R96). -/
def aslClass (x : Asl) : Nat := if x.ext = 1 then beNat x.cls else x.cf

/-- `cmd_id`: inline or extended (30_encoding.md R96). -/
def aslId (x : Asl) : Nat := if x.ext = 1 then beNat x.id else x.idf

/-- `F[0..26]` of a header at offset `at_` (42_asl.md R171), but for the slice that follows the header. -/
def aslFields (at_ : Nat) (x : Asl) : Fields :=
  [(0, aslFlagByte x), (1, x.versionInc), (2, x.respReq), (3, x.seqnInc), (4, 0), (5, x.statusHdrInc), (6, x.blobInc)]
    ++ ifSet x.versionInc [(7, x.version), (8, x.classMajorMinor)]
    ++ ifSet x.seqnInc [(9, x.seqnVal), (10, x.seqn.length)]
    ++ ifSet x.blobInc [(11, at_ + (aslBytes1 x).length + x.blobPrefix.length), (12, x.blob.length)]
    ++ ifSet x.statusHdrInc ([(13, x.codeInc), (14, x.aadInc)] ++ ifSet x.codeInc [(15, beNat x.code)]
      ++ ifSet x.aadInc [(16, at_ + (aslBytes2 x).length + x.aadPrefix.length), (17, x.aad.length)])
    ++ [(18, x.opc), (19, x.ext), (20, aslClass x), (21, x.cls.length), (22, aslId x), (23, x.id.length),
      (26, aslAddrByte x)]

/-- The sequence number, or an extended class or id, is wider than needed (42_asl.md R172). -/
def aslNoncanon (p : Params) (x : Asl) : Bool :=
  ((x.seqnInc == 1) && vwNarrower p .seq2 x.seqnVal x.seqn.length)
    || ((x.ext == 1) && (decide (minBytes (aslClass x) < x.cls.length) || decide (minBytes (aslId x) < x.id.length)))

/-- A blob as the encoder writes it: the prefix is what the inverse function gives for its length (42_asl.md R173). -/
def blobCanonical (enc : Option PrefixEncTable) (flag : Nat) (pre bs : List Byte) : Bool :=
  if flag = 1 then enc.isSome && (prefixWrite (enc.getD []) bs.length == some pre) else pre == [] && bs == []

/-- The header an encoder writes: pads 0, minimal widths, prefixes from the inverse functions (42_asl.md R173). -/
def aslCanonical (p : Params) (x : Asl) : Bool :=
  decide (x.versionInc < 2 ∧ x.respReq < 2 ∧ x.seqnInc < 2 ∧ x.statusHdrInc < 2 ∧ x.blobInc < 2 ∧ x.flagPad = 0
    ∧ x.version < 4 ∧ x.classMajorMinor < 64 ∧ x.codeInc < 2 ∧ x.aadInc < 2 ∧ x.statusPad = 0
    ∧ x.opc < 4 ∧ x.addrPad = 0 ∧ x.ext < 2 ∧ x.cf < 4 ∧ x.idf < 4
    ∧ x.cls.length = (if x.ext = 1 then x.cf + 1 else 0) ∧ x.id.length = (if x.ext = 1 then x.idf + 1 else 0)
    ∧ (x.ext = 1 → x.cls.length = minBytes (aslClass x) ∧ x.id.length = minBytes (aslId x))
    ∧ x.code.length = (if x.statusHdrInc = 1 ∧ x.codeInc = 1 then p.aslStatusCodeBytes else 0))
  && (if x.seqnInc = 1 then vwMinimal p .seq2 x.seqn x.seqnVal else x.seqn == [])
  && blobCanonical p.aslBlobPrefixEnc x.blobInc x.blobPrefix x.blob
  && blobCanonical p.aslAadPrefixEnc (x.statusHdrInc * x.aadInc) x.aadPrefix x.aad

/-- A slice operand of an encoder: it lies in the valid bytes and holds `bs` (00_scope.md R15). -/
def sliceHeld (s : State) (o l : Fin 32) (bs : List Byte) : Bool :=
  decide (fVal s l = bs.length ∧ fVal s o + bs.length ≤ s.ilen.toNat ∧ ibufBytes s (fVal s o) bs.length = bs)

/-- The operand registers of `ASLENC` hold the header (42_asl.md R173). -/
def aslHeld (s : State) (x : Asl) : Bool :=
  decide (fVal s 1 = x.versionInc ∧ fVal s 2 = x.respReq ∧ fVal s 3 = x.seqnInc ∧ fVal s 4 = 0 ∧ fVal s 5 = x.statusHdrInc
    ∧ fVal s 6 = x.blobInc ∧ (x.versionInc = 1 → fVal s 7 = x.version ∧ fVal s 8 = x.classMajorMinor)
    ∧ (x.seqnInc = 1 → fVal s 9 = x.seqnVal)
    ∧ (x.statusHdrInc = 1 → fVal s 13 = x.codeInc ∧ fVal s 14 = x.aadInc)
    ∧ (x.statusHdrInc = 1 ∧ x.codeInc = 1 → fVal s 15 = beNat x.code)
    ∧ fVal s 18 = x.opc ∧ fVal s 19 = x.ext ∧ fVal s 20 = aslClass x ∧ fVal s 22 = aslId x)
  && (x.blobInc != 1 || sliceHeld s 11 12 x.blob)
  && (x.statusHdrInc != 1 || x.aadInc != 1 || sliceHeld s 16 17 x.aad)

/-- The tests of a blob operand of `ASLENC` (42_asl.md R173). -/
def blobChecks (s : State) (enc : Option PrefixEncTable) (o l : Fin 32) : List Check :=
  [⟨enc.isNone, .unsupported, o.val⟩, sliceCheck s o l o.val,
    ⟨(prefixWrite (enc.getD []) (fVal s l)).isNone, .encodingConstraint, l.val⟩]

/-- The tests of `ASLENC` in the order written; with `F[4] = 1` only the flags and the payload slice are looked at
(42_asl.md R173). -/
def aslChecks (s : State) : List Check :=
  [fitCheck s 1 1, fitCheck s 2 1, fitCheck s 3 1, fitCheck s 4 1, fitCheck s 5 1, fitCheck s 6 1]
    ++ (if fVal s 4 = 0 then
      ifSet (fVal s 1) [fitCheck s 7 2, fitCheck s 8 6] ++ ifSet (fVal s 3) [vwCheck s .seq2 9]
        ++ ifSet (fVal s 6) (blobChecks s s.params.aslBlobPrefixEnc 11 12)
        ++ ifSet (fVal s 5) ([fitCheck s 13 1, fitCheck s 14 1]
          ++ ifSet (fVal s 13) [fitCheck s 15 (8 * s.params.aslStatusCodeBytes)]
          ++ ifSet (fVal s 14) (blobChecks s s.params.aslAadPrefixEnc 16 17))
        ++ [fitCheck s 18 2, fitCheck s 19 1] ++ (if fVal s 19 = 0 then [fitCheck s 20 2, fitCheck s 22 2] else [])
      else [])
    ++ (if presBit s 24 then [sliceCheck s 24 25 24] else [])

/-! ### AMA fragments (30_encoding.md R97, R98, 44_ama.md R221) -/

/-- The fields of an AMA fragment. -/
structure Ama where
  streamId : Nat
  trxn : Nat
  seq : Nat
  type : Nat
  ack : Nat
  ext : Nat
  total : Nat
  payload : List Byte
deriving DecidableEq, Repr

/-- The values a fragment may hold: type 3 is "always invalid" (30_encoding.md R97 to R100). -/
def amaLegal (x : Ama) : Bool :=
  decide (x.streamId < 16 ∧ x.trxn < 16 ∧ x.seq < 16 ∧ x.type < 3 ∧ x.ack < 2 ∧ x.ext < 2 ∧ x.total < 65536
    ∧ x.payload.length < 256)

/-- The bytes before the payload (30_encoding.md R97, R98). -/
def amaHead (x : Ama) : List Byte :=
  [octet (16 * x.streamId + x.trxn), octet (16 * x.seq + 4 * x.type + 2 * x.ack + x.ext)]
    ++ (if x.type = 0 then [octet (x.total / 256), octet (x.total % 256)] else []) ++ [octet x.payload.length]

/-- `F[0..9]` of a fragment at offset `at_` (44_ama.md R221). -/
def amaFields (at_ : Nat) (x : Ama) : Fields :=
  [(0, x.streamId), (1, x.trxn), (2, x.seq), (3, x.type), (4, x.ack), (5, x.ext)]
    ++ (if x.type = 0 then [(6, x.total)] else []) ++ [(7, x.payload.length)]
    ++ sliceAt 8 9 (at_ + (amaHead x).length) x.payload.length

end Sys2Proof.Layout
end

