-- ==== Sys2Proof/Safety.lean ====
section
/-! DEFINITION. What a sound state of the block is, in the terms claims use: the canonical form of a buffer, the
invariants of a context (44_ama.md R230), the registers whose values the spec bounds, and the whole invariant. -/

namespace Sys2Proof.Machine

/-- Offsets strictly rising: the canonical form of a buffer's listed bytes. -/
def cellsRising : List Host.Cell → Bool
  | [] => true
  | [_] => true
  | x :: y :: rest => decide (x.1 < y.1) && cellsRising (y :: rest)

/-- A buffer in canonical form, with no byte listed outside its space (20_memory.md R60). -/
def Memory.wf (size : Nat) (b : Buf) : Bool := cellsRising b.cells && b.cells.all fun x => decide (x.1 < size)

/-- Every byte below `n` is listed: it was written since the buffer's contents became unspecified. -/
def writtenBelow (b : Buf) (n : Nat) : Prop := ∀ a, a < n → (cellAt b.cells a).isSome = true

/-- The invariants of every context (44_ama.md R230), and that its payload so far has been written (10_state.md R36). -/
structure CtxInv (p : Params) (x : Ctx) : Prop where
  lenLeTotal : x.rlen.toNat ≤ x.rtotal.toNat
  totalLeSize : x.rtotal.toNat ≤ p.rbufSize
  completeFull : x.rstate = ctxComplete → x.rlen = x.rtotal
  accumulatingShort : x.rstate = accumulating → x.rlen.toNat < x.rtotal.toNat
  awaitingZero : x.rstate = awaitingFragment →
    x.rtotal = 0 ∧ x.rlen = 0 ∧ x.rsid = 0 ∧ x.rtrxn = 0 ∧ x.rseq = 0
  stateLegal : x.rstate ≠ 3
  bufWf : Memory.wf p.rbufSize x.rbuf = true
  payloadWritten : writtenBelow x.rbuf x.rlen.toNat

/-- "In `SENDING`, `TXOFF < TXEND`, so `n ≥ 1`" (44_ama.md R233), with the limits `AMATXI` sets (44_ama.md R232). -/
structure FragInv (p : Params) (x : Frag) : Prop where
  sendingLeft : x.txstate = txSending → x.txoff.toNat < x.txend.toNat
  sendingChunk : x.txstate = txSending → 1 ≤ x.txm.toNat
  endLeSize : x.txend.toNat ≤ p.ibufSize

/-- The bits of `ESTICKY` that a cause of 60_exceptions.md R261 can set: every cause but `UnknownCommandClass` (R263). -/
def stickyMask : Word := 0x003F0036

/-- The invariant of the block: what every step keeps. -/
structure Inv (s : State) : Prop where
  paramsValid : s.params.valid = true
  ctxCount : s.ctxs.length = s.params.amaNctx
  ctxInv : ∀ x ∈ s.ctxs, CtxInv s.params x
  fragInv : FragInv s.params s.tx
  ibufWf : Memory.wf s.params.ibufSize s.ibuf = true
  obufWf : Memory.wf s.params.obufSize s.obuf = true
  /-- `STATUS` is 0, `DONE` or `ERR` (10_state.md R31). -/
  statusLegal : s.status = 0 ∨ s.status = statusDone ∨ s.status = statusErr
  /-- `FLG[31:7]` read as 0 (10_state.md R29). -/
  flgHigh : s.flg.toNat < 2 ^ 7
  /-- `ESTICKY` holds only bits of causes that are produced (60_exceptions.md R261, R263). -/
  stickyLegal : s.esticky &&& ~~~stickyMask = 0
  /-- `CAUSE` is 0 or a cause that is produced (60_exceptions.md R261, R263). -/
  causeLegal : s.cause = 0 ∨ ∃ c : Cause, c ≠ .unknownCommandClass ∧ s.cause = causeCode c
  /-- Entries at and above `TLV_MAX` do not exist (10_state.md R34): they stay 0. -/
  tlvHigh : ∀ i : Fin 64, s.params.tlvMax ≤ i.val → s.tlv[i] = { key := 0, off := 0, len := 0 }

/-! ### What a command leaves -/

/-- `t` is `s` after a raise of cause `c` with information `info` by the command word `w` (60_exceptions.md R270). -/
def Raised (s t : State) (w : Word) (c : Cause) (info : Nat) : Prop :=
  t = { s with
    cause := causeCode c
    einfo := BitVec.ofNat 32 info
    ecmd := w
    esticky := s.esticky ||| (1#32 <<< (causeCode c).toNat)
    status := statusErr }

/-- `t` is `s` after a decode command that completes with the present fields `fs` (10_state.md R24, R25): each present
field's register holds its value and its `PRES` bit is 1, every other register and bit is 0, `CUR` and `FLG` are as
given, `STATUS` is `DONE`, and nothing else has changed. -/
def DecodedTo (s t : State) (fs : List (Fin 32 × Nat)) (cur : Nat) (flg : Word) : Prop :=
  t = { s with f := t.f, pres := t.pres, cur := BitVec.ofNat 16 cur, flg := flg, status := statusDone } ∧
  (∀ i : Fin 32, t.f[i] = BitVec.ofNat 32 ((fs.lookup i).getD 0)) ∧
  (∀ i : Fin 32, t.pres.getLsbD i.val = (fs.lookup i).isSome)

/-- `t` is `s` after an encode command that appends `bs` to `OBUF` and completes (00_scope.md R13 `Append`, 10_state.md
R28): the bytes stand at the old `OLEN`, every other byte of `OBUF` reads as before, `OLEN` has advanced, `FLG` is as
given, `STATUS` is `DONE`, and nothing else has changed. -/
def Appended (s t : State) (bs : List Byte) (flg : Word) : Prop :=
  t = { s with obuf := t.obuf, olen := BitVec.ofNat 16 (s.olen.toNat + bs.length), flg := flg, status := statusDone } ∧
  (∀ i (h : i < bs.length), obufByte t (s.olen.toNat + i) = bs[i]) ∧
  (∀ a, a < s.olen.toNat ∨ s.olen.toNat + bs.length ≤ a → obufByte t a = obufByte s a)

/-- The window `IBUF[CUR .. ILEN-1]` (00_scope.md R14). -/
def window (s : State) : List Byte := ibufBytes s s.cur.toNat (s.ilen.toNat - s.cur.toNat)

/-- The host may append `n` bytes to `OBUF` (00_scope.md R13 `Append`). -/
abbrev HasRoom (s : State) (n : Nat) : Prop := s.olen.toNat + n ≤ s.params.obufSize

/-- Everything but the error registers is as before: what R22 (b) of 10_state.md says of a raise. -/
def OnlyErrorRegisters (s t : State) : Prop :=
  t = { s with cause := t.cause, einfo := t.einfo, ecmd := t.ecmd, esticky := t.esticky, status := statusErr }

end Sys2Proof.Machine
end

