-- ==== Sys2Proof/Certificates/Slice0/Obligations.lean ====
section
/-! DEFINITION. The statements about VWU. Every docstring names the rule of spec/ it formalises. The words the statements
share (`Inv`, `Raised`, `DecodedTo`, `Appended`, `window`, `HasRoom`) are Sys2Proof/Safety.lean, the wire layouts are
Sys2Proof/Layout.lean. -/

open Sys2Proof Sys2Proof.Machine Sys2Proof.Layout

/-! ### Encoding -/

/-- Words of 30_encoding.md R81, one or two of each family, decode to their commands. -/
def Obligations.KnownWordsDecode : Prop :=
  decode 0x00000000 = .ok .nop ∧ decode 0x00000003 = .ok (.rb2ib 0) ∧ decode 0x00000010 = .ok .vwrd2
    ∧ decode 0x00000714 = .ok (.bfext 7) ∧ decode 0x00000819 = .ok (.rdbe 8) ∧ decode 0x00000022 = .ok .flexdec
    ∧ decode 0x00000031 = .ok .aslenc ∧ decode 0x00000043 = .ok .framedec ∧ decode 0x0000FF51 = .ok (.amarx 255)
    ∧ decode 0x00000110 = .error .argument ∧ decode 0x00000099 = .error .opcode ∧ decode 0x00010010 = .error .highBits

/-- Every command has a word, its word decodes to it, and a word that decodes is the word of what it decodes to
(30_encoding.md R80, R81). -/
def Obligations.CommandWordsRoundTrip : Prop :=
  (∀ i, WellFormed i → ∃ w, encode i = some w ∧ decode w = .ok i) ∧
  (∀ w i, decode w = .ok i → WellFormed i ∧ encode i = some w)

/-- 30_encoding.md R106: "a word `w` is the command iff `w AND mask == match`", the masks and matches being those of
opcode_table.json. -/
def Obligations.WordSelectsRowByMask : Prop :=
  ∀ (w : Word) (i : Instr) (mask pat : Word), maskMatch i = some (mask, pat) →
    (w &&& mask = pat ↔ ∃ j, decode w = .ok j ∧ maskMatch j = some (mask, pat))

/-- 30_encoding.md R82: a word is illegal if its high half is not 0, its opcode is not in the table, or it has an argument
that its command does not take; it raises `IllegalCommand(w)` and changes nothing else. Every other word is a command; one
whose argument is out of its command's range raises `BadOperand(arg)`. -/
def Obligations.IllegalWordsRaise : Prop :=
  ∀ (w : Word) (s : State),
    let op := w.toNat % 256
    let arg := w.toNat / 256 % 256
    let withArg := [0x03, 0x14, 0x15, 0x16, 0x19, 0x1A, 0x51, 0x52]
    let table := withArg ++ [0x00, 0x01, 0x02, 0x10, 0x11, 0x12, 0x13, 0x17, 0x18, 0x20, 0x21, 0x22, 0x23, 0x30, 0x31, 0x40,
      0x41, 0x42, 0x43, 0x44, 0x45, 0x46, 0x47, 0x50, 0x53, 0x54]
    if w.toNat / 65536 ≠ 0 ∨ op ∉ table ∨ (op ∉ withArg ∧ arg ≠ 0) then
      ∃ t, runWord w s = .next t ∧ Raised s t w .illegalCommand w.toNat
    else
      (∃ i, decode w = .ok i ∧ runWord w s = exec i s) ∧
      ((op ∈ [0x14, 0x15, 0x16] ∧ (arg = 0 ∨ 32 < arg)) ∨ (op ∈ [0x19, 0x1A] ∧ (arg = 0 ∨ 4 < arg))
          ∨ (op ∈ [0x03, 0x51, 0x52] ∧ s.params.amaNctx ≤ arg) →
        ∃ t, runWord w s = .next t ∧ Raised s t w .badOperand arg)

/-- 30_encoding.md R106: the wire-byte rows "are not commands and no command word selects them": no word decodes to one,
and the model gives it no effect (log 7: that it is a refusal is the model's choice). -/
def Obligations.WireRowsAreNoCommands : Prop :=
  (∀ (w : Word) (i : Instr), decode w = .ok i → i.isCommand = true) ∧
  ∀ (s : State) (h : BitVec 16) (b : BitVec 8),
    exec (.llFixed h) s = .refused (.notACommand "LL_FIXED") ∧ exec (.nlByte b) s = .refused (.notACommand "NL_BYTE")
    ∧ exec (.plByte b) s = .refused (.notACommand "PL_BYTE")
    ∧ exec (.flexTlvByte b) s = .refused (.notACommand "FLEX_TLV_BYTE")
    ∧ exec (.aslFlags b) s = .refused (.notACommand "ASL_FLAGS")
    ∧ exec (.aslVersion b) s = .refused (.notACommand "ASL_VERSION")
    ∧ exec (.aslStatus b) s = .refused (.notACommand "ASL_STATUS")
    ∧ exec (.aslOpaddr b) s = .refused (.notACommand "ASL_OPADDR")
    ∧ exec (.amaHdr h) s = .refused (.notACommand "AMA_HDR") ∧ exec (.vw2Lead b) s = .refused (.notACommand "VW2_LEAD")
    ∧ exec (.vw3Lead b) s = .refused (.notACommand "VW3_LEAD")

/-! ### The step and the host port -/

/-- One step performs the host's next access (20_memory.md R70): a legal word written to `CMD` runs its command (10_state.md
R30), an illegal one raises, any other access is performed, and with none pending the block waits (70_reset_and_hazards.md
R291). What the other accesses do (20_memory.md R67): a read returns the value and has no side effect (R63), a write stores it,
the platform's reset resets (70_reset_and_hazards.md R290). The model's choices: the queue of accesses (log 2), the field
that takes the value a read returns (log 3), the reset as an event in the queue (log 6). -/
def Obligations.StepPerformsNextAccess : Prop :=
  (∀ s, s.hostQueue = [] → step s = .next s) ∧
  (∀ s rest w i, s.hostQueue = .regWrite 0x00 w :: rest → decode w = .ok i → step s = exec i { s with hostQueue := rest }) ∧
  (∀ s rest w e, s.hostQueue = .regWrite 0x00 w :: rest → decode w = .error e →
    ∃ t, step s = .next t ∧ Raised { s with hostQueue := rest } t w .illegalCommand w.toNat) ∧
  (∀ s rest op, s.hostQueue = op :: rest → (∀ w, op ≠ .regWrite 0x00 w) →
    step s = .next (hostAccess { s with hostQueue := rest } op)) ∧
  (∀ s : State,
    (∀ i, hostAccess s (.regRead i) = { s with hostData := regRead s i }) ∧
    (∀ i w, i ≠ 0x00 → hostAccess s (.regWrite i w) = regWrite s i w) ∧
    (∀ b a, hostAccess s (.bufRead b a) = { s with hostData := (hostBufRead s b a).setWidth 32 }) ∧
    (∀ b a v, hostAccess s (.bufWrite b a v) = hostBufWrite s b a v) ∧
    hostAccess s .platformReset = platformReset s) ∧
  (∀ s w i, decode (BitVec.ofNat 32 w) = .ok i → w < 2 ^ 32 → step (s.withFetchWord 32 w) = exec i s)

/-- 10_state.md R40, 60_exceptions.md R277: which register each read-write index names; a write to it is read back truncated to
its width, and no other register, no buffer and no context changes, nor the parameters and what belongs to the host. -/
def Obligations.HostWritesReadBack : Prop :=
  ∀ s : State,
    ((regRead s 0x07).toNat = s.pres.toNat ∧ (regRead s 0x08).toNat = s.ilen.toNat ∧ (regRead s 0x09).toNat = s.cur.toNat ∧
      (regRead s 0x0A).toNat = s.olen.toNat ∧ (regRead s 0x0B).toNat = s.tlvn.toNat) ∧
    (∀ i : Fin 4, regRead s (0x10 + i.val) = s.a[i]) ∧ (∀ i : Fin 32, regRead s (0x20 + i.val) = s.f[i]) ∧
    (∀ i : Fin 64, i.val < s.params.tlvMax →
      (regRead s (0x40 + i.val)).toNat = s.tlv[i].key.toNat ∧ (regRead s (0x80 + i.val)).toNat = s.tlv[i].off.toNat ∧
      (regRead s (0xC0 + i.val)).toNat = s.tlv[i].len.toNat) ∧
    ∀ (i width : Nat) (w : Word),
      ((i = 0x07 ∧ width = 32) ∨ (i ∈ [0x08, 0x09, 0x0A] ∧ width = 16) ∨ (i = 0x0B ∧ width = 7)
        ∨ (0x10 ≤ i ∧ i ≤ 0x13 ∧ width = 32) ∨ (0x20 ≤ i ∧ i ≤ 0x3F ∧ width = 32)
        ∨ (0x40 ≤ i ∧ i ≤ 0x7F ∧ i - 0x40 < s.params.tlvMax ∧ width = 6)
        ∨ (0x80 ≤ i ∧ i ≤ 0xBF ∧ i - 0x80 < s.params.tlvMax ∧ width = 16)
        ∨ (0xC0 ≤ i ∧ i ≤ 0xFF ∧ i - 0xC0 < s.params.tlvMax ∧ width = 8)) →
      let t := regWrite s i w
      (regRead t i).toNat = w.toNat % 2 ^ width ∧ (∀ j, j ≠ i → regRead t j = regRead s j) ∧
      (∀ k : Fin 64, s.params.tlvMax ≤ k.val → t.tlv[k] = s.tlv[k]) ∧
      t.ibuf = s.ibuf ∧ t.obuf = s.obuf ∧ t.ctxs = s.ctxs ∧
      t.params = s.params ∧ t.hostQueue = s.hostQueue ∧ t.hostData = s.hostData

/-- 10_state.md R40, 60_exceptions.md R277: which register each read-only index names, those of a context `c` standing from
`0x100 + 8c` on; a write to a read-only or undefined index is ignored, and an undefined index (as `CMD`, 10_state.md R30)
reads 0. -/
def Obligations.ReadOnlyAndUndefinedIndices : Prop :=
  ∀ s : State,
    ((regRead s 0x01).toNat = s.status.toNat ∧ (regRead s 0x02).toNat = s.cause.toNat ∧
      (regRead s 0x03).toNat = s.einfo.toNat ∧ (regRead s 0x04).toNat = s.ecmd.toNat ∧
      (regRead s 0x06).toNat = s.flg.toNat ∧ (regRead s 0x0C).toNat = s.tx.txstate.toNat ∧
      (regRead s 0x0D).toNat = s.tx.txoff.toNat ∧ (regRead s 0x0E).toNat = s.tx.txend.toNat ∧
      (regRead s 0x0F).toNat = s.tx.txseq.toNat ∧ (regRead s 0x14).toNat = s.tx.txm.toNat ∧
      (regRead s 0x15).toNat = s.tx.txb0.toNat ∧ (regRead s 0x16).toNat = s.tx.txfl.toNat) ∧
    (∀ c x, c < s.params.amaNctx → s.ctxs[c]? = some x →
      let base := 0x100 + 8 * c
      (regRead s base).toNat = x.rstate.toNat ∧ (regRead s (base + 1)).toNat = x.rtotal.toNat ∧
      (regRead s (base + 2)).toNat = x.rlen.toNat ∧ (regRead s (base + 3)).toNat = x.rsid.toNat ∧
      (regRead s (base + 4)).toNat = x.rtrxn.toNat ∧ (regRead s (base + 5)).toNat = x.rseq.toNat) ∧
    ∀ (i : Nat) (w : Word),
      let undefinedIndex := (0x17 ≤ i ∧ i ≤ 0x1F) ∨ (0x40 ≤ i ∧ i ≤ 0xFF ∧ s.params.tlvMax ≤ i % 64)
        ∨ (0x100 ≤ i ∧ (s.params.amaNctx ≤ (i - 0x100) / 8 ∨ 6 ≤ i % 8))
      (undefinedIndex ∨ i ∈ [0x01, 0x02, 0x03, 0x04, 0x06, 0x0C, 0x0D, 0x0E, 0x0F, 0x14, 0x15, 0x16] ∨ 0x100 ≤ i →
        regWrite s i w = s) ∧
      (undefinedIndex ∨ i = 0x00 → regRead s i = 0)

/-- 10_state.md R33: `ESTICKY` is read at index 0x05; a host write of `m` to it clears the bits of `m` and leaves the rest; a
raise of cause code `k` sets bit `k`; no word written to `CMD` clears a bit, but for the soft reset (45_system.md R252), and
reset clears them all. -/
def Obligations.StickyErrorRecord : Prop :=
  (∀ (s : State) (m : Word), regRead s 0x05 = s.esticky ∧
    regWrite s 0x05 m = { s with esticky := (regWrite s 0x05 m).esticky } ∧
    ∀ k, k < 32 → (regWrite s 0x05 m).esticky.getLsbD k = (s.esticky.getLsbD k && !m.getLsbD k)) ∧
  (∀ (w : Word) (s t : State), runWord w s = .next t → decode w ≠ .ok .srst →
    if t.status = statusErr then t.esticky = s.esticky ||| (1#32 <<< t.cause.toNat) else t.esticky = s.esticky) ∧
  (∀ s : State, (platformReset s).esticky = 0 ∧ ∃ t, exec .srst s = .next t ∧ t.esticky = 0)

/-- 20_memory.md R60, R67, 44_ama.md R227, 60_exceptions.md R277: inside a space the host reads the byte that commands read or
have written, `RBUF[c]` included; it reads back the byte it wrote to `IBUF` or `OBUF`, every other byte reads as before and
nothing but that buffer changes; outside a space a read gives 0 and a write is ignored; `RBUF[c]` ignores writes. -/
def Obligations.HostBufferAccess : Prop :=
  ∀ (s : State) (a : Nat) (v : Byte),
    (a < s.params.ibufSize → hostBufRead s .ibuf a = ibufByte s a) ∧
    (a < s.params.obufSize → hostBufRead s .obuf a = obufByte s a) ∧
    (∀ c x, c < s.params.amaNctx → a < s.params.rbufSize → s.ctxs[c]? = some x →
      hostBufRead s (.rbuf c) a = bufByte (.rbuf c) x.rbuf a) ∧
    (a < s.params.ibufSize →
      hostBufRead (hostBufWrite s .ibuf a v) .ibuf a = v ∧
      hostBufWrite s .ibuf a v = { s with ibuf := (hostBufWrite s .ibuf a v).ibuf } ∧
      ∀ b a', (b, a') ≠ (BufId.ibuf, a) → hostBufRead (hostBufWrite s .ibuf a v) b a' = hostBufRead s b a') ∧
    (a < s.params.obufSize →
      hostBufRead (hostBufWrite s .obuf a v) .obuf a = v ∧
      hostBufWrite s .obuf a v = { s with obuf := (hostBufWrite s .obuf a v).obuf } ∧
      ∀ b a', (b, a') ≠ (BufId.obuf, a) → hostBufRead (hostBufWrite s .obuf a v) b a' = hostBufRead s b a') ∧
    (s.params.ibufSize ≤ a → hostBufWrite s .ibuf a v = s ∧ hostBufRead s .ibuf a = 0) ∧
    (s.params.obufSize ≤ a → hostBufWrite s .obuf a v = s ∧ hostBufRead s .obuf a = 0) ∧
    (∀ c, hostBufWrite s (.rbuf c) a v = s ∧
      (s.params.amaNctx ≤ c ∨ s.params.rbufSize ≤ a → hostBufRead s (.rbuf c) a = 0))

/-! ### Reset and the invariant -/

/-- 10_state.md R42, 70_reset_and_hazards.md R290: after reset every register of the map reads 0, in every configuration, from
the first reset and from any later one, which puts every register and context at its reset value and leaves the parameters,
the number of contexts and what belongs to the host (log 6) as they were. -/
def Obligations.RegistersReadZeroAfterReset : Prop :=
  (∀ i, regRead State.reset i = 0) ∧ (∀ p i, regRead (State.resetWith p) i = 0) ∧
  ∀ s : State,
    let t := platformReset s
    (∀ i, regRead t i = 0) ∧
    t = { State.resetWith s.params with
      ctxs := t.ctxs, ibuf := t.ibuf, obuf := t.obuf, hostQueue := s.hostQueue, hostData := s.hostData } ∧
    t.ctxs.length = s.ctxs.length ∧ (∀ x ∈ t.ctxs, ∃ b, x = Ctx.idle b)

/-- The invariant of Safety.lean holds after reset (10_state.md R42, 44_ama.md R230), in the default configuration (log 10) and
in every lawful one: a model is generic in the parameters (00_scope.md R9). -/
def Obligations.ResetMeetsInvariant : Prop :=
  Inv State.reset ∧ ∀ p : Params, p.valid = true → Inv (State.resetWith p)

/-- Every step, from every state, keeps the invariant: the contexts' laws (44_ama.md R230), the fragmenter's (44_ama.md
R233), the canonical form of every buffer, legal status, flag, cause and sticky bits. -/
def Obligations.StepKeepsInvariant : Prop := ∀ s t : State, Inv s → step s = .next t → Inv t

/-! ### Raises -/

/-- 30_encoding.md R83: the prologue's tests of `arg`, of the input window and of the output length, in that order, for the
commands whose columns say so. -/
def Obligations.PrologueRaises : Prop :=
  ∀ (i : Instr) (s : State), WellFormed i →
    let w := commandWord i
    let op := w.toNat % 256
    let arg := w.toNat / 256
    let columnI := [0x10, 0x11, 0x14, 0x19, 0x20, 0x21, 0x22, 0x23, 0x30, 0x31, 0x40, 0x41, 0x42, 0x43, 0x45, 0x47, 0x50, 0x51,
      0x53, 0x54]
    let columnO := [0x12, 0x13, 0x15, 0x1A, 0x21, 0x23, 0x31, 0x44, 0x45, 0x46, 0x47, 0x53, 0x54]
    let argFits := (op ∈ [0x14, 0x15, 0x16] → 1 ≤ arg ∧ arg ≤ 32) ∧ (op ∈ [0x19, 0x1A] → 1 ≤ arg ∧ arg ≤ 4)
      ∧ (op ∈ [0x03, 0x51, 0x52] → arg < s.params.amaNctx)
    let inputFits := op ∈ columnI → s.cur.toNat ≤ s.ilen.toNat ∧ s.ilen.toNat ≤ s.params.ibufSize
    let outputFits := op ∈ columnO → s.olen.toNat ≤ s.params.obufSize
    (¬argFits → ∃ t, exec i s = .next t ∧ Raised s t w .badOperand arg) ∧
    (argFits → ¬inputFits → ∃ t, exec i s = .next t ∧ Raised s t w .badOperand s.cur.toNat) ∧
    (argFits → inputFits → ¬outputFits → ∃ t, exec i s = .next t ∧ Raised s t w .badOperand s.olen.toNat)

/-- 60_exceptions.md R270, 10_state.md R22 (b), 44_ama.md R228: a raise of the command started by the word `w` writes the
error registers and nothing else, but that `AMARX c` after the prologue also aborts context `c`. -/
def Obligations.RaiseWritesOnlyErrorRegisters : Prop :=
  ∀ (w : Word) (s t : State), runWord w s = .next t → t.status = statusErr →
    ∃ cause info,
      ((∀ c, decode w ≠ .ok (.amarx c)) → Raised s t w cause info) ∧
      (∀ c, decode w = .ok (.amarx c) →
        if c.toNat < s.params.amaNctx ∧ s.cur.toNat ≤ s.ilen.toNat ∧ s.ilen.toNat ≤ s.params.ibufSize then
          ∃ b, Raised { s with ctxs := s.ctxs.set c.toNat (Ctx.idle b) } t w cause info
        else Raised s t w cause info)

/-- 70_reset_and_hazards.md R302, 10_state.md R31, R32: every command, in every state, completes or raises, exactly one of
`DONE` and `ERR` is then set, and one that completes leaves `CAUSE`, `EINFO` and `ECMD`, but for the soft reset. -/
def Obligations.CommandCompletesOrRaises : Prop :=
  ∀ (i : Instr) (s : State), WellFormed i →
    ∃ t, exec i s = .next t ∧ (t.status = statusDone ∨ t.status = statusErr) ∧
      (t.status = statusDone → i ≠ .srst → t.cause = s.cause ∧ t.einfo = s.einfo ∧ t.ecmd = s.ecmd)

/-- 60_exceptions.md R262: which causes a command can raise. -/
def Obligations.CausesByCommand : Prop :=
  ∀ (i : Instr) (s t : State), exec i s = .next t → t.status = statusErr →
    let op := (commandWord i).toNat % 256
    let only (ops : List Nat) (causes : List Cause) : Prop :=
      op ∈ ops → ∃ c ∈ Cause.badOperand :: causes, t.cause = causeCode c
    only [0x00, 0x01, 0x52, 0x17, 0x16, 0x18] [] ∧
    only [0x02] [.capacity] ∧
    only [0x03] [.badState, .capacity] ∧
    only [0x10, 0x11] [.malformedField, .invalidDiscriminant] ∧
    only [0x12, 0x13, 0x1A, 0x15] [.encodingConstraint, .capacity] ∧
    only [0x14, 0x19, 0x20] [.malformedField] ∧
    only [0x21] [.encodingConstraint, .capacity] ∧
    only [0x22] [.malformedField, .duplicateKey, .capacity] ∧
    only [0x23] [.duplicateKey, .encodingConstraint, .capacity] ∧
    only [0x30] [.malformedField, .invalidDiscriminant, .unsupported] ∧
    only [0x31] [.encodingConstraint, .unsupported, .capacity] ∧
    only [0x40, 0x41, 0x42, 0x43, 0x50] [.malformedField, .invalidDiscriminant] ∧
    only [0x44, 0x45, 0x46, 0x47, 0x53] [.encodingConstraint, .capacity] ∧
    only [0x51] [.malformedField, .invalidDiscriminant, .capacity, .fragmentSequence] ∧
    only [0x54] [.badState, .capacity]

/-- 60_exceptions.md R263: `UnknownCommandClass` is never raised. -/
def Obligations.UnknownCommandClassNeverRaised : Prop :=
  ∀ (i : Instr) (s t : State), exec i s = .next t → t.status = statusErr → t.cause ≠ causeCode .unknownCommandClass

/-- Who writes what (10_state.md R23, R24, R26, R34, R36, R37, R38, R39; 44_ama.md R224): each piece of state is unchanged by
every command that the spec does not name as writing it. -/
def Obligations.StateWrittenOnlyByItsCommands : Prop :=
  ∀ (i : Instr) (s t : State), exec i s = .next t → i ≠ .srst →
    let op := (commandWord i).toNat % 256
    t.params = s.params ∧ t.hostQueue = s.hostQueue ∧ t.hostData = s.hostData ∧ t.a = s.a ∧
    (op ∉ [0x10, 0x11, 0x14, 0x16, 0x17, 0x18, 0x19, 0x20, 0x22, 0x30, 0x40, 0x41, 0x42, 0x43, 0x50, 0x51] →
      t.f = s.f ∧ t.pres = s.pres) ∧
    (op ∉ [0x02, 0x03, 0x10, 0x11, 0x19, 0x20, 0x22, 0x30, 0x40, 0x41, 0x42, 0x43, 0x50, 0x51] → t.cur = s.cur) ∧
    (op ≠ 0x22 → t.tlv = s.tlv ∧ t.tlvn = s.tlvn) ∧
    (op ∉ [0x53, 0x54] → t.tx = s.tx) ∧
    (op ∉ [0x02, 0x03] → t.ibuf = s.ibuf ∧ t.ilen = s.ilen) ∧
    (op ∉ [0x12, 0x13, 0x15, 0x1A, 0x21, 0x23, 0x31, 0x44, 0x45, 0x46, 0x47, 0x53, 0x54] → t.obuf = s.obuf) ∧
    (op ∉ [0x02, 0x12, 0x13, 0x15, 0x1A, 0x21, 0x23, 0x31, 0x44, 0x45, 0x46, 0x47, 0x53, 0x54] → t.olen = s.olen) ∧
    (op ∉ [0x03, 0x51, 0x52] → t.ctxs = s.ctxs) ∧
    t.ctxs.length = s.ctxs.length ∧
    (∀ d, d ≠ (commandWord i).toNat / 256 → t.ctxs[d]? = s.ctxs[d]?)

/-! ### System commands -/

/-- 45_system.md R251: `NOP` clears `FLG`, sets `STATUS` to `DONE` and changes nothing else; its word is 0, and with an
argument the word is illegal. -/
def Obligations.NopResult : Prop :=
  encode .nop = some 0x00000000 ∧
  ∀ s : State, exec .nop s = .next { s with flg := 0, status := statusDone } ∧
    ∀ arg : Byte, arg ≠ 0 →
      ∃ t, runWord (cmdWord 0x00 arg) s = .next t ∧ Raised s t (cmdWord 0x00 arg) .illegalCommand (256 * arg.toNat)

/-- 45_system.md R252: after `SRST` every register has its reset value but `STATUS`, which reads `DONE`, every context is
idle, the bytes of `IBUF` and `OBUF` are unchanged. -/
def Obligations.SoftResetResult : Prop :=
  encode .srst = some 0x00000001 ∧
  ∀ s : State, ∃ t, exec .srst s = .next t ∧
    t = { State.resetWith s.params with
      status := statusDone, ctxs := t.ctxs, ibuf := s.ibuf, obuf := s.obuf, hostQueue := s.hostQueue, hostData := s.hostData } ∧
    t.ctxs.length = s.ctxs.length ∧ (∀ x ∈ t.ctxs, ∃ b, x = Ctx.idle b) ∧
    (∀ i, regRead t i = if i = 0x01 then 1 else 0)

/-- 45_system.md R253: `OB2IB` copies the valid bytes of `OBUF` to the start of `IBUF`, makes them the window and empties
the output; it raises where `OLEN` passes a capacity. -/
def Obligations.OutputBecomesInput : Prop :=
  encode .ob2ib = some 0x00000002 ∧
  ∀ s : State,
    (s.params.obufSize < s.olen.toNat →
      ∃ t, exec .ob2ib s = .next t ∧ Raised s t 0x00000002 .badOperand s.olen.toNat) ∧
    (s.olen.toNat ≤ s.params.obufSize → s.params.ibufSize < s.olen.toNat →
      ∃ t, exec .ob2ib s = .next t ∧ Raised s t 0x00000002 .capacity s.olen.toNat) ∧
    (s.olen.toNat ≤ s.params.obufSize → s.olen.toNat ≤ s.params.ibufSize →
      ∃ t, exec .ob2ib s = .next t ∧
        t = { s with ibuf := t.ibuf, ilen := s.olen, cur := 0, olen := 0, flg := 0, status := statusDone } ∧
        (∀ a, a < s.olen.toNat → ibufByte t a = obufByte s a) ∧
        (∀ a, s.olen.toNat ≤ a → ibufByte t a = ibufByte s a))

/-- 45_system.md R254: `RB2IB c` copies the payload of a complete context to the start of `IBUF`, makes it the window and
releases the context; it raises on a context that is not there or not complete, without aborting it. -/
def Obligations.PayloadBecomesInput : Prop :=
  ∀ (s : State) (c : BitVec 8),
    let w := cmdWord 0x03 c
    encode (.rb2ib c) = some w ∧
    (s.params.amaNctx ≤ c.toNat → ∃ t, exec (.rb2ib c) s = .next t ∧ Raised s t w .badOperand c.toNat) ∧
    ∀ x, c.toNat < s.params.amaNctx → s.ctxs[c.toNat]? = some x →
      (x.rstate ≠ 2 → ∃ t, exec (.rb2ib c) s = .next t ∧ Raised s t w .badState x.rstate.toNat) ∧
      (x.rstate = 2 → s.params.ibufSize < x.rlen.toNat →
        ∃ t, exec (.rb2ib c) s = .next t ∧ Raised s t w .capacity x.rlen.toNat) ∧
      (x.rstate = 2 → x.rlen.toNat ≤ s.params.ibufSize →
        ∃ t b, exec (.rb2ib c) s = .next t ∧
          t = { s with
            ibuf := t.ibuf, ilen := x.rlen, cur := 0, flg := 0, status := statusDone
            ctxs := s.ctxs.set c.toNat (Ctx.idle b) } ∧
          (∀ a, a < x.rlen.toNat → ibufByte t a = bufByte (.rbuf c.toNat) x.rbuf a) ∧
          (∀ a, x.rlen.toNat ≤ a → ibufByte t a = ibufByte s a))

/-! ### Primitives -/

/-- 40_primitives.md R122, R123, 30_encoding.md R85: `VWRD2` and `VWRD3` report value, width and code of the field at the
cursor and move past it, flag a non-minimal width and bytes left over; an empty window, a reserved code and a field cut
short raise, in that order. -/
def Obligations.VarWidthRead : Prop :=
  encode .vwrd2 = some 0x00000010 ∧ encode .vwrd3 = some 0x00000011 ∧
  ∀ (s : State) (k : VwKind) (i : Instr), (k, i) ∈ [(VwKind.seq2, Instr.vwrd2), (VwKind.addr3, Instr.vwrd3)] →
    s.cur.toNat ≤ s.ilen.toNat → s.ilen.toNat ≤ s.params.ibufSize →
    (∀ (bs rest : List Byte) (v : Nat), window s = bs ++ rest → vwField s.params k bs v = true →
      ∃ t, exec i s = .next t ∧
        DecodedTo s t [(0, v), (1, bs.length), (2, (bs.headD 0).toNat / 2 ^ (8 - vwBits k))] (s.cur.toNat + bs.length)
          (decodeFlags false (vwNarrower s.params k v bs.length) false (rest != []))) ∧
    (window s = [] → ∃ t, exec i s = .next t ∧ Raised s t (commandWord i) .malformedField s.cur.toNat) ∧
    (∀ lead rest, window s = lead :: rest → vwWidth s.params k (lead.toNat / 2 ^ (8 - vwBits k)) = none →
      ∃ t, exec i s = .next t ∧ Raised s t (commandWord i) .invalidDiscriminant s.cur.toNat) ∧
    (∀ lead rest w, window s = lead :: rest → vwWidth s.params k (lead.toNat / 2 ^ (8 - vwBits k)) = some w →
      (window s).length < w → ∃ t, exec i s = .next t ∧ Raised s t (commandWord i) .malformedField s.cur.toNat)

/-- 40_primitives.md R124, R125, 30_encoding.md R86: `VWWR2` and `VWWR3` append the minimal field of value `A[0]`; a value
that no width class holds raises `EncodingConstraint(A[0])`, and bytes that do not fit raise `Capacity(OLEN)`. -/
def Obligations.VarWidthWrite : Prop :=
  encode .vwwr2 = some 0x00000012 ∧ encode .vwwr3 = some 0x00000013 ∧
  ∀ (s : State) (k : VwKind) (i : Instr), (k, i) ∈ [(VwKind.seq2, Instr.vwwr2), (VwKind.addr3, Instr.vwwr3)] →
    (∀ bs, vwMinimal s.params k bs (aVal s 0) = true → HasRoom s bs.length →
      ∃ t, exec i s = .next t ∧ Appended s t bs 0) ∧
    (∀ bs, vwMinimal s.params k bs (aVal s 0) = true → ¬HasRoom s bs.length → s.olen.toNat ≤ s.params.obufSize →
      ∃ t, exec i s = .next t ∧ Raised s t (commandWord i) .capacity s.olen.toNat) ∧
    (vwUnencodable s.params k (aVal s 0) = true → s.olen.toNat ≤ s.params.obufSize →
      ∃ t, exec i s = .next t ∧ Raised s t (commandWord i) .encodingConstraint (aVal s 0))

/-- 30_encoding.md R87 (a): for every value the encoder accepts, decoding the bytes it returns gives the value and their
number, wherever they stand. -/
def Obligations.VarWidthRoundTrip : Prop :=
  ∀ (s : State) (k : VwKind) (v p stop : Nat) (bs : List Byte), s.params.valid = true → vwEncode s.params k v = .ok bs →
    ibufBytes s p bs.length = bs → p + bs.length ≤ stop →
    ∃ code, vwDecode s k p stop = .ok { value := v, width := bs.length, code := code }

/-- 40_primitives.md R126: `BFEXT w` reports the `w` bits from bit position `A[0]` on, the first in the highest place, bit
position `q` being bit `7 - (q mod 8)` of `IBUF[q div 8]`; the cursor does not move; a width out of range and a field that
passes the end of the valid bytes raise. -/
def Obligations.BitExtract : Prop :=
  ∀ (s : State) (w : BitVec 8), encode (.bfext w) = some (cmdWord 0x14 w) ∧
    (w.toNat = 0 ∨ 32 < w.toNat → ∃ t, exec (.bfext w) s = .next t ∧ Raised s t (cmdWord 0x14 w) .badOperand w.toNat) ∧
    (1 ≤ w.toNat → w.toNat ≤ 32 → s.cur.toNat ≤ s.ilen.toNat → s.ilen.toNat ≤ s.params.ibufSize →
    (aVal s 0 + w.toNat ≤ 8 * s.ilen.toNat →
      ∃ t v, exec (.bfext w) s = .next t ∧
        DecodedTo s t [(0, v)] s.cur.toNat (decodeFlags false false false (decide (s.cur.toNat < s.ilen.toNat))) ∧
        v < 2 ^ w.toNat ∧
        ∀ i, i < w.toNat →
          v.testBit (w.toNat - 1 - i) = (ibufByte s ((aVal s 0 + i) / 8)).getLsbD (7 - (aVal s 0 + i) % 8)) ∧
    (8 * s.ilen.toNat < aVal s 0 + w.toNat →
      ∃ t, exec (.bfext w) s = .next t ∧ Raised s t (cmdWord 0x14 w) .malformedField (aVal s 0 / 8)))

/-- 40_primitives.md R127: `BFINS w` stores the `w` bits of `A[1]` from bit position `A[0]` of `OBUF` on, the most significant
first; bytes newly taken in start as zero; every other bit of `OBUF` keeps its value; the raises come in the order written,
that of a width out of range first. -/
def Obligations.BitInsert : Prop :=
  ∀ (s : State) (w : BitVec 8),
    let p := aVal s 0
    let v := aVal s 1
    let newlen := max s.olen.toNat ((p + w.toNat + 7) / 8)
    encode (.bfins w) = some (cmdWord 0x15 w) ∧
    (w.toNat = 0 ∨ 32 < w.toNat → ∃ t, exec (.bfins w) s = .next t ∧ Raised s t (cmdWord 0x15 w) .badOperand w.toNat) ∧
    (1 ≤ w.toNat → w.toNat ≤ 32 → s.olen.toNat ≤ s.params.obufSize →
    (w.toNat < 32 ∧ 2 ^ w.toNat ≤ v →
      ∃ t, exec (.bfins w) s = .next t ∧ Raised s t (cmdWord 0x15 w) .encodingConstraint v) ∧
    (v < 2 ^ w.toNat → 8 * s.params.obufSize < p + w.toNat →
      ∃ t, exec (.bfins w) s = .next t ∧ Raised s t (cmdWord 0x15 w) .capacity (p / 8)) ∧
    (v < 2 ^ w.toNat → p + w.toNat ≤ 8 * s.params.obufSize →
      ∃ t, exec (.bfins w) s = .next t ∧
        t = { s with obuf := t.obuf, olen := BitVec.ofNat 16 newlen, flg := 0, status := statusDone } ∧
        ∀ q, (obufByte t (q / 8)).getLsbD (7 - q % 8) =
          if p ≤ q ∧ q < p + w.toNat then v.testBit (w.toNat - 1 - (q - p))
          else if s.olen.toNat ≤ q / 8 ∧ q / 8 < newlen then false
          else (obufByte s (q / 8)).getLsbD (7 - q % 8)))

/-- 40_primitives.md R128: `TWOC n` reports the 32-bit two's-complement image of the `n`-bit `A[0]`; a width out of range
raises `BadOperand(n)`, bits at or above bit `n` raise `BadOperand(u)`. -/
def Obligations.TwosComplement : Prop :=
  ∀ (s : State) (n : BitVec 8), encode (.twoc n) = some (cmdWord 0x16 n) ∧
    (n.toNat = 0 ∨ 32 < n.toNat → ∃ t, exec (.twoc n) s = .next t ∧ Raised s t (cmdWord 0x16 n) .badOperand n.toNat) ∧
    (1 ≤ n.toNat → n.toNat ≤ 32 →
    (aVal s 0 < 2 ^ n.toNat →
      ∃ t, exec (.twoc n) s = .next t ∧
        DecodedTo s t [(0, if aVal s 0 < 2 ^ (n.toNat - 1) then aVal s 0 else aVal s 0 + 2 ^ 32 - 2 ^ n.toNat)]
          s.cur.toNat 0) ∧
    (2 ^ n.toNat ≤ aVal s 0 → ∃ t, exec (.twoc n) s = .next t ∧ Raised s t (cmdWord 0x16 n) .badOperand (aVal s 0)))

/-- 40_primitives.md R129, 30_encoding.md R103: `IDSPLIT` reports the true id and the opcode of the raw id in `A[0]`. -/
def Obligations.IdSplit : Prop :=
  encode .idsplit = some 0x00000017 ∧
  ∀ s : State, ∃ t, exec .idsplit s = .next t ∧ DecodedTo s t [(0, aVal s 0 / 4), (1, aVal s 0 % 4)] s.cur.toNat 0

/-- 40_primitives.md R130: `IDJOIN` composes a raw id, refuses an opcode above 3 and then an id of `2^30` or more, and
`IDSPLIT` of its result gives both parts back. -/
def Obligations.IdJoin : Prop :=
  encode .idjoin = some 0x00000018 ∧
  ∀ s : State,
    (3 < aVal s 1 → ∃ t, exec .idjoin s = .next t ∧ Raised s t 0x00000018 .badOperand (aVal s 1)) ∧
    (aVal s 1 ≤ 3 → 2 ^ 30 ≤ aVal s 0 → ∃ t, exec .idjoin s = .next t ∧ Raised s t 0x00000018 .badOperand (aVal s 0)) ∧
    (aVal s 1 ≤ 3 → aVal s 0 < 2 ^ 30 →
      ∃ t, exec .idjoin s = .next t ∧ DecodedTo s t [(0, 4 * aVal s 0 + aVal s 1)] s.cur.toNat 0 ∧
        ∀ u, exec .idsplit { t with a := t.a.set 0 t.f[0] } = .next u → u.f[0] = s.a[0] ∧ u.f[1] = s.a[1])

/-- 40_primitives.md R131: `RDBE n` reports the big-endian value of the `n` bytes at the cursor and moves past them; a number
of bytes out of range, and fewer bytes in the window, raise. -/
def Obligations.FixedWidthRead : Prop :=
  ∀ (s : State) (n : BitVec 8), encode (.rdbe n) = some (cmdWord 0x19 n) ∧
    (n.toNat = 0 ∨ 4 < n.toNat → ∃ t, exec (.rdbe n) s = .next t ∧ Raised s t (cmdWord 0x19 n) .badOperand n.toNat) ∧
    (1 ≤ n.toNat → n.toNat ≤ 4 → s.cur.toNat ≤ s.ilen.toNat → s.ilen.toNat ≤ s.params.ibufSize →
    (∀ bs rest : List Byte, window s = bs ++ rest → bs.length = n.toNat →
      ∃ t, exec (.rdbe n) s = .next t ∧
        DecodedTo s t [(0, beNat bs), (1, n.toNat)] (s.cur.toNat + n.toNat) (decodeFlags false false false (rest != []))) ∧
    ((window s).length < n.toNat →
      ∃ t, exec (.rdbe n) s = .next t ∧ Raised s t (cmdWord 0x19 n) .malformedField s.cur.toNat))

/-- 40_primitives.md R132: `WRBE n` appends `A[0]` as `n` big-endian bytes; a number of bytes out of range raises
`BadOperand(n)`, a value that does not fit `EncodingConstraint(A[0])`, bytes that do not fit `Capacity(OLEN)`. -/
def Obligations.FixedWidthWrite : Prop :=
  ∀ (s : State) (n : BitVec 8), encode (.wrbe n) = some (cmdWord 0x1A n) ∧
    (n.toNat = 0 ∨ 4 < n.toNat → ∃ t, exec (.wrbe n) s = .next t ∧ Raised s t (cmdWord 0x1A n) .badOperand n.toNat) ∧
    (1 ≤ n.toNat → n.toNat ≤ 4 → s.olen.toNat ≤ s.params.obufSize →
    (2 ^ (8 * n.toNat) ≤ aVal s 0 →
      ∃ t, exec (.wrbe n) s = .next t ∧ Raised s t (cmdWord 0x1A n) .encodingConstraint (aVal s 0)) ∧
    (∀ bs : List Byte, bs.length = n.toNat → beNat bs = aVal s 0 →
      (HasRoom s n.toNat → ∃ t, exec (.wrbe n) s = .next t ∧ Appended s t bs 0) ∧
      (¬HasRoom s n.toNat → ∃ t, exec (.wrbe n) s = .next t ∧ Raised s t (cmdWord 0x1A n) .capacity s.olen.toNat)))

/-! ### Flex -/

/-- 41_flex.md R152: `TLVRD` reports key, class, length, value offset of the header field at the cursor, and whether its key
is known, and moves past it; a field cut short raises. -/
def Obligations.TlvRead : Prop :=
  encode .tlvrd = some 0x00000020 ∧
  ∀ (s : State) (x : Tlv), s.cur.toNat ≤ s.ilen.toNat → s.ilen.toNat ≤ s.params.ibufSize → tlvLegal x = true →
    (∀ rest, window s = tlvBytes x ++ rest →
      ∃ t, exec .tlvrd s = .next t ∧
        DecodedTo s t [(0, x.key.toNat), (1, x.lc), (2, x.value.length), (3, s.cur.toNat + (tlvHead x).length),
            (4, (flexKnown s.params x.key).toNat)] (s.cur.toNat + (tlvBytes x).length)
          (decodeFlags false (tlvNoncanon x) (!flexKnown s.params x.key) (rest != []))) ∧
    (window s <+: tlvBytes x → (window s).length < (tlvBytes x).length →
      ∃ t, exec .tlvrd s = .next t ∧ Raised s t 0x00000020 .malformedField s.cur.toNat)

/-- 41_flex.md R153: `TLVWR` appends the header field of key `A[0]` whose value is the slice `A[1]`, `A[2]`, in the class its
length selects; its raises come in the order written. -/
def Obligations.TlvWrite : Prop :=
  encode .tlvwr = some 0x00000021 ∧
  ∀ s : State, s.cur.toNat ≤ s.ilen.toNat → s.ilen.toNat ≤ s.params.ibufSize → s.olen.toNat ≤ s.params.obufSize →
    let field := tlvBytes (tlvOfEntry s
      { key := BitVec.ofNat 6 (aVal s 0), off := BitVec.ofNat 16 (aVal s 1), len := BitVec.ofNat 8 (aVal s 2) })
    (63 < aVal s 0 → ∃ t, exec .tlvwr s = .next t ∧ Raised s t 0x00000021 .badOperand (aVal s 0)) ∧
    (aVal s 0 ≤ 63 → 255 < aVal s 2 →
      ∃ t, exec .tlvwr s = .next t ∧ Raised s t 0x00000021 .encodingConstraint (aVal s 2)) ∧
    (aVal s 0 ≤ 63 → aVal s 2 ≤ 255 → s.ilen.toNat < aVal s 1 + aVal s 2 →
      ∃ t, exec .tlvwr s = .next t ∧ Raised s t 0x00000021 .badOperand (aVal s 1)) ∧
    (aVal s 0 ≤ 63 → aVal s 2 ≤ 255 → aVal s 1 + aVal s 2 ≤ s.ilen.toNat →
      (HasRoom s field.length → ∃ t, exec .tlvwr s = .next t ∧ Appended s t field 0) ∧
      (¬HasRoom s field.length → ∃ t, exec .tlvwr s = .next t ∧ Raised s t 0x00000021 .capacity s.olen.toNat))

/-- 41_flex.md R154: `FLEXDEC` on a frame of legal header fields, known keys distinct and not more than the table holds:
the results, the table entries of the known fields in frame order, the entries above unchanged. -/
def Obligations.FlexDecode : Prop :=
  ∀ (s : State) (xs : List Tlv) (cls id data : List Byte),
    s.cur.toNat ≤ s.ilen.toNat → s.ilen.toNat ≤ s.params.ibufSize → s.params.valid = true →
    (∀ x ∈ xs, tlvLegal x = true) → cls.length = 2 → id.length = 2 →
    let hdr := xs.flatMap tlvBytes
    let known := xs.filter fun x => flexKnown s.params x.key
    let entries := tlvEntries s.params (s.cur.toNat + 1) xs
    window s = [octet hdr.length] ++ hdr ++ cls ++ id ++ data → hdr.length ≤ 255 →
    (known.map (·.key)).Nodup → known.length ≤ s.params.tlvMax →
    ∃ t tlv', exec .flexdec s = .next t ∧
      (∀ i : Fin 64, tlv'[i] = (entries[i.val]?).getD s.tlv[i]) ∧
      DecodedTo { s with tlv := tlv', tlvn := BitVec.ofNat 7 known.length } t
        ([(0, hdr.length), (1, beNat cls), (2, beNat id), (3, beNat id / 4), (4, beNat id % 4), (7, known.length),
          (8, xs.length - known.length)] ++ sliceAt 5 6 (s.cur.toNat + 1 + hdr.length + 4) data.length)
        s.ilen.toNat (decodeFlags false (xs.any tlvNoncanon) (decide (known.length < xs.length)) false)

/-- 41_flex.md R154: the raises of `FLEXDEC`. A window under five bytes, or whose header length leaves no room for class and
id, raises `MalformedField(base)`. After legal header fields, known keys distinct and not more than the table holds, the next
field raises: `MalformedField(p)` if it passes the declared end of the header, "even if bytes remain in the buffer";
`DuplicateKey(p)` if its key is known and was met before; `Capacity(p)` if its key is known and the table is full. -/
def Obligations.FlexDecodeRaises : Prop :=
  ∀ s : State, s.cur.toNat ≤ s.ilen.toNat → s.ilen.toNat ≤ s.params.ibufSize →
    let raises (cause : Cause) (info : Nat) : Prop := ∃ t, exec .flexdec s = .next t ∧ Raised s t 0x00000022 cause info
    ((window s).length < 5 → raises .malformedField s.cur.toNat) ∧
    (∀ hl rest, window s = hl :: rest → rest.length < hl.toNat + 4 → raises .malformedField s.cur.toNat) ∧
    (∀ (xs : List Tlv) (y : Tlv) (tail rest : List Byte), (∀ x ∈ xs, tlvLegal x = true) → tlvLegal y = true →
      let hdr := xs.flatMap tlvBytes
      let keys := (xs.filter fun x => flexKnown s.params x.key).map (·.key)
      let next := s.cur.toNat + 1 + hdr.length
      window s = [octet (hdr ++ tail).length] ++ hdr ++ tail ++ rest → (hdr ++ tail).length ≤ 255 → 4 ≤ rest.length →
      keys.Nodup → keys.length ≤ s.params.tlvMax →
      (tail ≠ [] → tail <+: tlvBytes y → tail.length < (tlvBytes y).length → raises .malformedField next) ∧
      (tlvBytes y <+: tail → flexKnown s.params y.key = true → y.key ∈ keys → raises .duplicateKey next) ∧
      (tlvBytes y <+: tail → flexKnown s.params y.key = true → y.key ∉ keys → keys.length = s.params.tlvMax →
        raises .capacity next))

/-- 41_flex.md R155: `FLEXENC` makes its tests in the order written, the number of entries, then for each entry a key met
before and a slice outside the valid bytes, then the header's length, class, id and data slice, and raises at the first that
fails; where none does it appends header length, fields in table order, class, id and data, or raises `Capacity(OLEN)`. -/
def Obligations.FlexEncode : Prop :=
  encode .flexenc = some 0x00000023 ∧
  ∀ s : State, s.cur.toNat ≤ s.ilen.toNat → s.ilen.toNat ≤ s.params.ibufSize → s.olen.toNat ≤ s.params.obufSize →
    (∀ cause info, firstFailing (flexChecks s) = some (cause, info) →
      ∃ t, exec .flexenc s = .next t ∧ Raised s t 0x00000023 cause info) ∧
    (∀ cls id : List Byte, firstFailing (flexChecks s) = none →
      cls.length = 2 → beNat cls = fVal s 1 → id.length = 2 → beNat id = fVal s 2 →
      let data := if presBit s 5 then ibufBytes s (fVal s 5) (fVal s 6) else []
      let frame := [octet (flexHeader s).length] ++ flexHeader s ++ cls ++ id ++ data
      (HasRoom s frame.length → ∃ t, exec .flexenc s = .next t ∧ Appended s t frame 0) ∧
      (¬HasRoom s frame.length → ∃ t, exec .flexenc s = .next t ∧ Raised s t 0x00000023 .capacity s.olen.toNat))

/-- 41_flex.md R156 (a): a frame that `FLEXDEC` decodes without `NONCANON` and `UNKNOWNKEY` is what `FLEXENC` then encodes
(with room in `OBUF`). -/
def Obligations.FlexRoundTrip : Prop :=
  ∀ s t : State, s.params.valid = true → exec .flexdec s = .next t → t.status = statusDone →
    t.flg.getLsbD 1 = false → t.flg.getLsbD 2 = false → (window s).length ≤ s.params.obufSize →
    ∃ u, exec .flexenc { t with olen := 0 } = .next u ∧ Appended { t with olen := 0 } u (window s) 0

/-! ### Unified ASL -/

/-- 42_asl.md R172, 30_encoding.md R95: with `app_enc_ena` set only the flag byte is decoded, whatever the other flags say,
and the remainder is one opaque slice; an empty window raises. -/
def Obligations.AslDecodeEncrypted : Prop :=
  ∀ s : State, s.cur.toNat ≤ s.ilen.toNat → s.ilen.toNat ≤ s.params.ibufSize →
    (window s = [] → ∃ t, exec .asldec s = .next t ∧ Raised s t 0x00000030 .malformedField s.cur.toNat) ∧
    (∀ (g : Byte) (rest : List Byte), window s = g :: rest → g.getLsbD 4 = true →
      ∃ t, exec .asldec s = .next t ∧
        DecodedTo s t
          ([(0, g.toNat), (1, (g.getLsbD 7).toNat), (2, (g.getLsbD 6).toNat), (3, (g.getLsbD 5).toNat), (4, 1),
            (5, (g.getLsbD 3).toNat), (6, (g.getLsbD 2).toNat)] ++ sliceAt 24 25 (s.cur.toNat + 1) rest.length)
          s.ilen.toNat (decodeFlags true false false false))

/-- 42_asl.md R172, R171, 30_encoding.md R94 to R96: `ASLDEC` on a legal header that is not encrypted reports the fields of
the blocks that its flags announce, and what follows as one slice; a reserved width code of `seqn_num` raises
`InvalidDiscriminant` at that field. -/
def Obligations.AslDecodeClear : Prop :=
  ∀ (s : State) (x : Asl), s.cur.toNat ≤ s.ilen.toNat → s.ilen.toNat ≤ s.params.ibufSize →
    (∀ rest : List Byte, s.params.valid = true → aslLegal s.params x = true → window s = aslBytes x ++ rest →
      ∃ t, exec .asldec s = .next t ∧
        DecodedTo s t (aslFields s.cur.toNat x ++ sliceAt 24 25 (s.cur.toNat + (aslBytes x).length) rest.length) s.ilen.toNat
          (decodeFlags false (aslNoncanon s.params x) false false)) ∧
    (∀ (lead : Byte) (rest : List Byte), aslHeadLegal x = true → x.seqnInc = 1 →
      window s = (aslHead x).flatten ++ lead :: rest → vwWidth s.params .seq2 (lead.toNat / 64) = none →
      ∃ t, exec .asldec s = .next t ∧
        Raised s t 0x00000030 .invalidDiscriminant (s.cur.toNat + (aslHead x).flatten.length))

/-- 42_asl.md R170, R172, R173: a network data blob or `additional_app_data` that is announced where the configuration has no
prefix function for it raises `Unsupported`: on decode at the offset where its prefix would stand, on encode with the number
of its offset register, 11 or 16. Where there is a prefix function and it takes none of the bytes that follow, decode raises
`MalformedField` at that offset. -/
def Obligations.AslBlobUnsupported : Prop :=
  (∀ (s : State) (x : Asl) (rest : List Byte), s.cur.toNat ≤ s.ilen.toNat → s.ilen.toNat ≤ s.params.ibufSize →
    let raises (cause : Cause) (info : Nat) : Prop := ∃ t, exec .asldec s = .next t ∧ Raised s t 0x00000030 cause info
    let refused (pfx : Option PrefixTable) (info : Nat) : Prop :=
      (pfx = none → raises .unsupported info) ∧
      (∀ table, pfx = some table → (∀ e ∈ table, ¬e.1 <+: rest) → raises .malformedField info)
    (aslLegal1 s.params x = true → x.blobInc = 1 → window s = aslBytes1 x ++ rest →
      refused s.params.aslBlobPrefix (s.cur.toNat + (aslBytes1 x).length)) ∧
    (s.params.valid = true → aslLegal2 s.params x = true → x.statusHdrInc = 1 → x.aadInc = 1 →
      window s = aslBytes2 x ++ rest → refused s.params.aslAadPrefix (s.cur.toNat + (aslBytes2 x).length))) ∧
  (∀ s : State, s.cur.toNat ≤ s.ilen.toNat → s.ilen.toNat ≤ s.params.ibufSize → s.olen.toNat ≤ s.params.obufSize →
    fVal s 1 < 2 → fVal s 2 < 2 → fVal s 3 < 2 → fVal s 4 = 0 → fVal s 5 < 2 → fVal s 6 < 2 →
    (fVal s 1 = 1 → fVal s 7 < 4 ∧ fVal s 8 < 64) → (fVal s 3 = 1 → vwUnencodable s.params .seq2 (fVal s 9) = false) →
    (fVal s 6 = 1 → s.params.aslBlobPrefixEnc = none →
      ∃ t, exec .aslenc s = .next t ∧ Raised s t 0x00000031 .unsupported 11) ∧
    ((fVal s 6 = 1 → fVal s 11 + fVal s 12 ≤ s.ilen.toNat ∧
        ∃ table pre, s.params.aslBlobPrefixEnc = some table ∧ prefixWrite table (fVal s 12) = some pre) →
      fVal s 5 = 1 → fVal s 13 < 2 → (fVal s 13 = 1 → fVal s 15 < 2 ^ (8 * s.params.aslStatusCodeBytes)) → fVal s 14 = 1 →
      s.params.aslAadPrefixEnc = none →
      ∃ t, exec .aslenc s = .next t ∧ Raised s t 0x00000031 .unsupported 16))

/-- 42_asl.md R173: `ASLENC` makes its tests in the order written and raises at the first that fails; it appends the canonical
header that its operand registers hold and, when `PRES[24] = 1`, the payload slice, or raises `Capacity(OLEN)`; with
`F[4] = 1` only the flag byte and the opaque slice. -/
def Obligations.AslEncode : Prop :=
  encode .aslenc = some 0x00000031 ∧
  ∀ s : State, s.cur.toNat ≤ s.ilen.toNat → s.ilen.toNat ≤ s.params.ibufSize → s.olen.toNat ≤ s.params.obufSize →
    let appends (bs : List Byte) : Prop :=
      (HasRoom s bs.length → ∃ t, exec .aslenc s = .next t ∧ Appended s t bs 0) ∧
      (¬HasRoom s bs.length → ∃ t, exec .aslenc s = .next t ∧ Raised s t 0x00000031 .capacity s.olen.toNat)
    (∀ cause info, firstFailing (aslChecks s) = some (cause, info) →
      ∃ t, exec .aslenc s = .next t ∧ Raised s t 0x00000031 cause info) ∧
    (∀ tail : List Byte, (if presBit s 24 then sliceHeld s 24 25 tail = true else tail = []) →
      (∀ x : Asl, aslCanonical s.params x = true → aslHeld s x = true → appends (aslBytes x ++ tail)) ∧
      (fVal s 1 < 2 → fVal s 2 < 2 → fVal s 3 < 2 → fVal s 4 = 1 → fVal s 5 < 2 → fVal s 6 < 2 →
        appends
          (octet (128 * fVal s 1 + 64 * fVal s 2 + 32 * fVal s 3 + 16 + 8 * fVal s 5 + 4 * fVal s 6) :: tail)))

/-! ### Legacy frame -/

/-- 43_frame.md R192, R190, 30_encoding.md R100: `LLDEC` on a legal link-layer header; a reserved `frame_type`, above
`FRAME_TYPE_MAX`, raises `InvalidDiscriminant` at the header, and a reserved width code of the source address, the
destination address or `seqn_num` raises it at that field, from `LLDEC` and from `FRAMEDEC` (43_frame.md R195). -/
def Obligations.LinkDecode : Prop :=
  ∀ s : State, s.cur.toNat ≤ s.ilen.toNat → s.ilen.toNat ≤ s.params.ibufSize →
    (∀ (x : Link) (rest : List Byte), linkLegal s.params x = true → window s = linkBytes x ++ rest →
      ∃ t, exec .lldec s = .next t ∧
        DecodedTo s t (linkFields s.params x) (s.cur.toNat + (linkBytes x).length)
          (decodeFlags false (linkNoncanon s.params x) false (rest != []))) ∧
    ∀ (i : Instr) (w : Word), (i, w) ∈ [(Instr.lldec, (0x00000040 : Word)), (Instr.framedec, 0x00000043)] →
      let reserved (info : Nat) : Prop := ∃ t, exec i s = .next t ∧ Raised s t w .invalidDiscriminant info
      (∀ (b0 b1 : Byte) (rest : List Byte), window s = b0 :: b1 :: rest → s.params.frameTypeMax < b0.toNat / 32 →
        reserved s.cur.toNat) ∧
      (∀ (x : Link) (lead : Byte) (rest : List Byte), linkFixedLegal s.params x = true →
        (fmtIsCloud s.params x.srcFormat = false → vwWidth s.params .addr3 (lead.toNat / 32) = none →
          window s = linkFixedBytes x ++ lead :: rest → reserved (s.cur.toNat + 2)) ∧
        (addrLegal s.params x.srcFormat x.src x.srcVal = true →
          (fmtIsCloud s.params x.dstFormat = false → vwWidth s.params .addr3 (lead.toNat / 32) = none →
            window s = linkFixedBytes x ++ x.src ++ lead :: rest → reserved (s.cur.toNat + 2 + x.src.length)) ∧
          (addrLegal s.params x.dstFormat x.dst x.dstVal = true → vwWidth s.params .seq2 (lead.toNat / 64) = none →
            window s = linkFixedBytes x ++ x.src ++ x.dst ++ lead :: rest →
            reserved (s.cur.toNat + 2 + x.src.length + x.dst.length))))

/-- 43_frame.md R193: `NLDEC` on a legal network-layer header; a reserved `auth_code_size` code raises. -/
def Obligations.NetDecode : Prop :=
  ∀ s : State, s.cur.toNat ≤ s.ilen.toNat → s.ilen.toNat ≤ s.params.ibufSize →
    (∀ (x : Net) (rest : List Byte), netLegal s.params x = true → window s = netBytes x ++ rest →
      ∃ t, exec .nldec s = .next t ∧
        DecodedTo s t (netFields s.cur.toNat x) (s.cur.toNat + (netBytes x).length)
          (decodeFlags false false false (rest != []))) ∧
    (∀ (n : Byte) (rest : List Byte), window s = n :: rest → authSize s.params (n.toNat / 4 % 8) = none →
      ∃ t, exec .nldec s = .next t ∧ Raised s t 0x00000041 .invalidDiscriminant s.cur.toNat)

/-- 43_frame.md R194, 30_encoding.md R91: `PLDEC` on a legal presentation-layer header; a reserved width code of `seqn` raises
`InvalidDiscriminant` at that field. -/
def Obligations.PresDecode : Prop :=
  ∀ (s : State) (x : Pres), s.cur.toNat ≤ s.ilen.toNat → s.ilen.toNat ≤ s.params.ibufSize →
    (∀ rest : List Byte, presLegal s.params x = true → window s = presBytes x ++ rest →
      ∃ t, exec .pldec s = .next t ∧
        DecodedTo s t (presFields x) (s.cur.toNat + (presBytes x).length)
          (decodeFlags false (presNoncanon s.params x) false (rest != []))) ∧
    (∀ (lead : Byte) (rest : List Byte), presHeadLegal x = true → x.seqnInc = 1 →
      window s = (presHead x).flatten ++ lead :: rest → vwWidth s.params .seq2 (lead.toNat / 64) = none →
      ∃ t, exec .pldec s = .next t ∧
        Raised s t 0x00000042 .invalidDiscriminant (s.cur.toNat + (presHead x).flatten.length))

/-- 43_frame.md R195: `FRAMEDEC` on three legal headers, or on two and an opaque remainder when `encr_ena` is set; after a
legal link-layer header a reserved `auth_code_size` code raises `InvalidDiscriminant` at the network-layer header, and after
both a reserved width code of `seqn` raises it at that field (those of the link layer: `LinkDecode`). -/
def Obligations.FrameDecode : Prop :=
  ∀ (s : State) (ll : Link), s.cur.toNat ≤ s.ilen.toNat → s.ilen.toNat ≤ s.params.ibufSize → linkLegal s.params ll = true →
    let nlAt := s.cur.toNat + (linkBytes ll).length
    let reserved (info : Nat) : Prop := ∃ t, exec .framedec s = .next t ∧ Raised s t 0x00000043 .invalidDiscriminant info
    (∀ (nl : Net) (pl : Pres) (rest : List Byte),
      netLegal s.params nl = true → (nl.encrEna = 0 → presLegal s.params pl = true) →
      let plBytes := if nl.encrEna = 0 then presBytes pl else []
      let plFields := if nl.encrEna = 0 then presFields pl else []
      let restAt := nlAt + (netBytes nl).length + plBytes.length
      window s = linkBytes ll ++ netBytes nl ++ plBytes ++ rest →
      ∃ t, exec .framedec s = .next t ∧
        DecodedTo s t (linkFields s.params ll ++ netFields nlAt nl ++ plFields ++ sliceAt 26 27 restAt rest.length)
          s.ilen.toNat
          (decodeFlags (nl.encrEna == 1) (linkNoncanon s.params ll || (nl.encrEna == 0 && presNoncanon s.params pl)) false
            false)) ∧
    (∀ (n : Byte) (rest : List Byte), window s = linkBytes ll ++ n :: rest → authSize s.params (n.toNat / 4 % 8) = none →
      reserved nlAt) ∧
    (∀ (nl : Net) (pl : Pres) (lead : Byte) (rest : List Byte), netLegal s.params nl = true → nl.encrEna = 0 →
      presHeadLegal pl = true → pl.seqnInc = 1 → vwWidth s.params .seq2 (lead.toNat / 64) = none →
      window s = linkBytes ll ++ netBytes nl ++ (presHead pl).flatten ++ lead :: rest →
      reserved (nlAt + (netBytes nl).length + (presHead pl).flatten.length))

/-- 60_exceptions.md R264, 30_encoding.md R102: a window that holds only a part of a legal header raises `MalformedField` and
is "never partially parsed"; `EINFO` is the offset of the first field whose bytes run past the window (43_frame.md R192 to
R195, 42_asl.md R172), of the Flex field or frame (41_flex.md R152, R154), of the AMA fragment or its `pkt_len` (44_ama.md
R220). `AMARX` also aborts its context (44_ama.md R228). -/
def Obligations.TruncatedHeadersRaise : Prop :=
  ∀ s : State, s.cur.toNat ≤ s.ilen.toNat → s.ilen.toNat ≤ s.params.ibufSize →
    let cut (bs : List Byte) : Prop := window s <+: bs ∧ (window s).length < bs.length
    let malformed (i : Instr) (info : Nat) : Prop :=
      ∃ t, exec i s = .next t ∧ Raised s t (commandWord i) .malformedField info
    let malformedAtCut (i : Instr) (pieces : List (List Byte)) : Prop :=
      cut pieces.flatten → malformed i (cutAt s.cur.toNat pieces (window s).length)
    (∀ x, linkLegal s.params x = true → malformedAtCut .lldec (linkPieces x)) ∧
    (∀ x, netLegal s.params x = true → malformedAtCut .nldec (netPieces x)) ∧
    (∀ x, presLegal s.params x = true → malformedAtCut .pldec (presPieces x)) ∧
    (∀ ll nl pl, linkLegal s.params ll = true → netLegal s.params nl = true →
      (nl.encrEna = 0 → presLegal s.params pl = true) →
      malformedAtCut .framedec (linkPieces ll ++ netPieces nl ++ (if nl.encrEna = 0 then presPieces pl else []))) ∧
    (∀ x, s.params.valid = true → aslLegal s.params x = true → malformedAtCut .asldec (aslPieces x)) ∧
    (∀ x, tlvLegal x = true → cut (tlvBytes x) → malformed .tlvrd s.cur.toNat) ∧
    (∀ hdr cls id : List Byte, hdr.length ≤ 255 → cls.length = 2 → id.length = 2 →
      cut ([octet hdr.length] ++ hdr ++ cls ++ id) → malformed .flexdec s.cur.toNat) ∧
    (∀ x, amaLegal x = true → cut (amaHead x ++ x.payload) →
      let short := (window s).length ≤ 2 ∨ (x.type = 0 ∧ (window s).length ≤ 5)
      let info := if short then s.cur.toNat else s.cur.toNat + (amaHead x).length - 1
      malformed .amahdr info ∧
      ∀ c : BitVec 8, c.toNat < s.params.amaNctx →
        ∃ t b, exec (.amarx c) s = .next t ∧
          Raised { s with ctxs := s.ctxs.set c.toNat (Ctx.idle b) } t (commandWord (.amarx c)) .malformedField info)

/-- 43_frame.md R196: `LLENC` makes its tests in the order written and raises at the first that fails, a reserved `frame_type`
among them; it appends the canonical header that its operand registers hold, or raises `Capacity(OLEN)`. -/
def Obligations.LinkEncode : Prop :=
  encode .llenc = some 0x00000044 ∧
  ∀ s : State, s.olen.toNat ≤ s.params.obufSize →
    (∀ cause info, firstFailing (linkChecks s) = some (cause, info) →
      ∃ t, exec .llenc s = .next t ∧ Raised s t 0x00000044 cause info) ∧
    (∀ x : Link, linkCanonical s.params x = true → linkHeld s x = true →
      (HasRoom s (linkBytes x).length → ∃ t, exec .llenc s = .next t ∧ Appended s t (linkBytes x) 0) ∧
      (¬HasRoom s (linkBytes x).length → ∃ t, exec .llenc s = .next t ∧ Raised s t 0x00000044 .capacity s.olen.toNat))

/-- 43_frame.md R197: `NLENC` makes its tests in the order written and raises at the first that fails, a size that is not one
of the configuration's by `EncodingConstraint(15)`; it appends the canonical header that its operand registers hold, or raises
`Capacity(OLEN)`. -/
def Obligations.NetEncode : Prop :=
  encode .nlenc = some 0x00000045 ∧
  ∀ s : State, s.cur.toNat ≤ s.ilen.toNat → s.ilen.toNat ≤ s.params.ibufSize → s.olen.toNat ≤ s.params.obufSize →
    (∀ cause info, firstFailing (netChecks s) = some (cause, info) →
      ∃ t, exec .nlenc s = .next t ∧ Raised s t 0x00000045 cause info) ∧
    (∀ x : Net, netCanonical s.params x = true → netHeld s x = true →
      (HasRoom s (netBytes x).length → ∃ t, exec .nlenc s = .next t ∧ Appended s t (netBytes x) 0) ∧
      (¬HasRoom s (netBytes x).length → ∃ t, exec .nlenc s = .next t ∧ Raised s t 0x00000045 .capacity s.olen.toNat))

/-- 43_frame.md R198: `PLENC` makes its tests in the order written and raises at the first that fails, an inline address that
is not `addr_enc` by `EncodingConstraint(22)`; it appends the canonical header that its operand registers hold, or raises
`Capacity(OLEN)`. -/
def Obligations.PresEncode : Prop :=
  encode .plenc = some 0x00000046 ∧
  ∀ s : State, s.olen.toNat ≤ s.params.obufSize →
    (∀ cause info, firstFailing (presChecks s) = some (cause, info) →
      ∃ t, exec .plenc s = .next t ∧ Raised s t 0x00000046 cause info) ∧
    (∀ x : Pres, presCanonical s.params x = true → presHeld s x = true →
      (HasRoom s (presBytes x).length → ∃ t, exec .plenc s = .next t ∧ Appended s t (presBytes x) 0) ∧
      (¬HasRoom s (presBytes x).length → ∃ t, exec .plenc s = .next t ∧ Raised s t 0x00000046 .capacity s.olen.toNat))

/-- 43_frame.md R199: `FRAMEENC` makes its tests "in the order link, network, presentation, payload; the first failure is
reported and nothing is appended"; it appends the canonical headers that its operand registers hold, without the presentation
header when `encr_ena` is set, and the payload slice when `PRES[26] = 1`, or raises `Capacity(OLEN)`. -/
def Obligations.FrameEncode : Prop :=
  encode .frameenc = some 0x00000047 ∧
  ∀ s : State, s.cur.toNat ≤ s.ilen.toNat → s.ilen.toNat ≤ s.params.ibufSize → s.olen.toNat ≤ s.params.obufSize →
    (∀ cause info, firstFailing (frameChecks s) = some (cause, info) →
      ∃ t, exec .frameenc s = .next t ∧ Raised s t 0x00000047 cause info) ∧
    (∀ (ll : Link) (nl : Net) (pl : Pres) (data : List Byte),
      linkCanonical s.params ll = true → linkHeld s ll = true → netCanonical s.params nl = true → netHeld s nl = true →
      (nl.encrEna = 0 → presCanonical s.params pl = true ∧ presHeld s pl = true) →
      (if presBit s 26 then sliceHeld s 26 27 data = true else data = []) →
      let frame := linkBytes ll ++ netBytes nl ++ (if nl.encrEna = 0 then presBytes pl else []) ++ data
      (HasRoom s frame.length → ∃ t, exec .frameenc s = .next t ∧ Appended s t frame 0) ∧
      (¬HasRoom s frame.length → ∃ t, exec .frameenc s = .next t ∧ Raised s t 0x00000047 .capacity s.olen.toNat))

/-- 43_frame.md R199 (law): a frame of canonical headers that `FRAMEDEC` decodes is what `FRAMEENC` then encodes (with room
in `OBUF`). -/
def Obligations.FrameRoundTrip : Prop :=
  ∀ (s t : State) (ll : Link) (nl : Net) (pl : Pres) (rest : List Byte), s.params.valid = true →
    s.cur.toNat ≤ s.ilen.toNat → s.ilen.toNat ≤ s.params.ibufSize →
    linkCanonical s.params ll = true → netCanonical s.params nl = true →
    (nl.encrEna = 0 → presCanonical s.params pl = true) →
    window s = linkBytes ll ++ netBytes nl ++ (if nl.encrEna = 0 then presBytes pl else []) ++ rest →
    (window s).length ≤ s.params.obufSize → exec .framedec s = .next t →
    ∃ u, exec .frameenc { t with olen := 0 } = .next u ∧ Appended { t with olen := 0 } u (window s) 0

/-! ### AMA -/

/-- 44_ama.md R222, R220: `AMAHDR` on a legal fragment reports its header and payload and leaves the cursor at the payload; a
window of at most two bytes, an INITIAL fragment of at most five and the type 3 raise. -/
def Obligations.FragmentHeader : Prop :=
  ∀ s : State, s.cur.toNat ≤ s.ilen.toNat → s.ilen.toNat ≤ s.params.ibufSize →
    (∀ (x : Ama) (rest : List Byte), amaLegal x = true → window s = amaHead x ++ x.payload ++ rest →
      (x.type = 0 → 5 < (window s).length) →
      ∃ t, exec .amahdr s = .next t ∧
        DecodedTo s t (amaFields s.cur.toNat x) (s.cur.toNat + (amaHead x).length)
          (decodeFlags false false false (rest != []))) ∧
    ((window s).length ≤ 2 → ∃ t, exec .amahdr s = .next t ∧ Raised s t 0x00000050 .malformedField s.cur.toNat) ∧
    (∀ (b0 b1 : Byte) (rest : List Byte), window s = b0 :: b1 :: rest → rest ≠ [] →
      (b1.toNat / 4 % 4 = 3 →
        ∃ t, exec .amahdr s = .next t ∧ Raised s t 0x00000050 .invalidDiscriminant (s.cur.toNat + 1)) ∧
      (b1.toNat / 4 % 4 = 0 → rest.length ≤ 3 →
        ∃ t, exec .amahdr s = .next t ∧ Raised s t 0x00000050 .malformedField s.cur.toNat))

/-- 44_ama.md R223, R225: an INITIAL fragment is accepted in every state of its context: the context holds its header, its
total length and its payload, complete if that is all, and every other context is unchanged. -/
def Obligations.ReassemblyStart : Prop :=
  ∀ (s : State) (c : BitVec 8) (x : Ama) (rest : List Byte), s.params.valid = true → c.toNat < s.params.amaNctx →
    s.ctxs.length = s.params.amaNctx → s.cur.toNat ≤ s.ilen.toNat → s.ilen.toNat ≤ s.params.ibufSize →
    amaLegal x = true → x.type = 0 → window s = amaHead x ++ x.payload ++ rest → 5 < (window s).length →
    x.total ≤ s.params.rbufSize → x.payload.length ≤ x.total →
    let done := x.payload.length == x.total
    ∃ t b, exec (.amarx c) s = .next t ∧
      DecodedTo
        { s with ctxs := s.ctxs.set c.toNat {
            rstate := if done then 2 else 1, rtotal := BitVec.ofNat 16 x.total, rlen := BitVec.ofNat 16 x.payload.length
            rsid := BitVec.ofNat 4 x.streamId, rtrxn := BitVec.ofNat 4 x.trxn, rseq := BitVec.ofNat 4 x.seq, rbuf := b } } t
        (amaFields s.cur.toNat x ++ [(10, done.toNat), (11, x.payload.length), (12, x.total)]) s.ilen.toNat
        (BitVec.ofNat 32 (8 * (rest != []).toNat + (if done then 16 else 32))) ∧
      ∀ i (h : i < x.payload.length), bufByte (.rbuf c.toNat) b i = x.payload[i]

/-- 44_ama.md R223: a fragment of type 1 or 2 on an `ACCUMULATING` context that it does not overshoot appends its payload;
the bytes gathered before stay, and the context is complete when the total is reached. -/
def Obligations.ReassemblyAppend : Prop :=
  ∀ (s : State) (c : BitVec 8) (ctx : Ctx) (x : Ama) (rest : List Byte), c.toNat < s.params.amaNctx →
    s.ctxs[c.toNat]? = some ctx → s.cur.toNat ≤ s.ilen.toNat → s.ilen.toNat ≤ s.params.ibufSize →
    amaLegal x = true → x.type ≠ 0 → window s = amaHead x ++ x.payload ++ rest →
    ctx.rstate = 1 → ctx.rlen.toNat + x.payload.length ≤ ctx.rtotal.toNat → writtenBelow ctx.rbuf ctx.rlen.toNat →
    let newlen := ctx.rlen.toNat + x.payload.length
    let done := newlen == ctx.rtotal.toNat
    ∃ t b, exec (.amarx c) s = .next t ∧
      DecodedTo
        { s with ctxs := s.ctxs.set c.toNat { ctx with
            rstate := if done then 2 else 1, rlen := BitVec.ofNat 16 newlen, rseq := BitVec.ofNat 4 x.seq, rbuf := b } } t
        (amaFields s.cur.toNat x ++ [(10, done.toNat), (11, newlen), (12, ctx.rtotal.toNat)]) s.ilen.toNat
        (BitVec.ofNat 32 (8 * (rest != []).toNat + (if done then 16 else 32))) ∧
      (∀ i, i < ctx.rlen.toNat → bufByte (.rbuf c.toNat) b i = bufByte (.rbuf c.toNat) ctx.rbuf i) ∧
      (∀ i (h : i < x.payload.length), bufByte (.rbuf c.toNat) b (ctx.rlen.toNat + i) = x.payload[i])

/-- 44_ama.md R220, R223, R226, R228: the errors of `AMARX`: a window of at most two bytes, the type 3, an INITIAL fragment of
at most five bytes, a non-initial fragment on a context that is not `ACCUMULATING`, an overshoot of the total, a total above
the buffer's size; each aborts the context (a payload cut short: `TruncatedHeadersRaise`). -/
def Obligations.ReassemblyErrorsAbort : Prop :=
  ∀ (s : State) (c : BitVec 8) (ctx : Ctx), c.toNat < s.params.amaNctx →
    s.ctxs[c.toNat]? = some ctx → s.cur.toNat ≤ s.ilen.toNat → s.ilen.toNat ≤ s.params.ibufSize →
    let aborts (cause : Cause) (info : Nat) : Prop := ∃ t b, exec (.amarx c) s = .next t ∧
      Raised { s with ctxs := s.ctxs.set c.toNat (Ctx.idle b) } t (commandWord (.amarx c)) cause info
    ((window s).length ≤ 2 → aborts .malformedField s.cur.toNat) ∧
    (∀ (b0 b1 : Byte) (rest : List Byte), window s = b0 :: b1 :: rest → rest ≠ [] →
      (b1.toNat / 4 % 4 = 3 → aborts .invalidDiscriminant (s.cur.toNat + 1)) ∧
      (b1.toNat / 4 % 4 = 0 → rest.length ≤ 3 → aborts .malformedField s.cur.toNat)) ∧
    (∀ (x : Ama) (rest : List Byte), amaLegal x = true → window s = amaHead x ++ x.payload ++ rest →
      (x.type = 0 → 5 < (window s).length) →
      (x.type ≠ 0 → ctx.rstate ≠ 1 → aborts .fragmentSequence s.cur.toNat) ∧
      (x.type ≠ 0 → ctx.rstate = 1 → ctx.rtotal.toNat < ctx.rlen.toNat + x.payload.length →
        aborts .fragmentSequence (s.cur.toNat + 2)) ∧
      (x.type = 0 → s.params.rbufSize < x.total → aborts .capacity (s.cur.toNat + 2)) ∧
      (x.type = 0 → x.total ≤ s.params.rbufSize → x.total < x.payload.length →
        aborts .fragmentSequence (s.cur.toNat + 4)))

/-- 44_ama.md R229: `AMAABT c` leaves context `c` idle in every state, clears `FLG` and changes nothing else but the bytes of
`RBUF[c]`; a context that is not there raises `BadOperand(c)` (30_encoding.md R82). -/
def Obligations.ContextDiscard : Prop :=
  ∀ (s : State) (c : BitVec 8), encode (.amaabt c) = some (cmdWord 0x52 c) ∧
    (s.params.amaNctx ≤ c.toNat → ∃ t, exec (.amaabt c) s = .next t ∧ Raised s t (cmdWord 0x52 c) .badOperand c.toNat) ∧
    (c.toNat < s.params.amaNctx →
      ∃ b, exec (.amaabt c) s =
        .next { s with ctxs := s.ctxs.set c.toNat (Ctx.idle b), flg := 0, status := statusDone })

/-- 44_ama.md R232: `AMATXI` appends the INITIAL fragment of the window and sets the fragmenter; its raises come in the order
written. -/
def Obligations.FragmenterStart : Prop :=
  encode .amatxi = some 0x00000053 ∧
  ∀ s : State, s.cur.toNat ≤ s.ilen.toNat → s.ilen.toNat ≤ s.params.ibufSize → s.olen.toNat ≤ s.params.obufSize →
    let m := aVal s 0
    let len := (window s).length
    let n := min len m
    let raises (cause : Cause) (info : Nat) : Prop := ∃ t, exec .amatxi s = .next t ∧ Raised s t 0x00000053 cause info
    let bytes := [octet (aVal s 1), octet (aVal s 2), octet (len / 256), octet (len % 256), octet n] ++ (window s).take n
    (m = 0 ∨ 255 < m → raises .badOperand m) ∧
    (1 ≤ m → m ≤ 255 → 256 ≤ aVal s 1 → raises .encodingConstraint 1) ∧
    (1 ≤ m → m ≤ 255 → aVal s 1 < 256 → 4 ≤ aVal s 2 → raises .encodingConstraint 2) ∧
    (1 ≤ m → m ≤ 255 → aVal s 1 < 256 → aVal s 2 < 4 → len = 0 → raises .encodingConstraint 0) ∧
    (1 ≤ m → m ≤ 255 → aVal s 1 < 256 → aVal s 2 < 4 → 0 < len →
      (¬HasRoom s bytes.length → raises .capacity s.olen.toNat) ∧
      (HasRoom s bytes.length →
        ∃ t, exec .amatxi s = .next t ∧
          Appended
            { s with tx := {
                txstate := if len ≤ m then 0 else 1, txoff := BitVec.ofNat 16 (s.cur.toNat + n), txend := s.ilen, txseq := 1
                txm := BitVec.ofNat 8 m, txb0 := BitVec.ofNat 8 (aVal s 1), txfl := BitVec.ofNat 2 (aVal s 2) } } t bytes
            (if len ≤ m then 64 else 0)))

/-- 44_ama.md R233: `AMATXC` appends the next continuation fragment, read at the offsets captured by `AMATXI`, "the window
registers `CUR`, `ILEN`" being "not used" (log 13), and advances the fragmenter; without a sequence in progress it raises `BadState(0)`. -/
def Obligations.FragmenterContinue : Prop :=
  encode .amatxc = some 0x00000054 ∧
  ∀ s : State, s.cur.toNat ≤ s.ilen.toNat → s.ilen.toNat ≤ s.params.ibufSize → s.olen.toNat ≤ s.params.obufSize →
    let left := s.tx.txend.toNat - s.tx.txoff.toNat
    let n := min left s.tx.txm.toNat
    let bytes := [s.tx.txb0, octet (16 * s.tx.txseq.toNat + 4 * s.params.amaTypeCont + s.tx.txfl.toNat), octet n]
      ++ ibufBytes s s.tx.txoff.toNat n
    (s.tx.txstate = 0 → ∃ t, exec .amatxc s = .next t ∧ Raised s t 0x00000054 .badState 0) ∧
    (s.tx.txstate = 1 → s.tx.txoff.toNat < s.tx.txend.toNat →
      (¬HasRoom s bytes.length → ∃ t, exec .amatxc s = .next t ∧ Raised s t 0x00000054 .capacity s.olen.toNat) ∧
      (HasRoom s bytes.length →
        ∃ t, exec .amatxc s = .next t ∧
          Appended
            { s with tx := { s.tx with
                txstate := if left ≤ s.tx.txm.toNat then 0 else 1, txoff := BitVec.ofNat 16 (s.tx.txoff.toNat + n)
                txseq := BitVec.ofNat 4 ((s.tx.txseq.toNat + 1) % 16) } } t bytes
            (if left ≤ s.tx.txm.toNat then 64 else 0)))
end

