-- ==== Sys2Proof/Laws/State.lean ====
section
/-! SUPPORT. One lemma per field per update of `State`: a projection of a state after a shared operation is what the
operation wrote there, or the projection before it. All hold by definition; those of `writeDecoded` unfold it first, so
that Lean does not compare the result registers on the way. -/

namespace Sys2Proof.Machine

/-! ### `takeRaise` -/

@[simp] theorem takeRaise_params (s : State) (w : Word) (r : Raise) :
    (takeRaise s w r).params = s.params := rfl

@[simp] theorem takeRaise_a (s : State) (w : Word) (r : Raise) :
    (takeRaise s w r).a = s.a := rfl

@[simp] theorem takeRaise_f (s : State) (w : Word) (r : Raise) :
    (takeRaise s w r).f = s.f := rfl

@[simp] theorem takeRaise_pres (s : State) (w : Word) (r : Raise) :
    (takeRaise s w r).pres = s.pres := rfl

@[simp] theorem takeRaise_flg (s : State) (w : Word) (r : Raise) :
    (takeRaise s w r).flg = s.flg := rfl

@[simp] theorem takeRaise_cur (s : State) (w : Word) (r : Raise) :
    (takeRaise s w r).cur = s.cur := rfl

@[simp] theorem takeRaise_ilen (s : State) (w : Word) (r : Raise) :
    (takeRaise s w r).ilen = s.ilen := rfl

@[simp] theorem takeRaise_olen (s : State) (w : Word) (r : Raise) :
    (takeRaise s w r).olen = s.olen := rfl

@[simp] theorem takeRaise_status (s : State) (w : Word) (r : Raise) :
    (takeRaise s w r).status = statusErr := rfl

@[simp] theorem takeRaise_cause (s : State) (w : Word) (r : Raise) :
    (takeRaise s w r).cause = causeCode r.cause := rfl

@[simp] theorem takeRaise_einfo (s : State) (w : Word) (r : Raise) :
    (takeRaise s w r).einfo = r.info := rfl

@[simp] theorem takeRaise_ecmd (s : State) (w : Word) (r : Raise) :
    (takeRaise s w r).ecmd = w := rfl

@[simp] theorem takeRaise_esticky (s : State) (w : Word) (r : Raise) :
    (takeRaise s w r).esticky = s.esticky ||| (1#32 <<< (causeCode r.cause).toNat) := rfl

@[simp] theorem takeRaise_tlv (s : State) (w : Word) (r : Raise) :
    (takeRaise s w r).tlv = s.tlv := rfl

@[simp] theorem takeRaise_tlvn (s : State) (w : Word) (r : Raise) :
    (takeRaise s w r).tlvn = s.tlvn := rfl

@[simp] theorem takeRaise_ctxs (s : State) (w : Word) (r : Raise) :
    (takeRaise s w r).ctxs = s.ctxs := rfl

@[simp] theorem takeRaise_tx (s : State) (w : Word) (r : Raise) :
    (takeRaise s w r).tx = s.tx := rfl

@[simp] theorem takeRaise_ibuf (s : State) (w : Word) (r : Raise) :
    (takeRaise s w r).ibuf = s.ibuf := rfl

@[simp] theorem takeRaise_obuf (s : State) (w : Word) (r : Raise) :
    (takeRaise s w r).obuf = s.obuf := rfl

@[simp] theorem takeRaise_hostQueue (s : State) (w : Word) (r : Raise) :
    (takeRaise s w r).hostQueue = s.hostQueue := rfl

@[simp] theorem takeRaise_hostData (s : State) (w : Word) (r : Raise) :
    (takeRaise s w r).hostData = s.hostData := rfl

/-! ### `finish` -/

@[simp] theorem finish_params (s : State) :
    (finish s).params = s.params := rfl

@[simp] theorem finish_a (s : State) :
    (finish s).a = s.a := rfl

@[simp] theorem finish_f (s : State) :
    (finish s).f = s.f := rfl

@[simp] theorem finish_pres (s : State) :
    (finish s).pres = s.pres := rfl

@[simp] theorem finish_flg (s : State) :
    (finish s).flg = s.flg := rfl

@[simp] theorem finish_cur (s : State) :
    (finish s).cur = s.cur := rfl

@[simp] theorem finish_ilen (s : State) :
    (finish s).ilen = s.ilen := rfl

@[simp] theorem finish_olen (s : State) :
    (finish s).olen = s.olen := rfl

@[simp] theorem finish_status (s : State) :
    (finish s).status = statusDone := rfl

@[simp] theorem finish_cause (s : State) :
    (finish s).cause = s.cause := rfl

@[simp] theorem finish_einfo (s : State) :
    (finish s).einfo = s.einfo := rfl

@[simp] theorem finish_ecmd (s : State) :
    (finish s).ecmd = s.ecmd := rfl

@[simp] theorem finish_esticky (s : State) :
    (finish s).esticky = s.esticky := rfl

@[simp] theorem finish_tlv (s : State) :
    (finish s).tlv = s.tlv := rfl

@[simp] theorem finish_tlvn (s : State) :
    (finish s).tlvn = s.tlvn := rfl

@[simp] theorem finish_ctxs (s : State) :
    (finish s).ctxs = s.ctxs := rfl

@[simp] theorem finish_tx (s : State) :
    (finish s).tx = s.tx := rfl

@[simp] theorem finish_ibuf (s : State) :
    (finish s).ibuf = s.ibuf := rfl

@[simp] theorem finish_obuf (s : State) :
    (finish s).obuf = s.obuf := rfl

@[simp] theorem finish_hostQueue (s : State) :
    (finish s).hostQueue = s.hostQueue := rfl

@[simp] theorem finish_hostData (s : State) :
    (finish s).hostData = s.hostData := rfl

/-! ### `setCtx` -/

@[simp] theorem setCtx_params (s : State) (c : Nat) (x : Ctx) :
    (setCtx s c x).params = s.params := rfl

@[simp] theorem setCtx_a (s : State) (c : Nat) (x : Ctx) :
    (setCtx s c x).a = s.a := rfl

@[simp] theorem setCtx_f (s : State) (c : Nat) (x : Ctx) :
    (setCtx s c x).f = s.f := rfl

@[simp] theorem setCtx_pres (s : State) (c : Nat) (x : Ctx) :
    (setCtx s c x).pres = s.pres := rfl

@[simp] theorem setCtx_flg (s : State) (c : Nat) (x : Ctx) :
    (setCtx s c x).flg = s.flg := rfl

@[simp] theorem setCtx_cur (s : State) (c : Nat) (x : Ctx) :
    (setCtx s c x).cur = s.cur := rfl

@[simp] theorem setCtx_ilen (s : State) (c : Nat) (x : Ctx) :
    (setCtx s c x).ilen = s.ilen := rfl

@[simp] theorem setCtx_olen (s : State) (c : Nat) (x : Ctx) :
    (setCtx s c x).olen = s.olen := rfl

@[simp] theorem setCtx_status (s : State) (c : Nat) (x : Ctx) :
    (setCtx s c x).status = s.status := rfl

@[simp] theorem setCtx_cause (s : State) (c : Nat) (x : Ctx) :
    (setCtx s c x).cause = s.cause := rfl

@[simp] theorem setCtx_einfo (s : State) (c : Nat) (x : Ctx) :
    (setCtx s c x).einfo = s.einfo := rfl

@[simp] theorem setCtx_ecmd (s : State) (c : Nat) (x : Ctx) :
    (setCtx s c x).ecmd = s.ecmd := rfl

@[simp] theorem setCtx_esticky (s : State) (c : Nat) (x : Ctx) :
    (setCtx s c x).esticky = s.esticky := rfl

@[simp] theorem setCtx_tlv (s : State) (c : Nat) (x : Ctx) :
    (setCtx s c x).tlv = s.tlv := rfl

@[simp] theorem setCtx_tlvn (s : State) (c : Nat) (x : Ctx) :
    (setCtx s c x).tlvn = s.tlvn := rfl

@[simp] theorem setCtx_ctxs (s : State) (c : Nat) (x : Ctx) :
    (setCtx s c x).ctxs = s.ctxs.set c x := rfl

@[simp] theorem setCtx_tx (s : State) (c : Nat) (x : Ctx) :
    (setCtx s c x).tx = s.tx := rfl

@[simp] theorem setCtx_ibuf (s : State) (c : Nat) (x : Ctx) :
    (setCtx s c x).ibuf = s.ibuf := rfl

@[simp] theorem setCtx_obuf (s : State) (c : Nat) (x : Ctx) :
    (setCtx s c x).obuf = s.obuf := rfl

@[simp] theorem setCtx_hostQueue (s : State) (c : Nat) (x : Ctx) :
    (setCtx s c x).hostQueue = s.hostQueue := rfl

@[simp] theorem setCtx_hostData (s : State) (c : Nat) (x : Ctx) :
    (setCtx s c x).hostData = s.hostData := rfl

/-! ### `abortCtx` -/

@[simp] theorem abortCtx_params (s : State) (c : Nat) :
    (abortCtx s c).params = s.params := rfl

@[simp] theorem abortCtx_a (s : State) (c : Nat) :
    (abortCtx s c).a = s.a := rfl

@[simp] theorem abortCtx_f (s : State) (c : Nat) :
    (abortCtx s c).f = s.f := rfl

@[simp] theorem abortCtx_pres (s : State) (c : Nat) :
    (abortCtx s c).pres = s.pres := rfl

@[simp] theorem abortCtx_flg (s : State) (c : Nat) :
    (abortCtx s c).flg = s.flg := rfl

@[simp] theorem abortCtx_cur (s : State) (c : Nat) :
    (abortCtx s c).cur = s.cur := rfl

@[simp] theorem abortCtx_ilen (s : State) (c : Nat) :
    (abortCtx s c).ilen = s.ilen := rfl

@[simp] theorem abortCtx_olen (s : State) (c : Nat) :
    (abortCtx s c).olen = s.olen := rfl

@[simp] theorem abortCtx_status (s : State) (c : Nat) :
    (abortCtx s c).status = s.status := rfl

@[simp] theorem abortCtx_cause (s : State) (c : Nat) :
    (abortCtx s c).cause = s.cause := rfl

@[simp] theorem abortCtx_einfo (s : State) (c : Nat) :
    (abortCtx s c).einfo = s.einfo := rfl

@[simp] theorem abortCtx_ecmd (s : State) (c : Nat) :
    (abortCtx s c).ecmd = s.ecmd := rfl

@[simp] theorem abortCtx_esticky (s : State) (c : Nat) :
    (abortCtx s c).esticky = s.esticky := rfl

@[simp] theorem abortCtx_tlv (s : State) (c : Nat) :
    (abortCtx s c).tlv = s.tlv := rfl

@[simp] theorem abortCtx_tlvn (s : State) (c : Nat) :
    (abortCtx s c).tlvn = s.tlvn := rfl

@[simp] theorem abortCtx_ctxs (s : State) (c : Nat) :
    (abortCtx s c).ctxs = s.ctxs.set c (idleCtx (ctxAt s c)) := rfl

@[simp] theorem abortCtx_tx (s : State) (c : Nat) :
    (abortCtx s c).tx = s.tx := rfl

@[simp] theorem abortCtx_ibuf (s : State) (c : Nat) :
    (abortCtx s c).ibuf = s.ibuf := rfl

@[simp] theorem abortCtx_obuf (s : State) (c : Nat) :
    (abortCtx s c).obuf = s.obuf := rfl

@[simp] theorem abortCtx_hostQueue (s : State) (c : Nat) :
    (abortCtx s c).hostQueue = s.hostQueue := rfl

@[simp] theorem abortCtx_hostData (s : State) (c : Nat) :
    (abortCtx s c).hostData = s.hostData := rfl

/-! ### `writeDecoded` -/

@[simp] theorem writeDecoded_params (s : State) (d : Decoded) :
    (writeDecoded s d).params = s.params := by simp only [writeDecoded]

@[simp] theorem writeDecoded_a (s : State) (d : Decoded) :
    (writeDecoded s d).a = s.a := by simp only [writeDecoded]

@[simp] theorem writeDecoded_f (s : State) (d : Decoded) :
    (writeDecoded s d).f = resultRegs d.fields := by simp only [writeDecoded]

@[simp] theorem writeDecoded_pres (s : State) (d : Decoded) :
    (writeDecoded s d).pres = presMask d.fields := by simp only [writeDecoded]

@[simp] theorem writeDecoded_flg (s : State) (d : Decoded) :
    (writeDecoded s d).flg = flagWord d.flags := by simp only [writeDecoded]

@[simp] theorem writeDecoded_cur (s : State) (d : Decoded) :
    (writeDecoded s d).cur = BitVec.ofNat 16 d.cur := by simp only [writeDecoded]

@[simp] theorem writeDecoded_ilen (s : State) (d : Decoded) :
    (writeDecoded s d).ilen = s.ilen := by simp only [writeDecoded]

@[simp] theorem writeDecoded_olen (s : State) (d : Decoded) :
    (writeDecoded s d).olen = s.olen := by simp only [writeDecoded]

@[simp] theorem writeDecoded_status (s : State) (d : Decoded) :
    (writeDecoded s d).status = s.status := by simp only [writeDecoded]

@[simp] theorem writeDecoded_cause (s : State) (d : Decoded) :
    (writeDecoded s d).cause = s.cause := by simp only [writeDecoded]

@[simp] theorem writeDecoded_einfo (s : State) (d : Decoded) :
    (writeDecoded s d).einfo = s.einfo := by simp only [writeDecoded]

@[simp] theorem writeDecoded_ecmd (s : State) (d : Decoded) :
    (writeDecoded s d).ecmd = s.ecmd := by simp only [writeDecoded]

@[simp] theorem writeDecoded_esticky (s : State) (d : Decoded) :
    (writeDecoded s d).esticky = s.esticky := by simp only [writeDecoded]

@[simp] theorem writeDecoded_tlv (s : State) (d : Decoded) :
    (writeDecoded s d).tlv = s.tlv := by simp only [writeDecoded]

@[simp] theorem writeDecoded_tlvn (s : State) (d : Decoded) :
    (writeDecoded s d).tlvn = s.tlvn := by simp only [writeDecoded]

@[simp] theorem writeDecoded_ctxs (s : State) (d : Decoded) :
    (writeDecoded s d).ctxs = s.ctxs := by simp only [writeDecoded]

@[simp] theorem writeDecoded_tx (s : State) (d : Decoded) :
    (writeDecoded s d).tx = s.tx := by simp only [writeDecoded]

@[simp] theorem writeDecoded_ibuf (s : State) (d : Decoded) :
    (writeDecoded s d).ibuf = s.ibuf := by simp only [writeDecoded]

@[simp] theorem writeDecoded_obuf (s : State) (d : Decoded) :
    (writeDecoded s d).obuf = s.obuf := by simp only [writeDecoded]

@[simp] theorem writeDecoded_hostQueue (s : State) (d : Decoded) :
    (writeDecoded s d).hostQueue = s.hostQueue := by simp only [writeDecoded]

@[simp] theorem writeDecoded_hostData (s : State) (d : Decoded) :
    (writeDecoded s d).hostData = s.hostData := by simp only [writeDecoded]

/-! ### `softReset` -/

@[simp] theorem softReset_params (s : State) :
    (softReset s).params = s.params := rfl

@[simp] theorem softReset_a (s : State) :
    (softReset s).a = Vector.replicate 4 0 := rfl

@[simp] theorem softReset_f (s : State) :
    (softReset s).f = Vector.replicate 32 0 := rfl

@[simp] theorem softReset_pres (s : State) :
    (softReset s).pres = 0 := rfl

@[simp] theorem softReset_flg (s : State) :
    (softReset s).flg = 0 := rfl

@[simp] theorem softReset_cur (s : State) :
    (softReset s).cur = 0 := rfl

@[simp] theorem softReset_ilen (s : State) :
    (softReset s).ilen = 0 := rfl

@[simp] theorem softReset_olen (s : State) :
    (softReset s).olen = 0 := rfl

@[simp] theorem softReset_status (s : State) :
    (softReset s).status = 0 := rfl

@[simp] theorem softReset_cause (s : State) :
    (softReset s).cause = 0 := rfl

@[simp] theorem softReset_einfo (s : State) :
    (softReset s).einfo = 0 := rfl

@[simp] theorem softReset_ecmd (s : State) :
    (softReset s).ecmd = 0 := rfl

@[simp] theorem softReset_esticky (s : State) :
    (softReset s).esticky = 0 := rfl

@[simp] theorem softReset_tlv (s : State) :
    (softReset s).tlv = Vector.replicate 64 { key := 0, off := 0, len := 0 } := rfl

@[simp] theorem softReset_tlvn (s : State) :
    (softReset s).tlvn = 0 := rfl

@[simp] theorem softReset_ctxs (s : State) :
    (softReset s).ctxs = s.ctxs.map idleCtx := rfl

@[simp] theorem softReset_tx (s : State) :
    (softReset s).tx = Frag.idle := rfl

@[simp] theorem softReset_ibuf (s : State) :
    (softReset s).ibuf = s.ibuf := rfl

@[simp] theorem softReset_obuf (s : State) :
    (softReset s).obuf = s.obuf := rfl

@[simp] theorem softReset_hostQueue (s : State) :
    (softReset s).hostQueue = s.hostQueue := rfl

@[simp] theorem softReset_hostData (s : State) :
    (softReset s).hostData = s.hostData := rfl

/-! ### `platformReset` -/

@[simp] theorem platformReset_params (s : State) :
    (platformReset s).params = s.params := rfl

@[simp] theorem platformReset_a (s : State) :
    (platformReset s).a = Vector.replicate 4 0 := rfl

@[simp] theorem platformReset_f (s : State) :
    (platformReset s).f = Vector.replicate 32 0 := rfl

@[simp] theorem platformReset_pres (s : State) :
    (platformReset s).pres = 0 := rfl

@[simp] theorem platformReset_flg (s : State) :
    (platformReset s).flg = 0 := rfl

@[simp] theorem platformReset_cur (s : State) :
    (platformReset s).cur = 0 := rfl

@[simp] theorem platformReset_ilen (s : State) :
    (platformReset s).ilen = 0 := rfl

@[simp] theorem platformReset_olen (s : State) :
    (platformReset s).olen = 0 := rfl

@[simp] theorem platformReset_status (s : State) :
    (platformReset s).status = 0 := rfl

@[simp] theorem platformReset_cause (s : State) :
    (platformReset s).cause = 0 := rfl

@[simp] theorem platformReset_einfo (s : State) :
    (platformReset s).einfo = 0 := rfl

@[simp] theorem platformReset_ecmd (s : State) :
    (platformReset s).ecmd = 0 := rfl

@[simp] theorem platformReset_esticky (s : State) :
    (platformReset s).esticky = 0 := rfl

@[simp] theorem platformReset_tlv (s : State) :
    (platformReset s).tlv = Vector.replicate 64 { key := 0, off := 0, len := 0 } := rfl

@[simp] theorem platformReset_tlvn (s : State) :
    (platformReset s).tlvn = 0 := rfl

@[simp] theorem platformReset_ctxs (s : State) :
    (platformReset s).ctxs = s.ctxs.map idleCtx := rfl

@[simp] theorem platformReset_tx (s : State) :
    (platformReset s).tx = Frag.idle := rfl

@[simp] theorem platformReset_ibuf (s : State) :
    (platformReset s).ibuf = bufForget s.ibuf := rfl

@[simp] theorem platformReset_obuf (s : State) :
    (platformReset s).obuf = bufForget s.obuf := rfl

@[simp] theorem platformReset_hostQueue (s : State) :
    (platformReset s).hostQueue = s.hostQueue := rfl

@[simp] theorem platformReset_hostData (s : State) :
    (platformReset s).hostData = s.hostData := rfl

/-! ### Buffers and contexts -/

@[simp] theorem bufSet_cells (b : Buf) (a : Nat) (v : Byte) : (bufSet b a v).cells = cellSet b.cells a v := rfl

@[simp] theorem bufSet_epoch (b : Buf) (a : Nat) (v : Byte) : (bufSet b a v).epoch = b.epoch := rfl

@[simp] theorem bufForget_cells (b : Buf) : (bufForget b).cells = [] := rfl

@[simp] theorem bufForget_epoch (b : Buf) : (bufForget b).epoch = b.epoch + 1 := rfl

@[simp] theorem bufRefresh_cells (b : Buf) : (bufRefresh b).cells = b.cells := rfl

@[simp] theorem bufRefresh_epoch (b : Buf) : (bufRefresh b).epoch = b.epoch + 1 := rfl

@[simp] theorem idleCtx_rstate (x : Ctx) : (idleCtx x).rstate = 0 := rfl

@[simp] theorem idleCtx_rtotal (x : Ctx) : (idleCtx x).rtotal = 0 := rfl

@[simp] theorem idleCtx_rlen (x : Ctx) : (idleCtx x).rlen = 0 := rfl

@[simp] theorem idleCtx_rsid (x : Ctx) : (idleCtx x).rsid = 0 := rfl

@[simp] theorem idleCtx_rtrxn (x : Ctx) : (idleCtx x).rtrxn = 0 := rfl

@[simp] theorem idleCtx_rseq (x : Ctx) : (idleCtx x).rseq = 0 := rfl

@[simp] theorem idleCtx_rbuf (x : Ctx) : (idleCtx x).rbuf = bufForget x.rbuf := rfl

@[simp] theorem Ctx.idle_rstate (b : Buf) : (Ctx.idle b).rstate = 0 := rfl

@[simp] theorem Ctx.idle_rtotal (b : Buf) : (Ctx.idle b).rtotal = 0 := rfl

@[simp] theorem Ctx.idle_rlen (b : Buf) : (Ctx.idle b).rlen = 0 := rfl

@[simp] theorem Ctx.idle_rsid (b : Buf) : (Ctx.idle b).rsid = 0 := rfl

@[simp] theorem Ctx.idle_rtrxn (b : Buf) : (Ctx.idle b).rtrxn = 0 := rfl

@[simp] theorem Ctx.idle_rseq (b : Buf) : (Ctx.idle b).rseq = 0 := rfl

@[simp] theorem Ctx.idle_rbuf (b : Buf) : (Ctx.idle b).rbuf = b := rfl

end Sys2Proof.Machine
end

