-- ==== Sys2Proof/Laws/Memory.lean ====
section
/-! SUPPORT. What the operations on a buffer's bytes do: reading after writing, the canonical form (`Memory.wf`,
Sys2Proof/Safety.lean), which bytes are listed. -/

namespace Sys2Proof.Machine

/-! ### Listed cells -/

theorem cellAt_cellSet_same (l : List Host.Cell) (a : Nat) (v : Byte) : cellAt (cellSet l a v) a = some v := by
  induction l with
  | nil => simp [cellSet, cellAt]
  | cons x l ih =>
    obtain ⟨k, y⟩ := x
    simp only [cellSet]
    split
    · simp [cellAt]
    · split
      · simp [cellAt]
      · simp [cellAt, ih, show ¬k = a by omega]

theorem cellAt_cellSet_other (l : List Host.Cell) (a a' : Nat) (v : Byte) (h : a' ≠ a) :
    cellAt (cellSet l a v) a' = cellAt l a' := by
  induction l with
  | nil => simp [cellSet, cellAt, Ne.symm h]
  | cons x l ih =>
    obtain ⟨k, y⟩ := x
    simp only [cellSet]
    split
    · simp [cellAt, Ne.symm h]
    · split
      · next h1 => subst h1; simp [cellAt, Ne.symm h]
      · simp [cellAt, ih]

theorem cellAt_cellSet (l : List Host.Cell) (a a' : Nat) (v : Byte) :
    cellAt (cellSet l a v) a' = if a' = a then some v else cellAt l a' := by
  split
  · next h => rw [h, cellAt_cellSet_same]
  · next h => exact cellAt_cellSet_other l a a' v h

/-- The head of a list after a write is the written cell or the old head. -/
theorem cellSet_head (l : List Host.Cell) (a : Nat) (v : Byte) (x : Host.Cell) (rest : List Host.Cell)
    (h : cellSet l a v = x :: rest) : x.1 = a ∨ ∃ y l', l = y :: l' ∧ x.1 = y.1 := by
  cases l with
  | nil => simp only [cellSet, List.cons.injEq] at h; left; rw [← h.1]
  | cons y l' =>
    obtain ⟨k, z⟩ := y
    simp only [cellSet] at h
    split at h
    · simp only [List.cons.injEq] at h; left; rw [← h.1]
    · split at h
      · simp only [List.cons.injEq] at h; left; rw [← h.1]
      · simp only [List.cons.injEq] at h; right; exact ⟨_, _, rfl, by rw [← h.1]⟩

theorem cellsRising_cellSet (l : List Host.Cell) (a : Nat) (v : Byte) (h : cellsRising l = true) :
    cellsRising (cellSet l a v) = true := by
  induction l with
  | nil => rfl
  | cons x l ih =>
    obtain ⟨k, y⟩ := x
    simp only [cellSet]
    split
    · next h1 => simp [cellsRising, h1, h]
    · next h1 =>
      split
      · next h2 =>
        subst h2
        cases l with
        | nil => rfl
        | cons z l => simpa [cellsRising] using h
      · next h2 =>
        have hl : cellsRising l = true := by
          cases l with
          | nil => rfl
          | cons z l => simp only [cellsRising, Bool.and_eq_true] at h; exact h.2
        specialize ih hl
        cases hc : cellSet l a v with
        | nil => rfl
        | cons z l' =>
          rw [hc] at ih
          simp only [cellsRising, Bool.and_eq_true, decide_eq_true_eq]
          refine ⟨?_, ih⟩
          rcases cellSet_head l a v z l' hc with hz | ⟨w, l'', hw, hz⟩
          · rw [hz]; omega
          · rw [hw] at h
            simp only [cellsRising, Bool.and_eq_true, decide_eq_true_eq] at h
            omega

theorem mem_cellSet (l : List Host.Cell) (a : Nat) (v : Byte) (x : Host.Cell) (h : x ∈ cellSet l a v) :
    x = (a, v) ∨ x ∈ l := by
  induction l with
  | nil => simp [cellSet] at h; exact .inl h
  | cons y l ih =>
    obtain ⟨k, z⟩ := y
    simp only [cellSet] at h
    split at h
    · simpa using h
    · split at h
      · simp only [List.mem_cons] at h ⊢; tauto
      · simp only [List.mem_cons] at h ⊢; tauto

/-! ### Bytes -/

theorem bufByte_bufSet_same (id : BufId) (b : Buf) (a : Nat) (v : Byte) : bufByte id (bufSet b a v) a = v := by
  simp [bufByte, cellAt_cellSet_same]

theorem bufByte_bufSet_other (id : BufId) (b : Buf) (a a' : Nat) (v : Byte) (h : a' ≠ a) :
    bufByte id (bufSet b a v) a' = bufByte id b a' := by
  simp [bufByte, cellAt_cellSet_other _ _ _ _ h]

theorem bufByte_bufSet (id : BufId) (b : Buf) (a a' : Nat) (v : Byte) :
    bufByte id (bufSet b a v) a' = if a' = a then v else bufByte id b a' := by
  split
  · next h => rw [h, bufByte_bufSet_same]
  · next h => exact bufByte_bufSet_other id b a a' v h

@[simp] theorem bufWrite_epoch (b : Buf) (a : Nat) (bs : List Byte) : (bufWrite b a bs).epoch = b.epoch := by
  induction bs generalizing b a with
  | nil => rfl
  | cons v vs ih => simp [bufWrite, ih]

/-- Everything a write of `bs` at `a` does to the bytes of a buffer. -/
theorem cellAt_bufWrite (b : Buf) (a : Nat) (bs : List Byte) (k : Nat) :
    cellAt (bufWrite b a bs).cells k = if a ≤ k ∧ k < a + bs.length then bs[k - a]? else cellAt b.cells k := by
  induction bs generalizing b a with
  | nil => simp only [bufWrite, List.length_nil]; rw [if_neg (by omega)]
  | cons v vs ih =>
    simp only [bufWrite, ih, bufSet_cells, cellAt_cellSet, List.length_cons]
    by_cases h : k = a
    · subst h; simp
    · by_cases h2 : a + 1 ≤ k ∧ k < a + 1 + vs.length
      · rw [if_pos h2, if_pos (by omega), show k - a = (k - (a + 1)) + 1 by omega]; simp
      · rw [if_neg h2, if_neg h, if_neg (by omega)]

theorem bufByte_bufWrite_inside (id : BufId) (b : Buf) (a : Nat) (bs : List Byte) (i : Nat) (h : i < bs.length) :
    bufByte id (bufWrite b a bs) (a + i) = bs[i] := by
  simp [bufByte, cellAt_bufWrite, h]

theorem bufByte_bufWrite_outside (id : BufId) (b : Buf) (a : Nat) (bs : List Byte) (k : Nat)
    (h : k < a ∨ a + bs.length ≤ k) : bufByte id (bufWrite b a bs) k = bufByte id b k := by
  rw [bufByte, cellAt_bufWrite, if_neg (by omega), bufWrite_epoch, bufByte]

@[simp] theorem bufRead_length (id : BufId) (b : Buf) (a n : Nat) : (bufRead id b a n).length = n := by simp [bufRead]

@[simp] theorem bufRead_getElem (id : BufId) (b : Buf) (a n i : Nat) (h : i < (bufRead id b a n).length) :
    (bufRead id b a n)[i] = bufByte id b (a + i) := by simp [bufRead]

theorem bufRead_zero (id : BufId) (b : Buf) (a : Nat) : bufRead id b a 0 = [] := rfl

theorem bufRead_succ (id : BufId) (b : Buf) (a n : Nat) :
    bufRead id b a (n + 1) = bufByte id b a :: bufRead id b (a + 1) n := by
  apply List.ext_getElem
  · simp
  · intro i h1 h2
    cases i with
    | zero => simp
    | succ i => simp only [bufRead_getElem, List.getElem_cons_succ]; congr 1; omega

theorem bufRead_append (id : BufId) (b : Buf) (a m n : Nat) :
    bufRead id b a (m + n) = bufRead id b a m ++ bufRead id b (a + m) n := by
  apply List.ext_getElem
  · simp
  · intro i h1 h2
    simp only [bufRead_getElem, List.getElem_append, bufRead_length]
    split
    · rfl
    · congr 1; omega

/-- Two buffers whose bytes agree on a range give the same slice. -/
theorem bufRead_congr (id : BufId) (b b' : Buf) (a n : Nat)
    (h : ∀ i, i < n → bufByte id b (a + i) = bufByte id b' (a + i)) : bufRead id b a n = bufRead id b' a n := by
  apply List.ext_getElem
  · simp
  · intro i h1 h2
    simp only [bufRead_length] at h1
    simp [h i h1]

/-- Reading back what was written. -/
theorem bufRead_bufWrite (id : BufId) (b : Buf) (a : Nat) (bs : List Byte) :
    bufRead id (bufWrite b a bs) a bs.length = bs := by
  apply List.ext_getElem
  · simp
  · intro i h1 h2; simp [bufByte_bufWrite_inside, h2]

/-! ### Bytes that are listed -/

theorem writtenBelow_zero (b : Buf) : writtenBelow b 0 := fun _ h => absurd h (Nat.not_lt_zero _)

theorem writtenBelow_bufRefresh (b : Buf) (n : Nat) (h : writtenBelow b n) : writtenBelow (bufRefresh b) n := h

/-- A listed byte does not depend on the epoch. -/
theorem bufByte_bufRefresh (id : BufId) (b : Buf) (n a : Nat) (h : writtenBelow b n) (ha : a < n) :
    bufByte id (bufRefresh b) a = bufByte id b a := by
  obtain ⟨v, hv⟩ := Option.isSome_iff_exists.mp (h a ha)
  simp [bufByte, hv]

theorem writtenBelow_bufWrite (b : Buf) (a : Nat) (bs : List Byte) (h : writtenBelow b a) :
    writtenBelow (bufWrite b a bs) (a + bs.length) := by
  intro k hk
  rw [cellAt_bufWrite]
  split
  · next h1 => simp [show k - a < bs.length by omega]
  · exact h k (by omega)

/-! ### The canonical form -/

theorem Memory.wf_iff (size : Nat) (b : Buf) :
    Memory.wf size b = true ↔ cellsRising b.cells = true ∧ ∀ x ∈ b.cells, x.1 < size := by
  simp [Memory.wf]

theorem Memory.wf_unspecified (size e : Nat) : Memory.wf size (Buf.unspecified e) = true := rfl

theorem Memory.wf_bufForget (size : Nat) (b : Buf) : Memory.wf size (bufForget b) = true := rfl

theorem Memory.wf_bufRefresh (size : Nat) (b : Buf) (h : Memory.wf size b = true) :
    Memory.wf size (bufRefresh b) = true := h

theorem Memory.wf_bufSet (size : Nat) (b : Buf) (a : Nat) (v : Byte) (h : Memory.wf size b = true) (ha : a < size) :
    Memory.wf size (bufSet b a v) = true := by
  rw [Memory.wf_iff] at h ⊢
  refine ⟨cellsRising_cellSet _ _ _ h.1, fun x hx => ?_⟩
  rcases mem_cellSet _ _ _ _ hx with rfl | hx
  · exact ha
  · exact h.2 x hx

theorem Memory.wf_bufWrite (size : Nat) (b : Buf) (a : Nat) (bs : List Byte) (h : Memory.wf size b = true)
    (ha : a + bs.length ≤ size) : Memory.wf size (bufWrite b a bs) = true := by
  induction bs generalizing b a with
  | nil => exact h
  | cons v vs ih =>
    simp only [List.length_cons] at ha
    exact ih _ _ (Memory.wf_bufSet size b a v h (by omega)) (by omega)

/-- Below its head a canonical list has no cell. -/
theorem cellAt_of_lt_head (l : List Host.Cell) (x : Host.Cell) (a : Nat) (h : cellsRising (x :: l) = true)
    (ha : a < x.1) : cellAt (x :: l) a = none := by
  induction l generalizing x with
  | nil => simp [cellAt, show ¬x.1 = a by omega]
  | cons y l ih =>
    simp only [cellsRising, Bool.and_eq_true, decide_eq_true_eq] at h
    have := ih y h.2 (by omega)
    simp only [cellAt] at this ⊢
    rw [if_neg (by omega)]
    exact this

theorem cellsRising_tail (x : Host.Cell) (l : List Host.Cell) (h : cellsRising (x :: l) = true) :
    cellsRising l = true := by
  cases l with
  | nil => rfl
  | cons y l => simp only [cellsRising, Bool.and_eq_true] at h; exact h.2

/-- The tail of a canonical list has no cell at or below the head. -/
theorem cellAt_tail (x : Host.Cell) (l : List Host.Cell) (a : Nat) (h : cellsRising (x :: l) = true) (ha : a ≤ x.1) :
    cellAt l a = none := by
  cases l with
  | nil => rfl
  | cons y l =>
    simp only [cellsRising, Bool.and_eq_true, decide_eq_true_eq] at h
    exact cellAt_of_lt_head l y a h.2 (by omega)

/-- Two canonical lists that list the same byte at every offset are equal: equal memories are equal data. -/
theorem cells_ext (l l' : List Host.Cell) (h : cellsRising l = true) (h' : cellsRising l' = true)
    (heq : ∀ a, cellAt l a = cellAt l' a) : l = l' := by
  induction l generalizing l' with
  | nil =>
    cases l' with
    | nil => rfl
    | cons y l' => have := heq y.1; simp [cellAt] at this
  | cons x l ih =>
    cases l' with
    | nil => have := heq x.1; simp [cellAt] at this
    | cons y l' =>
      have hxy : x.1 = y.1 := by
        rcases Nat.lt_trichotomy x.1 y.1 with hlt | heq' | hlt
        · have := heq x.1; rw [cellAt_of_lt_head l' y _ h' hlt] at this; simp [cellAt] at this
        · exact heq'
        · have := heq y.1; rw [cellAt_of_lt_head l x _ h hlt] at this; simp [cellAt] at this
      have hv : x.2 = y.2 := by have := heq x.1; simpa [cellAt, hxy] using this
      rw [show x = y from Prod.ext hxy hv] at h heq ⊢
      refine congrArg _ (ih l' (cellsRising_tail _ _ h) (cellsRising_tail _ _ h') fun a => ?_)
      by_cases ha : a ≤ y.1
      · rw [cellAt_tail _ _ _ h ha, cellAt_tail _ _ _ h' ha]
      · have := heq a; simpa [cellAt, show ¬y.1 = a by omega] using this

end Sys2Proof.Machine
end

