-- ==== Sys2Proof/Laws/Ops.lean ====
section
/-! SUPPORT. What each shared operation of Machine/Ops.lean can do, said once: raises, the prologue, completing, the result
registers, appending, the window. -/

namespace Sys2Proof.Machine

/-! ### Raises -/

theorem Result.bind_ok_iff {α β : Type} (x : Result α) (f : α → Result β) (b : β) :
    (x >>= f) = .ok b ↔ ∃ a, x = .ok a ∧ f a = .ok b := by
  cases x with
  | error e => simp [bind, Except.bind]
  | ok a => simp [bind, Except.bind]

theorem Result.bind_error_iff {α β : Type} (x : Result α) (f : α → Result β) (r : Raise) :
    (x >>= f) = .error r ↔ x = .error r ∨ ∃ a, x = .ok a ∧ f a = .error r := by
  cases x with
  | error e => simp [bind, Except.bind]
  | ok a => simp [bind, Except.bind]

@[simp] theorem Result.ok_bind {α β : Type} (a : α) (f : α → Result β) : ((.ok a : Result α) >>= f) = f a := rfl

@[simp] theorem Result.error_bind {α β : Type} (r : Raise) (f : α → Result β) :
    ((.error r : Result α) >>= f) = .error r := rfl

theorem Result.pure_eq {α : Type} (a : α) : (pure a : Result α) = .ok a := rfl

@[simp] theorem raising_bind {α β : Type} (c : Cause) (n : Nat) (f : α → Result β) :
    ((raising c n : Result α) >>= f) = raising c n := rfl

theorem raising_eq {α : Type} (c : Cause) (n : Nat) :
    (raising c n : Result α) = .error { cause := c, info := BitVec.ofNat 32 n } := rfl

@[simp] theorem raiseIf_false (c : Cause) (n : Nat) : raiseIf false c n = .ok () := rfl

@[simp] theorem raiseIf_true (c : Cause) (n : Nat) : raiseIf true c n = raising c n := rfl

@[simp] theorem raiseIf_bind {α : Type} (b : Bool) (c : Cause) (n : Nat) (f : Unit → Result α) :
    (raiseIf b c n >>= f) = if b = true then raising c n else f () := by
  cases b <;> rfl

theorem raiseIf_ok_iff (b : Bool) (c : Cause) (n : Nat) (u : Unit) : raiseIf b c n = .ok u ↔ b = false := by
  cases b <;> simp [raiseIf, raising]

theorem raiseIf_error_iff (b : Bool) (c : Cause) (n : Nat) (r : Raise) :
    raiseIf b c n = .error r ↔ b = true ∧ r = { cause := c, info := BitVec.ofNat 32 n } := by
  cases b <;> simp [raiseIf, raising, eq_comm]

@[simp] theorem need_bind {α : Type} (p n stop : Nat) (f : Unit → Result α) :
    (need p n stop >>= f) = if stop < p + n then raising .malformedField p else f () := by
  simp [need]

theorem need_ok_iff (p n stop : Nat) (u : Unit) : need p n stop = .ok u ↔ p + n ≤ stop := by
  simp [need, raiseIf_ok_iff]

/-! ### Completing and raising -/

/-- A raise writes the error registers and nothing else (60_exceptions.md R270). -/
theorem raised_takeRaise (s : State) (w : Word) (c : Cause) (info : Nat) :
    Raised s (takeRaise s w { cause := c, info := BitVec.ofNat 32 info }) w c info := rfl

/-- Every answer of a command: it is never a fault or a refusal. -/
theorem runCommand_next (i : Instr) (s : State) (g : State → State) (body : Result State) :
    ∃ t, runCommand i s g body = .next t := by
  unfold runCommand
  split
  · exact ⟨_, rfl⟩
  · split <;> exact ⟨_, rfl⟩

/-- All that a command can do (10_state.md R22): the prologue raises, the body raises, or the body completes. -/
theorem runCommand_cases {i : Instr} {s t : State} {g : State → State} {body : Result State}
    (h : runCommand i s g body = .next t) :
    (∃ r, prologue i s = .error r ∧ t = takeRaise s (commandWord i) r) ∨
    (∃ r, prologue i s = .ok () ∧ body = .error r ∧ t = takeRaise (g s) (commandWord i) r) ∨
    (∃ u, prologue i s = .ok () ∧ body = .ok u ∧ t = finish u) := by
  unfold runCommand at h
  cases hp : prologue i s with
  | error r =>
    rw [hp] at h
    exact .inl ⟨r, rfl, (Host.Outcome.next.inj h).symm⟩
  | ok u =>
    rw [hp] at h
    cases hb : body with
    | error r => rw [hb] at h; exact .inr (.inl ⟨r, rfl, rfl, (Host.Outcome.next.inj h).symm⟩)
    | ok v => rw [hb] at h; exact .inr (.inr ⟨v, rfl, rfl, (Host.Outcome.next.inj h).symm⟩)

theorem runCommand_of_prologue_error {i : Instr} {s : State} {r : Raise} (g : State → State) (body : Result State)
    (h : prologue i s = .error r) : runCommand i s g body = .next (takeRaise s (commandWord i) r) := by
  unfold runCommand; rw [h]

theorem runCommand_of_error {i : Instr} {s : State} {r : Raise} {body : Result State} (g : State → State)
    (h : prologue i s = .ok ()) (hb : body = .error r) :
    runCommand i s g body = .next (takeRaise (g s) (commandWord i) r) := by
  unfold runCommand; rw [h, hb]

theorem runCommand_of_ok {i : Instr} {s u : State} {body : Result State} (g : State → State)
    (h : prologue i s = .ok ()) (hb : body = .ok u) : runCommand i s g body = .next (finish u) := by
  unfold runCommand; rw [h, hb]

/-- A command whose body raises, past the prologue, leaves the state of R270 (60_exceptions.md). -/
theorem run_raises {i : Instr} {s : State} {body : Result State} {c : Cause} {n : Nat} (h : prologue i s = .ok ())
    (hb : body = raising c n) : ∃ t, run i s body = .next t ∧ Raised s t (commandWord i) c n :=
  ⟨_, runCommand_of_error id h hb, raised_takeRaise s _ c n⟩

theorem run_completes {i : Instr} {s u : State} {body : Result State} (h : prologue i s = .ok ())
    (hb : body = .ok u) : run i s body = .next (finish u) := runCommand_of_ok id h hb

/-- All that a command other than `AMARX` can do. -/
theorem run_cases {i : Instr} {s t : State} {body : Result State} (h : run i s body = .next t) :
    (∃ r, (prologue i s = .error r ∨ prologue i s = .ok () ∧ body = .error r) ∧ t = takeRaise s (commandWord i) r) ∨
    (∃ u, prologue i s = .ok () ∧ body = .ok u ∧ t = finish u) := by
  rcases runCommand_cases h with ⟨r, hp, ht⟩ | ⟨r, hp, hb, ht⟩ | h
  · exact .inl ⟨r, .inl hp, ht⟩
  · exact .inl ⟨r, .inr ⟨hp, hb⟩, ht⟩
  · exact .inr h

/-! ### The prologue -/

/-- The prologue passes (30_encoding.md R83). -/
theorem prologue_ok_iff (i : Instr) (s : State) :
    prologue i s = .ok () ↔
      argInRange s.params i = true ∧ (readsIbuf i = true → inputOk s = true) ∧ (writesObuf i = true → outputOk s = true) := by
  unfold prologue
  cases h1 : argInRange s.params i <;> cases h2 : readsIbuf i <;> cases h3 : inputOk s <;> cases h4 : writesObuf i <;>
    cases h5 : outputOk s <;> simp [raiseIf, raising, bind, Except.bind]

/-- The prologue raises only `BadOperand` (30_encoding.md R83). -/
theorem prologue_error_cause {i : Instr} {s : State} {r : Raise} (h : prologue i s = .error r) :
    r.cause = .badOperand := by
  unfold prologue at h
  simp only [raiseIf_bind] at h
  split at h
  · rw [raising_eq, Except.error.injEq] at h; rw [← h]
  · split at h
    · rw [raising_eq, Except.error.injEq] at h; rw [← h]
    · rw [raiseIf_error_iff] at h; rw [h.2]

theorem inputOk_iff (s : State) : inputOk s = true ↔ s.cur.toNat ≤ s.ilen.toNat ∧ s.ilen.toNat ≤ s.params.ibufSize := by
  simp [inputOk]

theorem outputOk_iff (s : State) : outputOk s = true ↔ s.olen.toNat ≤ s.params.obufSize := by simp [outputOk]

/-! ### Result registers -/

theorem resultRegs_getElem (fs : Fields) (i : Fin 32) :
    (resultRegs fs)[i] = BitVec.ofNat 32 ((fs.lookup i).getD 0) := by
  simp [resultRegs]

theorem presMask_getLsbD (fs : Fields) (i : Fin 32) : (presMask fs).getLsbD i.val = (fs.lookup i).isSome := by
  induction fs with
  | nil => simp [presMask]
  | cons x fs ih =>
    obtain ⟨k, v⟩ := x
    rw [presMask, BitVec.getLsbD_or, ih, List.lookup_cons]
    have : (1#32 <<< k.val).getLsbD i.val = (i == k) := by
      rw [BitVec.getLsbD_shiftLeft]
      have := i.isLt
      by_cases h : i = k
      · subst h; simp
      · have h' : i.val ≠ k.val := fun h'' => h (Fin.ext h'')
        rw [show (i == k) = false from beq_eq_false_iff_ne.mpr h, BitVec.getLsbD_one]
        by_cases hlt : i.val < k.val
        · simp [hlt]
        · simp [hlt, show ¬i.val - k.val = 0 by omega]
    rw [this]
    cases i == k <;> rfl

/-- A decode command's writes, completed, are what `DecodedTo` says (10_state.md R24, R25). -/
theorem decodedTo_finish (s : State) (d : Decoded) :
    DecodedTo s (finish (writeDecoded s d)) d.fields d.cur (flagWord d.flags) := by
  refine ⟨?_, fun i => ?_, fun i => ?_⟩
  · simp only [finish, writeDecoded]
  · simp only [finish, writeDecoded]; exact resultRegs_getElem _ _
  · simp only [finish, writeDecoded]; exact presMask_getLsbD _ _

theorem runDecode_completes {i : Instr} {s : State} {body : Result Decoded} {d : Decoded} (h : prologue i s = .ok ())
    (hb : body = .ok d) : ∃ t, runDecode i s body = .next t ∧ DecodedTo s t d.fields d.cur (flagWord d.flags) :=
  ⟨_, run_completes h (by rw [hb]; rfl), decodedTo_finish s d⟩

theorem runDecode_raises {i : Instr} {s : State} {body : Result Decoded} {c : Cause} {n : Nat}
    (h : prologue i s = .ok ()) (hb : body = raising c n) :
    ∃ t, runDecode i s body = .next t ∧ Raised s t (commandWord i) c n :=
  run_raises h (by rw [hb]; rfl)

/-- All that a decode command can do. -/
theorem runDecode_cases {i : Instr} {s t : State} {body : Result Decoded} (h : runDecode i s body = .next t) :
    (∃ r, (prologue i s = .error r ∨ prologue i s = .ok () ∧ body = .error r) ∧ t = takeRaise s (commandWord i) r) ∨
    (∃ d, prologue i s = .ok () ∧ body = .ok d ∧ t = finish (writeDecoded s d)) := by
  rcases run_cases h with ⟨r, hr, ht⟩ | ⟨u, hp, hb, ht⟩
  · refine .inl ⟨r, hr.imp id fun ⟨hp, hb⟩ => ⟨hp, ?_⟩, ht⟩
    rcases (Result.bind_error_iff _ _ _).mp hb with hb | ⟨d, _, hd⟩
    · exact hb
    · cases hd
  · obtain ⟨d, hd, hu⟩ := (Result.bind_ok_iff _ _ _).mp hb
    cases hu
    exact .inr ⟨d, hp, hd, ht⟩

/-! ### Appending -/

/-- `Append` with room (00_scope.md R13). -/
theorem append_ok {s : State} {bs : List Byte} (h : HasRoom s bs.length) :
    append s bs =
      .ok { s with obuf := bufWrite s.obuf s.olen.toNat bs, olen := BitVec.ofNat 16 (s.olen.toNat + bs.length) } := by
  unfold append
  rw [if_neg (by omega)]

/-- `Append` without room (00_scope.md R13). -/
theorem append_full {s : State} {bs : List Byte} (h : ¬HasRoom s bs.length) :
    append s bs = raising .capacity s.olen.toNat := by
  unfold append
  rw [if_pos (by omega)]

/-- An encode command's writes, completed, are what `Appended` says. -/
theorem appended_finish (s : State) (bs : List Byte) (x : Word) :
    Appended s
      (finish { s with
        obuf := bufWrite s.obuf s.olen.toNat bs, olen := BitVec.ofNat 16 (s.olen.toNat + bs.length), flg := x })
      bs x := by
  refine ⟨rfl, fun i h => ?_, fun a h => ?_⟩
  · exact bufByte_bufWrite_inside .obuf s.obuf _ bs i h
  · exact bufByte_bufWrite_outside .obuf s.obuf _ bs a h

theorem flagWord_none : flagWord {} = 0 := by decide

theorem runEncode_completes {i : Instr} {s : State} {body : Result (List Byte)} {bs : List Byte}
    (h : prologue i s = .ok ()) (hb : body = .ok bs) (hr : HasRoom s bs.length) :
    ∃ t, runEncode i s body = .next t ∧ Appended s t bs 0 := by
  refine ⟨_, run_completes h ?_, appended_finish s bs 0⟩
  rw [hb, Result.ok_bind]
  unfold writeEncoded
  rw [append_ok hr, flagWord_none]
  rfl

theorem runEncode_full {i : Instr} {s : State} {body : Result (List Byte)} {bs : List Byte}
    (h : prologue i s = .ok ()) (hb : body = .ok bs) (hr : ¬HasRoom s bs.length) :
    ∃ t, runEncode i s body = .next t ∧ Raised s t (commandWord i) .capacity s.olen.toNat := by
  refine run_raises h ?_
  rw [hb, Result.ok_bind]
  unfold writeEncoded
  rw [append_full hr, raising_bind]

theorem runEncode_raises {i : Instr} {s : State} {body : Result (List Byte)} {c : Cause} {n : Nat}
    (h : prologue i s = .ok ()) (hb : body = raising c n) :
    ∃ t, runEncode i s body = .next t ∧ Raised s t (commandWord i) c n :=
  run_raises h (by rw [hb]; rfl)

/-- All that an encode command can do. -/
theorem runEncode_cases {i : Instr} {s t : State} {body : Result (List Byte)} (h : runEncode i s body = .next t) :
    (∃ r, (prologue i s = .error r ∨ prologue i s = .ok () ∧ (body = .error r ∨ r.cause = .capacity)) ∧
      t = takeRaise s (commandWord i) r) ∨
    (∃ bs, prologue i s = .ok () ∧ body = .ok bs ∧ HasRoom s bs.length ∧
      t = finish { s with
        obuf := bufWrite s.obuf s.olen.toNat bs, olen := BitVec.ofNat 16 (s.olen.toNat + bs.length), flg := 0 }) := by
  have key : ∀ bs, writeEncoded s bs {} =
      if HasRoom s bs.length then
        .ok { s with
          obuf := bufWrite s.obuf s.olen.toNat bs, olen := BitVec.ofNat 16 (s.olen.toNat + bs.length), flg := 0 }
      else raising .capacity s.olen.toNat := by
    intro bs
    unfold writeEncoded
    split
    · next hr => rw [append_ok hr, flagWord_none]; rfl
    · next hr => rw [append_full hr, raising_bind]
  rcases run_cases h with ⟨r, hr, ht⟩ | ⟨u, hp, hb, ht⟩
  · refine .inl ⟨r, hr.imp id fun ⟨hp, hb⟩ => ⟨hp, ?_⟩, ht⟩
    rcases (Result.bind_error_iff _ _ _).mp hb with hb | ⟨bs, _, hd⟩
    · exact .inl hb
    · rw [key] at hd
      split at hd
      · cases hd
      · rw [raising_eq, Except.error.injEq] at hd; exact .inr (by rw [← hd])
  · obtain ⟨bs, hbs, hu⟩ := (Result.bind_ok_iff _ _ _).mp hb
    rw [key] at hu
    split at hu
    · next hr => cases hu; exact .inr ⟨bs, hp, hbs, hr, ht⟩
    · cases hu

/-! ### The window -/

theorem window_length (s : State) : (window s).length = s.ilen.toNat - s.cur.toNat := by simp [window, ibufBytes]

/-- The byte of `IBUF` at an offset into the window. -/
theorem ibufByte_window (s : State) (i : Nat) (h : i < (window s).length) :
    ibufByte s (s.cur.toNat + i) = (window s)[i] := by
  simp [window, ibufBytes, ibufByte]

/-- A slice of `IBUF` inside the window is a piece of the window. -/
theorem ibufBytes_window (s : State) (a n : Nat) (h : a + n ≤ (window s).length) :
    ibufBytes s (s.cur.toNat + a) n = ((window s).drop a).take n := by
  apply List.ext_getElem
  · simp only [window_length] at h
    simp [window_length, ibufBytes]
    omega
  · intro i h1 h2
    simp only [ibufBytes, bufRead_length] at h1
    simp [window, ibufBytes, Nat.add_assoc]

/-- The window split at known bytes: the slice there is those bytes. -/
theorem ibufBytes_of_window {s : State} {pre bs rest : List Byte} (h : window s = pre ++ bs ++ rest) :
    ibufBytes s (s.cur.toNat + pre.length) bs.length = bs := by
  rw [ibufBytes_window s _ _ (by rw [h]; simp), h]
  simp

/-- The window split at a known byte. -/
theorem ibufByte_of_window {s : State} {pre rest : List Byte} {b : Byte} (h : window s = pre ++ b :: rest) :
    ibufByte s (s.cur.toNat + pre.length) = b := by
  rw [ibufByte_window s _ (by rw [h]; simp)]
  simp [h]

/-- Where a window that is split so ends. -/
theorem ilen_of_window {s : State} {bs : List Byte} (h : window s = bs) (hc : s.cur.toNat ≤ s.ilen.toNat) :
    s.ilen.toNat = s.cur.toNat + bs.length := by
  have := window_length s
  rw [h] at this
  omega

@[simp] theorem ibufBytes_length (s : State) (a n : Nat) : (ibufBytes s a n).length = n := bufRead_length _ _ _ _

@[simp] theorem ibufBytes_getElem (s : State) (a n i : Nat) (h : i < (ibufBytes s a n).length) :
    (ibufBytes s a n)[i] = ibufByte s (a + i) := bufRead_getElem _ _ _ _ _ h

theorem ibufBytes_append (s : State) (a m n : Nat) :
    ibufBytes s a (m + n) = ibufBytes s a m ++ ibufBytes s (a + m) n := bufRead_append _ _ _ _ _

end Sys2Proof.Machine
end

