-- ==== Sys2Proof/Laws/HostPort.lean ====
section
/-! SUPPORT. What a host register write can do, and what the registers of contexts and of the Flex field table hold after
reset. -/

namespace Sys2Proof.Machine

/-- All that a host register write can change (10_state.md R40): the registers marked RW, and `ESTICKY`. -/
theorem regWrite_frame (s : State) (i : Nat) (w : Word) :
    regWrite s i w = { s with
      esticky := (regWrite s i w).esticky, pres := (regWrite s i w).pres, ilen := (regWrite s i w).ilen
      cur := (regWrite s i w).cur, olen := (regWrite s i w).olen, tlvn := (regWrite s i w).tlvn
      a := (regWrite s i w).a, f := (regWrite s i w).f, tlv := (regWrite s i w).tlv } := by
  unfold regWrite tlvUpdate
  repeat' split
  all_goals rfl

/-- Replacing an entry that the configuration does not have changes nothing. -/
theorem tlvUpdate_of_le {s : State} {i : Nat} (h : s.params.tlvMax ≤ i) (g : TlvEntry → TlvEntry) : tlvUpdate s i g = s := by
  simp [tlvUpdate, tlvAt, Nat.not_lt.mpr h]

/-- Every register of an idle context is 0 (10_state.md R36). -/
theorem ctxReg_idle (b : Buf) (k : Nat) : ctxReg (Ctx.idle b) k = 0 := by
  unfold ctxReg
  split <;> rfl

/-- After reset every context is idle (10_state.md R42). -/
theorem ctxAt_resetWith (p : Params) (c : Nat) : ctxAt (State.resetWith p) c = Ctx.idle (Buf.unspecified 0) := by
  by_cases h : c < p.amaNctx <;> simp [ctxAt, State.resetWith, h]

/-- After reset every entry of the Flex field table is 0 (10_state.md R42). -/
theorem tlvAt_resetWith {p : Params} {i : Nat} {e : TlvEntry} (h : tlvAt (State.resetWith p) i = some e) :
    e = { key := 0, off := 0, len := 0 } := by
  by_cases hi : i < p.tlvMax
  · simp only [tlvAt, State.resetWith, hi, if_true, Vector.getElem?_replicate] at h
    split at h
    · exact (Option.some.inj h).symm
    · cases h
  · simp [tlvAt, State.resetWith, hi] at h

/-- The entry of the Flex field table that an index in range names. -/
theorem tlvAt_of_lt {s : State} (i : Fin 64) (h : i.val < s.params.tlvMax) : tlvAt s i.val = some s.tlv[i] := by
  simp [tlvAt, h]

/-- What the eight indices of context `c` read (10_state.md R40). -/
theorem regRead_ctx {s : State} {c k : Nat} (hc : c < s.params.amaNctx) (hk : k < 8) :
    regRead s (0x100 + 8 * c + k) = ctxReg (ctxAt s c) k := by
  unfold regRead
  split <;> try omega
  rw [if_neg (by omega), if_neg (by omega), if_neg (by omega), if_neg (by omega), if_neg (by omega), if_pos (by omega),
    show (0x100 + 8 * c + k - 0x100) / 8 = c by omega, show (0x100 + 8 * c + k - 0x100) % 8 = k by omega]

end Sys2Proof.Machine
end

