-- ==== Sys2Proof/Laws/Operands.lean ====
section
/-! SUPPORT. What the operand forms of Machine/Operands.lean compute: big-endian numbers, bits, slices, register checks,
the choice of a width class. -/

namespace Sys2Proof.Machine

/-! ### Big-endian numbers -/

@[simp] theorem beNat_nil : beNat [] = 0 := rfl

theorem beNat_append_single (bs : List Byte) (b : Byte) : beNat (bs ++ [b]) = 256 * beNat bs + b.toNat := by
  simp [beNat]

theorem beNat_append (xs ys : List Byte) : beNat (xs ++ ys) = beNat xs * 256 ^ ys.length + beNat ys := by
  induction ys using List.reverseRecOn with
  | nil => simp
  | append_singleton ys y ih =>
    rw [← List.append_assoc, beNat_append_single, beNat_append_single, ih, List.length_append, List.length_singleton,
      Nat.pow_succ]
    ring

theorem beNat_cons (b : Byte) (bs : List Byte) : beNat (b :: bs) = b.toNat * 256 ^ bs.length + beNat bs := by
  have := beNat_append [b] bs
  simpa [beNat] using this

theorem beNat_lt (bs : List Byte) : beNat bs < 256 ^ bs.length := by
  induction bs with
  | nil => simp
  | cons b bs ih =>
    rw [beNat_cons, List.length_cons, Nat.pow_succ]
    have := b.isLt
    nlinarith

@[simp] theorem bytesBE_length (v n : Nat) : (bytesBE v n).length = n := by
  induction n generalizing v with
  | zero => rfl
  | succ n ih => simp [bytesBE, ih]

theorem beNat_bytesBE (v n : Nat) : beNat (bytesBE v n) = v % 256 ^ n := by
  induction n generalizing v with
  | zero => simp [bytesBE, Nat.mod_one]
  | succ n ih =>
    rw [bytesBE, beNat_append_single, ih, Nat.pow_succ, Nat.mul_comm (256 ^ n), Nat.mod_mul, BitVec.toNat_ofNat]
    omega

theorem beNat_bytesBE_of_lt {v n : Nat} (h : v < 256 ^ n) : beNat (bytesBE v n) = v := by
  rw [beNat_bytesBE, Nat.mod_eq_of_lt h]

/-- A big-endian number names its bytes. -/
theorem bytesBE_beNat (bs : List Byte) : bytesBE (beNat bs) bs.length = bs := by
  induction bs using List.reverseRecOn with
  | nil => rfl
  | append_singleton bs b ih =>
    have hb := b.isLt
    rw [beNat_append_single, List.length_append, List.length_singleton, bytesBE,
      show (256 * beNat bs + b.toNat) / 256 = beNat bs by omega, ih]
    congr 2
    apply BitVec.eq_of_toNat_eq
    rw [BitVec.toNat_ofNat]
    omega

theorem bytesBE_eq_of_beNat {bs : List Byte} {v n : Nat} (h : beNat bs = v) (hn : bs.length = n) : bytesBE v n = bs := by
  rw [← h, ← hn, bytesBE_beNat]

/-- Two bytes of a 16-bit number (30_encoding.md R88). -/
theorem bytesBE_two (v : Nat) : bytesBE v 2 = [BitVec.ofNat 8 (v / 256), BitVec.ofNat 8 v] := rfl

/-- The top bits of the leading byte are the top bits of the whole number. -/
theorem lead_div (b : Byte) (bs : List Byte) (k : Nat) (hk : k ≤ 8) :
    b.toNat / 2 ^ (8 - k) = beNat (b :: bs) / 2 ^ (8 * (bs.length + 1) - k) := by
  have h2 : 2 ^ (8 * (bs.length + 1) - k) = 256 ^ bs.length * 2 ^ (8 - k) := by
    rw [show (256 : Nat) = 2 ^ 8 from rfl, ← Nat.pow_mul, ← Nat.pow_add]
    congr 1
    omega
  rw [h2, ← Nat.div_div_eq_div_mul, beNat_cons, Nat.mul_comm,
    Nat.mul_add_div (Nat.pos_of_ne_zero (by positivity)), Nat.div_eq_of_lt (beNat_lt bs), Nat.add_zero]

/-! ### Bits -/

theorem bitsNat_append_single (bs : List Bool) (b : Bool) : bitsNat (bs ++ [b]) = 2 * bitsNat bs + b.toNat := by
  simp [bitsNat]

theorem bitsNat_lt (bs : List Bool) : bitsNat bs < 2 ^ bs.length := by
  induction bs using List.reverseRecOn with
  | nil => simp [bitsNat]
  | append_singleton bs b ih =>
    rw [bitsNat_append_single, List.length_append, List.length_singleton, Nat.pow_succ]
    have := b.toNat_le
    omega

/-- The first bit is the most significant (40_primitives.md R126). -/
theorem testBit_bitsNat (bs : List Bool) (i : Nat) (h : i < bs.length) :
    (bitsNat bs).testBit (bs.length - 1 - i) = bs[i] := by
  induction bs using List.reverseRecOn with
  | nil => simp at h
  | append_singleton bs b ih =>
    simp only [List.length_append, List.length_singleton] at h ⊢
    rw [bitsNat_append_single]
    by_cases hi : i < bs.length
    · rw [List.getElem_append_left hi, ← ih hi, show bs.length + 1 - 1 - i = (bs.length - 1 - i) + 1 by omega,
        Nat.testBit_succ]
      congr 1
      cases b <;> simp
      omega
    · have : i = bs.length := by omega
      subst this
      cases b <;> simp [Nat.testBit_zero]

/-- Bit `m` of a byte after one bit of it is set (40_primitives.md R127). -/
theorem getLsbD_setBit (b : Byte) (n m : Nat) (v : Bool) (hn : n < 8) (hm : m < 8) :
    (setBit b n v).getLsbD m = if m = n then v else b.getLsbD m := by
  unfold setBit
  cases v
  · simp only [Bool.false_eq_true, if_false, BitVec.getLsbD_and, BitVec.getLsbD_not, BitVec.getLsbD_shiftLeft,
      BitVec.getLsbD_one]
    by_cases h : m = n
    · subst h; simp [hm]
    · by_cases hlt : m < n
      · simp [h, hlt, hm]
      · simp [h, hlt, hm, show ¬m - n = 0 by omega]
  · simp only [if_true, BitVec.getLsbD_or, BitVec.getLsbD_shiftLeft, BitVec.getLsbD_one]
    by_cases h : m = n
    · subst h; simp [hm]
    · by_cases hlt : m < n
      · simp [h, hlt]
      · simp [h, hlt, hm, show ¬m - n = 0 by omega]

/-! ### Slices and register checks -/

theorem slice_ok {s : State} {o n info : Nat} (h : o + n ≤ s.ilen.toNat) : slice s o n info = .ok (ibufBytes s o n) := by
  unfold slice
  rw [if_neg (by omega)]

theorem slice_outside {s : State} {o n info : Nat} (h : s.ilen.toNat < o + n) :
    slice s o n info = raising .badOperand info := by
  unfold slice
  rw [if_pos (by omega)]

theorem slice_cases (s : State) (o n info : Nat) :
    slice s o n info = .ok (ibufBytes s o n) ∧ o + n ≤ s.ilen.toNat ∨
    slice s o n info = raising .badOperand info ∧ s.ilen.toNat < o + n := by
  rcases Nat.lt_or_ge s.ilen.toNat (o + n) with h | h
  · exact .inr ⟨slice_outside h, h⟩
  · exact .inl ⟨slice_ok h, h⟩

@[simp] theorem fit_bind {α : Type} (s : State) (i : Fin 32) (n : Nat) (f : Unit → Result α) :
    (fit s i n >>= f) = if 2 ^ n ≤ fVal s i then raising .encodingConstraint i.val else f () := by
  simp [fit]

theorem fit_ok {s : State} {i : Fin 32} {n : Nat} (h : fVal s i < 2 ^ n) : fit s i n = .ok () := by
  unfold fit
  rw [decide_eq_false (by omega)]
  rfl

/-! ### Width classes -/

/-- The classes that hold `v`, by rising code (30_encoding.md R86). -/
theorem mem_vwClasses (p : Params) (k : VwKind) (v w c : Nat) :
    (w, c) ∈ vwClasses p k v ↔ c < 2 ^ vwBits k ∧ vwWidth p k c = some w ∧ v < 2 ^ (8 * w - vwBits k) := by
  simp only [vwClasses, List.mem_filterMap, List.mem_range]
  constructor
  · rintro ⟨c', hc', h⟩
    split at h
    · cases h
    · next w' hw =>
      split at h
      · next hv => cases h; exact ⟨hc', hw, hv⟩
      · cases h
  · rintro ⟨hc, hw, hv⟩
    exact ⟨c, hc, by simp [hw, hv]⟩

theorem vwClasses_sorted (p : Params) (k : VwKind) (v : Nat) : (vwClasses p k v).Pairwise fun x y => x.2 < y.2 := by
  unfold vwClasses
  refine List.Pairwise.filterMap _ ?_ List.pairwise_lt_range
  intro c c' hlt x hx y hy
  have aux : ∀ {c : Nat} {x : Nat × Nat},
      (match vwWidth p k c with
        | none => none
        | some w => if v < 2 ^ (8 * w - vwBits k) then some (w, c) else none) = some x → x.2 = c := by
    intro c x h
    split at h
    · cases h
    · split at h
      · cases h; rfl
      · cases h
  rw [aux hx, aux hy]
  exact hlt

/-- The choice among classes: none when there is none, else a member of smallest width and, among those, code. -/
theorem narrowest_spec (l : List (Nat × Nat)) (h : l.Pairwise fun x y => x.2 < y.2) :
    (narrowest l = none ∧ l = []) ∨
    ∃ x, narrowest l = some x ∧ x ∈ l ∧ ∀ y ∈ l, x.1 < y.1 ∨ (x.1 = y.1 ∧ x.2 ≤ y.2) := by
  induction l with
  | nil => exact .inl ⟨rfl, rfl⟩
  | cons x l ih =>
    right
    rw [List.pairwise_cons] at h
    rcases ih h.2 with ⟨hn, hl⟩ | ⟨y, hn, hy, hmin⟩
    · refine ⟨x, by simp [narrowest, hn], by simp, ?_⟩
      simp [hl]
    · by_cases hlt : y.1 < x.1
      · refine ⟨y, by simp [narrowest, hn, hlt], by simp [hy], ?_⟩
        intro z hz
        rcases List.mem_cons.mp hz with rfl | hz
        · exact .inl hlt
        · exact hmin z hz
      · refine ⟨x, by simp [narrowest, hn, hlt], by simp, ?_⟩
        intro z hz
        rcases List.mem_cons.mp hz with rfl | hz
        · exact .inr ⟨rfl, Nat.le_refl _⟩
        · have h1 := hmin z hz
          have h2 := h.1 z hz
          omega

/-- The encoder's choice is the least class, by width and then code. -/
theorem narrowest_eq {l : List (Nat × Nat)} (h : l.Pairwise fun x y => x.2 < y.2) {x : Nat × Nat} (hx : x ∈ l)
    (hmin : ∀ y ∈ l, x.1 < y.1 ∨ (x.1 = y.1 ∧ x.2 ≤ y.2)) : narrowest l = some x := by
  rcases narrowest_spec l h with ⟨_, hl⟩ | ⟨y, hn, hy, hy'⟩
  · rw [hl] at hx; cases hx
  · rw [hn]
    have h1 := hmin y hy
    have h2 := hy' x hx
    congr 1
    apply Prod.ext <;> omega

/-- All that the variable-width encoder can do (30_encoding.md R86). -/
theorem vwEncode_cases (p : Params) (k : VwKind) (v : Nat) :
    (vwEncode p k v = raising .encodingConstraint v ∧
      ∀ c w, c < 2 ^ vwBits k → vwWidth p k c = some w → 2 ^ (8 * w - vwBits k) ≤ v) ∨
    ∃ w c, vwEncode p k v = .ok (bytesBE (c * 2 ^ (8 * w - vwBits k) + v) w) ∧ c < 2 ^ vwBits k ∧
      vwWidth p k c = some w ∧ v < 2 ^ (8 * w - vwBits k) ∧
      ∀ c' w', c' < 2 ^ vwBits k → vwWidth p k c' = some w' → v < 2 ^ (8 * w' - vwBits k) →
        w < w' ∨ (w = w' ∧ c ≤ c') := by
  rcases narrowest_spec _ (vwClasses_sorted p k v) with ⟨hn, hl⟩ | ⟨⟨w, c⟩, hn, hm, hmin⟩
  · left
    refine ⟨by rw [vwEncode, hn], fun c w hc hw => ?_⟩
    by_contra hlt
    have := (mem_vwClasses p k v w c).mpr ⟨hc, hw, by omega⟩
    rw [hl] at this
    cases this
  · right
    obtain ⟨hc, hw, hv⟩ := (mem_vwClasses p k v w c).mp hm
    exact ⟨w, c, by rw [vwEncode, hn], hc, hw, hv, fun c' w' hc' hw' hv' =>
      hmin (w', c') ((mem_vwClasses p k v w' c').mpr ⟨hc', hw', hv'⟩)⟩

end Sys2Proof.Machine
end

