-- ==== Sys2Proof/Laws/Layout.lean ====
section
/-! SUPPORT. The wire layouts of Sys2Proof/Layout.lean against the parsers' and encoders' operations: variable-width fields
first, then the fields of each packed byte or word. -/

namespace Sys2Proof.Machine

open Sys2Proof.Layout

/-! ### Variable-width fields -/

theorem vwBits_le (k : VwKind) : vwBits k ≤ 8 := by cases k <;> decide

/-- What a variable-width field is: its code selects its length, and code and value make up its number (30_encoding.md
R85). -/
theorem vwField_spec {p : Params} {k : VwKind} {bs : List Byte} {v : Nat} (h : vwField p k bs v = true) :
    ∃ lead rest, bs = lead :: rest ∧ lead.toNat / 2 ^ (8 - vwBits k) < 2 ^ vwBits k ∧
      vwWidth p k (lead.toNat / 2 ^ (8 - vwBits k)) = some bs.length ∧ v < 2 ^ (8 * bs.length - vwBits k) ∧
      v = beNat bs % 2 ^ (8 * bs.length - vwBits k) ∧
      beNat bs = lead.toNat / 2 ^ (8 - vwBits k) * 2 ^ (8 * bs.length - vwBits k) + v := by
  cases bs with
  | nil => simp [vwField] at h
  | cons lead rest =>
    simp only [vwField, Bool.and_eq_true, beq_iff_eq] at h
    obtain ⟨hw, hv⟩ := h
    have hk := vwBits_le k
    have hlead : lead.toNat / 2 ^ (8 - vwBits k) < 2 ^ vwBits k := by
      rw [Nat.div_lt_iff_lt_mul (by positivity), ← Nat.pow_add, show vwBits k + (8 - vwBits k) = 8 by omega]
      exact lead.isLt
    refine ⟨lead, rest, rfl, hlead, hw, ?_, hv, ?_⟩
    · rw [hv]; exact Nat.mod_lt _ (by positivity)
    · rw [lead_div lead rest _ hk, hv, List.length_cons]
      exact (Nat.div_add_mod' _ _).symm

/-- Reading a field that stands at `p` (30_encoding.md R85). -/
theorem vwDecode_of_field {s : State} {k : VwKind} {p stop v : Nat} {bs : List Byte} (h : vwField s.params k bs v = true)
    (hb : ibufBytes s p bs.length = bs) (hs : p + bs.length ≤ stop) :
    vwDecode s k p stop =
      .ok { value := v, width := bs.length, code := (bs.headD 0).toNat / 2 ^ (8 - vwBits k) } := by
  obtain ⟨lead, rest, rfl, _, hw, _, hv, _⟩ := vwField_spec h
  have hlead : ibufByte s p = lead := by
    have := congrArg (·[0]?) hb
    simpa using this
  simp only [List.length_cons] at hw hs hb hv ⊢
  unfold vwDecode
  rw [need_bind, if_neg (by omega)]
  simp only [hlead, hw, need_bind]
  rw [if_neg (by omega), Result.pure_eq, hb, ← hv]
  rfl

/-- The encoder gives the minimal field (30_encoding.md R86). -/
theorem vwEncode_of_minimal {p : Params} {k : VwKind} {v : Nat} {bs : List Byte} (h : vwMinimal p k bs v = true) :
    vwEncode p k v = .ok bs := by
  cases bs with
  | nil => simp [vwMinimal] at h
  | cons lead rest =>
    simp only [vwMinimal, Bool.and_eq_true, List.all_eq_true, List.mem_range] at h
    obtain ⟨hf, hmin⟩ := h
    obtain ⟨lead', rest', hb, hc, hw, hv, _, hn⟩ := vwField_spec hf
    cases hb
    have hx : ((lead :: rest).length, lead.toNat / 2 ^ (8 - vwBits k)) ∈ vwClasses p k v :=
      (mem_vwClasses _ _ _ _ _).mpr ⟨hc, hw, hv⟩
    have hnar := narrowest_eq (vwClasses_sorted p k v) hx fun y hy => by
      obtain ⟨w', c'⟩ := y
      obtain ⟨hc', hw', hv'⟩ := (mem_vwClasses _ _ _ _ _).mp hy
      have := hmin c' hc'
      rw [hw'] at this
      exact of_decide_eq_true this hv'
    rw [vwEncode, hnar]
    exact congrArg _ (bytesBE_eq_of_beNat hn rfl)

/-- The encoder refuses a value that no class holds (30_encoding.md R86). -/
theorem vwEncode_unencodable {p : Params} {k : VwKind} {v : Nat} (h : vwUnencodable p k v = true) :
    vwEncode p k v = raising .encodingConstraint v := by
  simp only [vwUnencodable, List.all_eq_true, List.mem_range] at h
  rcases vwEncode_cases p k v with ⟨he, _⟩ | ⟨w, c, _, hc, hw, hv, _⟩
  · exact he
  · have := h c hc
    rw [hw] at this
    have := of_decide_eq_true this
    omega

theorem vwNarrower_iff (p : Params) (k : VwKind) (v w : Nat) :
    vwNarrower p k v w = true ↔
      ∃ c w', c < 2 ^ vwBits k ∧ vwWidth p k c = some w' ∧ w' < w ∧ v < 2 ^ (8 * w' - vwBits k) := by
  simp only [vwNarrower, List.any_eq_true, List.mem_range]
  constructor
  · rintro ⟨c, hc, h⟩
    split at h
    · cases h
    · next w' hw => exact ⟨c, w', hc, hw, of_decide_eq_true h⟩
  · rintro ⟨c, w', hc, hw, h⟩
    exact ⟨c, hc, by rw [hw]; exact decide_eq_true h⟩

/-- A field is canonical when no narrower class holds its value (30_encoding.md R87 (c)). -/
theorem vwCanon_of_field {p : Params} {k : VwKind} {v : Nat} {bs : List Byte} (h : vwField p k bs v = true) :
    vwCanon p k v bs.length = !vwNarrower p k v bs.length := by
  obtain ⟨lead, rest, _, hc, hw, hv, _, _⟩ := vwField_spec h
  rcases vwEncode_cases p k v with ⟨_, hn⟩ | ⟨w, c, he, hc', hw', hv', hmin⟩
  · have := hn _ _ hc hw; omega
  · have hself := hmin _ _ hc hw hv
    have hcan : vwCanon p k v bs.length = (w == bs.length) := by simp [vwCanon, he]
    rw [hcan]
    cases hn : vwNarrower p k v bs.length with
    | true =>
      obtain ⟨c2, w2, hc2, hw2, hlt, hv2⟩ := (vwNarrower_iff _ _ _ _).mp hn
      have := hmin _ _ hc2 hw2 hv2
      simp
      omega
    | false =>
      have : ¬w < bs.length := fun hlt => by
        have := (vwNarrower_iff p k v bs.length).mpr ⟨c, w, hc', hw', hlt, hv'⟩
        rw [hn] at this
        cases this
      simp
      omega

/-- What the encoder writes is a field of its value (30_encoding.md R87 (a)), in a class of at least one byte. -/
theorem vwField_of_encode {p : Params} {k : VwKind} {v : Nat} {bs : List Byte} (h : vwEncode p k v = .ok bs)
    (hne : bs ≠ []) : vwField p k bs v = true := by
  rcases vwEncode_cases p k v with ⟨he, _⟩ | ⟨w, c, he, hc, hw, hv, _⟩
  · rw [he] at h; cases h
  · rw [he] at h
    have hk := vwBits_le k
    have hb : bs = bytesBE (c * 2 ^ (8 * w - vwBits k) + v) w := (Except.ok.inj h).symm
    have hwpos : 0 < w := by
      rcases Nat.eq_zero_or_pos w with h0 | h0
      · subst h0; exact absurd (by rw [hb]; rfl) hne
      · exact h0
    have hlen : bs.length = w := by rw [hb, bytesBE_length]
    have hlt : c * 2 ^ (8 * w - vwBits k) + v < 256 ^ w := by
      have h1 : (256 : Nat) ^ w = 2 ^ vwBits k * 2 ^ (8 * w - vwBits k) := by
        rw [show (256 : Nat) = 2 ^ 8 from rfl, ← Nat.pow_mul, ← Nat.pow_add]
        congr 1
        omega
      rw [h1]
      calc c * 2 ^ (8 * w - vwBits k) + v < c * 2 ^ (8 * w - vwBits k) + 2 ^ (8 * w - vwBits k) :=
            Nat.add_lt_add_left hv _
        _ = (c + 1) * 2 ^ (8 * w - vwBits k) := (Nat.succ_mul _ _).symm
        _ ≤ _ := Nat.mul_le_mul_right _ hc
    have hn : beNat bs = c * 2 ^ (8 * w - vwBits k) + v := by rw [hb, beNat_bytesBE_of_lt hlt]
    cases bs with
    | nil => exact absurd rfl hne
    | cons lead rest =>
      simp only [List.length_cons] at hlen
      have hcode : lead.toNat / 2 ^ (8 - vwBits k) = c := by
        rw [lead_div lead rest _ hk, hn, hlen, Nat.mul_comm, Nat.mul_add_div (by positivity), Nat.div_eq_of_lt hv,
          Nat.add_zero]
      simp only [vwField, List.length_cons, hlen, hcode, hw, hn, Bool.and_eq_true, beq_iff_eq, true_and]
      rw [Nat.mul_comm, Nat.mul_add_mod, Nat.mod_eq_of_lt hv]

/-- The code of a wider class is never needed: a minimal field is canonical. -/
theorem vwNarrower_of_minimal {p : Params} {k : VwKind} {v : Nat} {bs : List Byte} (h : vwMinimal p k bs v = true) :
    vwNarrower p k v bs.length = false := by
  have he := vwEncode_of_minimal h
  have hf : vwField p k bs v = true := by
    cases bs with
    | nil => simp [vwMinimal] at h
    | cons lead rest => simp only [vwMinimal, Bool.and_eq_true] at h; exact h.1
  have := vwCanon_of_field hf
  simp [vwCanon, he] at this
  exact this

/-! ### Headers as lists of fields -/

@[simp] theorem ifSet_one {α : Type} (xs : List α) : ifSet 1 xs = xs := rfl

@[simp] theorem ifSet_zero {α : Type} (xs : List α) : ifSet 0 xs = [] := rfl

theorem ifSet_of_ne {α : Type} {n : Nat} (h : n ≠ 1) (xs : List α) : ifSet n xs = [] := if_neg h

theorem linkBytes_eq (x : Link) : linkBytes x = linkFixedBytes x ++ x.src ++ x.dst ++ x.seqn := by
  simp [linkBytes, linkPieces]

theorem netBytes_eq (x : Net) :
    netBytes x = octet (128 * x.isFragment + 64 * x.framePldType + 32 * x.encrEna + 4 * x.code + x.pad)
      :: (ifSet x.isFragment [octet x.info] ++ x.auth) := by
  simp [netBytes, netPieces]

theorem presHead_flatten (x : Pres) :
    (presHead x).flatten = octet (64 * x.opc + 32 * x.seqnInc + 16 * x.rspReq + x.addrEnc) :: x.ext := by
  simp [presHead]

theorem presBytes_eq (x : Pres) : presBytes x = (presHead x).flatten ++ x.seqn := by simp [presBytes, presPieces]

theorem aslBytes1_eq (x : Asl) : aslBytes1 x = (aslHead x).flatten ++ x.seqn := by simp [aslBytes1, aslPieces1]

theorem aslBytes2_eq (x : Asl) :
    aslBytes2 x = aslBytes1 x ++ x.blobPrefix ++ x.blob
      ++ ifSet x.statusHdrInc [octet (128 * x.codeInc + 64 * x.aadInc + x.statusPad)] ++ x.code := by
  simp [aslBytes2, aslPieces2, aslBytes1]

theorem aslBytes_eq (x : Asl) :
    aslBytes x = aslBytes2 x ++ x.aadPrefix ++ x.aad ++ [octet (aslAddrByte x)] ++ x.cls ++ x.id := by
  simp [aslBytes, aslPieces, aslBytes2]

/-- The cut stands after every field that is whole. -/
theorem cutAt_append (at_ : Nat) (ps qs : List (List Byte)) (n : Nat) (h : ps.flatten.length ≤ n) :
    cutAt at_ (ps ++ qs) n = cutAt (at_ + ps.flatten.length) qs (n - ps.flatten.length) := by
  induction ps generalizing at_ n with
  | nil => simp
  | cons x ps ih =>
    simp only [List.flatten_cons, List.length_append] at h ⊢
    rw [List.cons_append, cutAt, if_neg (by omega), ih _ _ (by omega), Nat.add_assoc, Nat.sub_sub]

/-- The cut stands in the first list of fields if that is not whole. -/
theorem cutAt_append_of_lt (at_ : Nat) (ps qs : List (List Byte)) (n : Nat) (h : n < ps.flatten.length) :
    cutAt at_ (ps ++ qs) n = cutAt at_ ps n := by
  induction ps generalizing at_ n with
  | nil => simp at h
  | cons x ps ih =>
    simp only [List.flatten_cons, List.length_append] at h
    rw [List.cons_append, cutAt, cutAt]
    split
    · rfl
    · exact ih _ _ (by omega)

/-! ### Tests of the encoders -/

@[simp] theorem firstFailing_nil : firstFailing [] = none := rfl

@[simp] theorem firstFailing_cons (c : Check) (l : List Check) :
    firstFailing (c :: l) = if c.fails then some (c.cause, c.info) else firstFailing l := by
  unfold firstFailing
  cases h : c.fails <;> simp [h]

theorem firstFailing_append (l m : List Check) : firstFailing (l ++ m) = (firstFailing l).or (firstFailing m) := by
  induction l with
  | nil => simp
  | cons c l ih =>
    rw [List.cons_append, firstFailing_cons, firstFailing_cons, ih]
    split <;> simp

/-- `Fit(i, n)` raises what its test says (42_asl.md R173). -/
theorem fit_eq_check (s : State) (i : Fin 32) (n : Nat) :
    fit s i n = if (fitCheck s i n).fails then raising (fitCheck s i n).cause (fitCheck s i n).info else .ok () := rfl

/-! ### Prefix tables -/

theorem prefixRead_eq_none {t : PrefixTable} {bs : List Byte} (h : ∀ e ∈ t, ¬e.1 <+: bs) : prefixRead t bs = none := by
  induction t with
  | nil => rfl
  | cons e t ih =>
    obtain ⟨pre, n⟩ := e
    rw [prefixRead, if_neg (by rw [List.isPrefixOf_iff_prefix]; exact h _ List.mem_cons_self)]
    exact ih fun e he => h e (List.mem_cons_of_mem _ he)

end Sys2Proof.Machine
end

