-- ==== Sys2Proof/Laws/Wire.lean ====
section
/-! SUPPORT. The fields of each packed byte or word of Machine/Wire.lean as numbers: each is the word's value divided by
its place's weight and reduced to its width, and the word is the sum of its fields at their weights. -/

namespace Sys2Proof.Machine

theorem toNat_append_add {m n : Nat} (x : BitVec m) (y : BitVec n) : (x ++ y).toNat = x.toNat * 2 ^ n + y.toNat := by
  rw [BitVec.toNat_append, ← Nat.shiftLeft_add_eq_or_of_lt y.isLt, Nat.shiftLeft_eq]

theorem toNat_extract {m : Nat} (x : BitVec m) (s n : Nat) : (x.extractLsb' s n).toNat = x.toNat / 2 ^ s % 2 ^ n := by
  rw [BitVec.extractLsb'_toNat, Nat.shiftRight_eq_div_pow]

/-! ### `LinkFixed` -/

@[simp] theorem linkFixedOf_frameType (h : BitVec 16) : (linkFixedOf h).frameType.toNat = h.toNat / 8192 % 8 := by
  simp only [linkFixedOf, toNat_extract]
  norm_num

@[simp] theorem linkFixedOf_protocolVersion (h : BitVec 16) : (linkFixedOf h).protocolVersion.toNat = h.toNat / 512 % 16 := by
  simp only [linkFixedOf, toNat_extract]
  norm_num

@[simp] theorem linkFixedOf_srcFormat (h : BitVec 16) : (linkFixedOf h).srcFormat.toNat = h.toNat / 128 % 4 := by
  simp only [linkFixedOf, toNat_extract]
  norm_num

@[simp] theorem linkFixedOf_dstFormat (h : BitVec 16) : (linkFixedOf h).dstFormat.toNat = h.toNat / 32 % 4 := by
  simp only [linkFixedOf, toNat_extract]
  norm_num

@[simp] theorem linkFixedOf_ackReq (h : BitVec 16) : (linkFixedOf h).ackReq.toNat = h.toNat / 16 % 2 := by
  simp only [linkFixedOf, toNat_extract]
  norm_num

@[simp] theorem linkFixedOf_broadcastAck (h : BitVec 16) : (linkFixedOf h).broadcastAck.toNat = h.toNat / 8 % 2 := by
  simp only [linkFixedOf, toNat_extract]
  norm_num

theorem linkFixedBits_toNat (x : LinkFixed) :
    (linkFixedBits x).toNat = 8192 * x.frameType.toNat + 512 * x.protocolVersion.toNat + 128 * x.srcFormat.toNat + 32 * x.dstFormat.toNat + 16 * x.ackReq.toNat + 8 * x.broadcastAck.toNat := by
  have h : (linkFixedBits x).toNat = (x.frameType ++ x.protocolVersion ++ x.srcFormat ++ x.dstFormat ++ x.ackReq ++ x.broadcastAck ++ (0 : BitVec 3)).toNat := rfl
  rw [h]
  simp only [toNat_append_add, BitVec.ofNat_eq_ofNat, BitVec.toNat_ofNat, Nat.zero_mod]
  ring_nf

/-- What is put into a word is read back from it. -/
@[simp] theorem linkFixedOf_linkFixedBits (x : LinkFixed) : linkFixedOf (linkFixedBits x) = x := by
  have h := linkFixedBits_toNat x
  have h_frameType := x.frameType.isLt
  have h_protocolVersion := x.protocolVersion.isLt
  have h_srcFormat := x.srcFormat.isLt
  have h_dstFormat := x.dstFormat.isLt
  have h_ackReq := x.ackReq.isLt
  have h_broadcastAck := x.broadcastAck.isLt
  have e_frameType : (linkFixedOf (linkFixedBits x)).frameType = x.frameType := BitVec.eq_of_toNat_eq (by rw [linkFixedOf_frameType, h]; omega)
  have e_protocolVersion : (linkFixedOf (linkFixedBits x)).protocolVersion = x.protocolVersion := BitVec.eq_of_toNat_eq (by rw [linkFixedOf_protocolVersion, h]; omega)
  have e_srcFormat : (linkFixedOf (linkFixedBits x)).srcFormat = x.srcFormat := BitVec.eq_of_toNat_eq (by rw [linkFixedOf_srcFormat, h]; omega)
  have e_dstFormat : (linkFixedOf (linkFixedBits x)).dstFormat = x.dstFormat := BitVec.eq_of_toNat_eq (by rw [linkFixedOf_dstFormat, h]; omega)
  have e_ackReq : (linkFixedOf (linkFixedBits x)).ackReq = x.ackReq := BitVec.eq_of_toNat_eq (by rw [linkFixedOf_ackReq, h]; omega)
  have e_broadcastAck : (linkFixedOf (linkFixedBits x)).broadcastAck = x.broadcastAck := BitVec.eq_of_toNat_eq (by rw [linkFixedOf_broadcastAck, h]; omega)
  generalize linkFixedOf (linkFixedBits x) = y at *
  cases x; cases y; simp_all

/-! ### `NetByte` -/

@[simp] theorem netByteOf_isFragment (h : BitVec 8) : (netByteOf h).isFragment.toNat = h.toNat / 128 % 2 := by
  simp only [netByteOf, toNat_extract]
  norm_num

@[simp] theorem netByteOf_framePldType (h : BitVec 8) : (netByteOf h).framePldType.toNat = h.toNat / 64 % 2 := by
  simp only [netByteOf, toNat_extract]
  norm_num

@[simp] theorem netByteOf_encrEna (h : BitVec 8) : (netByteOf h).encrEna.toNat = h.toNat / 32 % 2 := by
  simp only [netByteOf, toNat_extract]
  norm_num

@[simp] theorem netByteOf_authCode (h : BitVec 8) : (netByteOf h).authCode.toNat = h.toNat / 4 % 8 := by
  simp only [netByteOf, toNat_extract]
  norm_num

theorem netByteBits_toNat (x : NetByte) :
    (netByteBits x).toNat = 128 * x.isFragment.toNat + 64 * x.framePldType.toNat + 32 * x.encrEna.toNat + 4 * x.authCode.toNat := by
  have h : (netByteBits x).toNat = (x.isFragment ++ x.framePldType ++ x.encrEna ++ x.authCode ++ (0 : BitVec 2)).toNat := rfl
  rw [h]
  simp only [toNat_append_add, BitVec.ofNat_eq_ofNat, BitVec.toNat_ofNat, Nat.zero_mod]
  ring_nf

/-- What is put into a word is read back from it. -/
@[simp] theorem netByteOf_netByteBits (x : NetByte) : netByteOf (netByteBits x) = x := by
  have h := netByteBits_toNat x
  have h_isFragment := x.isFragment.isLt
  have h_framePldType := x.framePldType.isLt
  have h_encrEna := x.encrEna.isLt
  have h_authCode := x.authCode.isLt
  have e_isFragment : (netByteOf (netByteBits x)).isFragment = x.isFragment := BitVec.eq_of_toNat_eq (by rw [netByteOf_isFragment, h]; omega)
  have e_framePldType : (netByteOf (netByteBits x)).framePldType = x.framePldType := BitVec.eq_of_toNat_eq (by rw [netByteOf_framePldType, h]; omega)
  have e_encrEna : (netByteOf (netByteBits x)).encrEna = x.encrEna := BitVec.eq_of_toNat_eq (by rw [netByteOf_encrEna, h]; omega)
  have e_authCode : (netByteOf (netByteBits x)).authCode = x.authCode := BitVec.eq_of_toNat_eq (by rw [netByteOf_authCode, h]; omega)
  generalize netByteOf (netByteBits x) = y at *
  cases x; cases y; simp_all

/-! ### `PresByte` -/

@[simp] theorem presByteOf_opc (h : BitVec 8) : (presByteOf h).opc.toNat = h.toNat / 64 % 4 := by
  simp only [presByteOf, toNat_extract]
  norm_num

@[simp] theorem presByteOf_seqnInc (h : BitVec 8) : (presByteOf h).seqnInc.toNat = h.toNat / 32 % 2 := by
  simp only [presByteOf, toNat_extract]
  norm_num

@[simp] theorem presByteOf_rspReq (h : BitVec 8) : (presByteOf h).rspReq.toNat = h.toNat / 16 % 2 := by
  simp only [presByteOf, toNat_extract]
  norm_num

@[simp] theorem presByteOf_addrEnc (h : BitVec 8) : (presByteOf h).addrEnc.toNat = h.toNat % 16 := by
  simp only [presByteOf, toNat_extract]
  norm_num

theorem presByteBits_toNat (x : PresByte) :
    (presByteBits x).toNat = 64 * x.opc.toNat + 32 * x.seqnInc.toNat + 16 * x.rspReq.toNat + x.addrEnc.toNat := by
  have h : (presByteBits x).toNat = (x.opc ++ x.seqnInc ++ x.rspReq ++ x.addrEnc).toNat := rfl
  rw [h]
  simp only [toNat_append_add]
  ring_nf

/-- What is put into a word is read back from it. -/
@[simp] theorem presByteOf_presByteBits (x : PresByte) : presByteOf (presByteBits x) = x := by
  have h := presByteBits_toNat x
  have h_opc := x.opc.isLt
  have h_seqnInc := x.seqnInc.isLt
  have h_rspReq := x.rspReq.isLt
  have h_addrEnc := x.addrEnc.isLt
  have e_opc : (presByteOf (presByteBits x)).opc = x.opc := BitVec.eq_of_toNat_eq (by rw [presByteOf_opc, h]; omega)
  have e_seqnInc : (presByteOf (presByteBits x)).seqnInc = x.seqnInc := BitVec.eq_of_toNat_eq (by rw [presByteOf_seqnInc, h]; omega)
  have e_rspReq : (presByteOf (presByteBits x)).rspReq = x.rspReq := BitVec.eq_of_toNat_eq (by rw [presByteOf_rspReq, h]; omega)
  have e_addrEnc : (presByteOf (presByteBits x)).addrEnc = x.addrEnc := BitVec.eq_of_toNat_eq (by rw [presByteOf_addrEnc, h]; omega)
  generalize presByteOf (presByteBits x) = y at *
  cases x; cases y; simp_all

/-! ### `TlvByte` -/

@[simp] theorem tlvByteOf_lengthClass (h : BitVec 8) : (tlvByteOf h).lengthClass.toNat = h.toNat / 64 % 4 := by
  simp only [tlvByteOf, toNat_extract]
  norm_num

@[simp] theorem tlvByteOf_key (h : BitVec 8) : (tlvByteOf h).key.toNat = h.toNat % 64 := by
  simp only [tlvByteOf, toNat_extract]
  norm_num

theorem tlvByteBits_toNat (x : TlvByte) :
    (tlvByteBits x).toNat = 64 * x.lengthClass.toNat + x.key.toNat := by
  have h : (tlvByteBits x).toNat = (x.lengthClass ++ x.key).toNat := rfl
  rw [h]
  simp only [toNat_append_add]
  ring_nf

/-- What is put into a word is read back from it. -/
@[simp] theorem tlvByteOf_tlvByteBits (x : TlvByte) : tlvByteOf (tlvByteBits x) = x := by
  have h := tlvByteBits_toNat x
  have h_lengthClass := x.lengthClass.isLt
  have h_key := x.key.isLt
  have e_lengthClass : (tlvByteOf (tlvByteBits x)).lengthClass = x.lengthClass := BitVec.eq_of_toNat_eq (by rw [tlvByteOf_lengthClass, h]; omega)
  have e_key : (tlvByteOf (tlvByteBits x)).key = x.key := BitVec.eq_of_toNat_eq (by rw [tlvByteOf_key, h]; omega)
  generalize tlvByteOf (tlvByteBits x) = y at *
  cases x; cases y; simp_all

/-! ### `AslFlagByte` -/

@[simp] theorem aslFlagsOf_versionInc (h : BitVec 8) : (aslFlagsOf h).versionInc.toNat = h.toNat / 128 % 2 := by
  simp only [aslFlagsOf, toNat_extract]
  norm_num

@[simp] theorem aslFlagsOf_respReq (h : BitVec 8) : (aslFlagsOf h).respReq.toNat = h.toNat / 64 % 2 := by
  simp only [aslFlagsOf, toNat_extract]
  norm_num

@[simp] theorem aslFlagsOf_seqnInc (h : BitVec 8) : (aslFlagsOf h).seqnInc.toNat = h.toNat / 32 % 2 := by
  simp only [aslFlagsOf, toNat_extract]
  norm_num

@[simp] theorem aslFlagsOf_appEncEna (h : BitVec 8) : (aslFlagsOf h).appEncEna.toNat = h.toNat / 16 % 2 := by
  simp only [aslFlagsOf, toNat_extract]
  norm_num

@[simp] theorem aslFlagsOf_statusHdrInc (h : BitVec 8) : (aslFlagsOf h).statusHdrInc.toNat = h.toNat / 8 % 2 := by
  simp only [aslFlagsOf, toNat_extract]
  norm_num

@[simp] theorem aslFlagsOf_nwDataBlobInc (h : BitVec 8) : (aslFlagsOf h).nwDataBlobInc.toNat = h.toNat / 4 % 2 := by
  simp only [aslFlagsOf, toNat_extract]
  norm_num

theorem aslFlagsBits_toNat (x : AslFlagByte) :
    (aslFlagsBits x).toNat = 128 * x.versionInc.toNat + 64 * x.respReq.toNat + 32 * x.seqnInc.toNat + 16 * x.appEncEna.toNat + 8 * x.statusHdrInc.toNat + 4 * x.nwDataBlobInc.toNat := by
  have h : (aslFlagsBits x).toNat = (x.versionInc ++ x.respReq ++ x.seqnInc ++ x.appEncEna ++ x.statusHdrInc ++ x.nwDataBlobInc ++ (0 : BitVec 2)).toNat := rfl
  rw [h]
  simp only [toNat_append_add, BitVec.ofNat_eq_ofNat, BitVec.toNat_ofNat, Nat.zero_mod]
  ring_nf

/-- What is put into a word is read back from it. -/
@[simp] theorem aslFlagsOf_aslFlagsBits (x : AslFlagByte) : aslFlagsOf (aslFlagsBits x) = x := by
  have h := aslFlagsBits_toNat x
  have h_versionInc := x.versionInc.isLt
  have h_respReq := x.respReq.isLt
  have h_seqnInc := x.seqnInc.isLt
  have h_appEncEna := x.appEncEna.isLt
  have h_statusHdrInc := x.statusHdrInc.isLt
  have h_nwDataBlobInc := x.nwDataBlobInc.isLt
  have e_versionInc : (aslFlagsOf (aslFlagsBits x)).versionInc = x.versionInc := BitVec.eq_of_toNat_eq (by rw [aslFlagsOf_versionInc, h]; omega)
  have e_respReq : (aslFlagsOf (aslFlagsBits x)).respReq = x.respReq := BitVec.eq_of_toNat_eq (by rw [aslFlagsOf_respReq, h]; omega)
  have e_seqnInc : (aslFlagsOf (aslFlagsBits x)).seqnInc = x.seqnInc := BitVec.eq_of_toNat_eq (by rw [aslFlagsOf_seqnInc, h]; omega)
  have e_appEncEna : (aslFlagsOf (aslFlagsBits x)).appEncEna = x.appEncEna := BitVec.eq_of_toNat_eq (by rw [aslFlagsOf_appEncEna, h]; omega)
  have e_statusHdrInc : (aslFlagsOf (aslFlagsBits x)).statusHdrInc = x.statusHdrInc := BitVec.eq_of_toNat_eq (by rw [aslFlagsOf_statusHdrInc, h]; omega)
  have e_nwDataBlobInc : (aslFlagsOf (aslFlagsBits x)).nwDataBlobInc = x.nwDataBlobInc := BitVec.eq_of_toNat_eq (by rw [aslFlagsOf_nwDataBlobInc, h]; omega)
  generalize aslFlagsOf (aslFlagsBits x) = y at *
  cases x; cases y; simp_all

/-! ### `AslVersionByte` -/

@[simp] theorem aslVersionOf_version (h : BitVec 8) : (aslVersionOf h).version.toNat = h.toNat / 64 % 4 := by
  simp only [aslVersionOf, toNat_extract]
  norm_num

@[simp] theorem aslVersionOf_classMajorMinor (h : BitVec 8) : (aslVersionOf h).classMajorMinor.toNat = h.toNat % 64 := by
  simp only [aslVersionOf, toNat_extract]
  norm_num

theorem aslVersionBits_toNat (x : AslVersionByte) :
    (aslVersionBits x).toNat = 64 * x.version.toNat + x.classMajorMinor.toNat := by
  have h : (aslVersionBits x).toNat = (x.version ++ x.classMajorMinor).toNat := rfl
  rw [h]
  simp only [toNat_append_add]
  ring_nf

/-- What is put into a word is read back from it. -/
@[simp] theorem aslVersionOf_aslVersionBits (x : AslVersionByte) : aslVersionOf (aslVersionBits x) = x := by
  have h := aslVersionBits_toNat x
  have h_version := x.version.isLt
  have h_classMajorMinor := x.classMajorMinor.isLt
  have e_version : (aslVersionOf (aslVersionBits x)).version = x.version := BitVec.eq_of_toNat_eq (by rw [aslVersionOf_version, h]; omega)
  have e_classMajorMinor : (aslVersionOf (aslVersionBits x)).classMajorMinor = x.classMajorMinor := BitVec.eq_of_toNat_eq (by rw [aslVersionOf_classMajorMinor, h]; omega)
  generalize aslVersionOf (aslVersionBits x) = y at *
  cases x; cases y; simp_all

/-! ### `AslStatusByte` -/

@[simp] theorem aslStatusOf_statusCodeInc (h : BitVec 8) : (aslStatusOf h).statusCodeInc.toNat = h.toNat / 128 % 2 := by
  simp only [aslStatusOf, toNat_extract]
  norm_num

@[simp] theorem aslStatusOf_additionalAppDataInc (h : BitVec 8) : (aslStatusOf h).additionalAppDataInc.toNat = h.toNat / 64 % 2 := by
  simp only [aslStatusOf, toNat_extract]
  norm_num

theorem aslStatusBits_toNat (x : AslStatusByte) :
    (aslStatusBits x).toNat = 128 * x.statusCodeInc.toNat + 64 * x.additionalAppDataInc.toNat := by
  have h : (aslStatusBits x).toNat = (x.statusCodeInc ++ x.additionalAppDataInc ++ (0 : BitVec 6)).toNat := rfl
  rw [h]
  simp only [toNat_append_add, BitVec.ofNat_eq_ofNat, BitVec.toNat_ofNat, Nat.zero_mod]
  ring_nf

/-- What is put into a word is read back from it. -/
@[simp] theorem aslStatusOf_aslStatusBits (x : AslStatusByte) : aslStatusOf (aslStatusBits x) = x := by
  have h := aslStatusBits_toNat x
  have h_statusCodeInc := x.statusCodeInc.isLt
  have h_additionalAppDataInc := x.additionalAppDataInc.isLt
  have e_statusCodeInc : (aslStatusOf (aslStatusBits x)).statusCodeInc = x.statusCodeInc := BitVec.eq_of_toNat_eq (by rw [aslStatusOf_statusCodeInc, h]; omega)
  have e_additionalAppDataInc : (aslStatusOf (aslStatusBits x)).additionalAppDataInc = x.additionalAppDataInc := BitVec.eq_of_toNat_eq (by rw [aslStatusOf_additionalAppDataInc, h]; omega)
  generalize aslStatusOf (aslStatusBits x) = y at *
  cases x; cases y; simp_all

/-! ### `AslOpaddrByte` -/

@[simp] theorem aslOpaddrOf_opc (h : BitVec 8) : (aslOpaddrOf h).opc.toNat = h.toNat / 64 % 4 := by
  simp only [aslOpaddrOf, toNat_extract]
  norm_num

@[simp] theorem aslOpaddrOf_ext (h : BitVec 8) : (aslOpaddrOf h).ext.toNat = h.toNat / 16 % 2 := by
  simp only [aslOpaddrOf, toNat_extract]
  norm_num

@[simp] theorem aslOpaddrOf_cf (h : BitVec 8) : (aslOpaddrOf h).cf.toNat = h.toNat / 4 % 4 := by
  simp only [aslOpaddrOf, toNat_extract]
  norm_num

@[simp] theorem aslOpaddrOf_idf (h : BitVec 8) : (aslOpaddrOf h).idf.toNat = h.toNat % 4 := by
  simp only [aslOpaddrOf, toNat_extract]
  norm_num

theorem aslOpaddrBits_toNat (x : AslOpaddrByte) :
    (aslOpaddrBits x).toNat = 64 * x.opc.toNat + 16 * x.ext.toNat + 4 * x.cf.toNat + x.idf.toNat := by
  have h : (aslOpaddrBits x).toNat = (x.opc ++ (0 : BitVec 1) ++ x.ext ++ x.cf ++ x.idf).toNat := rfl
  rw [h]
  simp only [toNat_append_add, BitVec.ofNat_eq_ofNat, BitVec.toNat_ofNat, Nat.zero_mod]
  ring_nf

/-- What is put into a word is read back from it. -/
@[simp] theorem aslOpaddrOf_aslOpaddrBits (x : AslOpaddrByte) : aslOpaddrOf (aslOpaddrBits x) = x := by
  have h := aslOpaddrBits_toNat x
  have h_opc := x.opc.isLt
  have h_ext := x.ext.isLt
  have h_cf := x.cf.isLt
  have h_idf := x.idf.isLt
  have e_opc : (aslOpaddrOf (aslOpaddrBits x)).opc = x.opc := BitVec.eq_of_toNat_eq (by rw [aslOpaddrOf_opc, h]; omega)
  have e_ext : (aslOpaddrOf (aslOpaddrBits x)).ext = x.ext := BitVec.eq_of_toNat_eq (by rw [aslOpaddrOf_ext, h]; omega)
  have e_cf : (aslOpaddrOf (aslOpaddrBits x)).cf = x.cf := BitVec.eq_of_toNat_eq (by rw [aslOpaddrOf_cf, h]; omega)
  have e_idf : (aslOpaddrOf (aslOpaddrBits x)).idf = x.idf := BitVec.eq_of_toNat_eq (by rw [aslOpaddrOf_idf, h]; omega)
  generalize aslOpaddrOf (aslOpaddrBits x) = y at *
  cases x; cases y; simp_all

/-! ### `AmaHeader` -/

@[simp] theorem amaHeaderOf_streamId (h : BitVec 16) : (amaHeaderOf h).streamId.toNat = h.toNat / 4096 % 16 := by
  simp only [amaHeaderOf, toNat_extract]
  norm_num

@[simp] theorem amaHeaderOf_trxn (h : BitVec 16) : (amaHeaderOf h).trxn.toNat = h.toNat / 256 % 16 := by
  simp only [amaHeaderOf, toNat_extract]
  norm_num

@[simp] theorem amaHeaderOf_seq (h : BitVec 16) : (amaHeaderOf h).seq.toNat = h.toNat / 16 % 16 := by
  simp only [amaHeaderOf, toNat_extract]
  norm_num

@[simp] theorem amaHeaderOf_type (h : BitVec 16) : (amaHeaderOf h).type.toNat = h.toNat / 4 % 4 := by
  simp only [amaHeaderOf, toNat_extract]
  norm_num

@[simp] theorem amaHeaderOf_ack (h : BitVec 16) : (amaHeaderOf h).ack.toNat = h.toNat / 2 % 2 := by
  simp only [amaHeaderOf, toNat_extract]
  norm_num

@[simp] theorem amaHeaderOf_ext (h : BitVec 16) : (amaHeaderOf h).ext.toNat = h.toNat % 2 := by
  simp only [amaHeaderOf, toNat_extract]
  norm_num

theorem amaHeaderBits_toNat (x : AmaHeader) :
    (amaHeaderBits x).toNat = 4096 * x.streamId.toNat + 256 * x.trxn.toNat + 16 * x.seq.toNat + 4 * x.type.toNat + 2 * x.ack.toNat + x.ext.toNat := by
  have h : (amaHeaderBits x).toNat = (x.streamId ++ x.trxn ++ x.seq ++ x.type ++ x.ack ++ x.ext).toNat := rfl
  rw [h]
  simp only [toNat_append_add]
  ring_nf

/-- What is put into a word is read back from it. -/
@[simp] theorem amaHeaderOf_amaHeaderBits (x : AmaHeader) : amaHeaderOf (amaHeaderBits x) = x := by
  have h := amaHeaderBits_toNat x
  have h_streamId := x.streamId.isLt
  have h_trxn := x.trxn.isLt
  have h_seq := x.seq.isLt
  have h_type := x.type.isLt
  have h_ack := x.ack.isLt
  have h_ext := x.ext.isLt
  have e_streamId : (amaHeaderOf (amaHeaderBits x)).streamId = x.streamId := BitVec.eq_of_toNat_eq (by rw [amaHeaderOf_streamId, h]; omega)
  have e_trxn : (amaHeaderOf (amaHeaderBits x)).trxn = x.trxn := BitVec.eq_of_toNat_eq (by rw [amaHeaderOf_trxn, h]; omega)
  have e_seq : (amaHeaderOf (amaHeaderBits x)).seq = x.seq := BitVec.eq_of_toNat_eq (by rw [amaHeaderOf_seq, h]; omega)
  have e_type : (amaHeaderOf (amaHeaderBits x)).type = x.type := BitVec.eq_of_toNat_eq (by rw [amaHeaderOf_type, h]; omega)
  have e_ack : (amaHeaderOf (amaHeaderBits x)).ack = x.ack := BitVec.eq_of_toNat_eq (by rw [amaHeaderOf_ack, h]; omega)
  have e_ext : (amaHeaderOf (amaHeaderBits x)).ext = x.ext := BitVec.eq_of_toNat_eq (by rw [amaHeaderOf_ext, h]; omega)
  generalize amaHeaderOf (amaHeaderBits x) = y at *
  cases x; cases y; simp_all

end Sys2Proof.Machine
end

