-- ==== Sys2Proof/Laws/Parse.lean ====
section
/-! SUPPORT. What the shared parsing and register operations of the command families can do: flags, slices, contexts,
extended addresses, length-prefixed blobs, optional pieces, Flex header fields. -/

namespace Sys2Proof.Machine

open Sys2Proof.Layout

/-! ### Flags and slices -/

/-- The flag word of the four flags that decode commands set (10_state.md R29). -/
theorem flagWord_decodeFlags (e n u t : Bool) :
    flagWord { encrypted := e, noncanon := n, unknownKey := u, trail := t } = decodeFlags e n u t := by
  cases e <;> cases n <;> cases u <;> cases t <;> decide

/-- `FLG[31:7]` read as 0 (10_state.md R29). -/
theorem flagWord_lt (x : FlagSet) : (flagWord x).toNat < 2 ^ 7 := by
  obtain ⟨a, b, c, d, e, f, g⟩ := x
  cases a <;> cases b <;> cases c <;> cases d <;> cases e <;> cases f <;> cases g <;> decide

theorem sliceFields_eq (o l : Fin 32) (off len : Nat) : sliceFields o l off len = sliceAt o l off len := by
  unfold sliceFields sliceAt
  by_cases h : len = 0
  · simp [h]
  · simp [h, Nat.pos_of_ne_zero h]

/-- A cause's code is a bit index of `ESTICKY` (60_exceptions.md R261). -/
theorem causeCode_lt (c : Cause) : (causeCode c).toNat < 32 := by cases c <;> decide

theorem causeCode_injective (c c' : Cause) (h : causeCode c = causeCode c') : c = c' := by
  cases c <;> cases c' <;> first | rfl | (exact absurd h (by decide))

/-! ### Contexts -/

theorem ctxAt_of_getElem? {s : State} {c : Nat} {x : Ctx} (h : s.ctxs[c]? = some x) : ctxAt s c = x := by
  simp [ctxAt, h]

theorem getElem?_setCtx (s : State) (c d : Nat) (x : Ctx) :
    (setCtx s c x).ctxs[d]? = if d = c then (if c < s.ctxs.length then some x else none) else s.ctxs[d]? := by
  simp only [setCtx_ctxs]
  by_cases h : d = c
  · subst h; simp [List.getElem?_set]
  · simp [h, Ne.symm h]

theorem mem_setCtx {s : State} {c : Nat} {x y : Ctx} (h : y ∈ (setCtx s c x).ctxs) : y = x ∨ y ∈ s.ctxs := by
  rw [setCtx_ctxs] at h
  rcases List.mem_or_eq_of_mem_set h with h | h
  · exact .inr h
  · exact .inl h

/-- A context of the list: what `ctxAt` reads where the index is in range. -/
theorem ctxAt_mem {s : State} {c : Nat} (h : c < s.ctxs.length) : ctxAt s c ∈ s.ctxs := by
  simp [ctxAt, h]

/-! ### Optional pieces -/

@[simp] theorem gated_true (p : Nat) (m : Result Parsed) : gated true p m = m := rfl

@[simp] theorem gated_false (p : Nat) (m : Result Parsed) : gated false p m = .ok { fields := [], next := p } := rfl

@[simp] theorem gatedBytes_true (m : Result (List Byte)) : gatedBytes true m = m := rfl

@[simp] theorem gatedBytes_false (m : Result (List Byte)) : gatedBytes false m = .ok [] := rfl

/-! ### Addresses and blobs -/

/-- All that `AddrDecode` can do (30_encoding.md R91). -/
theorem addrDecode_cases (s : State) (e p stop : Nat) :
    (e ≤ 0xB ∧ addrDecode s e p stop = .ok (e, 0)) ∨
    (0xB < e ∧ p + (e - 0xB) ≤ stop ∧ addrDecode s e p stop = .ok (beNat (ibufBytes s p (e - 0xB)), e - 0xB)) ∨
    (0xB < e ∧ stop < p + (e - 0xB) ∧ addrDecode s e p stop = raising .malformedField p) := by
  unfold addrDecode
  by_cases h : e ≤ 0xB
  · exact .inl ⟨h, if_pos h⟩
  · rw [if_neg h]
    simp only [need_bind]
    by_cases h2 : stop < p + (e - 0xB)
    · exact .inr (.inr ⟨by omega, h2, if_pos h2⟩)
    · exact .inr (.inl ⟨by omega, by omega, if_neg h2⟩)

/-- All that `LenPrefixed` can do (42_asl.md R170). -/
theorem lenPrefixed_cases (s : State) (pfx : Option PrefixTable) (p : Nat) :
    (pfx = none ∧ lenPrefixed s pfx p = raising .unsupported p) ∨
    ∃ t, pfx = some t ∧
      ((prefixRead t (ibufBytes s p (s.ilen.toNat - p)) = none ∧ lenPrefixed s pfx p = raising .malformedField p) ∨
      ∃ k n, prefixRead t (ibufBytes s p (s.ilen.toNat - p)) = some (k, n) ∧
        ((p + k + n ≤ s.ilen.toNat ∧
            lenPrefixed s pfx p = .ok { off := p + k, len := n, next := p + k + n }) ∨
          (s.ilen.toNat < p + k + n ∧ lenPrefixed s pfx p = raising .malformedField (p + k)))) := by
  cases pfx with
  | none => exact .inl ⟨rfl, rfl⟩
  | some t =>
    refine .inr ⟨t, rfl, ?_⟩
    simp only [lenPrefixed]
    cases h : prefixRead t (ibufBytes s p (s.ilen.toNat - p)) with
    | none => exact .inl ⟨rfl, rfl⟩
    | some x =>
      obtain ⟨k, n⟩ := x
      refine .inr ⟨k, n, rfl, ?_⟩
      simp only [need_bind]
      by_cases h2 : s.ilen.toNat < p + k + n
      · exact .inr ⟨h2, if_pos h2⟩
      · exact .inl ⟨by omega, if_neg h2⟩

/-- A prefix of the table, read where it stands, is the one that answers: no other prefix is a start of it or has it as a
start (00_scope.md R10 (a)). -/
theorem prefixRead_of_mem {t : PrefixTable} (hf : prefixFree t = true) {pre : List Byte} {n : Nat} (hm : (pre, n) ∈ t)
    (rest : List Byte) : prefixRead t (pre ++ rest) = some (pre.length, n) := by
  induction t with
  | nil => cases hm
  | cons e t ih =>
    obtain ⟨pre', n'⟩ := e
    simp only [prefixFree, List.all_cons, Bool.and_eq_true, decide_eq_true_eq, List.pairwise_cons] at hf
    rcases List.mem_cons.mp hm with heq | hm
    · cases heq
      simp [prefixRead]
    · have hne := hf.2.1 _ hm
      have hnot : pre'.isPrefixOf (pre ++ rest) = false := by
        by_contra hp
        rw [Bool.not_eq_false, List.isPrefixOf_iff_prefix] at hp
        rcases List.prefix_or_prefix_of_prefix hp (List.prefix_append pre rest) with h | h
        · have := hne.1; rw [← Bool.not_eq_true, List.isPrefixOf_iff_prefix] at this; exact this h
        · have := hne.2; rw [← Bool.not_eq_true, List.isPrefixOf_iff_prefix] at this; exact this h
      rw [prefixRead, if_neg (by simp [hnot])]
      exact ih (by simp only [prefixFree, Bool.and_eq_true, decide_eq_true_eq]; exact ⟨hf.1.2, hf.2.2⟩) hm

/-! ### Flex header fields -/

/-- What `TlvParse` answers when it answers (41_flex.md R150): the field lies in the header and takes at least a byte. -/
theorem tlvParse_ok {s : State} {p stop : Nat} {t : TlvField} (h : tlvParse s p stop = .ok t) :
    t.next ≤ stop ∧ t.voff + t.len = t.next ∧ p < t.voff ∧ t.lc ≤ 3 ∧
      t.key = (tlvByteOf (ibufByte s p)).key ∧ t.lc = (tlvByteOf (ibufByte s p)).lengthClass.toNat ∧
      ((t.lc = 3 ∧ t.voff = p + 2 ∧ t.len = (ibufByte s (p + 1)).toNat) ∨
        (t.lc < 3 ∧ t.voff = p + 1 ∧ t.len = tlvFixedLen t.lc)) := by
  unfold tlvParse at h
  simp only [need_bind] at h
  have hlc := (tlvByteOf (ibufByte s p)).lengthClass.isLt
  split at h
  · cases h
  · split at h
    · next h3 =>
      split at h
      · cases h
      · split at h
        · cases h
        · simp only [Result.pure_eq, Except.ok.injEq] at h
          subst h
          simp [h3]
          omega
    · next h3 =>
      have h3' : (tlvByteOf (ibufByte s p)).lengthClass.toNat ≠ 3 := fun h' => h3 (BitVec.eq_of_toNat_eq h')
      split at h
      · cases h
      · simp only [Result.pure_eq, Except.ok.injEq] at h
        subst h
        dsimp only
        refine ⟨by omega, rfl, by omega, by omega, rfl, rfl, .inr ⟨by omega, rfl, rfl⟩⟩

/-- What `TlvParse` raises: `MalformedField` at the field (41_flex.md R150). -/
theorem tlvParse_error {s : State} {p stop : Nat} {r : Raise} (h : tlvParse s p stop = .error r) :
    r = { cause := .malformedField, info := BitVec.ofNat 32 p } := by
  unfold tlvParse at h
  simp only [need_bind] at h
  repeat' split at h
  all_goals
    first
    | (rw [raising_eq, Except.error.injEq] at h; exact h.symm)
    | cases h

/-- The class of a length (41_flex.md R150) and whether a field is canonical, in the terms of the layout. -/
theorem tlvCanon_of_legal {x : Tlv} (h : tlvLegal x = true) : tlvCanon x.lc x.value.length = !tlvNoncanon x := by
  simp only [tlvLegal, decide_eq_true_eq] at h
  unfold tlvCanon tlvClass tlvNoncanon
  rcases h with ⟨h1, h2⟩ | ⟨h1, h2⟩ | ⟨h1, h2⟩ | ⟨h1, _⟩
  · simp [h1, h2]
  · simp [h1, h2]
  · simp [h1, h2]
  · rw [h1]
    by_cases a : x.value.length = 1
    · simp [a]
    · by_cases b : x.value.length = 2
      · simp [b]
      · by_cases c : x.value.length = 4
        · simp [c]
        · simp [a, b, c]

/-- What `TlvEmit` writes for a table entry is the layout's field (41_flex.md R150, R155). -/
theorem tlvEmit_length (key : BitVec 6) (bs : List Byte) :
    (tlvEmit key bs).length = bs.length + (if tlvClass bs.length = 3 then 2 else 1) := by
  unfold tlvEmit
  split <;> simp

end Sys2Proof.Machine
end

