-- ==== Sys2Proof/Laws/PerInstr.lean ====
section
/-! SUPPORT. Facts about an instruction as syntax, one lemma per constructor. Family `Encoding`: a command has a word whose
high half is 0 (30_encoding.md R80) and which decodes to it (R81); a wire-byte row has none (R106). -/

namespace Sys2Proof

/-- The bits of a command word (30_encoding.md R80). -/
theorem getLsbD_cmdWord (op arg : Byte) (i : Nat) :
    (cmdWord op arg).getLsbD i = if i < 8 then op.getLsbD i else arg.getLsbD (i - 8) := by
  change (((0 : Half) ++ arg) ++ op : BitVec (16 + 8 + 8)).getLsbD i = _
  rw [BitVec.getLsbD_append, BitVec.getLsbD_append]
  by_cases h : i - 8 < 8
  · simp [h]
  · simp [h, BitVec.getLsbD_of_ge arg (i - 8) (by omega)]

/-- The fields of a command word are what it was built from (30_encoding.md R80). -/
theorem opOf_cmdWord (op arg : Byte) : opOf (cmdWord op arg) = op := by
  apply BitVec.eq_of_getLsbD_eq
  intro i hi
  simp [opOf, getLsbD_cmdWord, hi]

theorem argOf_cmdWord (op arg : Byte) : argOf (cmdWord op arg) = arg := by
  apply BitVec.eq_of_getLsbD_eq
  intro i hi
  simp [argOf, getLsbD_cmdWord, hi]

theorem zeroOf_cmdWord (op arg : Byte) : zeroOf (cmdWord op arg) = 0 := by
  apply BitVec.eq_of_getLsbD_eq
  intro i hi
  simp [zeroOf, getLsbD_cmdWord, BitVec.getLsbD_of_ge arg (16 + i - 8) (by omega), show ¬16 + i < 8 by omega]

/-- Decoding a command word reads the table of 30_encoding.md R81 at its two fields. -/
theorem decode_cmdWord (op arg : Byte) : decode (cmdWord op arg) = decodeOp op arg := by
  simp [decode, opOf_cmdWord, argOf_cmdWord, zeroOf_cmdWord]

/-- A word is the command word of its fields when its high half is 0 (30_encoding.md R80). -/
theorem cmdWord_opOf_argOf (w : Word) (h : zeroOf w = 0) : cmdWord (opOf w) (argOf w) = w := by
  apply BitVec.eq_of_getLsbD_eq
  intro i hi
  have hz : (zeroOf w).getLsbD (i - 16) = false := by simp [h]
  simp only [zeroOf, BitVec.getLsbD_extractLsb', show i - 16 < 16 by omega, decide_true, Bool.true_and] at hz
  simp only [getLsbD_cmdWord, opOf, argOf, BitVec.getLsbD_extractLsb']
  by_cases h1 : i < 8
  · simp [h1]
  · by_cases h2 : i - 8 < 8
    · simp [h1, h2, show 8 + (i - 8) = i by omega]
    · rw [show 16 + (i - 16) = i by omega] at hz
      simp [h1, h2, hz]

namespace Laws.Encoding

/-- What holds of the encoding of every instruction. -/
def Statement (i : Instr) : Prop :=
  (encode i).isSome = i.isCommand ∧ ∀ w, encode i = some w → zeroOf w = 0 ∧ decode w = .ok i

theorem nop : Statement .nop :=
  ⟨rfl, fun w h => by
    obtain rfl := Option.some.inj h
    exact ⟨zeroOf_cmdWord _ _, decode_cmdWord _ _⟩⟩

theorem srst : Statement .srst :=
  ⟨rfl, fun w h => by
    obtain rfl := Option.some.inj h
    exact ⟨zeroOf_cmdWord _ _, decode_cmdWord _ _⟩⟩

theorem ob2ib : Statement .ob2ib :=
  ⟨rfl, fun w h => by
    obtain rfl := Option.some.inj h
    exact ⟨zeroOf_cmdWord _ _, decode_cmdWord _ _⟩⟩

theorem rb2ib (c : BitVec 8) : Statement (.rb2ib c) :=
  ⟨rfl, fun w h => by
    obtain rfl := Option.some.inj h
    exact ⟨zeroOf_cmdWord _ _, decode_cmdWord _ _⟩⟩

theorem vwrd2 : Statement .vwrd2 :=
  ⟨rfl, fun w h => by
    obtain rfl := Option.some.inj h
    exact ⟨zeroOf_cmdWord _ _, decode_cmdWord _ _⟩⟩

theorem vwrd3 : Statement .vwrd3 :=
  ⟨rfl, fun w h => by
    obtain rfl := Option.some.inj h
    exact ⟨zeroOf_cmdWord _ _, decode_cmdWord _ _⟩⟩

theorem vwwr2 : Statement .vwwr2 :=
  ⟨rfl, fun w h => by
    obtain rfl := Option.some.inj h
    exact ⟨zeroOf_cmdWord _ _, decode_cmdWord _ _⟩⟩

theorem vwwr3 : Statement .vwwr3 :=
  ⟨rfl, fun w h => by
    obtain rfl := Option.some.inj h
    exact ⟨zeroOf_cmdWord _ _, decode_cmdWord _ _⟩⟩

theorem bfext (w : BitVec 8) : Statement (.bfext w) :=
  ⟨rfl, fun w h => by
    obtain rfl := Option.some.inj h
    exact ⟨zeroOf_cmdWord _ _, decode_cmdWord _ _⟩⟩

theorem bfins (w : BitVec 8) : Statement (.bfins w) :=
  ⟨rfl, fun w h => by
    obtain rfl := Option.some.inj h
    exact ⟨zeroOf_cmdWord _ _, decode_cmdWord _ _⟩⟩

theorem twoc (n : BitVec 8) : Statement (.twoc n) :=
  ⟨rfl, fun w h => by
    obtain rfl := Option.some.inj h
    exact ⟨zeroOf_cmdWord _ _, decode_cmdWord _ _⟩⟩

theorem idsplit : Statement .idsplit :=
  ⟨rfl, fun w h => by
    obtain rfl := Option.some.inj h
    exact ⟨zeroOf_cmdWord _ _, decode_cmdWord _ _⟩⟩

theorem idjoin : Statement .idjoin :=
  ⟨rfl, fun w h => by
    obtain rfl := Option.some.inj h
    exact ⟨zeroOf_cmdWord _ _, decode_cmdWord _ _⟩⟩

theorem rdbe (n : BitVec 8) : Statement (.rdbe n) :=
  ⟨rfl, fun w h => by
    obtain rfl := Option.some.inj h
    exact ⟨zeroOf_cmdWord _ _, decode_cmdWord _ _⟩⟩

theorem wrbe (n : BitVec 8) : Statement (.wrbe n) :=
  ⟨rfl, fun w h => by
    obtain rfl := Option.some.inj h
    exact ⟨zeroOf_cmdWord _ _, decode_cmdWord _ _⟩⟩

theorem tlvrd : Statement .tlvrd :=
  ⟨rfl, fun w h => by
    obtain rfl := Option.some.inj h
    exact ⟨zeroOf_cmdWord _ _, decode_cmdWord _ _⟩⟩

theorem tlvwr : Statement .tlvwr :=
  ⟨rfl, fun w h => by
    obtain rfl := Option.some.inj h
    exact ⟨zeroOf_cmdWord _ _, decode_cmdWord _ _⟩⟩

theorem flexdec : Statement .flexdec :=
  ⟨rfl, fun w h => by
    obtain rfl := Option.some.inj h
    exact ⟨zeroOf_cmdWord _ _, decode_cmdWord _ _⟩⟩

theorem flexenc : Statement .flexenc :=
  ⟨rfl, fun w h => by
    obtain rfl := Option.some.inj h
    exact ⟨zeroOf_cmdWord _ _, decode_cmdWord _ _⟩⟩

theorem asldec : Statement .asldec :=
  ⟨rfl, fun w h => by
    obtain rfl := Option.some.inj h
    exact ⟨zeroOf_cmdWord _ _, decode_cmdWord _ _⟩⟩

theorem aslenc : Statement .aslenc :=
  ⟨rfl, fun w h => by
    obtain rfl := Option.some.inj h
    exact ⟨zeroOf_cmdWord _ _, decode_cmdWord _ _⟩⟩

theorem lldec : Statement .lldec :=
  ⟨rfl, fun w h => by
    obtain rfl := Option.some.inj h
    exact ⟨zeroOf_cmdWord _ _, decode_cmdWord _ _⟩⟩

theorem nldec : Statement .nldec :=
  ⟨rfl, fun w h => by
    obtain rfl := Option.some.inj h
    exact ⟨zeroOf_cmdWord _ _, decode_cmdWord _ _⟩⟩

theorem pldec : Statement .pldec :=
  ⟨rfl, fun w h => by
    obtain rfl := Option.some.inj h
    exact ⟨zeroOf_cmdWord _ _, decode_cmdWord _ _⟩⟩

theorem framedec : Statement .framedec :=
  ⟨rfl, fun w h => by
    obtain rfl := Option.some.inj h
    exact ⟨zeroOf_cmdWord _ _, decode_cmdWord _ _⟩⟩

theorem llenc : Statement .llenc :=
  ⟨rfl, fun w h => by
    obtain rfl := Option.some.inj h
    exact ⟨zeroOf_cmdWord _ _, decode_cmdWord _ _⟩⟩

theorem nlenc : Statement .nlenc :=
  ⟨rfl, fun w h => by
    obtain rfl := Option.some.inj h
    exact ⟨zeroOf_cmdWord _ _, decode_cmdWord _ _⟩⟩

theorem plenc : Statement .plenc :=
  ⟨rfl, fun w h => by
    obtain rfl := Option.some.inj h
    exact ⟨zeroOf_cmdWord _ _, decode_cmdWord _ _⟩⟩

theorem frameenc : Statement .frameenc :=
  ⟨rfl, fun w h => by
    obtain rfl := Option.some.inj h
    exact ⟨zeroOf_cmdWord _ _, decode_cmdWord _ _⟩⟩

theorem amahdr : Statement .amahdr :=
  ⟨rfl, fun w h => by
    obtain rfl := Option.some.inj h
    exact ⟨zeroOf_cmdWord _ _, decode_cmdWord _ _⟩⟩

theorem amarx (c : BitVec 8) : Statement (.amarx c) :=
  ⟨rfl, fun w h => by
    obtain rfl := Option.some.inj h
    exact ⟨zeroOf_cmdWord _ _, decode_cmdWord _ _⟩⟩

theorem amaabt (c : BitVec 8) : Statement (.amaabt c) :=
  ⟨rfl, fun w h => by
    obtain rfl := Option.some.inj h
    exact ⟨zeroOf_cmdWord _ _, decode_cmdWord _ _⟩⟩

theorem amatxi : Statement .amatxi :=
  ⟨rfl, fun w h => by
    obtain rfl := Option.some.inj h
    exact ⟨zeroOf_cmdWord _ _, decode_cmdWord _ _⟩⟩

theorem amatxc : Statement .amatxc :=
  ⟨rfl, fun w h => by
    obtain rfl := Option.some.inj h
    exact ⟨zeroOf_cmdWord _ _, decode_cmdWord _ _⟩⟩

theorem llFixed (bits : BitVec 16) : Statement (.llFixed bits) := ⟨rfl, fun _ h => nomatch h⟩

theorem nlByte (bits : BitVec 8) : Statement (.nlByte bits) := ⟨rfl, fun _ h => nomatch h⟩

theorem plByte (bits : BitVec 8) : Statement (.plByte bits) := ⟨rfl, fun _ h => nomatch h⟩

theorem flexTlvByte (bits : BitVec 8) : Statement (.flexTlvByte bits) := ⟨rfl, fun _ h => nomatch h⟩

theorem aslFlags (bits : BitVec 8) : Statement (.aslFlags bits) := ⟨rfl, fun _ h => nomatch h⟩

theorem aslVersion (bits : BitVec 8) : Statement (.aslVersion bits) := ⟨rfl, fun _ h => nomatch h⟩

theorem aslStatus (bits : BitVec 8) : Statement (.aslStatus bits) := ⟨rfl, fun _ h => nomatch h⟩

theorem aslOpaddr (bits : BitVec 8) : Statement (.aslOpaddr bits) := ⟨rfl, fun _ h => nomatch h⟩

theorem amaHdr (bits : BitVec 16) : Statement (.amaHdr bits) := ⟨rfl, fun _ h => nomatch h⟩

theorem vw2Lead (bits : BitVec 8) : Statement (.vw2Lead bits) := ⟨rfl, fun _ h => nomatch h⟩

theorem vw3Lead (bits : BitVec 8) : Statement (.vw3Lead bits) := ⟨rfl, fun _ h => nomatch h⟩

end Laws.Encoding

end Sys2Proof
end

