-- ==== Sys2Proof/Tests/Slice0.lean ====
section
/-! SUPPORT. Tests: the ill-formed rows, a word of every command written out from 30_encoding.md R81, one step of every
command on a vector of 95_test_vectors.md, and for every statement with hypotheses a state that meets them. -/

namespace Sys2Proof.Tests

open Sys2Proof.Machine Sys2Proof.Layout

/-! ### Ill-formed instructions (30_encoding.md R106) and illegal words (R82) -/

theorem test_illformed_llFixed : ¬WellFormed (.llFixed 0) := by decide

theorem test_illformed_nlByte : ¬WellFormed (.nlByte 0) := by decide

theorem test_illformed_plByte : ¬WellFormed (.plByte 0) := by decide

theorem test_illformed_flexTlvByte : ¬WellFormed (.flexTlvByte 0) := by decide

theorem test_illformed_aslFlags : ¬WellFormed (.aslFlags 0) := by decide

theorem test_illformed_aslVersion : ¬WellFormed (.aslVersion 0) := by decide

theorem test_illformed_aslStatus : ¬WellFormed (.aslStatus 0) := by decide

theorem test_illformed_aslOpaddr : ¬WellFormed (.aslOpaddr 0) := by decide

theorem test_illformed_amaHdr : ¬WellFormed (.amaHdr 0) := by decide

theorem test_illformed_vw2Lead : ¬WellFormed (.vw2Lead 0) := by decide

theorem test_illformed_vw3Lead : ¬WellFormed (.vw3Lead 0) := by decide

theorem test_illegal_high_bits : decode 0x00010010 = .error .highBits := by decide

theorem test_illegal_opcode : decode 0x00000099 = .error .opcode := by decide

theorem test_illegal_argument : decode 0x00000110 = .error .argument := by decide

/-! ### Words written out from 30_encoding.md R81 -/

theorem test_decode_nop : decode 0x00000000 = .ok .nop := by decide

theorem test_decode_srst : decode 0x00000001 = .ok .srst := by decide

theorem test_decode_ob2ib : decode 0x00000002 = .ok .ob2ib := by decide

theorem test_decode_rb2ib : decode 0x00000503 = .ok (.rb2ib 5) := by decide

theorem test_decode_vwrd2 : decode 0x00000010 = .ok .vwrd2 := by decide

theorem test_decode_vwrd3 : decode 0x00000011 = .ok .vwrd3 := by decide

theorem test_decode_vwwr2 : decode 0x00000012 = .ok .vwwr2 := by decide

theorem test_decode_vwwr3 : decode 0x00000013 = .ok .vwwr3 := by decide

theorem test_decode_bfext : decode 0x00000714 = .ok (.bfext 7) := by decide

theorem test_decode_bfins : decode 0x00002015 = .ok (.bfins 32) := by decide

theorem test_decode_twoc : decode 0x00000C16 = .ok (.twoc 12) := by decide

theorem test_decode_idsplit : decode 0x00000017 = .ok .idsplit := by decide

theorem test_decode_idjoin : decode 0x00000018 = .ok .idjoin := by decide

theorem test_decode_rdbe : decode 0x00000419 = .ok (.rdbe 4) := by decide

theorem test_decode_wrbe : decode 0x0000021A = .ok (.wrbe 2) := by decide

theorem test_decode_tlvrd : decode 0x00000020 = .ok .tlvrd := by decide

theorem test_decode_tlvwr : decode 0x00000021 = .ok .tlvwr := by decide

theorem test_decode_flexdec : decode 0x00000022 = .ok .flexdec := by decide

theorem test_decode_flexenc : decode 0x00000023 = .ok .flexenc := by decide

theorem test_decode_asldec : decode 0x00000030 = .ok .asldec := by decide

theorem test_decode_aslenc : decode 0x00000031 = .ok .aslenc := by decide

theorem test_decode_lldec : decode 0x00000040 = .ok .lldec := by decide

theorem test_decode_nldec : decode 0x00000041 = .ok .nldec := by decide

theorem test_decode_pldec : decode 0x00000042 = .ok .pldec := by decide

theorem test_decode_framedec : decode 0x00000043 = .ok .framedec := by decide

theorem test_decode_llenc : decode 0x00000044 = .ok .llenc := by decide

theorem test_decode_nlenc : decode 0x00000045 = .ok .nlenc := by decide

theorem test_decode_plenc : decode 0x00000046 = .ok .plenc := by decide

theorem test_decode_frameenc : decode 0x00000047 = .ok .frameenc := by decide

theorem test_decode_amahdr : decode 0x00000050 = .ok .amahdr := by decide

theorem test_decode_amarx : decode 0x0000FF51 = .ok (.amarx 255) := by decide

theorem test_decode_amaabt : decode 0x00000152 = .ok (.amaabt 1) := by decide

theorem test_decode_amatxi : decode 0x00000053 = .ok .amatxi := by decide

theorem test_decode_amatxc : decode 0x00000054 = .ok .amatxc := by decide

/-! ### Small states -/

/-- A buffer that holds the given bytes from offset 0 on. -/
def bytes (bs : List Nat) : Buf := { cells := bs.zipIdx.map fun x => (x.2, BitVec.ofNat 8 x.1), epoch := 0 }

/-- The default configuration with every Flex key known, as 95_test_vectors.md assumes. -/
def known : Params := { Params.defaults with flexKnownKeys := some (BitVec.allOnes 64) }

/-- After reset, with `ibuf bs` (30_encoding.md R104). -/
def given (bs : List Nat) : State := { State.resetWith known with ibuf := bytes bs, ilen := BitVec.ofNat 16 bs.length }

/-- With the operand registers `A[0..2]`. -/
def withA (s : State) (x y z : Nat) : State :=
  { s with a := #v[BitVec.ofNat 32 x, BitVec.ofNat 32 y, BitVec.ofNat 32 z, 0] }

/-- With the registers `F`, those not named being 0. -/
def withF (s : State) (l : List (Nat × Nat)) : State :=
  { s with f := Vector.ofFn fun i => BitVec.ofNat 32 ((l.lookup i.val).getD 0) }

/-- With the valid bytes of `OBUF`. -/
def withOut (s : State) (bs : List Nat) : State := { s with obuf := bytes bs, olen := BitVec.ofNat 16 bs.length }

/-- With the one context. -/
def withCtx (s : State) (st total len seq : Nat) (bs : List Nat) : State :=
  { s with
    ctxs := [{
      rstate := BitVec.ofNat 2 st, rtotal := BitVec.ofNat 16 total, rlen := BitVec.ofNat 16 len, rsid := 0, rtrxn := 1
      rseq := BitVec.ofNat 4 seq, rbuf := bytes bs }] }

/-- With a fragmenter in progress. -/
def withTx (s : State) (off stop seq m b0 : Nat) : State :=
  { s with
    tx := {
      txstate := 1, txoff := BitVec.ofNat 16 off, txend := BitVec.ofNat 16 stop, txseq := BitVec.ofNat 4 seq
      txm := BitVec.ofNat 8 m, txb0 := BitVec.ofNat 8 b0, txfl := 0 } }

/-- What a function of the next state says, if there is one. -/
def ask {α : Type} (o : Host.Outcome State Fault Refusal) (g : State → α) : Option α :=
  match o with
  | .next t => some (g t)
  | .fault _ => none
  | .refused _ => none

/-- The registers `F` that are not 0, `PRES`, `CUR`, `FLG`, `STATUS`. -/
def results (t : State) : List (Nat × Nat) × Nat × Nat × Nat × Nat :=
  ((List.range 32).filterMap fun i =>
      if (t.f[i]?.getD 0).toNat = 0 then none else some (i, (t.f[i]?.getD 0).toNat),
    t.pres.toNat, t.cur.toNat, t.flg.toNat, t.status.toNat)

/-- The valid bytes of `OBUF`, `FLG`, `STATUS`. -/
def output (t : State) : List Nat × Nat × Nat :=
  ((obufBytes t 0 t.olen.toNat).map (·.toNat), t.flg.toNat, t.status.toNat)

/-- `CAUSE`, `EINFO`, `STATUS`. -/
def errors (t : State) : Nat × Nat × Nat := (t.cause.toNat, t.einfo.toNat, t.status.toNat)

/-- The context's registers and payload. -/
def context (t : State) : List Nat × List Nat :=
  ([(ctxAt t 0).rstate.toNat, (ctxAt t 0).rtotal.toNat, (ctxAt t 0).rlen.toNat, (ctxAt t 0).rsid.toNat,
    (ctxAt t 0).rtrxn.toNat, (ctxAt t 0).rseq.toNat], (rbufBytes t 0 0 (ctxAt t 0).rlen.toNat).map (·.toNat))

/-- The fragmenter's registers. -/
def fragmenter (t : State) : List Nat :=
  [t.tx.txstate.toNat, t.tx.txoff.toNat, t.tx.txend.toNat, t.tx.txseq.toNat, t.tx.txm.toNat, t.tx.txb0.toNat, t.tx.txfl.toNat]

/-! ### One step of each command (the vectors of 95_test_vectors.md, named in each comment) -/

-- V117
theorem test_nop : ask (exec .nop { given [] with flg := 9, esticky := 2 }) (fun t => (t.flg, t.esticky, t.status)) = some (0, 2, 1) := by decide

-- V122
theorem test_srst : ask (exec .srst { withA (given [1]) 5 6 7 with esticky := 2 }) (fun t => (t.a, t.esticky, t.ilen, t.ibuf, t.status)) = some (#v[0, 0, 0, 0], 0, 0, bytes [1], 1) := by decide

-- V119
theorem test_ob2ib : ask (exec .ob2ib (withOut (given []) [0x3F])) (fun t => ((ibufByte t 0).toNat, t.ilen.toNat, t.cur.toNat, t.olen.toNat)) = some (0x3F, 1, 0, 0) := by decide

-- sequence A, step A4
theorem test_rb2ib : ask (exec (.rb2ib 0) (withCtx (given []) 2 3 3 2 [0xAB, 0xCD, 0xEF])) (fun t => ((ibufBytes t 0 3).map (·.toNat), t.ilen.toNat, context t)) = some ([0xAB, 0xCD, 0xEF], 3, ([0, 0, 0, 0, 0, 0], [])) := by decide

-- V120
theorem test_rb2ib_bad_state : ask (exec (.rb2ib 0) (withCtx (given []) 1 3 1 0 [0xAB])) errors = some (0x13, 1, 2) := by decide

-- V1
theorem test_vwrd2 : ask (exec .vwrd2 (given [0x41, 0x00])) results = some ([(0, 256), (1, 2), (2, 1)], 7, 2, 0, 1) := by decide

-- V3
theorem test_vwrd2_noncanon : ask (exec .vwrd2 (given [0x40, 0x05])) results = some ([(0, 5), (1, 2), (2, 1)], 7, 2, 2, 1) := by decide

-- V9
theorem test_vwrd3 : ask (exec .vwrd3 (given [0x40, 0xFF])) results = some ([(0, 255), (1, 2), (2, 2)], 7, 2, 0, 1) := by decide

-- V11
theorem test_vwrd3_reserved : ask (exec .vwrd3 (given [0xA0, 0x00])) errors = some (2, 0, 2) := by decide

-- V13
theorem test_vwwr2 : ask (exec .vwwr2 (withA (given []) 16384 0 0)) output = some ([0x80, 0x00, 0x40, 0x00], 0, 1) := by decide

-- V14
theorem test_vwwr2_too_large : ask (exec .vwwr2 (withA (given []) 0x40000000 0 0)) errors = some (5, 0x40000000, 2) := by decide

-- V15
theorem test_vwwr3 : ask (exec .vwwr3 (withA (given []) 8192 0 0)) output = some ([0x60, 0x20, 0x00], 0, 1) := by decide

-- V16
theorem test_vwwr3_too_large : ask (exec .vwwr3 (withA (given []) 0x20000000 0 0)) errors = some (5, 0x20000000, 2) := by decide

-- V19
theorem test_bfext : ask (exec (.bfext 32) (withA (given [0xDE, 0xAD, 0xBE, 0xEF, 0x01]) 4 0 0)) results = some ([(0, 0xEADBEEF0)], 1, 0, 8, 1) := by decide

-- V20
theorem test_bfext_cut : ask (exec (.bfext 7) (withA (given [0xA5, 0xC3]) 10 0 0)) errors = some (1, 1, 2) := by decide

-- V24
theorem test_bfins : ask (exec (.bfins 8) (withA (withOut (given []) [0xFF, 0xFF]) 4 0 0)) output = some ([0xF0, 0x0F], 0, 1) := by decide

-- V23
theorem test_bfins_new_bytes : ask (exec (.bfins 3) (withA (given []) 20 5 0)) output = some ([0x00, 0x00, 0x0A], 0, 1) := by decide

-- V26
theorem test_twoc : ask (exec (.twoc 8) (withA (given []) 0xC4 0 0)) results = some ([(0, 0xFFFFFFC4)], 1, 0, 0, 1) := by decide

-- V28
theorem test_twoc_too_wide : ask (exec (.twoc 8) (withA (given []) 0x100 0 0)) errors = some (0x11, 0x100, 2) := by decide

-- V29
theorem test_idsplit : ask (exec .idsplit (withA (given []) 0x105 0 0)) results = some ([(0, 0x41), (1, 1)], 3, 0, 0, 1) := by decide

-- V30
theorem test_idjoin : ask (exec .idjoin (withA (given []) 0x41 1 0)) results = some ([(0, 0x105)], 1, 0, 0, 1) := by decide

-- V31
theorem test_rdbe : ask (exec (.rdbe 2) (given [0x00, 0x03, 0xAB])) results = some ([(0, 3), (1, 2)], 3, 2, 8, 1) := by decide

-- V32
theorem test_wrbe : ask (exec (.wrbe 2) (withA (given []) 3 0 0)) output = some ([0x00, 0x03], 0, 1) := by decide

-- V32
theorem test_wrbe_too_large : ask (exec (.wrbe 2) (withA (given []) 0x10000 0 0)) errors = some (5, 0x10000, 2) := by decide

-- V40
theorem test_tlvrd : ask (exec .tlvrd (given [0xC5, 0x03, 0x01, 0x02, 0x03])) results = some ([(0, 5), (1, 3), (2, 3), (3, 2), (4, 1)], 0x1F, 5, 0, 1) := by decide

-- V43
theorem test_tlvrd_cut : ask (exec .tlvrd (given [0x82, 0x01, 0x02, 0x03])) errors = some (1, 0, 2) := by decide

-- V45
theorem test_tlvwr : ask (exec .tlvwr (withA (given [0x01, 0x02, 0x03, 0x04]) 63 0 4)) output = some ([0xBF, 0x01, 0x02, 0x03, 0x04], 0, 1) := by decide

-- V45
theorem test_tlvwr_extended : ask (exec .tlvwr (withA (given [0x01, 0x02, 0x03]) 9 0 3)) output = some ([0xC9, 0x03, 0x01, 0x02, 0x03], 0, 1) := by decide

-- V46
theorem test_flexdec : ask (exec .flexdec (given [0x0A, 0x01, 0xAA, 0x42, 0xBB, 0xCC, 0xC5, 0x03, 0x01, 0x02, 0x03, 0x00, 0x7F, 0x01, 0x05, 0xDE, 0xAD])) (fun t => (results t, t.tlvn.toNat, (t.tlv.toList.take 3).map fun e => (e.key.toNat, e.off.toNat, e.len.toNat))) = some (([(0, 10), (1, 0x7F), (2, 0x105), (3, 0x41), (4, 1), (5, 15), (6, 2), (7, 3)], 0x1FF, 17, 0, 1), 3, [(1, 2, 1), (2, 4, 2), (5, 8, 3)]) := by decide

-- V52
theorem test_flexdec_duplicate : ask (exec .flexdec (given [0x04, 0x01, 0xAA, 0x01, 0xBB, 0x00, 0x01, 0x00, 0x02])) errors = some (0x15, 3, 2) := by decide

-- V46, V56
theorem test_flexenc : ask (exec .flexenc { withF (given [0x0A, 0x01, 0xAA, 0x42, 0xBB, 0xCC, 0xC5, 0x03, 0x01, 0x02, 0x03, 0x00, 0x7F, 0x01, 0x05, 0xDE, 0xAD]) [(1, 0x7F), (2, 0x105), (5, 15), (6, 2)] with
      pres := 0x1FF, tlvn := 3
      tlv := Vector.ofFn fun i => ([⟨1, 2, 1⟩, ⟨2, 4, 2⟩, ⟨5, 8, 3⟩][i.val]?).getD ⟨0, 0, 0⟩ }) output = some ([0x0A, 0x01, 0xAA, 0x42, 0xBB, 0xCC, 0xC5, 0x03, 0x01, 0x02, 0x03, 0x00, 0x7F, 0x01, 0x05, 0xDE, 0xAD], 0, 1) := by decide

-- V60
theorem test_asldec : ask (exec .asldec (given [0xA0, 0x45, 0x41, 0x2C, 0x94, 0x01, 0x02, 0x07, 0xDE, 0xAD])) results = some ([(0, 0xA0), (1, 1), (3, 1), (7, 1), (8, 5), (9, 300), (10, 2), (18, 2), (19, 1), (20, 0x102), (21, 2), (22, 7), (23, 1), (24, 8), (25, 2), (26, 0x94)], 0x07FC07FF, 10, 0, 1) := by decide

-- V67
theorem test_asldec_unsupported : ask (exec .asldec (given [0x04, 0x02, 0xAA, 0xBB, 0x40])) errors = some (0x14, 1, 2) := by decide

-- V73
theorem test_aslenc : ask (exec .aslenc (withF (given []) [(2, 1), (5, 1), (13, 1), (15, 0x2A), (18, 1), (20, 1), (22, 1)])) output = some ([0x48, 0x80, 0x2A, 0x45], 0, 1) := by decide

-- V74
theorem test_aslenc_extended : ask (exec .aslenc (withF (given []) [(18, 3), (19, 1), (20, 0x12345)])) output = some ([0x00, 0xD8, 0x01, 0x23, 0x45, 0x00], 0, 1) := by decide

-- V80
theorem test_lldec : ask (exec .lldec (given [0x24, 0x90, 0x52, 0x34, 0x07])) results = some ([(0, 1), (1, 2), (2, 1), (4, 1), (6, 0x1234), (7, 2), (10, 7), (11, 1)], 0xCFF, 5, 0, 1) := by decide

-- V81
theorem test_nldec : ask (exec .nldec (given [0x44, 0xA1, 0xA2])) results = some ([(13, 1), (15, 2), (17, 1), (28, 1)], 0x1002F000, 3, 0, 1) := by decide

-- V82
theorem test_pldec : ask (exec .pldec (given [0x6D, 0x01, 0x05, 0x40, 0x40])) results = some ([(18, 1), (19, 1), (21, 13), (22, 0x105), (23, 2), (24, 64), (25, 2)], 0x03FC0000, 5, 0, 1) := by decide

-- V84
theorem test_framedec : ask (exec .framedec (given [0x60, 0x00, 0x05, 0x20, 0xDE, 0xAD])) results = some ([(0, 3), (10, 5), (11, 1), (14, 1), (26, 4), (27, 2)], 0x1C00FC2F, 6, 1, 1) := by decide

-- V90
theorem test_framedec_cut : ask (exec .framedec (given [0x20, 0x00, 0x00, 0x00])) errors = some (1, 4, 2) := by decide

-- V93, link layer
theorem test_llenc : ask (exec .llenc (withF (given []) [(0, 3), (1, 1), (2, 2), (3, 1), (4, 1), (5, 1), (6, 5), (8, 0x20000), (10, 16384)])) output = some ([0x63, 0x28, 0x25, 0x62, 0x00, 0x00, 0x80, 0x00, 0x40, 0x00], 0, 1) := by decide

-- V93, network layer
theorem test_nlenc : ask (exec .nlenc (withF (given [0xDE, 0xAD, 0xBE, 0xEF]) [(12, 1), (15, 4), (16, 0x81), (17, 0)])) output = some ([0x88, 0x81, 0xDE, 0xAD, 0xBE, 0xEF], 0, 1) := by decide

-- V96
theorem test_nlenc_size : ask (exec .nlenc (withF (given []) [(15, 3)])) errors = some (5, 15, 2) := by decide

-- V93, presentation layer
theorem test_plenc : ask (exec .plenc (withF (given []) [(18, 3), (20, 1), (21, 7), (22, 7)])) output = some ([0xD7], 0, 1) := by decide

-- V95
theorem test_plenc_inline : ask (exec .plenc (withF (given []) [(21, 5), (22, 6)])) errors = some (5, 22, 2) := by decide

-- V93
theorem test_frameenc : ask (exec .frameenc { withF (given [0xDE, 0xAD, 0xBE, 0xEF, 0x99])
      [(0, 3), (1, 1), (2, 2), (3, 1), (4, 1), (5, 1), (6, 5), (8, 0x20000), (10, 16384), (12, 1), (15, 4), (16, 0x81), (17, 0), (18, 3), (20, 1), (21, 7), (22, 7), (26, 4), (27, 1)] with pres := 0x04000000 }) output = some ([0x63, 0x28, 0x25, 0x62, 0x00, 0x00, 0x80, 0x00, 0x40, 0x00, 0x88, 0x81, 0xDE, 0xAD, 0xBE, 0xEF, 0xD7, 0x99], 0, 1) := by decide

-- S3, restored
theorem test_amahdr : ask (exec .amahdr (given [0x01, 0x00, 0x00, 0x03, 0x01, 0xAB])) results = some ([(1, 1), (6, 3), (7, 1), (8, 5), (9, 1)], 0x3FF, 5, 0, 1) := by decide

-- sequence A, step A2
theorem test_amarx : ask (exec (.amarx 0) (withCtx (given [0x01, 0x14, 0x01, 0xCD]) 1 3 1 0 [0xAB])) (fun t => (results t, context t)) = some (([(1, 1), (2, 1), (3, 1), (7, 1), (8, 3), (9, 1), (11, 2), (12, 3)], 0x1FBF, 4, 0x20, 1), ([1, 3, 2, 0, 1, 1], [0xAB, 0xCD])) := by decide

-- sequence B, step B4
theorem test_amarx_aborts : ask (exec (.amarx 0) (withCtx (given [0x01, 0x14, 0x02, 0xBB, 0xCC]) 1 2 1 0 [0xAA])) (fun t => (errors t, context t)) = some ((4, 2, 2), ([0, 0, 0, 0, 0, 0], [])) := by decide

-- sequence C, step C5
theorem test_amaabt : ask (exec (.amaabt 0) (withCtx (given []) 2 0 0 0 [])) (fun t => (context t, t.status)) = some (([0, 0, 0, 0, 0, 0], []), 1) := by decide

-- V100
theorem test_amatxi : ask (exec .amatxi (withA (given [0x11, 0x22, 0x33, 0x44, 0x55]) 2 1 0)) (fun t => (output t, fragmenter t)) = some (([0x01, 0x00, 0x00, 0x05, 0x02, 0x11, 0x22], 0, 1), [1, 2, 5, 1, 2, 1, 0]) := by decide

-- V107
theorem test_amatxi_last : ask (exec .amatxi (withA (given [0x11]) 8 0xF2 3)) output = some ([0xF2, 0x03, 0x00, 0x01, 0x01, 0x11], 0x40, 1) := by decide

-- V102
theorem test_amatxc : ask (exec .amatxc (withTx (given [0x11, 0x22, 0x33, 0x44, 0x55]) 4 5 2 2 1)) (fun t => (output t, fragmenter t)) = some (([0x01, 0x24, 0x01, 0x55], 0x40, 1), [0, 5, 5, 3, 2, 1, 0]) := by decide

/-- V102 (95_test_vectors.md) after `ILEN` was lowered to 1: "harmless" (70_reset_and_hazards.md R298). -/
theorem test_amatxc_lowered_ilen :
    ask (exec .amatxc { withTx (given [0x11, 0x22, 0x33, 0x44, 0x55]) 4 5 2 2 1 with ilen := 1 })
      (fun t => (output t, fragmenter t)) = some (([0x01, 0x24, 0x01, 0x55], 0x40, 1), [0, 5, 5, 3, 2, 1, 0]) := by decide

-- V103
theorem test_amatxc_idle : ask (exec .amatxc (given [])) errors = some (0x13, 0, 2) := by decide

-- V112
theorem test_illegal_command : ask (step ((given []).withFetchWord 32 0x99)) errors = some (0x10, 0x99, 2) := by decide

-- V1, as the first command after reset
theorem test_step_runs_word :
    ask (step (State.withFetchWord (given [0x41, 0x00]) 32 0x10)) results = some ([(0, 256), (1, 2), (2, 1)], 7, 2, 0, 1) := by
  decide

/-! ### States that meet the hypotheses of the statements

One theorem or more for each statement of Certificates/Slice0/Obligations.lean that has hypotheses, one for each of its
clauses, at the edge of its range where it has one. -/

/-- Small buffers, two contexts, a table of two entries. -/
def small : Params := { known with ibufSize := 4, obufSize := 4, rbufSize := 4, amaNctx := 2, tlvMax := 2 }

/-- A state in the small configuration. -/
def tight (s : State) : State := { s with params := small }

theorem witness_small_valid : small.valid = true := by decide

theorem witness_CommandWordsRoundTrip : WellFormed (.amarx 255) ∧ decode 0x0000FF51 = .ok (.amarx 255) := by decide

theorem witness_WordSelectsRowByMask :
    maskMatch .nop = some (0xFFFFFFFF, 0x00000000) ∧ (0x00000000 : Word) &&& 0xFFFFFFFF = 0x00000000 ∧
    maskMatch (.bfext 0) = some (0xFFFF00FF, 0x00000014) ∧ (0x0000FF14 : Word) &&& 0xFFFF00FF = 0x00000014 := by decide

theorem witness_IllegalWordsRaise :
    (0x00010010 : Word).toNat / 65536 ≠ 0 ∧ (0x00000099 : Word).toNat % 256 = 0x99
      ∧ (0x00000110 : Word).toNat / 256 % 256 ≠ 0 ∧ (0x0000FF14 : Word).toNat / 65536 = 0 := by decide

theorem witness_WireRowsAreNoCommands : decode 0x00000040 = .ok .lldec := by decide

theorem witness_StepPerformsNextAccess :
    State.reset.hostQueue = [] ∧
    (State.reset.withFetchWord 32 0x10).hostQueue = .regWrite 0x00 0x10 :: [] ∧ decode 0x10 = .ok .vwrd2 ∧
    (State.reset.withFetchWord 32 0xFFFFFFFF).hostQueue = .regWrite 0x00 0xFFFFFFFF :: [] ∧
    decode 0xFFFFFFFF = .error .highBits ∧
    decode (BitVec.ofNat 32 0xFF51) = .ok (.amarx 255) ∧ 0xFF51 < 2 ^ 32 := by decide

theorem witness_StepPerformsNextAccess_other :
    ∃ s : State, s.hostQueue = .regWrite 0x10 7 :: [] ∧ ∀ w, HostOp.regWrite 0x10 7 ≠ .regWrite 0x00 w :=
  ⟨{ State.reset with hostQueue := [.regWrite 0x10 7] }, rfl, fun w h => by cases h⟩

theorem witness_StepPerformsNextAccess_write : (0x05 : Nat) ≠ 0x00 := by decide

theorem witness_ResetMeetsInvariant : Params.defaults.valid = true ∧ small ≠ Params.defaults ∧ small.valid = true := by decide

theorem witness_HostWritesReadBack :
    State.reset.params.tlvMax = 64 ∧ 0x7F - 0x40 < State.reset.params.tlvMax ∧ 0xBF - 0x80 < State.reset.params.tlvMax
      ∧ 0xFF - 0xC0 < State.reset.params.tlvMax ∧ (0x0A ∈ [0x08, 0x09, 0x0A]) := by decide

theorem witness_ReadOnlyAndUndefinedIndices :
    (tight State.reset).params.tlvMax ≤ 0x42 % 64 ∧ (tight State.reset).params.tlvMax ≤ 0xFF % 64 ∧
    (tight State.reset).params.amaNctx ≤ (0x110 - 0x100) / 8 ∧ 6 ≤ 0x106 % 8 ∧ ¬6 ≤ 0x105 % 8 := by decide

theorem witness_StickyErrorRecord :
    (∃ t, exec .nop State.reset = .next t ∧ t.status ≠ statusErr) ∧ (∃ t, exec .flexdec State.reset = .next t ∧ t.status = statusErr) :=
  ⟨⟨_, rfl, by decide⟩, ⟨_, rfl, by decide⟩⟩

theorem witness_HostBufferAccess :
    3 < small.ibufSize ∧ 3 < small.obufSize ∧ small.ibufSize ≤ 4 ∧ small.obufSize ≤ 4 ∧ small.amaNctx ≤ 2 ∧
    small.rbufSize ≤ 4 := by decide

/-- A state with a context that waits for a fragment, one that gathers and one that is complete, and a fragmenter at work. -/
def busy : State :=
  { withTx (given [0x11, 0x22, 0x33]) 1 3 1 1 7 with
    params := { known with amaNctx := 3 }
    ctxs := [
      Ctx.idle (bytes []),
      { rstate := 1, rtotal := 3, rlen := 2, rsid := 0, rtrxn := 1, rseq := 1, rbuf := bytes [0xAB, 0xCD] },
      { rstate := 2, rtotal := 1, rlen := 1, rsid := 0, rtrxn := 1, rseq := 1, rbuf := bytes [0xAB] }]
    status := statusErr
    cause := 4
    esticky := 0x10
    hostQueue := [.regWrite 0x00 0x00000054] }

/-- Boundary indices: the last entry of the Flex field table, the last register of the last context, a byte of its buffer. -/
theorem witness_registerMap :
    (63 : Fin 64).val < busy.params.tlvMax ∧ 2 < busy.params.amaNctx ∧ 0 < busy.params.rbufSize ∧
    (busy.ctxs[2]?).map (fun x => (x.rseq.toNat, bufByte (.rbuf 2) x.rbuf 0)) = some (1, 0xAB) ∧
    (regRead busy (0x100 + 8 * 2 + 5)).toNat = 1 ∧ hostBufRead busy (.rbuf 2) 0 = 0xAB ∧
    (regRead busy 0x0D).toNat = 1 ∧ (regRead busy 0x0E).toNat = 3 := by
  refine ⟨by decide, by decide, by decide, by decide, by decide, by decide, by decide, by decide⟩

theorem witness_StepKeepsInvariant : Inv busy ∧ ∃ t, step busy = .next t := by
  refine ⟨⟨by decide, by decide, ?_, ⟨by decide, by decide, by decide⟩, by decide, by decide, by decide, by decide, by decide,
    .inr ⟨.fragmentSequence, by decide, by decide⟩, by decide⟩, ⟨_, rfl⟩⟩
  intro x hx
  have hx' : x = Ctx.idle (bytes []) ∨
      x = { rstate := 1, rtotal := 3, rlen := 2, rsid := 0, rtrxn := 1, rseq := 1, rbuf := bytes [0xAB, 0xCD] } ∨
      x = { rstate := 2, rtotal := 1, rlen := 1, rsid := 0, rtrxn := 1, rseq := 1, rbuf := bytes [0xAB] } := by
    simpa [busy] using hx
  rcases hx' with rfl | rfl | rfl
  · exact ⟨by decide, by decide, by decide, by decide, by decide, by decide, by decide, fun a h => absurd h (by simp)⟩
  · exact ⟨by decide, by decide, by decide, by decide, by decide, by decide, by decide,
      show ∀ a, a < 2 → (cellAt (bytes [0xAB, 0xCD]).cells a).isSome = true by decide⟩
  · exact ⟨by decide, by decide, by decide, by decide, by decide, by decide, by decide,
      show ∀ a, a < 1 → (cellAt (bytes [0xAB]).cells a).isSome = true by decide⟩

theorem witness_PrologueRaises_arg :
    WellFormed (.bfext 33) ∧ ¬(1 ≤ (commandWord (.bfext 33)).toNat / 256 ∧ (commandWord (.bfext 33)).toNat / 256 ≤ 32) ∧
    ¬(commandWord (.amarx 1)).toNat / 256 < State.reset.params.amaNctx ∧
    ¬(1 ≤ (commandWord (.rdbe 5)).toNat / 256 ∧ (commandWord (.rdbe 5)).toNat / 256 ≤ 4) := by decide

theorem witness_PrologueRaises_window :
    WellFormed .vwrd2 ∧ ¬({ given [1, 2] with cur := 3 }.cur.toNat ≤ { given [1, 2] with cur := 3 }.ilen.toNat) ∧
    ¬(tight (given [1, 2, 3, 4, 5])).ilen.toNat ≤ (tight (given [1, 2, 3, 4, 5])).params.ibufSize := by decide

theorem witness_PrologueRaises_output :
    WellFormed .vwwr2 ∧ ¬(tight { given [] with olen := 5 }).olen.toNat ≤ (tight { given [] with olen := 5 }).params.obufSize := by
  decide

theorem witness_RaiseWritesOnlyErrorRegisters :
    (∃ t, exec .flexdec State.reset = .next t ∧ t.status = statusErr) ∧
    (∃ t, exec (.amarx 0) State.reset = .next t ∧ t.status = statusErr) ∧
    (∃ t, exec (.amarx 1) State.reset = .next t ∧ t.status = statusErr) :=
  ⟨⟨_, rfl, by decide⟩, ⟨_, rfl, by decide⟩, ⟨_, rfl, by decide⟩⟩

theorem witness_CommandCompletesOrRaises : WellFormed .nop ∧ ∃ t, exec .nop State.reset = .next t ∧ t.status = statusDone :=
  ⟨by decide, _, rfl, rfl⟩

/-- A state in which a command of each row of 60_exceptions.md R262 raises. -/
theorem witness_CausesByCommand :
    ([(Instr.twoc 0, given []), (.ob2ib, tight { given [] with olen := 5 }), (.rb2ib 0, given []), (.vwrd2, given []),
      (.vwwr2, withA (given []) 0xFFFFFFFF 0 0), (.bfext 1, given []), (.tlvwr, withA (given []) 64 0 0), (.flexdec, given []),
      (.flexenc, { given [] with tlvn := 65 }), (.asldec, given []), (.aslenc, withF (given []) [(1, 2)]), (.lldec, given []),
      (.llenc, withF (given []) [(0, 8)]), (.amarx 0, given []), (.amatxc, given [])].all
        fun x => ask (exec x.1 x.2) (·.status) == some statusErr) = true := by decide

theorem witness_UnknownCommandClassNeverRaised : ∃ t, exec .vwrd2 State.reset = .next t ∧ t.status = statusErr :=
  ⟨_, rfl, by decide⟩

theorem witness_StateWrittenOnlyByItsCommands :
    (∃ t, exec .nop State.reset = .next t) ∧ Instr.nop ≠ .srst ∧ (commandWord .nop).toNat % 256 = 0 ∧
    (1 : Nat) ≠ (commandWord .nop).toNat / 256 := ⟨⟨_, rfl⟩, by decide, by decide, by decide⟩

theorem witness_NopResult : (1 : Byte) ≠ 0 := by decide

theorem witness_OutputBecomesInput :
    (tight { given [] with olen := 5 }).params.obufSize < (tight { given [] with olen := 5 }).olen.toNat ∧
    (tight (withOut (given []) [1, 2, 3, 4])).olen.toNat ≤ (tight (withOut (given []) [1, 2, 3, 4])).params.obufSize ∧
    (tight (withOut (given []) [1, 2, 3, 4])).olen.toNat ≤ (tight (withOut (given []) [1, 2, 3, 4])).params.ibufSize := by
  decide

theorem witness_OutputBecomesInput_capacity :
    let s := { withOut (given []) [1, 2, 3, 4, 5] with params := { known with ibufSize := 4, obufSize := 5 } }
    s.olen.toNat ≤ s.params.obufSize ∧ s.params.ibufSize < s.olen.toNat := by decide

theorem witness_PayloadBecomesInput :
    let s := withCtx (given []) 1 3 2 0 [0xAB, 0xCD]
    let u := { withCtx (given []) 2 4 4 0 [1, 2, 3, 4] with params := { known with ibufSize := 4 } }
    let v := { withCtx (given []) 2 5 5 0 [1, 2, 3, 4, 5] with params := { known with ibufSize := 4 } }
    (0 : Byte).toNat < s.params.amaNctx ∧ s.ctxs[(0 : Byte).toNat]? = some (ctxAt s 0) ∧ (ctxAt s 0).rstate ≠ 2 ∧
    u.ctxs[(0 : Byte).toNat]? = some (ctxAt u 0) ∧ (ctxAt u 0).rstate = 2 ∧ (ctxAt u 0).rlen.toNat ≤ u.params.ibufSize ∧
    v.ctxs[(0 : Byte).toNat]? = some (ctxAt v 0) ∧ (ctxAt v 0).rstate = 2 ∧ v.params.ibufSize < (ctxAt v 0).rlen.toNat := by
  decide

/-- The hypothesis that most decode statements share: the window lies in the valid bytes and those in the buffer. -/
def windowOk (s : State) : Prop := s.cur.toNat ≤ s.ilen.toNat ∧ s.ilen.toNat ≤ s.params.ibufSize

theorem witness_VarWidthRead :
    windowOk (given [0x40, 0x05, 0x99]) ∧ window (given [0x40, 0x05, 0x99]) = [0x40, 0x05] ++ [0x99] ∧
    vwField known .seq2 [0x40, 0x05] 5 = true ∧ vwField known .addr3 [0x9F, 0xFF, 0xFF, 0xFF] 0x1FFFFFFF = true := by
  refine ⟨⟨by decide, by decide⟩, by decide, by decide, by decide⟩

theorem witness_VarWidthRead_raises :
    windowOk (given []) ∧ window (given []) = [] ∧
    windowOk (given [0xC0]) ∧ window (given [0xC0]) = 0xC0 :: [] ∧ vwWidth known .seq2 ((0xC0 : Byte).toNat / 2 ^ (8 - vwBits .seq2)) = none ∧
    windowOk (given [0x41]) ∧ window (given [0x41]) = 0x41 :: [] ∧
    vwWidth known .seq2 ((0x41 : Byte).toNat / 2 ^ (8 - vwBits .seq2)) = some 2 ∧ (window (given [0x41])).length < 2 := by
  refine ⟨⟨by decide, by decide⟩, by decide, ⟨by decide, by decide⟩, by decide, by decide, ⟨by decide, by decide⟩, by decide,
    by decide, by decide⟩

theorem witness_VarWidthWrite :
    vwMinimal known .seq2 [0x7F, 0xFF] (aVal (withA (given []) 16383 0 0) 0) = true ∧ HasRoom (withA (given []) 16383 0 0) 2 ∧
    vwMinimal known .addr3 [0x20] (aVal (given []) 0) = true ∧ ¬HasRoom { given [] with olen := 65535 } 1 ∧
    { given [] with olen := 65535 }.olen.toNat ≤ known.obufSize ∧
    vwUnencodable known .seq2 (aVal (withA (given []) 0x40000000 0 0) 0) = true ∧
    vwUnencodable known .addr3 (aVal (withA (given []) 0x20000000 0 0) 0) = true := by decide

theorem witness_VarWidthRoundTrip :
    (given [0x41, 0x2C]).params.valid = true ∧ vwEncode known .seq2 300 = .ok [0x41, 0x2C] ∧
    ibufBytes (given [0x41, 0x2C]) 0 2 = [0x41, 0x2C] ∧ 0 + [0x41, 0x2C].length ≤ 2 := by decide

theorem witness_BitExtract :
    windowOk (given [0xA5, 0xC3]) ∧ 1 ≤ (7 : Byte).toNat ∧ (32 : Byte).toNat ≤ 32 ∧
    aVal (withA (given [0xA5, 0xC3]) 9 0 0) 0 + (7 : Byte).toNat ≤ 8 * (given [0xA5, 0xC3]).ilen.toNat ∧
    8 * (given [0xA5, 0xC3]).ilen.toNat < aVal (withA (given [0xA5, 0xC3]) 10 0 0) 0 + (7 : Byte).toNat := by
  refine ⟨⟨by decide, by decide⟩, by decide, by decide, by decide, by decide⟩

theorem witness_BitInsert :
    let s := tight (withA (withOut (given []) [0xFF]) 28 15 0)
    let u := tight (withA (withOut (given []) [0xFF]) 29 16 0)
    1 ≤ (4 : Byte).toNat ∧ (4 : Byte).toNat ≤ 32 ∧ s.olen.toNat ≤ s.params.obufSize ∧
    (aVal s 1 < 2 ^ (4 : Byte).toNat ∧ aVal s 0 + (4 : Byte).toNat ≤ 8 * s.params.obufSize) ∧
    ((4 : Byte).toNat < 32 ∧ 2 ^ (4 : Byte).toNat ≤ aVal u 1) ∧
    (aVal u 1 < 2 ^ (5 : Byte).toNat ∧ 8 * u.params.obufSize < aVal u 0 + (5 : Byte).toNat) := by decide

theorem witness_TwosComplement :
    aVal (withA (given []) 0x80 0 0) 0 < 2 ^ (8 : Byte).toNat ∧ 2 ^ (8 : Byte).toNat ≤ aVal (withA (given []) 0x100 0 0) 0 ∧
    1 ≤ (8 : Byte).toNat ∧ (8 : Byte).toNat ≤ 32 := by decide

theorem witness_IdJoin :
    3 < aVal (withA (given []) 0 4 0) 1 ∧
    (aVal (withA (given []) 0x40000000 3 0) 1 ≤ 3 ∧ 2 ^ 30 ≤ aVal (withA (given []) 0x40000000 3 0) 0) ∧
    (aVal (withA (given []) 0x3FFFFFFF 3 0) 1 ≤ 3 ∧ aVal (withA (given []) 0x3FFFFFFF 3 0) 0 < 2 ^ 30) := by decide

theorem witness_FixedWidthRead :
    windowOk (given [0, 3, 0xAB]) ∧ 1 ≤ (2 : Byte).toNat ∧ (4 : Byte).toNat ≤ 4 ∧
    window (given [0, 3, 0xAB]) = [0, 3] ++ [0xAB] ∧ ([0, 3] : List Byte).length = (2 : Byte).toNat ∧
    (window (given [0, 3, 0xAB])).length < (4 : Byte).toNat := by
  refine ⟨⟨by decide, by decide⟩, by decide, by decide, by decide, by decide, by decide⟩

theorem witness_FixedWidthWrite :
    2 ^ (8 * (2 : Byte).toNat) ≤ aVal (withA (given []) 0x10000 0 0) 0 ∧ beNat [0xFF, 0xFF] = aVal (withA (given []) 0xFFFF 0 0) 0 ∧
    ([0xFF, 0xFF] : List Byte).length = (2 : Byte).toNat ∧ HasRoom (tight { given [] with olen := 2 }) 2 ∧
    ¬HasRoom (tight { given [] with olen := 3 }) 2 := by decide

theorem witness_TlvRead :
    tlvLegal { key := 5, lc := 3, value := [1, 2, 3] } = true ∧ windowOk (given [0xC5, 3, 1, 2, 3, 0x99]) ∧
    window (given [0xC5, 3, 1, 2, 3, 0x99]) = tlvBytes { key := 5, lc := 3, value := [1, 2, 3] } ++ [0x99] ∧
    (window (given [0xC5])).isPrefixOf (tlvBytes { key := 5, lc := 3, value := [1, 2, 3] }) = true ∧
    (window (given [0xC5])).length < (tlvBytes { key := 5, lc := 3, value := [1, 2, 3] }).length := by
  refine ⟨by decide, ⟨by decide, by decide⟩, by decide, by decide, by decide⟩

theorem witness_TlvWrite :
    63 < aVal (withA (given []) 64 0 0) 0 ∧
    (aVal (withA (given []) 63 0 256) 0 ≤ 63 ∧ 255 < aVal (withA (given []) 63 0 256) 2) ∧
    (aVal (withA (given [1]) 63 1 1) 2 ≤ 255 ∧ (given [1]).ilen.toNat < aVal (withA (given [1]) 63 1 1) 1 + aVal (withA (given [1]) 63 1 1) 2) ∧
    (aVal (withA (given [1]) 63 0 1) 1 + aVal (withA (given [1]) 63 0 1) 2 ≤ (given [1]).ilen.toNat) ∧
    HasRoom (withA (given [1]) 63 0 1) 2 ∧ ¬HasRoom (tight { withA (given [1]) 63 0 1 with olen := 3 }) 2 ∧
    windowOk (withA (given [1]) 63 0 1) := by
  refine ⟨by decide, by decide, by decide, by decide, by decide, by decide, ⟨by decide, by decide⟩⟩

/-- Two header fields of known keys. -/
def twoFields : List Tlv := [{ key := 1, lc := 0, value := [0xAA] }, { key := 2, lc := 1, value := [0xBB, 0xCC] }]

theorem witness_FlexDecode :
    let s := given [5, 0x01, 0xAA, 0x42, 0xBB, 0xCC, 0x00, 0x7F, 0x01, 0x05, 0xDE]
    windowOk s ∧ s.params.valid = true ∧ (twoFields.all tlvLegal) = true ∧
    window s = [octet (twoFields.flatMap tlvBytes).length] ++ twoFields.flatMap tlvBytes ++ [0x00, 0x7F] ++ [0x01, 0x05] ++ [0xDE] ∧
    (twoFields.flatMap tlvBytes).length ≤ 255 ∧
    ((twoFields.filter fun x => flexKnown s.params x.key).map (·.key)).Nodup ∧
    (twoFields.filter fun x => flexKnown s.params x.key).length ≤ s.params.tlvMax := by
  refine ⟨⟨by decide, by decide⟩, by decide, by decide, by decide, by decide, by decide, by decide⟩

theorem witness_FlexDecodeRaises :
    windowOk (given [0, 0, 0x7F, 0]) ∧ (window (given [0, 0, 0x7F, 0])).length < 5 ∧
    window (given [5, 0, 0x7F, 0, 4]) = 5 :: [0, 0x7F, 0, 4] ∧ ([0, 0x7F, 0, 4] : List Byte).length < (5 : Byte).toNat + 4 := by
  refine ⟨⟨by decide, by decide⟩, by decide, by decide, by decide⟩

/-- A one-byte field of key 1. -/
def keyOne : Tlv := { key := 1, lc := 0, value := [0xAA] }

/-- The header ends after the first byte of its second field. -/
theorem witness_FlexDecodeRaises_passes :
    let s := given [3, 0x01, 0xAA, 0x02, 0xBB, 0, 1, 0]
    let y : Tlv := { key := 2, lc := 0, value := [0xBB] }
    windowOk s ∧ tlvLegal keyOne = true ∧ tlvLegal y = true ∧
    window s = [octet ([keyOne].flatMap tlvBytes ++ [0x02]).length] ++ [keyOne].flatMap tlvBytes ++ [0x02] ++ [0xBB, 0, 1, 0] ∧
    ([0x02] : List Byte).isPrefixOf (tlvBytes y) = true ∧ ([0x02] : List Byte).length < (tlvBytes y).length := by
  refine ⟨⟨by decide, by decide⟩, by decide, by decide, by decide, by decide, by decide⟩

theorem witness_FlexDecodeRaises_key :
    let s := given [4, 0x01, 0xAA, 0x01, 0xBB, 0, 1, 0, 2]
    let u := { given [4, 0x01, 0xAA, 0x02, 0xBB, 0, 1, 0, 2] with params := { known with tlvMax := 1 } }
    let y : Tlv := { key := 1, lc := 0, value := [0xBB] }
    let z : Tlv := { key := 2, lc := 0, value := [0xBB] }
    let keys := ([keyOne].filter fun x => flexKnown known x.key).map (·.key)
    windowOk s ∧ windowOk u ∧
    window s = [octet ([keyOne].flatMap tlvBytes ++ tlvBytes y).length] ++ [keyOne].flatMap tlvBytes ++ tlvBytes y ++ [0, 1, 0, 2] ∧
    window u = [octet ([keyOne].flatMap tlvBytes ++ tlvBytes z).length] ++ [keyOne].flatMap tlvBytes ++ tlvBytes z ++ [0, 1, 0, 2] ∧
    keys.Nodup ∧ flexKnown s.params y.key = true ∧ y.key ∈ keys ∧ flexKnown u.params z.key = true ∧ z.key ∉ keys ∧
    keys.length = u.params.tlvMax := by
  refine ⟨⟨by decide, by decide⟩, ⟨by decide, by decide⟩, by decide, by decide, by decide, by decide, by decide, by decide,
    by decide, by decide⟩

/-- A Flex table of one entry and its data slice, as `FLEXENC` takes them. -/
def flexOperands : State :=
  { withF (given [0xAA, 0xDE]) [(1, 0x7F), (2, 5), (5, 1), (6, 1)] with
    pres := 0x20, tlvn := 1, tlv := Vector.ofFn fun i => if i.val = 0 then ⟨1, 0, 1⟩ else ⟨0, 0, 0⟩ }

theorem witness_FlexEncode :
    windowOk flexOperands ∧ flexOperands.olen.toNat ≤ flexOperands.params.obufSize ∧
    firstFailing (flexChecks flexOperands) = none ∧ beNat [0x00, 0x7F] = fVal flexOperands 1 ∧
    beNat [0x00, 0x05] = fVal flexOperands 2 ∧ presBit flexOperands 5 = true ∧ HasRoom flexOperands 8 ∧
    ¬HasRoom (tight flexOperands) 8 ∧ windowOk (tight flexOperands) := by
  refine ⟨⟨by decide, by decide⟩, by decide, by decide, by decide, by decide, by decide, by decide, by decide, by decide, by decide⟩

/-- Two entries of one key; an entry past the valid bytes; a class of 17 bits. -/
theorem witness_FlexEncode_fails :
    firstFailing (flexChecks { flexOperands with tlvn := 2, tlv := Vector.ofFn fun _ => ⟨1, 0, 1⟩ }) = some (.duplicateKey, 1) ∧
    firstFailing (flexChecks { flexOperands with tlv := Vector.ofFn fun _ => ⟨1, 2, 1⟩ }) = some (.badOperand, 0) ∧
    firstFailing (flexChecks (withF flexOperands [(1, 65536)])) = some (.encodingConstraint, 65536) := by decide

theorem witness_FlexRoundTrip :
    let s := given [0, 0, 0x7F, 0, 4]
    s.params.valid = true ∧ (window s).length ≤ s.params.obufSize ∧
    ∃ t, exec .flexdec s = .next t ∧ t.status = statusDone ∧ t.flg.getLsbD 1 = false ∧ t.flg.getLsbD 2 = false :=
  ⟨by decide, by decide, _, rfl, by decide, by decide, by decide⟩

theorem witness_AslDecodeEncrypted :
    windowOk (given [0x10, 0xAA]) ∧ window (given []) = [] ∧ window (given [0x10, 0xAA]) = 0x10 :: [0xAA] ∧
    (0x10 : Byte).getLsbD 4 = true := by
  refine ⟨⟨by decide, by decide⟩, by decide, by decide, by decide⟩

/-- A header with every optional block but the blobs: `E8 45 41 2C 80 2A 94 01 02 07`. -/
def aslHeader : Asl where
  versionInc := 1
  respReq := 1
  seqnInc := 1
  statusHdrInc := 1
  blobInc := 0
  flagPad := 0
  version := 1
  classMajorMinor := 5
  seqn := [0x41, 0x2C]
  seqnVal := 300
  blobPrefix := []
  blob := []
  codeInc := 1
  aadInc := 0
  statusPad := 0
  code := [0x2A]
  aadPrefix := []
  aad := []
  opc := 2
  addrPad := 0
  ext := 1
  cf := 1
  idf := 0
  cls := [1, 2]
  id := [7]

theorem witness_AslDecodeClear :
    let s := given [0xE8, 0x45, 0x41, 0x2C, 0x80, 0x2A, 0x94, 1, 2, 7, 0xDE]
    windowOk s ∧ s.params.valid = true ∧ aslLegal s.params aslHeader = true ∧ window s = aslBytes aslHeader ++ [0xDE] := by
  refine ⟨⟨by decide, by decide⟩, by decide, by decide, by decide⟩

theorem witness_AslDecodeClear_reserved :
    let s := given [0xE8, 0x45, 0xC0]
    windowOk s ∧ aslHeadLegal aslHeader = true ∧ window s = (aslHead aslHeader).flatten ++ 0xC0 :: [] ∧
    vwWidth s.params .seq2 ((0xC0 : Byte).toNat / 64) = none := by
  refine ⟨⟨by decide, by decide⟩, by decide, by decide, by decide⟩

/-- A configuration whose blob and data prefixes are one byte, the length 1. -/
def prefixed : Params :=
  { known with
    aslBlobPrefix := some [([1], 1)], aslBlobPrefixEnc := some [(1, [1])]
    aslAadPrefix := some [([1], 1)], aslAadPrefixEnc := some [(1, [1])] }

theorem witness_AslBlobUnsupported :
    let s := given [0x04, 2, 0xAA, 0xBB]
    let x : Asl := { aslHeader with versionInc := 0, respReq := 0, seqnInc := 0, seqn := [], statusHdrInc := 0, blobInc := 1 }
    let u := given [0x08, 0x40, 2, 0xAA]
    let y : Asl := { x with statusHdrInc := 1, blobInc := 0, codeInc := 0, aadInc := 1, code := [] }
    windowOk s ∧ aslLegal1 s.params x = true ∧ s.params.aslBlobPrefix = none ∧ window s = aslBytes1 x ++ [2, 0xAA, 0xBB] ∧
    prefixed.aslBlobPrefix = some [([1], 1)] ∧ ([1] : List Byte).isPrefixOf [2, 0xAA, 0xBB] = false ∧
    windowOk u ∧ u.params.valid = true ∧ aslLegal2 u.params y = true ∧ window u = aslBytes2 y ++ [2, 0xAA] ∧
    u.params.aslAadPrefix = none ∧ prefixed.valid = true ∧ aslLegal2 prefixed y = true := by
  refine ⟨⟨by decide, by decide⟩, by decide, by decide, by decide, by decide, by decide, ⟨by decide, by decide⟩, by decide,
    by decide, by decide, by decide, by decide, by decide⟩

theorem witness_AslBlobUnsupported_encode :
    let s := withF (given []) [(1, 1), (3, 1), (7, 3), (8, 63), (6, 1)]
    let u := { withF (given [0xAA]) [(5, 1), (6, 1), (12, 1), (14, 1)] with
      params := { prefixed with aslAadPrefix := none, aslAadPrefixEnc := none } }
    windowOk s ∧ s.olen.toNat ≤ s.params.obufSize ∧ vwUnencodable s.params .seq2 (fVal s 9) = false ∧ fVal s 6 = 1 ∧
    fVal s 4 = 0 ∧ s.params.aslBlobPrefixEnc = none ∧ windowOk u ∧ fVal u 11 + fVal u 12 ≤ u.ilen.toNat ∧
    u.params.aslBlobPrefixEnc = some [(1, [1])] ∧ prefixWrite [(1, [1])] (fVal u 12) = some [1] ∧ fVal u 5 = 1 ∧
    fVal u 13 < 2 ∧ fVal u 14 = 1 ∧ u.params.aslAadPrefixEnc = none := by
  refine ⟨⟨by decide, by decide⟩, by decide, by decide, by decide, by decide, by decide, ⟨by decide, by decide⟩, by decide,
    by decide, by decide, by decide, by decide, by decide, by decide⟩

/-- The operand registers of `ASLENC` for `aslHeader`, with a payload slice of one byte. -/
def aslOperands : State :=
  { withF (given [0xDE]) [(1, 1), (2, 1), (3, 1), (5, 1), (7, 1), (8, 5), (9, 300), (13, 1), (15, 0x2A), (18, 2), (19, 1),
      (20, 0x102), (22, 7), (24, 0), (25, 1)] with pres := 0x01000000 }

theorem witness_AslEncode :
    windowOk aslOperands ∧ aslOperands.olen.toNat ≤ aslOperands.params.obufSize ∧ presBit aslOperands 24 = true ∧
    sliceHeld aslOperands 24 25 [0xDE] = true ∧ aslCanonical aslOperands.params aslHeader = true ∧
    aslHeld aslOperands aslHeader = true ∧ HasRoom aslOperands (aslBytes aslHeader ++ [0xDE]).length ∧
    windowOk (tight aslOperands) ∧ ¬HasRoom (tight aslOperands) (aslBytes aslHeader ++ [0xDE]).length ∧
    fVal (withF (given []) [(4, 1)]) 4 = 1 := by
  refine ⟨⟨by decide, by decide⟩, by decide, by decide, by decide, by decide, by decide, by decide, ⟨by decide, by decide⟩,
    by decide, by decide⟩

/-- `F[15]` above one byte; a payload slice that passes the valid bytes. -/
theorem witness_AslEncode_fails :
    firstFailing (aslChecks aslOperands) = none ∧
    firstFailing (aslChecks ({ aslOperands with f := aslOperands.f.set 15 256 })) = some (.encodingConstraint, 15) ∧
    firstFailing (aslChecks ({ aslOperands with f := aslOperands.f.set 25 2 })) = some (.badOperand, 24) := by decide

/-- The link-layer header `24 90 52 34 07`. -/
def linkHeader : Link where
  frameType := 1
  protocolVersion := 2
  srcFormat := 1
  dstFormat := 0
  ackReq := 1
  broadcastAck := 0
  pad := 0
  src := [0x52, 0x34]
  srcVal := 0x1234
  dst := []
  dstVal := 0
  seqn := [0x07]
  seqnVal := 7

/-- The network-layer header `44 A1 A2`. -/
def netHeader : Net where
  isFragment := 0
  framePldType := 1
  encrEna := 0
  code := 1
  pad := 0
  info := 0
  auth := [0xA1, 0xA2]

/-- The presentation-layer header `6D 01 05 40 40`. -/
def presHeader : Pres where
  opc := 1
  seqnInc := 1
  rspReq := 0
  addrEnc := 0xD
  ext := [0x01, 0x05]
  seqn := [0x40, 0x40]
  seqnVal := 64

theorem witness_LinkDecode :
    windowOk (given [0x24, 0x90, 0x52, 0x34, 0x07, 0x44]) ∧ linkLegal known linkHeader = true ∧
    window (given [0x24, 0x90, 0x52, 0x34, 0x07, 0x44]) = linkBytes linkHeader ++ [0x44] := by
  refine ⟨⟨by decide, by decide⟩, by decide, by decide⟩

/-- Frame type 4; width code 0 of the source address, then of the destination address; code 3 of `seqn_num`. -/
theorem witness_LinkDecode_reserved :
    let x : Link := { linkHeader with dstFormat := 1, dst := [0x20], dstVal := 0 }
    let s := given [0x24, 0xB0, 0x52, 0x34, 0x20, 0xC0]
    windowOk (given [0x80, 0]) ∧ window (given [0x80, 0]) = 0x80 :: 0 :: [] ∧ known.frameTypeMax < (0x80 : Byte).toNat / 32 ∧
    linkFixedLegal known x = true ∧ fmtIsCloud known x.srcFormat = false ∧ fmtIsCloud known x.dstFormat = false ∧
    vwWidth known .addr3 ((0x00 : Byte).toNat / 32) = none ∧
    window (given [0x24, 0xB0, 0x00]) = linkFixedBytes x ++ 0x00 :: [] ∧
    addrLegal known x.srcFormat x.src x.srcVal = true ∧
    window (given [0x24, 0xB0, 0x52, 0x34, 0x00]) = linkFixedBytes x ++ x.src ++ 0x00 :: [] ∧
    addrLegal known x.dstFormat x.dst x.dstVal = true ∧ vwWidth known .seq2 ((0xC0 : Byte).toNat / 64) = none ∧
    windowOk s ∧ window s = linkFixedBytes x ++ x.src ++ x.dst ++ 0xC0 :: [] := by
  refine ⟨⟨by decide, by decide⟩, by decide, by decide, by decide, by decide, by decide, by decide, by decide, by decide,
    by decide, by decide, by decide, ⟨by decide, by decide⟩, by decide⟩

theorem witness_NetDecode :
    windowOk (given [0x44, 0xA1, 0xA2]) ∧ netLegal known netHeader = true ∧
    window (given [0x44, 0xA1, 0xA2]) = netBytes netHeader ++ [] ∧ window (given [0x1C]) = 0x1C :: [] ∧
    authSize known ((0x1C : Byte).toNat / 4 % 8) = none := by
  refine ⟨⟨by decide, by decide⟩, by decide, by decide, by decide, by decide⟩

theorem witness_PresDecode :
    windowOk (given [0x6D, 0x01, 0x05, 0x40, 0x40]) ∧ presLegal known presHeader = true ∧
    window (given [0x6D, 0x01, 0x05, 0x40, 0x40]) = presBytes presHeader ++ [] ∧ presHeadLegal presHeader = true ∧
    presHeader.seqnInc = 1 ∧ window (given [0x6D, 0x01, 0x05, 0xC0]) = (presHead presHeader).flatten ++ 0xC0 :: [] ∧
    vwWidth known .seq2 ((0xC0 : Byte).toNat / 64) = none := by
  refine ⟨⟨by decide, by decide⟩, by decide, by decide, by decide, by decide, by decide, by decide⟩

/-- The frame of V83 (95_test_vectors.md). -/
def frame : State := given [0x24, 0x90, 0x52, 0x34, 0x07, 0x44, 0xA1, 0xA2, 0x6D, 0x01, 0x05, 0x40, 0x40, 0xC0, 0xFF, 0xEE]

theorem witness_FrameDecode :
    windowOk frame ∧ linkLegal known linkHeader = true ∧ netLegal known netHeader = true ∧ netHeader.encrEna = 0 ∧
    presLegal known presHeader = true ∧
    window frame = linkBytes linkHeader ++ netBytes netHeader ++ presBytes presHeader ++ [0xC0, 0xFF, 0xEE] := by
  refine ⟨⟨by decide, by decide⟩, by decide, by decide, by decide, by decide, by decide⟩

/-- A reserved authentication code; a reserved width code of `seqn`. -/
theorem witness_FrameDecode_reserved :
    window (given [0x24, 0x90, 0x52, 0x34, 0x07, 0x1C]) = linkBytes linkHeader ++ 0x1C :: [] ∧
    authSize known ((0x1C : Byte).toNat / 4 % 8) = none ∧
    window (given [0x24, 0x90, 0x52, 0x34, 0x07, 0x44, 0xA1, 0xA2, 0x6D, 0x01, 0x05, 0xC0]) =
      linkBytes linkHeader ++ netBytes netHeader ++ (presHead presHeader).flatten ++ 0xC0 :: [] ∧
    netHeader.encrEna = 0 ∧ presHeader.seqnInc = 1 ∧ vwWidth known .seq2 ((0xC0 : Byte).toNat / 64) = none := by decide

theorem witness_FrameDecode_encrypted :
    let nl : Net := { netHeader with encrEna := 1 }
    let s := given [0x24, 0x90, 0x52, 0x34, 0x07, 0x64, 0xA1, 0xA2, 0xDE]
    windowOk s ∧ netLegal known nl = true ∧ nl.encrEna ≠ 0 ∧
    window s = linkBytes linkHeader ++ netBytes nl ++ [] ++ [0xDE] := by
  refine ⟨⟨by decide, by decide⟩, by decide, by decide, by decide⟩

theorem witness_TruncatedHeadersRaise :
    let cut (s : State) (bs : List Byte) : Bool := (window s).isPrefixOf bs && decide ((window s).length < bs.length)
    windowOk (given [0x24]) ∧ cut (given [0x24]) (linkPieces linkHeader).flatten = true ∧
    cut (given [0x44, 0xA1]) (netPieces netHeader).flatten = true ∧
    cut (given [0x6D, 0x01, 0x05, 0x40]) (presPieces presHeader).flatten = true ∧
    cut (given [0x24, 0x90, 0x52, 0x34, 0x07, 0x44, 0xA1])
      (linkPieces linkHeader ++ netPieces netHeader ++ presPieces presHeader).flatten = true ∧
    cutAt 0 (linkPieces linkHeader ++ netPieces netHeader ++ presPieces presHeader) 7 = 6 ∧
    known.valid = true ∧ aslLegal known aslHeader = true ∧
    cut (given [0xE8, 0x45, 0x41, 0x2C, 0x80]) (aslPieces aslHeader).flatten = true ∧
    cutAt 0 (aslPieces aslHeader) 5 = 5 ∧ cut (given [0x01]) (tlvBytes keyOne) = true ∧
    cut (given [2, 0x01, 0xAA, 0, 1, 0]) ([octet (tlvBytes keyOne).length] ++ tlvBytes keyOne ++ [0, 1] ++ [0, 2]) = true := by
  refine ⟨⟨by decide, by decide⟩, by decide, by decide, by decide, by decide, by decide, by decide, by decide, by decide,
    by decide, by decide, by decide⟩

/-- The registers of V83 and V92 (95_test_vectors.md): the operands of `FRAMEENC` for the three headers. -/
def frameOperands : State :=
  { withF frame [(0, 1), (1, 2), (2, 1), (4, 1), (6, 0x1234), (10, 7), (13, 1), (15, 2), (17, 6), (18, 1), (19, 1), (21, 13),
      (22, 0x105), (24, 64), (26, 13), (27, 3)] with pres := 0x04000000 }

theorem witness_LinkEncode :
    linkCanonical known linkHeader = true ∧ linkHeld frameOperands linkHeader = true ∧
    HasRoom frameOperands (linkBytes linkHeader).length ∧ ¬HasRoom (tight frameOperands) (linkBytes linkHeader).length ∧
    firstFailing (linkChecks (withF (given []) [(0, 4)])) = some (.encodingConstraint, 0) ∧
    firstFailing (linkChecks (withF (given []) [(10, 0x40000000)])) = some (.encodingConstraint, 0x40000000) := by decide

theorem witness_NetEncode :
    windowOk frameOperands ∧ netCanonical known netHeader = true ∧ netHeld frameOperands netHeader = true ∧
    HasRoom frameOperands (netBytes netHeader).length ∧ ¬HasRoom { frameOperands with olen := 65533 } (netBytes netHeader).length ∧
    firstFailing (netChecks (withF (given []) [(15, 3)])) = some (.encodingConstraint, 15) ∧
    firstFailing (netChecks (withF (given []) [(15, 2)])) = some (.badOperand, 17) := by
  refine ⟨⟨by decide, by decide⟩, by decide, by decide, by decide, by decide, by decide, by decide⟩

theorem witness_PresEncode :
    presCanonical known presHeader = true ∧ presHeld frameOperands presHeader = true ∧
    HasRoom frameOperands (presBytes presHeader).length ∧ ¬HasRoom (tight frameOperands) (presBytes presHeader).length ∧
    firstFailing (presChecks (withF (given []) [(21, 0xB), (22, 6)])) = some (.encodingConstraint, 22) ∧
    firstFailing (presChecks (withF (given []) [(21, 0xC), (22, 256)])) = some (.encodingConstraint, 22) := by decide

theorem witness_FrameEncode :
    windowOk frameOperands ∧ linkHeld frameOperands linkHeader = true ∧ netHeld frameOperands netHeader = true ∧
    presHeld frameOperands presHeader = true ∧ presBit frameOperands 26 = true ∧
    sliceHeld frameOperands 26 27 [0xC0, 0xFF, 0xEE] = true ∧ HasRoom frameOperands 16 ∧
    ¬HasRoom { frameOperands with olen := 65520 } 16 ∧
    firstFailing (frameChecks ({ frameOperands with f := frameOperands.f.set 27 4 })) = some (.badOperand, 26) := by
  refine ⟨⟨by decide, by decide⟩, by decide, by decide, by decide, by decide, by decide, by decide, by decide, by decide⟩

theorem witness_FrameRoundTrip :
    frame.params.valid = true ∧ windowOk frame ∧ linkCanonical known linkHeader = true ∧ netCanonical known netHeader = true ∧
    presCanonical known presHeader = true ∧
    window frame = linkBytes linkHeader ++ netBytes netHeader ++ presBytes presHeader ++ [0xC0, 0xFF, 0xEE] ∧
    (window frame).length ≤ frame.params.obufSize ∧ ∃ t, exec .framedec frame = .next t :=
  ⟨by decide, ⟨by decide, by decide⟩, by decide, by decide, by decide, by decide, by decide, _, rfl⟩

/-- The INITIAL fragment `01 00 00 03 01 AB`, restored from S3 (95_test_vectors.md). -/
def initial : Ama := { streamId := 0, trxn := 1, seq := 0, type := 0, ack := 0, ext := 0, total := 3, payload := [0xAB] }

/-- The continuation `01 14 01 CD` of sequence A (95_test_vectors.md). -/
def continuation : Ama := { streamId := 0, trxn := 1, seq := 1, type := 1, ack := 0, ext := 0, total := 0, payload := [0xCD] }

theorem witness_FragmentHeader :
    windowOk (given [1, 0, 0, 3, 1, 0xAB]) ∧ amaLegal initial = true ∧
    window (given [1, 0, 0, 3, 1, 0xAB]) = amaHead initial ++ initial.payload ++ [] ∧
    5 < (window (given [1, 0, 0, 3, 1, 0xAB])).length ∧ (window (given [1, 0])).length ≤ 2 ∧
    window (given [1, 0xC, 0]) = 1 :: 0xC :: [0] ∧ (0xC : Byte).toNat / 4 % 4 = 3 ∧
    window (given [1, 0, 0, 3, 0]) = 1 :: 0 :: [0, 3, 0] ∧ (0 : Byte).toNat / 4 % 4 = 0 := by
  refine ⟨⟨by decide, by decide⟩, by decide, by decide, by decide, by decide, by decide, by decide, by decide, by decide⟩

theorem witness_ReassemblyStart :
    let s := given [1, 0, 0, 3, 1, 0xAB]
    s.params.valid = true ∧ (0 : Byte).toNat < s.params.amaNctx ∧ s.ctxs.length = s.params.amaNctx ∧ windowOk s ∧
    amaLegal initial = true ∧ initial.type = 0 ∧ window s = amaHead initial ++ initial.payload ++ [] ∧ 5 < (window s).length ∧
    initial.total ≤ s.params.rbufSize ∧ initial.payload.length ≤ initial.total := by
  refine ⟨by decide, by decide, by decide, ⟨by decide, by decide⟩, by decide, by decide, by decide, by decide, by decide, by decide⟩

/-- A context that holds one byte of three. -/
def gathering : State := withCtx (given [1, 0x14, 1, 0xCD]) 1 3 1 0 [0xAB]

theorem witness_ReassemblyAppend :
    (0 : Byte).toNat < gathering.params.amaNctx ∧ gathering.ctxs[(0 : Byte).toNat]? = some (ctxAt gathering 0) ∧
    windowOk gathering ∧ amaLegal continuation = true ∧ continuation.type ≠ 0 ∧
    window gathering = amaHead continuation ++ continuation.payload ++ [] ∧ (ctxAt gathering 0).rstate = 1 ∧
    (ctxAt gathering 0).rlen.toNat + continuation.payload.length ≤ (ctxAt gathering 0).rtotal.toNat ∧
    ∀ a, a < 1 → (cellAt (ctxAt gathering 0).rbuf.cells a).isSome = true := by
  refine ⟨by decide, by decide, ⟨by decide, by decide⟩, by decide, by decide, by decide, by decide, by decide, by decide⟩

theorem witness_ReassemblyErrorsAbort :
    let s := withCtx (given [1, 0x14, 1, 0xCD]) 0 0 0 0 []
    let u := withCtx (given [1, 0x14, 1, 0xCD]) 1 2 2 0 [1, 2]
    let v := tight (given [1, 0, 0, 5, 1, 0xAB])
    let x : Ama := { initial with total := 2, payload := [0xAA, 0xBB, 0xCC] }
    window s = amaHead continuation ++ continuation.payload ++ [] ∧ (ctxAt s 0).rstate ≠ 1 ∧
    (ctxAt u 0).rstate = 1 ∧ (ctxAt u 0).rtotal.toNat < (ctxAt u 0).rlen.toNat + continuation.payload.length ∧
    window v = amaHead { initial with total := 5 } ++ initial.payload ++ [] ∧ v.params.rbufSize < 5 ∧
    window (given [1, 0, 0, 2, 3, 0xAA, 0xBB, 0xCC]) = amaHead x ++ x.payload ++ [] ∧ x.total < x.payload.length ∧
    (window (given [1, 0x0C])).length ≤ 2 ∧ window (given [1, 0x0C, 0]) = 1 :: 0x0C :: [0] ∧
    window (given [1, 0, 0, 0, 0]) = 1 :: 0 :: [0, 0, 0] := by decide

/-- A continuation cut before its payload byte. -/
theorem witness_TruncatedHeadersRaise_fragment :
    amaLegal continuation = true ∧ (window (given [1, 0x14, 1])).isPrefixOf (amaHead continuation ++ continuation.payload) = true ∧
    (window (given [1, 0x14, 1])).length < (amaHead continuation ++ continuation.payload).length ∧
    (0 : Byte).toNat < (given [1, 0x14, 1]).params.amaNctx := by decide

theorem witness_ContextDiscard : (0 : Byte).toNat < gathering.params.amaNctx := by decide

theorem witness_FragmenterStart :
    let s := withA (given [0x11, 0x22, 0x33, 0x44, 0x55]) 2 1 0
    windowOk s ∧ s.olen.toNat ≤ s.params.obufSize ∧ 1 ≤ aVal s 0 ∧ aVal s 0 ≤ 255 ∧ aVal s 1 < 256 ∧ aVal s 2 < 4 ∧
    0 < (window s).length ∧ HasRoom s 7 ∧ ¬HasRoom (tight s) 7 ∧ (window (given [])).length = 0 ∧
    255 < aVal (withA s 256 0 0) 0 ∧ 256 ≤ aVal (withA s 255 256 0) 1 ∧ 4 ≤ aVal (withA s 255 255 4) 2 := by
  refine ⟨⟨by decide, by decide⟩, by decide, by decide, by decide, by decide, by decide, by decide, by decide, by decide,
    by decide, by decide, by decide, by decide⟩

theorem witness_FragmenterContinue :
    let s := withTx (given [0x11, 0x22, 0x33, 0x44, 0x55]) 4 5 2 2 1
    windowOk s ∧ s.olen.toNat ≤ s.params.obufSize ∧ s.tx.txstate = 1 ∧ s.tx.txoff.toNat < s.tx.txend.toNat ∧ HasRoom s 4 ∧
    ¬HasRoom (tight { s with olen := 1 }) 4 ∧ (given []).tx.txstate = 0 := by
  refine ⟨⟨by decide, by decide⟩, by decide, by decide, by decide, by decide, by decide, by decide⟩

end Sys2Proof.Tests
end

section
/-! SUPPORT. The register map of 10_state.md R40, index by index: what a read of each group of indices answers, what a
write to it does, and which reads a write leaves as they were. -/

namespace Sys2Proof.Machine

/-! ### What each group of indices reads -/

theorem regRead_a {s : State} {i : Nat} (h : 0x10 ≤ i ∧ i < 0x14) : regRead s i = (s.a[i - 0x10]?).getD 0 := by
  unfold regRead
  split <;> try omega
  rw [if_pos h]

theorem regRead_f {s : State} {i : Nat} (h : 0x20 ≤ i ∧ i < 0x40) : regRead s i = (s.f[i - 0x20]?).getD 0 := by
  unfold regRead
  split <;> try omega
  rw [if_neg (by omega), if_pos h]

theorem regRead_tlvk {s : State} {i : Nat} (h : 0x40 ≤ i ∧ i < 0x80) :
    regRead s i = ((tlvAt s (i - 0x40)).map fun e => e.key.setWidth 32).getD 0 := by
  unfold regRead
  split <;> try omega
  rw [if_neg (by omega), if_neg (by omega), if_pos h]

theorem regRead_tlvo {s : State} {i : Nat} (h : 0x80 ≤ i ∧ i < 0xC0) :
    regRead s i = ((tlvAt s (i - 0x80)).map fun e => e.off.setWidth 32).getD 0 := by
  unfold regRead
  split <;> try omega
  rw [if_neg (by omega), if_neg (by omega), if_neg (by omega), if_pos h]

theorem regRead_tlvl {s : State} {i : Nat} (h : 0xC0 ≤ i ∧ i < 0x100) :
    regRead s i = ((tlvAt s (i - 0xC0)).map fun e => e.len.setWidth 32).getD 0 := by
  unfold regRead
  split <;> try omega
  rw [if_neg (by omega), if_neg (by omega), if_neg (by omega), if_neg (by omega), if_pos h]

/-- The indices from `0x100` on are the contexts' (10_state.md R40). -/
theorem regRead_ctxs {s : State} {i : Nat} (h : 0x100 ≤ i) :
    regRead s i =
      if (i - 0x100) / 8 < s.params.amaNctx then ctxReg (ctxAt s ((i - 0x100) / 8)) ((i - 0x100) % 8) else 0 := by
  unfold regRead
  split <;> try omega
  rw [if_neg (by omega), if_neg (by omega), if_neg (by omega), if_neg (by omega), if_neg (by omega)]
  simp only [h, true_and]

/-- Between `TXFL` and `F[0]` no register stands (10_state.md R40). -/
theorem regRead_gap {s : State} {i : Nat} (h : 0x17 ≤ i ∧ i < 0x20) : regRead s i = 0 := by
  unfold regRead
  split <;> try omega
  rw [if_neg (by omega), if_neg (by omega), if_neg (by omega), if_neg (by omega), if_neg (by omega), if_neg (by omega)]

theorem ctxReg_of_le (x : Ctx) {k : Nat} (h : 6 ≤ k) : ctxReg x k = 0 := by
  unfold ctxReg
  split <;> first | omega | rfl

theorem tlvAt_of_le {s : State} {i : Nat} (h : s.params.tlvMax ≤ i) : tlvAt s i = none := if_neg (by omega)

/-! ### What a write to each group of indices does -/

theorem regWrite_a {s : State} {i : Nat} (w : Word) (h : 0x10 ≤ i ∧ i < 0x14) :
    regWrite s i w = { s with a := s.a.setIfInBounds (i - 0x10) w } := by
  unfold regWrite
  split <;> try omega
  rw [if_pos h]

theorem regWrite_f {s : State} {i : Nat} (w : Word) (h : 0x20 ≤ i ∧ i < 0x40) :
    regWrite s i w = { s with f := s.f.setIfInBounds (i - 0x20) w } := by
  unfold regWrite
  split <;> try omega
  rw [if_neg (by omega), if_pos h]

theorem regWrite_tlvk {s : State} {i : Nat} (w : Word) (h : 0x40 ≤ i ∧ i < 0x80) :
    regWrite s i w = tlvUpdate s (i - 0x40) fun e => { e with key := w.setWidth 6 } := by
  unfold regWrite
  split <;> try omega
  rw [if_neg (by omega), if_neg (by omega), if_pos h]

theorem regWrite_tlvo {s : State} {i : Nat} (w : Word) (h : 0x80 ≤ i ∧ i < 0xC0) :
    regWrite s i w = tlvUpdate s (i - 0x80) fun e => { e with off := w.setWidth 16 } := by
  unfold regWrite
  split <;> try omega
  rw [if_neg (by omega), if_neg (by omega), if_neg (by omega), if_pos h]

theorem regWrite_tlvl {s : State} {i : Nat} (w : Word) (h : 0xC0 ≤ i ∧ i < 0x100) :
    regWrite s i w = tlvUpdate s (i - 0xC0) fun e => { e with len := w.setWidth 8 } := by
  unfold regWrite
  split <;> try omega
  rw [if_neg (by omega), if_neg (by omega), if_neg (by omega), if_neg (by omega), if_pos h]

/-- Between `TXFL` and `F[0]`, and from the contexts on, there is nothing to write (10_state.md R40). -/
theorem regWrite_ignored {s : State} {i : Nat} (w : Word) (h : (0x17 ≤ i ∧ i < 0x20) ∨ 0x100 ≤ i) : regWrite s i w = s := by
  unfold regWrite
  split <;> try omega
  rw [if_neg (by omega), if_neg (by omega), if_neg (by omega), if_neg (by omega), if_neg (by omega)]

/-! ### The Flex field table under a write -/

theorem tlvAt_tlvUpdate (s : State) (k m : Nat) (g : TlvEntry → TlvEntry) :
    tlvAt (tlvUpdate s k g) m = if m = k then (tlvAt s k).map g else tlvAt s m := by
  cases hk : tlvAt s k with
  | none =>
    have hs : tlvUpdate s k g = s := by simp only [tlvUpdate, hk]
    rw [hs]
    split
    · next h => rw [h, hk]; rfl
    · rfl
  | some e =>
    have hs : tlvUpdate s k g = { s with tlv := s.tlv.setIfInBounds k (g e) } := by simp only [tlvUpdate, hk]
    have hlt : k < s.params.tlvMax ∧ k < 64 := by
      unfold tlvAt at hk
      split at hk
      · next h => exact ⟨h, (Vector.getElem?_eq_some_iff.mp hk).1⟩
      · cases hk
    rw [hs]
    by_cases h : m = k
    · subst h; simp [tlvAt, hlt]
    · simp [tlvAt, h, Ne.symm h]

/-- Entries the configuration does not have keep their contents (10_state.md R34). -/
theorem tlvUpdate_tlv_of_le (s : State) (i : Nat) (g : TlvEntry → TlvEntry) (k : Fin 64) (h : s.params.tlvMax ≤ k.val) :
    (tlvUpdate s i g).tlv[k] = s.tlv[k] := by
  by_cases hi : i < s.params.tlvMax
  · unfold tlvUpdate
    split
    · rfl
    · simp [show i ≠ k.val by omega]
  · rw [tlvUpdate_of_le (by omega)]

/-! ### Reads that a write leaves as they were -/

section Frame

variable {s : State} {j : Nat}

theorem regRead_with_esticky (w : Word) (h : j ≠ 0x05) : regRead { s with esticky := w } j = regRead s j := by
  unfold regRead
  split <;> first | rfl | contradiction

theorem regRead_with_pres (w : Word) (h : j ≠ 0x07) : regRead { s with pres := w } j = regRead s j := by
  unfold regRead
  split <;> first | rfl | contradiction

theorem regRead_with_ilen (n : Half) (h : j ≠ 0x08) : regRead { s with ilen := n } j = regRead s j := by
  unfold regRead
  split <;> first | rfl | contradiction

theorem regRead_with_cur (n : Half) (h : j ≠ 0x09) : regRead { s with cur := n } j = regRead s j := by
  unfold regRead
  split <;> first | rfl | contradiction

theorem regRead_with_olen (n : Half) (h : j ≠ 0x0A) : regRead { s with olen := n } j = regRead s j := by
  unfold regRead
  split <;> first | rfl | contradiction

theorem regRead_with_tlvn (n : BitVec 7) (h : j ≠ 0x0B) : regRead { s with tlvn := n } j = regRead s j := by
  unfold regRead
  split <;> first | rfl | contradiction

theorem regRead_with_a (v : Vector Word 4) (h : 0x10 ≤ j ∧ j < 0x14 → v[j - 0x10]? = s.a[j - 0x10]?) :
    regRead { s with a := v } j = regRead s j := by
  by_cases hj : 0x10 ≤ j ∧ j < 0x14
  · rw [regRead_a hj, regRead_a hj, h hj]
  · unfold regRead
    simp only [if_neg hj]
    rfl

theorem regRead_with_f (v : Vector Word 32) (h : 0x20 ≤ j ∧ j < 0x40 → v[j - 0x20]? = s.f[j - 0x20]?) :
    regRead { s with f := v } j = regRead s j := by
  by_cases hj : 0x20 ≤ j ∧ j < 0x40
  · rw [regRead_f hj, regRead_f hj, h hj]
  · unfold regRead
    simp only [if_neg hj]
    rfl

/-- Outside the indices of the Flex field table nothing of it is read (10_state.md R40). -/
theorem regRead_with_tlv (v : Vector TlvEntry 64) (h : j < 0x40 ∨ 0x100 ≤ j) :
    regRead { s with tlv := v } j = regRead s j := by
  unfold regRead
  simp only [if_neg (show ¬(0x40 ≤ j ∧ j < 0x80) by omega), if_neg (show ¬(0x80 ≤ j ∧ j < 0xC0) by omega),
    if_neg (show ¬(0xC0 ≤ j ∧ j < 0x100) by omega)]
  rfl

/-- An update of entry `k` that keeps the column an index reads, where the index is that of entry `k`, keeps the read. -/
theorem regRead_tlvUpdate {k : Nat} {g : TlvEntry → TlvEntry}
    (hkey : j - 0x40 = k → 0x40 ≤ j → j < 0x80 → ∀ e, (g e).key = e.key)
    (hoff : j - 0x80 = k → 0x80 ≤ j → j < 0xC0 → ∀ e, (g e).off = e.off)
    (hlen : j - 0xC0 = k → 0xC0 ≤ j → ∀ e, (g e).len = e.len) :
    regRead (tlvUpdate s k g) j = regRead s j := by
  by_cases hout : j < 0x40 ∨ 0x100 ≤ j
  · unfold tlvUpdate
    split
    · rfl
    · exact regRead_with_tlv _ hout
  · rcases (by omega : (0x40 ≤ j ∧ j < 0x80) ∨ (0x80 ≤ j ∧ j < 0xC0) ∨ (0xC0 ≤ j ∧ j < 0x100)) with hj | hj | hj
    · rw [regRead_tlvk hj, regRead_tlvk hj, tlvAt_tlvUpdate]
      split
      · next hk => simp [← hk, Function.comp_def, hkey hk hj.1 hj.2]
      · rfl
    · rw [regRead_tlvo hj, regRead_tlvo hj, tlvAt_tlvUpdate]
      split
      · next hk => simp [← hk, Function.comp_def, hoff hk hj.1 hj.2]
      · rfl
    · rw [regRead_tlvl hj, regRead_tlvl hj, tlvAt_tlvUpdate]
      split
      · next hk => simp [← hk, Function.comp_def, hlen hk hj.1]
      · rfl

end Frame

/-- A host register write changes what its own index reads and what no other index reads (10_state.md R40). -/
theorem regRead_regWrite_other (s : State) {i j : Nat} (w : Word) (h : j ≠ i) :
    regRead (regWrite s i w) j = regRead s j := by
  unfold regWrite
  split
  · exact regRead_with_esticky _ h
  · exact regRead_with_pres _ h
  · exact regRead_with_ilen _ h
  · exact regRead_with_cur _ h
  · exact regRead_with_olen _ h
  · exact regRead_with_tlvn _ h
  · split
    · exact regRead_with_a _ fun _ => Vector.getElem?_setIfInBounds_ne (by omega)
    · split
      · exact regRead_with_f _ fun _ => Vector.getElem?_setIfInBounds_ne (by omega)
      · split
        · exact regRead_tlvUpdate (fun _ _ _ => by omega) (fun _ _ _ _ => rfl) (fun _ _ _ => rfl)
        · split
          · exact regRead_tlvUpdate (fun _ _ _ _ => rfl) (fun _ _ _ => by omega) (fun _ _ _ => rfl)
          · split
            · exact regRead_tlvUpdate (fun _ _ _ _ => rfl) (fun _ _ _ _ => rfl) (fun _ _ => by omega)
            · rfl

/-- A host register write leaves the table entries that the configuration does not have (10_state.md R34). -/
theorem regWrite_tlv_of_le (s : State) (i : Nat) (w : Word) (k : Fin 64) (h : s.params.tlvMax ≤ k.val) :
    (regWrite s i w).tlv[k] = s.tlv[k] := by
  unfold regWrite
  repeat' split
  all_goals first | rfl | exact tlvUpdate_tlv_of_le s _ _ k h

end Sys2Proof.Machine
end

section
/-! SUPPORT. The host port's statements: reading back what was written, read-only and undefined indices. -/

open Sys2Proof Sys2Proof.Machine

namespace Sys2Proof.Machine

/-! ### Reading back a write -/

/-- A value truncated to a register of `n` bits and read as a word (10_state.md R40). -/
theorem toNat_setWidth_setWidth (w : Word) {n : Nat} (h : n ≤ 32) :
    ((w.setWidth n).setWidth 32).toNat = w.toNat % 2 ^ n := by
  rw [BitVec.toNat_setWidth_of_le h, BitVec.toNat_setWidth]

theorem regRead_regWrite_a {s : State} {i : Nat} (w : Word) (h : 0x10 ≤ i ∧ i < 0x14) :
    regRead (regWrite s i w) i = w := by
  rw [regWrite_a w h, regRead_a h]
  simp [show i - 0x10 < 4 by omega]

theorem regRead_regWrite_f {s : State} {i : Nat} (w : Word) (h : 0x20 ≤ i ∧ i < 0x40) :
    regRead (regWrite s i w) i = w := by
  rw [regWrite_f w h, regRead_f h]
  simp [show i - 0x20 < 32 by omega]

theorem regRead_regWrite_tlvk {s : State} {i : Nat} (w : Word) (h : 0x40 ≤ i ∧ i < 0x80)
    (ht : i - 0x40 < s.params.tlvMax) : (regRead (regWrite s i w) i).toNat = w.toNat % 2 ^ 6 := by
  rw [regWrite_tlvk w h, regRead_tlvk h, tlvAt_tlvUpdate, if_pos rfl, tlvAt_of_lt ⟨i - 0x40, by omega⟩ ht]
  exact toNat_setWidth_setWidth w (by decide)

theorem regRead_regWrite_tlvo {s : State} {i : Nat} (w : Word) (h : 0x80 ≤ i ∧ i < 0xC0)
    (ht : i - 0x80 < s.params.tlvMax) : (regRead (regWrite s i w) i).toNat = w.toNat % 2 ^ 16 := by
  rw [regWrite_tlvo w h, regRead_tlvo h, tlvAt_tlvUpdate, if_pos rfl, tlvAt_of_lt ⟨i - 0x80, by omega⟩ ht]
  exact toNat_setWidth_setWidth w (by decide)

theorem regRead_regWrite_tlvl {s : State} {i : Nat} (w : Word) (h : 0xC0 ≤ i ∧ i < 0x100)
    (ht : i - 0xC0 < s.params.tlvMax) : (regRead (regWrite s i w) i).toNat = w.toNat % 2 ^ 8 := by
  rw [regWrite_tlvl w h, regRead_tlvl h, tlvAt_tlvUpdate, if_pos rfl, tlvAt_of_lt ⟨i - 0xC0, by omega⟩ ht]
  exact toNat_setWidth_setWidth w (by decide)

/-- What the three indices of a table entry read (10_state.md R40). -/
theorem regRead_tlv_toNat {s : State} (i : Fin 64) (h : i.val < s.params.tlvMax) :
    (regRead s (0x40 + i.val)).toNat = s.tlv[i].key.toNat ∧ (regRead s (0x80 + i.val)).toNat = s.tlv[i].off.toNat ∧
      (regRead s (0xC0 + i.val)).toNat = s.tlv[i].len.toNat := by
  refine ⟨?_, ?_, ?_⟩
  · rw [regRead_tlvk (by omega), show 0x40 + i.val - 0x40 = i.val by omega, tlvAt_of_lt i h]
    exact BitVec.toNat_setWidth_of_le (by decide)
  · rw [regRead_tlvo (by omega), show 0x80 + i.val - 0x80 = i.val by omega, tlvAt_of_lt i h]
    exact BitVec.toNat_setWidth_of_le (by decide)
  · rw [regRead_tlvl (by omega), show 0xC0 + i.val - 0xC0 = i.val by omega, tlvAt_of_lt i h]
    exact BitVec.toNat_setWidth_of_le (by decide)

/-! ### Undefined indices -/

/-- A table index that the configuration does not have (10_state.md R40) reads 0. -/
theorem regRead_tlv_of_le {s : State} {i : Nat} (h : 0x40 ≤ i ∧ i ≤ 0xFF) (ht : s.params.tlvMax ≤ i % 64) :
    regRead s i = 0 := by
  rcases (by omega : (0x40 ≤ i ∧ i < 0x80) ∨ (0x80 ≤ i ∧ i < 0xC0) ∨ (0xC0 ≤ i ∧ i < 0x100)) with hi | hi | hi
  · rw [regRead_tlvk hi, tlvAt_of_le (by omega)]; rfl
  · rw [regRead_tlvo hi, tlvAt_of_le (by omega)]; rfl
  · rw [regRead_tlvl hi, tlvAt_of_le (by omega)]; rfl

/-- A write to a table index that the configuration does not have (10_state.md R40) is ignored. -/
theorem regWrite_tlv_ignored {s : State} {i : Nat} (w : Word) (h : 0x40 ≤ i ∧ i ≤ 0xFF) (ht : s.params.tlvMax ≤ i % 64) :
    regWrite s i w = s := by
  rcases (by omega : (0x40 ≤ i ∧ i < 0x80) ∨ (0x80 ≤ i ∧ i < 0xC0) ∨ (0xC0 ≤ i ∧ i < 0x100)) with hi | hi | hi
  · rw [regWrite_tlvk w hi, tlvUpdate_of_le (by omega)]
  · rw [regWrite_tlvo w hi, tlvUpdate_of_le (by omega)]
  · rw [regWrite_tlvl w hi, tlvUpdate_of_le (by omega)]

/-- A context index without a context, or past its six registers (10_state.md R40), reads 0. -/
theorem regRead_ctxs_undefined {s : State} {i : Nat} (h : 0x100 ≤ i)
    (hu : s.params.amaNctx ≤ (i - 0x100) / 8 ∨ 6 ≤ i % 8) : regRead s i = 0 := by
  rw [regRead_ctxs h]
  split
  · exact ctxReg_of_le _ (by omega)
  · rfl

/-- What the six indices of a context read (10_state.md R40). -/
theorem regRead_ctx_toNat {s : State} {c : Nat} {x : Ctx} (hc : c < s.params.amaNctx) (hx : s.ctxs[c]? = some x) :
    (regRead s (0x100 + 8 * c)).toNat = x.rstate.toNat ∧ (regRead s (0x100 + 8 * c + 1)).toNat = x.rtotal.toNat ∧
      (regRead s (0x100 + 8 * c + 2)).toNat = x.rlen.toNat ∧ (regRead s (0x100 + 8 * c + 3)).toNat = x.rsid.toNat ∧
      (regRead s (0x100 + 8 * c + 4)).toNat = x.rtrxn.toNat ∧ (regRead s (0x100 + 8 * c + 5)).toNat = x.rseq.toNat := by
  have hreg : ∀ k, k < 8 → regRead s (0x100 + 8 * c + k) = ctxReg x k := fun k hk => by
    rw [regRead_ctx hc hk, ctxAt_of_getElem? hx]
  refine ⟨?_, ?_, ?_, ?_, ?_, ?_⟩
  · rw [← Nat.add_zero (0x100 + 8 * c), hreg 0 (by decide)]; exact BitVec.toNat_setWidth_of_le (by decide)
  · rw [hreg 1 (by decide)]; exact BitVec.toNat_setWidth_of_le (by decide)
  · rw [hreg 2 (by decide)]; exact BitVec.toNat_setWidth_of_le (by decide)
  · rw [hreg 3 (by decide)]; exact BitVec.toNat_setWidth_of_le (by decide)
  · rw [hreg 4 (by decide)]; exact BitVec.toNat_setWidth_of_le (by decide)
  · rw [hreg 5 (by decide)]; exact BitVec.toNat_setWidth_of_le (by decide)

/-! ### Reset -/

/-- Every index reads 0 where the registers are those of reset and every context is idle (10_state.md R42), whatever the
buffers and the host's own fields hold. -/
theorem regRead_reset (p : Params) {cs : List Ctx} (ib ob : Buf) (q : List HostOp) (d : Word)
    (hidle : ∀ x ∈ cs, ∃ b, x = Ctx.idle b) (i : Nat) :
    regRead { State.resetWith p with ctxs := cs, ibuf := ib, obuf := ob, hostQueue := q, hostData := d } i = 0 := by
  generalize ht : { State.resetWith p with ctxs := cs, ibuf := ib, obuf := ob, hostQueue := q, hostData := d } = t
  have htlv : ∀ k, tlvAt t k = none ∨ tlvAt t k = some { key := 0, off := 0, len := 0 } := fun k => by
    have heq : tlvAt t k = tlvAt (State.resetWith p) k := by rw [← ht]; rfl
    cases h : tlvAt (State.resetWith p) k with
    | none => exact .inl (heq.trans h)
    | some e => exact .inr (by rw [heq, h, tlvAt_resetWith h])
  have hctx : ∀ c, ∃ b, ctxAt t c = Ctx.idle b := fun c => by
    by_cases hc : c < t.ctxs.length
    · exact hidle _ (by simpa [← ht] using ctxAt_mem hc)
    · exact ⟨Buf.unspecified 0, by simp [ctxAt, hc]⟩
  by_cases hctxs : 0x100 ≤ i
  · obtain ⟨b, hb⟩ := hctx ((i - 0x100) / 8)
    rw [regRead_ctxs hctxs, hb, ctxReg_idle, ite_self]
  by_cases hl : 0xC0 ≤ i
  · rcases htlv (i - 0xC0) with h | h <;> rw [regRead_tlvl (by omega), h] <;> rfl
  by_cases ho : 0x80 ≤ i
  · rcases htlv (i - 0x80) with h | h <;> rw [regRead_tlvo (by omega), h] <;> rfl
  by_cases hk : 0x40 ≤ i
  · rcases htlv (i - 0x40) with h | h <;> rw [regRead_tlvk (by omega), h] <;> rfl
  subst ht
  interval_cases i <;> rfl

theorem platformReset_eq (s : State) :
    platformReset s = { State.resetWith s.params with
      ctxs := (platformReset s).ctxs, ibuf := (platformReset s).ibuf, obuf := (platformReset s).obuf
      hostQueue := s.hostQueue, hostData := s.hostData } := rfl

/-- Every context is idle after the platform's reset (70_reset_and_hazards.md R290). -/
theorem platformReset_ctxs_idle (s : State) : ∀ x ∈ (platformReset s).ctxs, ∃ b, x = Ctx.idle b := by
  intro x hx
  obtain ⟨y, -, rfl⟩ := List.mem_map.mp hx
  exact ⟨_, rfl⟩

/-- Every register index reads 0 after reset, in every configuration (10_state.md R42). -/
theorem regRead_resetWith (p : Params) (i : Nat) : regRead (State.resetWith p) i = 0 :=
  regRead_reset p _ _ _ _ (fun _ hx => ⟨_, List.eq_of_mem_replicate hx⟩) i

/-- An idle context whose bytes are all unspecified meets the laws of a context (44_ama.md R230). -/
theorem ctxInv_idle (p : Params) (epoch : Nat) : CtxInv p (Ctx.idle (Buf.unspecified epoch)) where
  lenLeTotal := Nat.le_refl _
  totalLeSize := Nat.zero_le _
  completeFull _ := rfl
  accumulatingShort h := absurd h (show (0 : BitVec 2) ≠ accumulating by decide)
  awaitingZero _ := ⟨rfl, rfl, rfl, rfl, rfl⟩
  stateLegal := show (0 : BitVec 2) ≠ 3 by decide
  bufWf := Memory.wf_unspecified _ _
  payloadWritten a h := absurd h (Nat.not_lt_zero a)

/-- A fragmenter that is not sending meets its laws (44_ama.md R233). -/
theorem fragInv_idle (p : Params) : FragInv p Frag.idle where
  sendingLeft h := absurd h (by decide)
  sendingChunk h := absurd h (by decide)
  endLeSize := Nat.zero_le _

/-- The invariant holds after reset, in every lawful configuration. -/
theorem inv_resetWith {p : Params} (h : p.valid = true) : Inv (State.resetWith p) where
  paramsValid := h
  ctxCount := List.length_replicate
  ctxInv x hx := by
    rw [List.eq_of_mem_replicate hx]
    exact ctxInv_idle p 0
  fragInv := fragInv_idle p
  ibufWf := Memory.wf_unspecified _ _
  obufWf := Memory.wf_unspecified _ _
  statusLegal := .inl rfl
  flgHigh := show (0 : Word).toNat < 2 ^ 7 by decide
  stickyLegal := show (0 : Word) &&& ~~~stickyMask = 0 by decide
  causeLegal := .inl rfl
  tlvHigh i _ := by simp [State.resetWith]

/-! ### Steps -/

/-- With no access pending the block waits (70_reset_and_hazards.md R291). -/
theorem step_of_nil {s : State} (h : s.hostQueue = []) : step s = .next s := by
  unfold step
  rw [h]

/-- A word written to `CMD` is executed (10_state.md R30). -/
theorem step_of_command {s : State} {rest : List HostOp} {w : Word} (h : s.hostQueue = .regWrite 0x00 w :: rest) :
    step s = runWord w { s with hostQueue := rest } := by
  unfold step
  rw [h]
  rfl

/-- Any other access is performed (20_memory.md R67). -/
theorem step_of_access {s : State} {rest : List HostOp} {op : HostOp} (h : s.hostQueue = op :: rest)
    (hop : commandWrite op = none) : step s = .next (hostAccess { s with hostQueue := rest } op) := by
  unfold step
  rw [h]
  simp only [hop]

theorem commandWrite_eq_none {op : HostOp} (h : ∀ w, op ≠ .regWrite 0x00 w) : commandWrite op = none := by
  cases op with
  | regWrite i w => exact if_neg fun hi => h w (by rw [hi])
  | regRead _ | bufRead _ _ | bufWrite _ _ _ | platformReset => rfl

theorem runWord_of_ok {w : Word} {i : Instr} (h : decode w = .ok i) (s : State) : runWord w s = exec i s := by
  unfold runWord
  rw [h]

theorem runWord_of_error {w : Word} {e : IllegalWord} (h : decode w = .error e) (s : State) :
    runWord w s = .next (illegalCommand s w) := by
  unfold runWord
  rw [h]

/-- An illegal word raises `IllegalCommand(w)` (30_encoding.md R82). -/
theorem raised_illegalCommand (s : State) (w : Word) : Raised s (illegalCommand s w) w .illegalCommand w.toNat := by
  simp [Raised, illegalCommand, takeRaise]

end Sys2Proof.Machine

/-- Settles O7: the reads by the lemma of each group of indices, and a write by what its group writes; that no other index
reads differently and nothing else changes holds of every write. -/
theorem hostWritesReadBack : Obligations.HostWritesReadBack := by
  intro s
  refine ⟨⟨rfl, ?_, ?_, ?_, ?_⟩, fun i => ?_, fun i => ?_, fun i h => regRead_tlv_toNat i h, fun i width w h => ?_⟩
  · exact BitVec.toNat_setWidth_of_le (by decide)
  · exact BitVec.toNat_setWidth_of_le (by decide)
  · exact BitVec.toNat_setWidth_of_le (by decide)
  · exact BitVec.toNat_setWidth_of_le (by decide)
  · rw [regRead_a (by omega)]; simp
  · rw [regRead_f (by omega)]; simp
  · have hframe := regWrite_frame s i w
    refine ⟨?_, fun j hj => regRead_regWrite_other s w hj, fun k hk => regWrite_tlv_of_le s i w k hk,
      by rw [hframe], by rw [hframe], by rw [hframe], by rw [hframe], by rw [hframe], by rw [hframe]⟩
    rcases h with ⟨rfl, rfl⟩ | ⟨hi, rfl⟩ | ⟨rfl, rfl⟩ | ⟨hl, hu, rfl⟩ | ⟨hl, hu, rfl⟩ | ⟨hl, hu, ht, rfl⟩ |
      ⟨hl, hu, ht, rfl⟩ | ⟨hl, hu, ht, rfl⟩
    · exact (Nat.mod_eq_of_lt w.isLt).symm
    · simp only [List.mem_cons, List.not_mem_nil, or_false] at hi
      rcases hi with rfl | rfl | rfl
      · exact toNat_setWidth_setWidth w (by decide)
      · exact toNat_setWidth_setWidth w (by decide)
      · exact toNat_setWidth_setWidth w (by decide)
    · exact toNat_setWidth_setWidth w (by decide)
    · rw [regRead_regWrite_a w (by omega)]; exact (Nat.mod_eq_of_lt w.isLt).symm
    · rw [regRead_regWrite_f w (by omega)]; exact (Nat.mod_eq_of_lt w.isLt).symm
    · exact regRead_regWrite_tlvk w (by omega) ht
    · exact regRead_regWrite_tlvo w (by omega) ht
    · exact regRead_regWrite_tlvl w (by omega) ht

/-- Settles O8: literal indices by evaluation, the groups by their lemmas. -/
theorem readOnlyAndUndefinedIndices : Obligations.ReadOnlyAndUndefinedIndices := by
  intro s
  refine ⟨⟨rfl, ?_, rfl, rfl, rfl, ?_, ?_, ?_, ?_, ?_, ?_, ?_⟩, fun c x hc hx => regRead_ctx_toNat hc hx, fun i w => ⟨?_, ?_⟩⟩
  iterate 8 exact BitVec.toNat_setWidth_of_le (by decide)
  · rintro ((hgap | ⟨hl, hu, ht⟩ | ⟨hl, -⟩) | hro | hl)
    · exact regWrite_ignored w (by omega)
    · exact regWrite_tlv_ignored w ⟨hl, hu⟩ ht
    · exact regWrite_ignored w (.inr hl)
    · simp only [List.mem_cons, List.not_mem_nil, or_false] at hro
      rcases hro with rfl | rfl | rfl | rfl | rfl | rfl | rfl | rfl | rfl | rfl | rfl | rfl <;> rfl
    · exact regWrite_ignored w (.inr hl)
  · rintro ((hgap | ⟨hl, hu, ht⟩ | ⟨hl, hu⟩) | rfl)
    · exact regRead_gap (by omega)
    · exact regRead_tlv_of_le ⟨hl, hu⟩ ht
    · exact regRead_ctxs_undefined hl hu
    · rfl

/-- Settles O11: the first reset and any later one differ only in fields that no register is read from. -/
theorem registersReadZeroAfterReset : Obligations.RegistersReadZeroAfterReset := by
  refine ⟨fun i => regRead_resetWith Params.defaults i, regRead_resetWith, fun s => ?_⟩
  exact ⟨regRead_reset s.params _ _ _ _ (platformReset_ctxs_idle s), platformReset_eq s, List.length_map _,
    platformReset_ctxs_idle s⟩

/-- Settles O6: by what is first in the queue; a word placed by `withFetchWord` is the next access of the state itself. -/
theorem stepPerformsNextAccess : Obligations.StepPerformsNextAccess := by
  refine ⟨fun s h => step_of_nil h, fun s rest w i h hw => ?_, fun s rest w e h hw => ?_, fun s rest op h hop => ?_,
    fun s => ⟨fun _ => rfl, fun _ _ _ => rfl, fun _ _ => rfl, fun _ _ _ => rfl, rfl⟩, fun s w i hw hlt => ?_⟩
  · rw [step_of_command h, runWord_of_ok hw]
  · exact ⟨_, by rw [step_of_command h, runWord_of_error hw], raised_illegalCommand _ w⟩
  · exact step_of_access h (commandWrite_eq_none hop)
  · have hq : (s.withFetchWord 32 w).hostQueue = .regWrite 0x00 (BitVec.ofNat 32 w) :: s.hostQueue := by
      simp only [State.withFetchWord, cmdAccess, Nat.mod_eq_of_lt hlt]
    rw [step_of_command hq, runWord_of_ok hw]
    rfl

/-- Settles O12: the default configuration is a lawful one. -/
theorem resetMeetsInvariant : Obligations.ResetMeetsInvariant :=
  ⟨inv_resetWith (by decide), fun _ h => inv_resetWith h⟩
end

section
/-! SUPPORT. All that a command can answer, said once over the 34 commands: it raises and leaves its start but for the error
registers (`AMARX` after an abort), or it completes with the writes of its family. -/

open Sys2Proof Sys2Proof.Machine

namespace Sys2Proof.Machine

/-! ### The fields of a command's word -/

/-- The opcode of a command, bits 7:0 of its word (30_encoding.md R80). -/
def opcode (i : Instr) : Nat := (commandWord i).toNat % 256

/-- The argument of a command, its word above bit 7 (30_encoding.md R80). -/
def argument (i : Instr) : Nat := (commandWord i).toNat / 256

theorem toNat_cmdWord (op arg : Byte) : (cmdWord op arg).toNat = 256 * arg.toNat + op.toNat := by
  have hop := op.isLt
  change (((0 : Half) ++ arg) ++ op : BitVec (16 + 8 + 8)).toNat = _
  rw [BitVec.toNat_append, BitVec.toNat_append, ← Nat.shiftLeft_add_eq_or_of_lt hop]
  simp [Nat.shiftLeft_eq, Nat.mul_comm]

/-- The opcode of a command whose word is built from `op` (30_encoding.md R81). -/
theorem opcode_of_encode {i : Instr} {op arg : Byte} (h : encode i = some (cmdWord op arg)) : opcode i = op.toNat := by
  have hop := op.isLt
  simp only [opcode, commandWord, h, Option.getD_some, toNat_cmdWord]
  omega

/-- The argument of a command whose word is built from `arg` (30_encoding.md R81). -/
theorem argument_of_encode {i : Instr} {op arg : Byte} (h : encode i = some (cmdWord op arg)) :
    argument i = arg.toNat := by
  have hop := op.isLt
  simp only [argument, commandWord, h, Option.getD_some, toNat_cmdWord]
  omega

/-! ### What a command that completes has written -/

/-- `u` is what a command can have written on `s` when it completes, before `STATUS`: one case for each family. -/
inductive Completed : Instr → State → State → Prop where
  | nop (s : State) : Completed .nop s { s with flg := 0 }
  | srst (s : State) : Completed .srst s (softReset s)
  | ob2ib (s : State) (b : Buf) : Completed .ob2ib s { s with ibuf := b, ilen := s.olen, cur := 0, olen := 0, flg := 0 }
  | rb2ib (c : BitVec 8) (s : State) (b : Buf) (n : Half) :
    Completed (.rb2ib c) s { abortCtx s c.toNat with ibuf := b, ilen := n, cur := 0, flg := 0 }
  /-- Decode commands that read the window and move the cursor. -/
  | window {i : Instr} (s : State) (d : Decoded)
    (h : opcode i ∈ [0x10, 0x11, 0x19, 0x20, 0x30, 0x40, 0x41, 0x42, 0x43, 0x50]) : Completed i s (writeDecoded s d)
  /-- Decode commands that take their operand from `A` and keep the cursor. -/
  | operand {i : Instr} (s : State) (d : Decoded) (h : opcode i ∈ [0x14, 0x16, 0x17, 0x18]) (hcur : d.cur = s.cur.toNat) :
    Completed i s (writeDecoded s d)
  | flexdec (s : State) (d : Decoded) (tbl : Vector TlvEntry 64) (n : BitVec 7) :
    Completed .flexdec s { writeDecoded s d with tlv := tbl, tlvn := n }
  /-- Encode commands. -/
  | encoded {i : Instr} (s : State) (b : Buf) (n : Half)
    (h : opcode i ∈ [0x12, 0x13, 0x15, 0x1A, 0x21, 0x23, 0x31, 0x44, 0x45, 0x46, 0x47]) :
    Completed i s { s with obuf := b, olen := n, flg := 0 }
  /-- The two commands of the fragmenter. -/
  | fragmented {i : Instr} (s : State) (b : Buf) (n : Half) (x : Word) (tx : Frag) (h : opcode i ∈ [0x53, 0x54]) :
    Completed i s { s with obuf := b, olen := n, flg := x, tx := tx }
  | amarx (c : BitVec 8) (s : State) (x : Ctx) (d : Decoded) :
    Completed (.amarx c) s (writeDecoded (setCtx s c.toNat x) d)
  | amaabt (c : BitVec 8) (s : State) : Completed (.amaabt c) s { abortCtx s c.toNat with flg := 0 }

/-- `t` is what the command `i` can answer on `s` (10_state.md R22): a raise, which leaves `s` but for the error registers, or
`s` with one context aborted for `AMARX` (44_ama.md R228); or completion. -/
inductive Answer (i : Instr) (s : State) : State → Prop where
  | raised (r : Raise) : Answer i s (takeRaise s (commandWord i) r)
  | aborted (c : BitVec 8) (r : Raise) (h : i = .amarx c) : Answer i s (takeRaise (abortCtx s c.toNat) (commandWord i) r)
  | completed {u : State} (h : Completed i s u) : Answer i s (finish u)

theorem answer_of_run {i : Instr} {s t : State} {body : Result State} (h : run i s body = .next t)
    (hc : ∀ u, body = .ok u → Completed i s u) : Answer i s t := by
  rcases run_cases h with ⟨r, -, rfl⟩ | ⟨u, -, hu, rfl⟩
  · exact .raised r
  · exact .completed (hc u hu)

theorem answer_of_runDecode {i : Instr} {s t : State} {body : Result Decoded} (h : runDecode i s body = .next t)
    (hc : ∀ d, body = .ok d → Completed i s (writeDecoded s d)) : Answer i s t := by
  rcases runDecode_cases h with ⟨r, -, rfl⟩ | ⟨d, -, hd, rfl⟩
  · exact .raised r
  · exact .completed (hc d hd)

theorem answer_of_runEncode {i : Instr} {s t : State} {body : Result (List Byte)} (h : runEncode i s body = .next t)
    (hop : opcode i ∈ [0x12, 0x13, 0x15, 0x1A, 0x21, 0x23, 0x31, 0x44, 0x45, 0x46, 0x47]) : Answer i s t := by
  rcases runEncode_cases h with ⟨r, -, rfl⟩ | ⟨bs, -, -, -, rfl⟩
  · exact .raised r
  · exact .completed (.encoded s _ _ hop)

/-- `Append` and `FLG` are all that `writeEncoded` writes (00_scope.md R13). -/
theorem writeEncoded_ok {s u : State} {bs : List Byte} {x : FlagSet} (h : writeEncoded s bs x = .ok u) :
    u = { s with
      obuf := bufWrite s.obuf s.olen.toNat bs, olen := BitVec.ofNat 16 (s.olen.toNat + bs.length), flg := flagWord x } := by
  unfold writeEncoded at h
  by_cases hr : HasRoom s bs.length
  · rw [append_ok hr] at h
    exact (Except.ok.inj h).symm
  · rw [append_full hr] at h
    cases h

theorem answer_nop {s t : State} (h : execNop s = .next t) : Answer .nop s t :=
  answer_of_run h fun _ hu => by cases hu; exact .nop s

theorem answer_srst {s t : State} (h : execSrst s = .next t) : Answer .srst s t :=
  answer_of_run h fun _ hu => by cases hu; exact .srst s

theorem answer_ob2ib {s t : State} (h : execOb2ib s = .next t) : Answer .ob2ib s t := by
  refine answer_of_run h fun u hu => ?_
  simp only [raiseIf_bind] at hu
  split at hu
  · cases hu
  · split at hu
    · cases hu
    · cases hu
      exact .ob2ib s _

theorem answer_rb2ib {c : BitVec 8} {s t : State} (h : execRb2ib c s = .next t) : Answer (.rb2ib c) s t := by
  refine answer_of_run h fun u hu => ?_
  simp only [raiseIf_bind] at hu
  split at hu
  · cases hu
  · split at hu
    · cases hu
    · cases hu
      exact .rb2ib c s _ _

theorem answer_bfext {w : BitVec 8} {s t : State} (h : execBfext w s = .next t) : Answer (.bfext w) s t := by
  refine answer_of_runDecode h fun d hd => .operand s d (by rw [opcode_of_encode rfl]; decide) ?_
  simp only [raiseIf_bind] at hd
  split at hd
  · cases hd
  · cases hd
    rfl

theorem answer_bfins {w : BitVec 8} {s t : State} (h : execBfins w s = .next t) : Answer (.bfins w) s t := by
  refine answer_of_run h fun u hu => ?_
  simp only [raiseIf_bind] at hu
  split at hu
  · cases hu
  · split at hu
    · cases hu
    · cases hu
      exact .encoded s _ _ (by rw [opcode_of_encode rfl]; decide)

theorem answer_twoc {n : BitVec 8} {s t : State} (h : execTwoc n s = .next t) : Answer (.twoc n) s t := by
  refine answer_of_runDecode h fun d hd => .operand s d (by rw [opcode_of_encode rfl]; decide) ?_
  simp only [raiseIf_bind] at hd
  split at hd
  · cases hd
  · cases hd
    rfl

theorem answer_idsplit {s t : State} (h : execIdsplit s = .next t) : Answer .idsplit s t :=
  answer_of_runDecode h fun d hd => .operand s d (by decide) (by cases hd; rfl)

theorem answer_idjoin {s t : State} (h : execIdjoin s = .next t) : Answer .idjoin s t := by
  refine answer_of_runDecode h fun d hd => .operand s d (by decide) ?_
  simp only [raiseIf_bind] at hd
  split at hd
  · cases hd
  · split at hd
    · cases hd
    · cases hd
      rfl

theorem answer_flexdec {s t : State} (h : execFlexdec s = .next t) : Answer .flexdec s t := by
  refine answer_of_run h fun u hu => ?_
  unfold flexDecode at hu
  simp only [raiseIf_bind] at hu
  split at hu
  · cases hu
  · split at hu
    · cases hu
    · obtain ⟨acc, -, hacc⟩ := (Result.bind_ok_iff _ _ _).mp hu
      cases hacc
      exact .flexdec s _ _ _

/-- The fragmenter's writes after an encoding (44_ama.md R232, R233). -/
theorem completed_fragmented {i : Instr} {s u : State} {bs : List Byte} {x : FlagSet} {g : State → Frag}
    (hop : opcode i ∈ [0x53, 0x54]) (h : (writeEncoded s bs x >>= fun t => pure { t with tx := g t }) = .ok u) :
    Completed i s u := by
  obtain ⟨t, ht, hu⟩ := (Result.bind_ok_iff _ _ _).mp h
  cases writeEncoded_ok ht
  cases hu
  exact .fragmented s _ _ _ _ hop

theorem answer_amatxi {s t : State} (h : execAmatxi s = .next t) : Answer .amatxi s t := by
  refine answer_of_run h fun u hu => ?_
  simp only [raiseIf_bind] at hu
  split at hu
  · cases hu
  · split at hu
    · cases hu
    · split at hu
      · cases hu
      · split at hu
        · cases hu
        · exact completed_fragmented (by decide) hu

theorem answer_amatxc {s t : State} (h : execAmatxc s = .next t) : Answer .amatxc s t := by
  refine answer_of_run h fun u hu => ?_
  simp only [raiseIf_bind] at hu
  split at hu
  · cases hu
  · exact completed_fragmented (by decide) hu

theorem answer_amaabt {c : BitVec 8} {s t : State} (h : execAmaabt c s = .next t) : Answer (.amaabt c) s t :=
  answer_of_run h fun _ hu => by cases hu; exact .amaabt c s

/-- `AMARX` raises in the prologue, raises after it with its context aborted (44_ama.md R228), or completes. -/
theorem answer_amarx {c : BitVec 8} {s t : State} (h : execAmarx c s = .next t) : Answer (.amarx c) s t := by
  rcases runCommand_cases h with ⟨r, -, rfl⟩ | ⟨r, -, -, rfl⟩ | ⟨u, -, hu, rfl⟩
  · exact .raised r
  · exact .aborted c r rfl
  · obtain ⟨fr, -, hfr⟩ := (Result.bind_ok_iff _ _ _).mp hu
    split at hfr
    · obtain ⟨x, -, hx⟩ := (Result.bind_ok_iff _ _ _).mp hfr
      cases hx
      exact .completed (.amarx c s x _)
    · obtain ⟨x, -, hx⟩ := (Result.bind_ok_iff _ _ _).mp hfr
      cases hx
      exact .completed (.amarx c s x _)

/-- All that `exec` can answer: a wire-byte row answers no state (30_encoding.md R106). -/
theorem exec_answer {i : Instr} {s t : State} (h : exec i s = .next t) : Answer i s t := by
  cases i with
  | nop => exact answer_nop h
  | srst => exact answer_srst h
  | ob2ib => exact answer_ob2ib h
  | rb2ib c => exact answer_rb2ib h
  | vwrd2 => exact answer_of_runDecode h fun d _ => .window s d (by decide)
  | vwrd3 => exact answer_of_runDecode h fun d _ => .window s d (by decide)
  | vwwr2 => exact answer_of_runEncode h (by decide)
  | vwwr3 => exact answer_of_runEncode h (by decide)
  | bfext w => exact answer_bfext h
  | bfins w => exact answer_bfins h
  | twoc n => exact answer_twoc h
  | idsplit => exact answer_idsplit h
  | idjoin => exact answer_idjoin h
  | rdbe n => exact answer_of_runDecode h fun d _ => .window s d (by rw [opcode_of_encode rfl]; decide)
  | wrbe n => exact answer_of_runEncode h (by rw [opcode_of_encode rfl]; decide)
  | tlvrd => exact answer_of_runDecode h fun d _ => .window s d (by decide)
  | tlvwr => exact answer_of_runEncode h (by decide)
  | flexdec => exact answer_flexdec h
  | flexenc => exact answer_of_runEncode h (by decide)
  | asldec => exact answer_of_runDecode h fun d _ => .window s d (by decide)
  | aslenc => exact answer_of_runEncode h (by decide)
  | lldec => exact answer_of_runDecode h fun d _ => .window s d (by decide)
  | nldec => exact answer_of_runDecode h fun d _ => .window s d (by decide)
  | pldec => exact answer_of_runDecode h fun d _ => .window s d (by decide)
  | framedec => exact answer_of_runDecode h fun d _ => .window s d (by decide)
  | llenc => exact answer_of_runEncode h (by decide)
  | nlenc => exact answer_of_runEncode h (by decide)
  | plenc => exact answer_of_runEncode h (by decide)
  | frameenc => exact answer_of_runEncode h (by decide)
  | amahdr => exact answer_of_runDecode h fun d _ => .window s d (by decide)
  | amarx c => exact answer_amarx h
  | amaabt c => exact answer_amaabt h
  | amatxi => exact answer_amatxi h
  | amatxc => exact answer_amatxc h
  | llFixed _ | nlByte _ | plByte _ | flexTlvByte _ | aslFlags _ | aslVersion _ | aslStatus _ | aslOpaddr _ | amaHdr _
  | vw2Lead _ | vw3Lead _ => cases h

end Sys2Proof.Machine
end

section
/-! SUPPORT. The statements about every command: that it completes or raises, what becomes of the error registers, and who
writes which piece of state. -/

open Sys2Proof Sys2Proof.Machine

namespace Sys2Proof.Machine

/-! ### Every command answers -/

theorem run_next (i : Instr) (s : State) (body : Result State) : ∃ t, run i s body = .next t := runCommand_next i s id body

theorem runDecode_next (i : Instr) (s : State) (body : Result Decoded) : ∃ t, runDecode i s body = .next t :=
  run_next i s _

theorem runEncode_next (i : Instr) (s : State) (body : Result (List Byte)) : ∃ t, runEncode i s body = .next t :=
  run_next i s _

/-- A command answers a next state, in every state (70_reset_and_hazards.md R302). -/
theorem exec_next {i : Instr} (s : State) (h : WellFormed i) : ∃ t, exec i s = .next t := by
  cases i with
  | nop | srst | ob2ib | rb2ib _ | bfins _ | flexdec | amaabt _ | amatxi | amatxc =>
    dsimp only [exec]
    exact run_next _ _ _
  | vwrd2 | vwrd3 | bfext _ | twoc _ | idsplit | idjoin | rdbe _ | tlvrd | asldec | lldec | nldec | pldec | framedec
  | amahdr =>
    dsimp only [exec]
    exact runDecode_next _ _ _
  | vwwr2 | vwwr3 | wrbe _ | tlvwr | flexenc | aslenc | llenc | nlenc | plenc | frameenc =>
    dsimp only [exec]
    exact runEncode_next _ _ _
  | amarx _ =>
    dsimp only [exec]
    exact runCommand_next _ _ _ _
  | llFixed _ | nlByte _ | plByte _ | flexTlvByte _ | aslFlags _ | aslVersion _ | aslStatus _ | aslOpaddr _ | amaHdr _
  | vw2Lead _ | vw3Lead _ => cases h

/-! ### The error registers -/

/-- The error registers but for `STATUS` (10_state.md R32, R33) are those of `s`. -/
structure KeepsErrors (s t : State) : Prop where
  cause : t.cause = s.cause := by simp
  einfo : t.einfo = s.einfo := by simp
  ecmd : t.ecmd = s.ecmd := by simp
  esticky : t.esticky = s.esticky := by simp

/-- A command that completes, the soft reset aside, keeps the error registers (10_state.md R32, R33). -/
theorem Completed.keepsErrors {i : Instr} {s u : State} (h : Completed i s u) (hi : i ≠ .srst) : KeepsErrors s u := by
  cases h with
  | srst => exact absurd rfl hi
  | nop | ob2ib | rb2ib | window | operand | flexdec | encoded | fragmented | amarx | amaabt => exact {}

theorem statusDone_ne_statusErr : statusDone ≠ statusErr := by decide

/-- A command completes or raises (10_state.md R22, R31). -/
theorem Answer.status {i : Instr} {s t : State} (h : Answer i s t) : t.status = statusDone ∨ t.status = statusErr := by
  cases h with
  | raised | aborted => exact .inr rfl
  | completed => exact .inl rfl

/-- An answer with `DONE` set is a completion, which keeps the error registers. -/
theorem Answer.keepsErrors {i : Instr} {s t : State} (h : Answer i s t) (hd : t.status = statusDone) (hi : i ≠ .srst) :
    KeepsErrors s t := by
  cases h with
  | raised | aborted => exact absurd hd.symm statusDone_ne_statusErr
  | completed hu =>
    obtain ⟨hcause, heinfo, hecmd, hesticky⟩ := hu.keepsErrors hi
    exact ⟨hcause, heinfo, hecmd, hesticky⟩

/-- `ESTICKY` after an answer: a raise sets the bit of its cause, a completion keeps all (10_state.md R33). -/
theorem Answer.esticky {i : Instr} {s t : State} (h : Answer i s t) (hi : i ≠ .srst) :
    if t.status = statusErr then t.esticky = s.esticky ||| (1#32 <<< t.cause.toNat) else t.esticky = s.esticky := by
  cases h with
  | raised | aborted => exact (if_pos rfl).mpr rfl
  | completed hu => exact (if_neg statusDone_ne_statusErr).mpr (hu.keepsErrors hi).esticky

/-! ### Who writes what -/

/-- What a command with opcode `op` and argument `arg` leaves as it was (10_state.md R23, R24, R26, R34, R36 to R39;
44_ama.md R224): for each piece of state, the opcodes that may write it. -/
structure WritesOnlyNamed (op arg : Nat) (s t : State) : Prop where
  params : t.params = s.params := by simp
  hostQueue : t.hostQueue = s.hostQueue := by simp
  hostData : t.hostData = s.hostData := by simp
  a : t.a = s.a := by simp
  result : op ∉ [0x10, 0x11, 0x14, 0x16, 0x17, 0x18, 0x19, 0x20, 0x22, 0x30, 0x40, 0x41, 0x42, 0x43, 0x50, 0x51] →
    t.f = s.f ∧ t.pres = s.pres := by exact fun _ => ⟨rfl, rfl⟩
  cur : op ∉ [0x02, 0x03, 0x10, 0x11, 0x19, 0x20, 0x22, 0x30, 0x40, 0x41, 0x42, 0x43, 0x50, 0x51] → t.cur = s.cur := by
    exact fun _ => rfl
  table : op ≠ 0x22 → t.tlv = s.tlv ∧ t.tlvn = s.tlvn := by simp
  tx : op ∉ [0x53, 0x54] → t.tx = s.tx := by simp
  input : op ∉ [0x02, 0x03] → t.ibuf = s.ibuf ∧ t.ilen = s.ilen := by simp
  obuf : op ∉ [0x12, 0x13, 0x15, 0x1A, 0x21, 0x23, 0x31, 0x44, 0x45, 0x46, 0x47, 0x53, 0x54] → t.obuf = s.obuf := by simp
  olen : op ∉ [0x02, 0x12, 0x13, 0x15, 0x1A, 0x21, 0x23, 0x31, 0x44, 0x45, 0x46, 0x47, 0x53, 0x54] → t.olen = s.olen := by
    simp
  ctxs : op ∉ [0x03, 0x51, 0x52] → t.ctxs = s.ctxs := by simp
  ctxCount : t.ctxs.length = s.ctxs.length := by simp
  otherCtxs : ∀ d, d ≠ arg → t.ctxs[d]? = s.ctxs[d]? := by simp

/-- The opcodes of a family may write a piece: nothing is claimed of it. -/
theorem claim_of_named {op : Nat} {family named : List Nat} {P : Prop} (h : op ∈ family) (hsub : family ⊆ named) :
    op ∉ named → P := fun hn => absurd (hsub h) hn

/-- Replacing the context that the argument names leaves every other one (44_ama.md R224). -/
theorem getElem?_set_of_argument {i : Instr} {op c : Byte} (hw : encode i = some (cmdWord op c)) (l : List Ctx) (x : Ctx)
    (d : Nat) (h : d ≠ argument i) : (l.set c.toNat x)[d]? = l[d]? :=
  List.getElem?_set_ne (Ne.symm (argument_of_encode hw ▸ h))

theorem opcode_rb2ib (c : BitVec 8) : opcode (.rb2ib c) ∈ [0x03] := by rw [opcode_of_encode rfl]; decide

theorem opcode_amarx (c : BitVec 8) : opcode (.amarx c) ∈ [0x51] := by rw [opcode_of_encode rfl]; decide

theorem opcode_amaabt (c : BitVec 8) : opcode (.amaabt c) ∈ [0x52] := by rw [opcode_of_encode rfl]; decide

/-- Each family's completion: the pieces listed are those that the family writes. -/
theorem Completed.writesOnlyNamed {i : Instr} {s u : State} (h : Completed i s u) (hi : i ≠ .srst) :
    WritesOnlyNamed (opcode i) (argument i) s u := by
  cases h with
  | srst => exact absurd rfl hi
  | nop => exact {}
  | ob2ib =>
    have hop : opcode .ob2ib ∈ [0x02] := by decide
    exact {
      cur := claim_of_named hop (by decide), input := claim_of_named hop (by decide)
      olen := claim_of_named hop (by decide) }
  | rb2ib c =>
    have hop := opcode_rb2ib c
    exact {
      cur := claim_of_named hop (by decide), input := claim_of_named hop (by decide)
      ctxs := claim_of_named hop (by decide), otherCtxs := getElem?_set_of_argument rfl _ _ }
  | window _ d hop => exact { result := claim_of_named hop (by decide), cur := claim_of_named hop (by decide) }
  | operand _ d hop hcur =>
    exact { result := claim_of_named hop (by decide), cur := fun _ => by simp [hcur] }
  | flexdec =>
    have hop : opcode .flexdec ∈ [0x22] := by decide
    exact {
      result := claim_of_named hop (by decide), cur := claim_of_named hop (by decide)
      table := fun hn => absurd (List.mem_singleton.mp hop) hn }
  | encoded _ b n hop => exact { obuf := claim_of_named hop (by decide), olen := claim_of_named hop (by decide) }
  | fragmented _ b n x tx hop =>
    exact {
      tx := claim_of_named hop (by decide), obuf := claim_of_named hop (by decide)
      olen := claim_of_named hop (by decide) }
  | amarx c =>
    have hop := opcode_amarx c
    exact {
      result := claim_of_named hop (by decide), cur := claim_of_named hop (by decide)
      ctxs := claim_of_named hop (by decide), otherCtxs := by simpa using getElem?_set_of_argument rfl _ _ }
  | amaabt c =>
    exact { ctxs := claim_of_named (opcode_amaabt c) (by decide), otherCtxs := getElem?_set_of_argument rfl _ _ }

/-- A raise writes no piece of state (60_exceptions.md R270) but the context that `AMARX` aborts (44_ama.md R228). -/
theorem Answer.writesOnlyNamed {i : Instr} {s t : State} (h : Answer i s t) (hi : i ≠ .srst) :
    WritesOnlyNamed (opcode i) (argument i) s t := by
  cases h with
  | raised => exact {}
  | aborted c r hc =>
    subst hc
    exact { ctxs := claim_of_named (opcode_amarx c) (by decide), otherCtxs := getElem?_set_of_argument rfl _ _ }
  | completed hu =>
    have hw := hu.writesOnlyNamed hi
    exact { hw with }

end Sys2Proof.Machine

/-- Settles O9: by the answers of a command, whose family lemma says that none but the soft reset clears a bit. -/
theorem stickyErrorRecord : Obligations.StickyErrorRecord := by
  refine ⟨fun s m => ⟨rfl, rfl, fun k hk => ?_⟩, fun w s t h hw => ?_, fun s => ⟨rfl, ?_⟩⟩
  · change (s.esticky &&& ~~~m).getLsbD k = _
    simp [hk]
  · cases hd : decode w with
    | error e =>
      rw [runWord_of_error hd] at h
      cases h
      exact (if_pos rfl).mpr rfl
    | ok i =>
      rw [runWord_of_ok hd] at h
      exact (exec_answer h).esticky fun hi => hw (by rw [hd, hi])
  · have hp : prologue .srst s = .ok () := (prologue_ok_iff _ _).mpr ⟨rfl, nofun, nofun⟩
    exact ⟨_, run_completes hp rfl, rfl⟩

/-- Settles O16: a command answers a next state, and that answer is a raise or a completion. -/
theorem commandCompletesOrRaises : Obligations.CommandCompletesOrRaises := by
  intro i s hwf
  obtain ⟨t, ht⟩ := exec_next s hwf
  refine ⟨t, ht, (exec_answer ht).status, fun hd hi => ?_⟩
  obtain ⟨hcause, heinfo, hecmd, -⟩ := (exec_answer ht).keepsErrors hd hi
  exact ⟨hcause, heinfo, hecmd⟩

/-- Settles O19: by the pieces that each family of commands writes. -/
theorem stateWrittenOnlyByItsCommands : Obligations.StateWrittenOnlyByItsCommands := by
  intro i s t h hi
  obtain ⟨params, hostQueue, hostData, a, result, cur, table, tx, input, obuf, olen, ctxs, ctxCount, otherCtxs⟩ :=
    (exec_answer h).writesOnlyNamed hi
  exact ⟨params, hostQueue, hostData, a, result, cur, table, tx, input, obuf, olen, ctxs, ctxCount, otherCtxs⟩
end

section
/-! SUPPORT. The buffers at the host port (20_memory.md R60, R67): what an access inside a space does, what one outside does,
and which bytes a write leaves as they were. -/

open Sys2Proof Sys2Proof.Machine

namespace Sys2Proof.Machine

/-! ### Reads of the host -/

theorem hostBufRead_ibuf {s : State} {a : Nat} (h : a < s.params.ibufSize) : hostBufRead s .ibuf a = ibufByte s a :=
  if_pos h

theorem hostBufRead_obuf {s : State} {a : Nat} (h : a < s.params.obufSize) : hostBufRead s .obuf a = obufByte s a :=
  if_pos h

theorem hostBufRead_rbuf {s : State} {c a : Nat} {x : Ctx} (hc : c < s.params.amaNctx) (ha : a < s.params.rbufSize)
    (hx : s.ctxs[c]? = some x) : hostBufRead s (.rbuf c) a = bufByte (.rbuf c) x.rbuf a := by
  rw [← ctxAt_of_getElem? hx]
  exact if_pos ⟨hc, ha⟩

theorem hostBufRead_ibuf_outside {s : State} {a : Nat} (h : s.params.ibufSize ≤ a) : hostBufRead s .ibuf a = 0 :=
  if_neg (Nat.not_lt.mpr h)

theorem hostBufRead_obuf_outside {s : State} {a : Nat} (h : s.params.obufSize ≤ a) : hostBufRead s .obuf a = 0 :=
  if_neg (Nat.not_lt.mpr h)

theorem hostBufRead_rbuf_outside {s : State} {c a : Nat} (h : s.params.amaNctx ≤ c ∨ s.params.rbufSize ≤ a) :
    hostBufRead s (.rbuf c) a = 0 :=
  if_neg (by omega)

/-! ### Writes of the host -/

theorem hostBufWrite_ibuf {s : State} {a : Nat} (v : Byte) (h : a < s.params.ibufSize) :
    hostBufWrite s .ibuf a v = { s with ibuf := bufSet s.ibuf a v } :=
  if_pos h

theorem hostBufWrite_obuf {s : State} {a : Nat} (v : Byte) (h : a < s.params.obufSize) :
    hostBufWrite s .obuf a v = { s with obuf := bufSet s.obuf a v } :=
  if_pos h

theorem hostBufWrite_ibuf_outside {s : State} {a : Nat} (v : Byte) (h : s.params.ibufSize ≤ a) :
    hostBufWrite s .ibuf a v = s :=
  if_neg (Nat.not_lt.mpr h)

theorem hostBufWrite_obuf_outside {s : State} {a : Nat} (v : Byte) (h : s.params.obufSize ≤ a) :
    hostBufWrite s .obuf a v = s :=
  if_neg (Nat.not_lt.mpr h)

/-- The host only reads `RBUF[c]` (20_memory.md R60). -/
@[simp] theorem hostBufWrite_rbuf (s : State) (c a : Nat) (v : Byte) : hostBufWrite s (.rbuf c) a v = s := rfl

/-! ### Reading after writing -/

theorem hostBufRead_hostBufWrite_ibuf_same {s : State} {a : Nat} (v : Byte) (h : a < s.params.ibufSize) :
    hostBufRead (hostBufWrite s .ibuf a v) .ibuf a = v := by
  rw [hostBufWrite_ibuf v h]
  exact Eq.trans (hostBufRead_ibuf h) (bufByte_bufSet_same _ _ _ _)

theorem hostBufRead_hostBufWrite_obuf_same {s : State} {a : Nat} (v : Byte) (h : a < s.params.obufSize) :
    hostBufRead (hostBufWrite s .obuf a v) .obuf a = v := by
  rw [hostBufWrite_obuf v h]
  exact Eq.trans (hostBufRead_obuf h) (bufByte_bufSet_same _ _ _ _)

/-- One byte stored in `IBUF` is seen at its own offset of `IBUF` only. -/
theorem hostBufRead_ibufSet_other (s : State) {a a' : Nat} {b : BufId} (v : Byte) (h : (b, a') ≠ (BufId.ibuf, a)) :
    hostBufRead { s with ibuf := bufSet s.ibuf a v } b a' = hostBufRead s b a' := by
  cases b with
  | ibuf =>
    have ha : a' ≠ a := fun ha => h (by rw [ha])
    simp only [hostBufRead, bufByte_bufSet_other _ _ _ _ _ ha]
  | obuf => rfl
  | rbuf c => rfl

/-- One byte stored in `OBUF` is seen at its own offset of `OBUF` only. -/
theorem hostBufRead_obufSet_other (s : State) {a a' : Nat} {b : BufId} (v : Byte) (h : (b, a') ≠ (BufId.obuf, a)) :
    hostBufRead { s with obuf := bufSet s.obuf a v } b a' = hostBufRead s b a' := by
  cases b with
  | ibuf => rfl
  | obuf =>
    have ha : a' ≠ a := fun ha => h (by rw [ha])
    simp only [hostBufRead, bufByte_bufSet_other _ _ _ _ _ ha]
  | rbuf c => rfl

/-- A host write, inside its space or not, changes what the host reads at the written byte alone. -/
theorem hostBufRead_hostBufWrite_other (s : State) {a a' : Nat} {b b' : BufId} (v : Byte) (h : (b', a') ≠ (b, a)) :
    hostBufRead (hostBufWrite s b a v) b' a' = hostBufRead s b' a' := by
  cases b with
  | ibuf =>
    rcases Nat.lt_or_ge a s.params.ibufSize with ha | ha
    · rw [hostBufWrite_ibuf v ha, hostBufRead_ibufSet_other s v h]
    · rw [hostBufWrite_ibuf_outside v ha]
  | obuf =>
    rcases Nat.lt_or_ge a s.params.obufSize with ha | ha
    · rw [hostBufWrite_obuf v ha, hostBufRead_obufSet_other s v h]
    · rw [hostBufWrite_obuf_outside v ha]
  | rbuf c => rw [hostBufWrite_rbuf]

end Sys2Proof.Machine

/-- Settles O10: each access by the lemma of its space, inside and outside; the bytes that a write leaves as they were by
one lemma for every buffer. -/
theorem hostBufferAccess : Obligations.HostBufferAccess := by
  intro s a v
  refine ⟨hostBufRead_ibuf, hostBufRead_obuf, fun c x hc ha hx => hostBufRead_rbuf hc ha hx, fun h => ?_, fun h => ?_,
    fun h => ?_, fun h => ?_, fun c => ?_⟩
  · exact ⟨hostBufRead_hostBufWrite_ibuf_same v h, by rw [hostBufWrite_ibuf v h],
      fun _ _ hb => hostBufRead_hostBufWrite_other s v hb⟩
  · exact ⟨hostBufRead_hostBufWrite_obuf_same v h, by rw [hostBufWrite_obuf v h],
      fun _ _ hb => hostBufRead_hostBufWrite_other s v hb⟩
  · exact ⟨hostBufWrite_ibuf_outside v h, hostBufRead_ibuf_outside h⟩
  · exact ⟨hostBufWrite_obuf_outside v h, hostBufRead_obuf_outside h⟩
  · exact ⟨hostBufWrite_rbuf s c a v, hostBufRead_rbuf_outside⟩
end

section
/-! SUPPORT. The command table (30_encoding.md R80 to R82, R106), said once by opcode: which commands the decoder answers, with
their words and their rows of mask and match; from it that decode and encode are inverse and which words are illegal. -/

open Sys2Proof Sys2Proof.Machine

namespace Sys2Proof

/-! ### The fields of a word -/

theorem toNat_opOf (w : Word) : (opOf w).toNat = w.toNat % 256 := by
  rw [opOf, toNat_extract, Nat.pow_zero, Nat.div_one]
  rfl

theorem toNat_argOf (w : Word) : (argOf w).toNat = w.toNat / 256 % 256 := toNat_extract w 8 8

theorem zeroOf_eq_zero_iff (w : Word) : zeroOf w = 0 ↔ w.toNat / 65536 = 0 := by
  have hz : (zeroOf w).toNat = w.toNat / 65536 % 65536 := toNat_extract w 16 16
  have hw := w.isLt
  rw [← BitVec.toNat_inj, hz]
  change _ % _ = 0 ↔ _
  omega

/-! ### The masks of the opcode table -/

/-- The mask of a row that leaves `arg` free (30_encoding.md R106). -/
def argMask : Word := 0xFFFF00FF

/-- The mask of a row that is one word (30_encoding.md R106). -/
def fixedMask : Word := 0xFFFFFFFF

theorem opOf_and_argMask (w : Word) : opOf (w &&& argMask) = opOf w := by
  rw [opOf, BitVec.extractLsb'_and]
  exact BitVec.and_allOnes

theorem argOf_and_argMask (w : Word) : argOf (w &&& argMask) = 0 := by
  rw [argOf, BitVec.extractLsb'_and]
  exact BitVec.and_zero

theorem zeroOf_and_argMask (w : Word) : zeroOf (w &&& argMask) = zeroOf w := by
  rw [zeroOf, BitVec.extractLsb'_and]
  exact BitVec.and_allOnes

/-- The words that a row with a free argument selects (30_encoding.md R106). -/
theorem and_argMask_eq_iff (w : Word) (op : Byte) : w &&& argMask = cmdWord op 0 ↔ zeroOf w = 0 ∧ opOf w = op := by
  constructor
  · intro h
    rw [← zeroOf_and_argMask w, ← opOf_and_argMask w, h]
    exact ⟨zeroOf_cmdWord op 0, opOf_cmdWord op 0⟩
  · rintro ⟨hz, rfl⟩
    rw [← cmdWord_opOf_argOf (w &&& argMask) (by rw [zeroOf_and_argMask, hz]), opOf_and_argMask, argOf_and_argMask]

theorem and_fixedMask (w : Word) : w &&& fixedMask = w := BitVec.and_allOnes

/-! ### The table by opcode -/

/-- The opcodes of the commands that take an argument (30_encoding.md R81). -/
def argOps : List Nat := [0x03, 0x14, 0x15, 0x16, 0x19, 0x1A, 0x51, 0x52]

/-- The opcodes of the commands that take none (30_encoding.md R81). -/
def fixedOps : List Nat :=
  [0x00, 0x01, 0x02, 0x10, 0x11, 0x12, 0x13, 0x17, 0x18, 0x20, 0x21, 0x22, 0x23, 0x30, 0x31, 0x40, 0x41, 0x42, 0x43, 0x44,
    0x45, 0x46, 0x47, 0x50, 0x53, 0x54]

theorem decodeOp_of_argOps {op : Byte} (arg : Byte) (h : op.toNat ∈ argOps) :
    ∃ i, decodeOp op arg = .ok i ∧ encode i = some (cmdWord op arg) ∧ maskMatch i = some (argMask, cmdWord op 0) := by
  rw [← (BitVec.ofNat_toNat _ _).trans op.setWidth_eq]
  generalize op.toNat = n at h ⊢
  fin_cases h <;> exact ⟨_, rfl, rfl, rfl⟩

theorem decodeOp_of_fixedOps {op : Byte} (arg : Byte) (h : op.toNat ∈ fixedOps) :
    ∃ i, decodeOp op arg = noArg arg i ∧ encode i = some (cmdWord op 0) ∧ maskMatch i = some (fixedMask, cmdWord op 0) := by
  rw [← (BitVec.ofNat_toNat _ _).trans op.setWidth_eq]
  generalize op.toNat = n at h ⊢
  fin_cases h <;> exact ⟨_, rfl, rfl, rfl⟩

theorem decodeOp_of_unlisted {op : Byte} (arg : Byte) (h : op.toNat ∉ argOps ++ fixedOps) :
    decodeOp op arg = .error .opcode := by
  unfold decodeOp
  generalize op.toNat = n at h ⊢
  split
  case h_35 => rfl
  all_goals exact absurd (by decide) h

theorem noArg_ok_iff (arg : Byte) (i j : Instr) : noArg arg i = .ok j ↔ arg = 0 ∧ i = j := by
  by_cases h : arg = 0
  · rw [noArg, if_pos h, Except.ok.injEq, and_iff_right h]
  · rw [noArg, if_neg h]
    exact iff_of_false nofun fun hj => h hj.1

theorem noArg_error_iff (arg : Byte) (i : Instr) : (∃ e, noArg arg i = .error e) ↔ arg ≠ 0 := by
  by_cases h : arg = 0
  · rw [noArg, if_pos h]
    exact iff_of_false nofun (not_not.mpr h)
  · rw [noArg, if_neg h]
    exact iff_of_true ⟨_, rfl⟩ h

/-- What the table of 30_encoding.md R81 refuses: an opcode that is not in it, or an argument that is not taken (R82). -/
theorem decodeOp_error_iff (op arg : Byte) :
    (∃ e, decodeOp op arg = .error e) ↔ op.toNat ∉ argOps ++ fixedOps ∨ (op.toNat ∉ argOps ∧ arg ≠ 0) := by
  by_cases harg : op.toNat ∈ argOps
  · obtain ⟨i, hi, -⟩ := decodeOp_of_argOps arg harg
    simp [harg, hi]
  · by_cases hfix : op.toNat ∈ fixedOps
    · obtain ⟨i, hi, -⟩ := decodeOp_of_fixedOps arg hfix
      rw [hi, noArg_error_iff]
      simp [harg, hfix]
    · have hun : op.toNat ∉ argOps ++ fixedOps := by simp [harg, hfix]
      exact iff_of_true ⟨_, decodeOp_of_unlisted arg hun⟩ (.inl hun)

/-- The row of a command has one of the two masks, and the word of its opcode for pattern (30_encoding.md R106). -/
theorem maskMatch_cases {i : Instr} {mask pat : Word} (h : maskMatch i = some (mask, pat)) :
    ∃ op, pat = cmdWord op 0 ∧ ((mask = fixedMask ∧ op.toNat ∈ fixedOps) ∨ (mask = argMask ∧ op.toNat ∈ argOps)) := by
  refine ⟨opOf pat, ?_⟩
  cases i with
  | rb2ib _ | bfext _ | bfins _ | twoc _ | rdbe _ | wrbe _ | amarx _ | amaabt _ =>
    cases h
    exact ⟨rfl, .inr ⟨rfl, by decide⟩⟩
  | llFixed _ | nlByte _ | plByte _ | flexTlvByte _ | aslFlags _ | aslVersion _ | aslStatus _ | aslOpaddr _ | amaHdr _
  | vw2Lead _ | vw3Lead _ => cases h
  | _ =>
    cases h
    exact ⟨rfl, .inl ⟨rfl, by decide⟩⟩

/-! ### Decode and encode -/

/-- The encoding laws of every constructor, gathered. -/
theorem Laws.Encoding.statement (i : Instr) : Statement i :=
  Instr.casesOn (motive := Statement) i nop srst ob2ib rb2ib vwrd2 vwrd3 vwwr2 vwwr3 bfext bfins twoc idsplit idjoin
    rdbe wrbe tlvrd tlvwr flexdec flexenc asldec aslenc lldec nldec pldec framedec llenc nlenc plenc frameenc amahdr amarx
    amaabt amatxi amatxc llFixed nlByte plByte flexTlvByte aslFlags aslVersion aslStatus aslOpaddr amaHdr vw2Lead vw3Lead

/-- A command has a word, which decodes to it (30_encoding.md R80, R81). -/
theorem decode_encode {i : Instr} (h : WellFormed i) : ∃ w, encode i = some w ∧ decode w = .ok i := by
  obtain ⟨hsome, hdec⟩ := Laws.Encoding.statement i
  obtain ⟨w, hw⟩ := Option.isSome_iff_exists.mp (hsome.trans h)
  exact ⟨w, hw, (hdec w hw).2⟩

/-- Only a command has a word: a wire-byte row has none (30_encoding.md R106). -/
theorem wellFormed_of_encode {i : Instr} {w : Word} (h : encode i = some w) : WellFormed i := by
  rw [WellFormed, ← (Laws.Encoding.statement i).1, h]
  rfl

theorem decode_of_zeroOf {w : Word} (h : zeroOf w = 0) : decode w = decodeOp (opOf w) (argOf w) := if_neg (not_not.mpr h)

theorem decode_of_zeroOf_ne {w : Word} (h : zeroOf w ≠ 0) : decode w = .error .highBits := if_pos h

/-- A word that decodes is the word of its command, and that command's row selects it (30_encoding.md R81, R106). -/
theorem encode_of_decode {w : Word} {i : Instr} (h : decode w = .ok i) :
    encode i = some w ∧ ∃ mask, maskMatch i = some (mask, w &&& mask) := by
  have hz : zeroOf w = 0 := by
    by_contra hz
    rw [decode_of_zeroOf_ne hz] at h
    cases h
  have hw := cmdWord_opOf_argOf w hz
  rw [decode_of_zeroOf hz] at h
  by_cases harg : (opOf w).toNat ∈ argOps
  · obtain ⟨j, hj, henc, hrow⟩ := decodeOp_of_argOps (argOf w) harg
    obtain rfl : j = i := Except.ok.inj (hj.symm.trans h)
    rw [← (and_argMask_eq_iff w (opOf w)).mpr ⟨hz, rfl⟩] at hrow
    exact ⟨hw ▸ henc, argMask, hrow⟩
  · by_cases hfix : (opOf w).toNat ∈ fixedOps
    · obtain ⟨j, hj, henc, hrow⟩ := decodeOp_of_fixedOps (argOf w) hfix
      rw [hj, noArg_ok_iff] at h
      obtain ⟨h0, rfl⟩ := h
      rw [h0] at hw
      rw [hw] at henc hrow
      exact ⟨henc, fixedMask, by rw [and_fixedMask, hrow]⟩
    · rw [decodeOp_of_unlisted _ (by simp [harg, hfix])] at h
      cases h

/-- The words that are illegal (30_encoding.md R82). -/
theorem decode_error_iff (w : Word) :
    (∃ e, decode w = .error e) ↔
      w.toNat / 65536 ≠ 0 ∨ w.toNat % 256 ∉ argOps ++ fixedOps ∨ (w.toNat % 256 ∉ argOps ∧ w.toNat / 256 % 256 ≠ 0) := by
  have h0 : (argOf w).toNat ≠ 0 ↔ argOf w ≠ 0 := not_congr (BitVec.toNat_inj (y := 0))
  rw [← toNat_opOf, ← toNat_argOf, h0, Ne, ← zeroOf_eq_zero_iff]
  by_cases hz : zeroOf w = 0
  · rw [decode_of_zeroOf hz, decodeOp_error_iff]
    exact (or_iff_right (not_not.mpr hz)).symm
  · exact iff_of_true ⟨_, decode_of_zeroOf_ne hz⟩ (.inl hz)

end Sys2Proof

/-- Settles O2: by the laws of each constructor and by the table read by opcode. -/
theorem commandWordsRoundTrip : Obligations.CommandWordsRoundTrip := by
  refine ⟨fun i hwf => decode_encode hwf, fun w i h => ?_⟩
  obtain ⟨henc, -⟩ := encode_of_decode h
  exact ⟨wellFormed_of_encode henc, henc⟩

/-- Settles O3: the rows have two masks, and the words each selects decode by the table. -/
theorem wordSelectsRowByMask : Obligations.WordSelectsRowByMask := by
  intro w i mask pat hi
  constructor
  · intro h
    obtain ⟨op, rfl, ⟨rfl, hop⟩ | ⟨rfl, hop⟩⟩ := maskMatch_cases hi
    · obtain ⟨j, hj, -, hrow⟩ := decodeOp_of_fixedOps 0 hop
      rw [and_fixedMask] at h
      exact ⟨j, by rw [h, decode_cmdWord, hj, (noArg_ok_iff 0 j j).mpr ⟨rfl, rfl⟩], hrow⟩
    · obtain ⟨hz, rfl⟩ := (and_argMask_eq_iff w op).mp h
      obtain ⟨j, hj, -, hrow⟩ := decodeOp_of_argOps (argOf w) hop
      exact ⟨j, by rw [decode_of_zeroOf hz, hj], hrow⟩
  · rintro ⟨j, hj, hrow⟩
    obtain ⟨-, mask', hrow'⟩ := encode_of_decode hj
    cases hrow.symm.trans hrow'
    rfl

/-- Settles O1: each word by evaluation. -/
theorem knownWordsDecode : Obligations.KnownWordsDecode :=
  ⟨rfl, rfl, rfl, rfl, rfl, rfl, rfl, rfl, rfl, rfl, rfl, rfl⟩

/-- Settles O5: what decodes has a word, and a wire-byte row has none; that each row is refused is its own meaning. -/
theorem wireRowsAreNoCommands : Obligations.WireRowsAreNoCommands := by
  refine ⟨fun w i h => ?_, fun _ _ _ => ⟨rfl, rfl, rfl, rfl, rfl, rfl, rfl, rfl, rfl, rfl, rfl⟩⟩
  obtain ⟨henc, -⟩ := encode_of_decode h
  exact wellFormed_of_encode henc
end

section
/-! SUPPORT. The common prologue (30_encoding.md R83) by opcode and argument, and what a command answers when one of its tests
fails. -/

open Sys2Proof Sys2Proof.Machine

namespace Sys2Proof.Machine

/-! ### The columns of the command table -/

/-- The range that each command states for its argument, by opcode (30_encoding.md R81, R82). -/
def ArgFits (nctx op arg : Nat) : Prop :=
  (op ∈ [0x14, 0x15, 0x16] → 1 ≤ arg ∧ arg ≤ 32) ∧ (op ∈ [0x19, 0x1A] → 1 ≤ arg ∧ arg ≤ 4)
    ∧ (op ∈ [0x03, 0x51, 0x52] → arg < nctx)

/-- Column `I`: the opcodes that perform the input check (30_encoding.md R81). -/
def columnI : List Nat :=
  [0x10, 0x11, 0x14, 0x19, 0x20, 0x21, 0x22, 0x23, 0x30, 0x31, 0x40, 0x41, 0x42, 0x43, 0x45, 0x47, 0x50, 0x51, 0x53, 0x54]

/-- Column `O`: the opcodes that perform the output check (30_encoding.md R81). -/
def columnO : List Nat := [0x12, 0x13, 0x15, 0x1A, 0x21, 0x23, 0x31, 0x44, 0x45, 0x46, 0x47, 0x53, 0x54]

theorem argInRange_iff {i : Instr} (p : Params) (h : WellFormed i) :
    argInRange p i = true ↔ ArgFits p.amaNctx (opcode i) (argument i) := by
  cases i with
  | llFixed _ | nlByte _ | plByte _ | flexTlvByte _ | aslFlags _ | aslVersion _ | aslStatus _ | aslOpaddr _ | amaHdr _
  | vw2Lead _ | vw3Lead _ => cases h
  | _ =>
    rw [opcode_of_encode rfl, argument_of_encode rfl]
    simp [argInRange, ArgFits]

theorem readsIbuf_iff {i : Instr} (h : WellFormed i) : readsIbuf i = true ↔ opcode i ∈ columnI := by
  cases i with
  | llFixed _ | nlByte _ | plByte _ | flexTlvByte _ | aslFlags _ | aslVersion _ | aslStatus _ | aslOpaddr _ | amaHdr _
  | vw2Lead _ | vw3Lead _ => cases h
  | _ =>
    rw [opcode_of_encode rfl]
    simp [readsIbuf, columnI]

theorem writesObuf_iff {i : Instr} (h : WellFormed i) : writesObuf i = true ↔ opcode i ∈ columnO := by
  cases i with
  | llFixed _ | nlByte _ | plByte _ | flexTlvByte _ | aslFlags _ | aslVersion _ | aslStatus _ | aslOpaddr _ | amaHdr _
  | vw2Lead _ | vw3Lead _ => cases h
  | _ =>
    rw [opcode_of_encode rfl]
    simp [writesObuf, columnO]

/-- An argument out of its command's range (30_encoding.md R82). -/
theorem not_argFits_iff (nctx op arg : Nat) :
    ¬ArgFits nctx op arg ↔ (op ∈ [0x14, 0x15, 0x16] ∧ (arg = 0 ∨ 32 < arg)) ∨ (op ∈ [0x19, 0x1A] ∧ (arg = 0 ∨ 4 < arg))
      ∨ (op ∈ [0x03, 0x51, 0x52] ∧ nctx ≤ arg) := by
  have hrange : ∀ n, ¬(1 ≤ arg ∧ arg ≤ n) ↔ arg = 0 ∨ n < arg := by omega
  simp only [ArgFits, not_and_or, Classical.not_imp, hrange, Nat.not_lt]

/-! ### A failing test of the prologue -/

/-- The word of a command has its argument above bit 7 and nothing above that (30_encoding.md R80). -/
theorem argOf_commandWord {i : Instr} (h : WellFormed i) : (argOf (commandWord i)).toNat = argument i := by
  obtain ⟨w, hw, -⟩ := decode_encode h
  obtain ⟨hz, -⟩ := (Laws.Encoding.statement i).2 w hw
  have hlt := (zeroOf_eq_zero_iff w).mp hz
  rw [toNat_argOf, argument, commandWord, hw, Option.getD_some]
  omega

theorem prologue_argument {i : Instr} {s : State} (hwf : WellFormed i)
    (h : ¬ArgFits s.params.amaNctx (opcode i) (argument i)) : prologue i s = raising .badOperand (argument i) := by
  rw [← argInRange_iff s.params hwf, Bool.not_eq_true] at h
  rw [prologue, h, argOf_commandWord hwf]
  rfl

theorem prologue_input {i : Instr} {s : State} (harg : argInRange s.params i = true) (hr : readsIbuf i = true)
    (h : inputOk s = false) : prologue i s = raising .badOperand s.cur.toNat := by
  rw [prologue, harg, hr, h]
  rfl

theorem prologue_output {i : Instr} {s : State} (harg : argInRange s.params i = true)
    (hin : readsIbuf i = true → inputOk s = true) (hw : writesObuf i = true) (h : outputOk s = false) :
    prologue i s = raising .badOperand s.olen.toNat := by
  have hi : (readsIbuf i && !inputOk s) = false := by simpa using hin
  rw [prologue, harg, hi, hw, h]
  rfl

/-- A command is its prologue, then its own pseudocode (30_encoding.md R83). -/
theorem exec_eq_runCommand {i : Instr} (s : State) (h : WellFormed i) :
    ∃ onRaise body, exec i s = runCommand i s onRaise body := by
  cases i with
  | llFixed _ | nlByte _ | plByte _ | flexTlvByte _ | aslFlags _ | aslVersion _ | aslStatus _ | aslOpaddr _ | amaHdr _
  | vw2Lead _ | vw3Lead _ => cases h
  | nop | srst | idsplit | amarx _ | amaabt _ =>
    dsimp only [exec, execNop, execSrst, execIdsplit, execAmarx, execAmaabt, runDecode, run]
    exact ⟨_, _, rfl⟩
  | _ => exact ⟨_, _, rfl⟩

/-- A raise of the prologue is the command's answer, whatever its pseudocode (30_encoding.md R83). -/
theorem exec_of_prologue_raising {i : Instr} {s : State} {c : Cause} {info : Nat} (hwf : WellFormed i)
    (h : prologue i s = raising c info) : ∃ t, exec i s = .next t ∧ Raised s t (commandWord i) c info := by
  obtain ⟨onRaise, body, hrun⟩ := exec_eq_runCommand s hwf
  exact ⟨_, by rw [hrun, runCommand_of_prologue_error onRaise body h], raised_takeRaise s _ c info⟩

end Sys2Proof.Machine

/-- Settles O14: the three tests of the prologue, each failing where those before it pass. -/
theorem prologueRaises : Obligations.PrologueRaises := by
  intro i s hwf
  refine ⟨fun harg => exec_of_prologue_raising hwf (prologue_argument hwf harg), fun harg hin => ?_, fun harg hin hout => ?_⟩
  · obtain ⟨hI, hin⟩ := Classical.not_imp.mp hin
    rw [← inputOk_iff, Bool.not_eq_true] at hin
    exact exec_of_prologue_raising hwf
      (prologue_input ((argInRange_iff s.params hwf).mpr harg) ((readsIbuf_iff hwf).mpr hI) hin)
  · obtain ⟨hO, hout⟩ := Classical.not_imp.mp hout
    rw [← outputOk_iff, Bool.not_eq_true] at hout
    exact exec_of_prologue_raising hwf
      (prologue_output ((argInRange_iff s.params hwf).mpr harg)
        (fun hr => (inputOk_iff s).mpr (hin ((readsIbuf_iff hwf).mp hr))) ((writesObuf_iff hwf).mpr hO) hout)

/-- Settles O4: the table read by opcode says which words decode; an argument out of range fails the prologue's first test. -/
theorem illegalWordsRaise : Obligations.IllegalWordsRaise := by
  intro w s op arg withArg table
  cases hd : decode w with
  | error e =>
    refine (if_pos ((decode_error_iff w).mp ⟨e, hd⟩)).mpr ?_
    exact ⟨_, runWord_of_error hd s, raised_illegalCommand s w⟩
  | ok i =>
    have hlegal : ¬∃ e, decode w = .error e := by simp [hd]
    refine (if_neg (mt (decode_error_iff w).mpr hlegal)).mpr ⟨⟨i, rfl, runWord_of_ok hd s⟩, fun hout => ?_⟩
    obtain ⟨henc, -⟩ := encode_of_decode hd
    have hwf := wellFormed_of_encode henc
    have hword : commandWord i = w := by rw [commandWord, henc, Option.getD_some]
    have harg : argument i = arg := by rw [← argOf_commandWord hwf, hword, toNat_argOf]
    have hfits : ¬ArgFits s.params.amaNctx (opcode i) (argument i) := by
      rw [opcode, hword, harg, not_argFits_iff]
      exact hout
    rw [runWord_of_ok hd, ← hword, ← harg]
    exact exec_of_prologue_raising hwf (prologue_argument hwf hfits)
end

section
/-! SUPPORT. The variable-width fields in a lawful configuration (00_scope.md R9). -/

open Sys2Proof Sys2Proof.Machine

namespace Sys2Proof.Machine

/-- The two tables of widths of a lawful configuration (00_scope.md R9). -/
theorem widths_lawful {p : Params} (h : p.valid = true) :
    (∀ x ∈ p.vw2Width, widthLawful x = true) ∧ ∀ x ∈ p.vw3Width, widthLawful x = true := by
  simp only [Params.valid, Bool.and_eq_true, List.all_eq_true, Vector.mem_toList_iff] at h
  tauto

/-- In a lawful configuration a width class has at least one byte (00_scope.md R9, 30_encoding.md R85). -/
theorem vwWidth_pos {p : Params} {k : VwKind} {c w : Nat} (hv : p.valid = true) (h : vwWidth p k c = some w) : 1 ≤ w := by
  obtain ⟨h2, h3⟩ := widths_lawful hv
  have hlawful : widthLawful (some w) = true := by
    cases k with
    | seq2 => exact h2 _ (Vector.mem_of_getElem? ((Option.getD_eq_iff.mp h).resolve_right (by simp)))
    | addr3 => exact h3 _ (Vector.mem_of_getElem? ((Option.getD_eq_iff.mp h).resolve_right (by simp)))
  simp only [widthLawful, Bool.and_eq_true, decide_eq_true_eq] at hlawful
  exact hlawful.1

/-- What the encoder writes in a lawful configuration is a field of its value (30_encoding.md R87 (a)). -/
theorem vwField_of_encode_valid {p : Params} {k : VwKind} {v : Nat} {bs : List Byte} (hv : p.valid = true)
    (h : vwEncode p k v = .ok bs) : Layout.vwField p k bs v = true := by
  refine vwField_of_encode h fun hnil => ?_
  rcases vwEncode_cases p k v with ⟨he, -⟩ | ⟨w, c, he, -, hw, -⟩
  · rw [h] at he
    cases he
  · have hlen : bs.length = w := by rw [Except.ok.inj (h.symm.trans he), bytesBE_length]
    have hpos := vwWidth_pos hv hw
    rw [hnil, List.length_nil] at hlen
    omega

end Sys2Proof.Machine

/-- Settles O26: what the encoder writes is a field of the value, and a field decodes wherever it stands. -/
theorem varWidthRoundTrip : Obligations.VarWidthRoundTrip := by
  intro s k v p stop bs hv h hb hs
  exact ⟨_, vwDecode_of_field (vwField_of_encode_valid hv h) hb hs⟩
end

section
/-! SUPPORT. The primitive codec commands (40_primitives.md) that move numbers: an argument out of range, the window as the
cursor finds it, variable-width and fixed-width fields, two's complement, command ids. -/

open Sys2Proof Sys2Proof.Machine Sys2Proof.Layout

namespace Sys2Proof.Machine

/-! ### A width or number of bytes out of range -/

/-- A command of 40_primitives.md whose argument is out of its range raises `BadOperand(arg)` (30_encoding.md R82). -/
theorem exec_raises_of_argument {i : Instr} {op arg : Byte} (s : State) (henc : encode i = some (cmdWord op arg))
    (h : (op.toNat ∈ [0x14, 0x15, 0x16] ∧ (arg.toNat = 0 ∨ 32 < arg.toNat))
      ∨ (op.toNat ∈ [0x19, 0x1A] ∧ (arg.toNat = 0 ∨ 4 < arg.toNat))) :
    ∃ t, exec i s = .next t ∧ Raised s t (cmdWord op arg) .badOperand arg.toNat := by
  have hwf := wellFormed_of_encode henc
  have hword : commandWord i = cmdWord op arg := by rw [commandWord, henc, Option.getD_some]
  have hfits : ¬ArgFits s.params.amaNctx (opcode i) (argument i) := by
    rw [opcode_of_encode henc, argument_of_encode henc, not_argFits_iff, ← or_assoc]
    exact .inl h
  rw [← hword, ← argument_of_encode henc]
  exact exec_of_prologue_raising hwf (prologue_argument hwf hfits)

/-! ### After a prologue that passes -/

/-- A command that reads `IBUF` and does not write `OBUF` (30_encoding.md R83 (3)). -/
theorem prologue_ok_of_input {i : Instr} {s : State} (harg : argInRange s.params i = true) (hO : writesObuf i = false)
    (hc : s.cur.toNat ≤ s.ilen.toNat) (hi : s.ilen.toNat ≤ s.params.ibufSize) : prologue i s = .ok () :=
  (prologue_ok_iff i s).mpr ⟨harg, fun _ => (inputOk_iff s).mpr ⟨hc, hi⟩, by simp [hO]⟩

/-- A command that writes `OBUF` and does not read `IBUF` (30_encoding.md R83 (4)). -/
theorem prologue_ok_of_output {i : Instr} {s : State} (harg : argInRange s.params i = true) (hI : readsIbuf i = false)
    (ho : s.olen.toNat ≤ s.params.obufSize) : prologue i s = .ok () :=
  (prologue_ok_iff i s).mpr ⟨harg, by simp [hI], fun _ => (outputOk_iff s).mpr ho⟩

/-- A command that takes its operands from `A` alone makes neither check (30_encoding.md R81, R83). -/
theorem prologue_ok_of_operand {i : Instr} {s : State} (harg : argInRange s.params i = true) (hI : readsIbuf i = false)
    (hO : writesObuf i = false) : prologue i s = .ok () :=
  (prologue_ok_iff i s).mpr ⟨harg, by simp [hI], by simp [hO]⟩

/-- A decode command that completes, by the pieces it reports. -/
theorem runDecode_reports {i : Instr} {s : State} {body : Result Decoded} {fs : Fields} {cur : Nat} {x : FlagSet}
    (h : prologue i s = .ok ()) (hb : body = .ok { fields := fs, cur := cur, flags := x }) :
    ∃ t, runDecode i s body = .next t ∧ DecodedTo s t fs cur (flagWord x) :=
  runDecode_completes (d := ⟨fs, cur, x⟩) h hb

/-! ### The window -/

/-- `TRAIL` says whether bytes are left after the field at the cursor (40_primitives.md R122, R131). -/
theorem trail_of_window {s : State} {bs rest : List Byte} (hw : window s = bs ++ rest) (hc : s.cur.toNat ≤ s.ilen.toNat) :
    decide (s.cur.toNat + bs.length < s.ilen.toNat) = (rest != []) := by
  have hlen := ilen_of_window hw hc
  rw [List.length_append] at hlen
  cases rest with
  | nil => simpa using hlen.le
  | cons b rest =>
    rw [List.length_cons] at hlen
    exact decide_eq_true (by omega)

/-- The bytes at the cursor are the first bytes of the window. -/
theorem ibufBytes_cur {s : State} {bs rest : List Byte} (hw : window s = bs ++ rest) :
    ibufBytes s s.cur.toNat bs.length = bs :=
  ibufBytes_of_window (pre := []) hw

/-- The byte at the cursor is the first byte of the window. -/
theorem ibufByte_cur {s : State} {lead : Byte} {rest : List Byte} (hw : window s = lead :: rest) :
    ibufByte s s.cur.toNat = lead :=
  ibufByte_of_window (pre := []) hw

/-! ### Variable-width reads -/

/-- `VWRD2` and `VWRD3` differ in the pattern alone (40_primitives.md R122, R123). -/
theorem exec_varWidthRead {k : VwKind} {i : Instr} (s : State)
    (h : (k, i) ∈ [(VwKind.seq2, Instr.vwrd2), (VwKind.addr3, Instr.vwrd3)]) :
    exec i s = runDecode i s (vwReadField k s) ∧
      (s.cur.toNat ≤ s.ilen.toNat → s.ilen.toNat ≤ s.params.ibufSize → prologue i s = .ok ()) := by
  simp only [List.mem_cons, Prod.mk.injEq, List.not_mem_nil, or_false] at h
  rcases h with ⟨rfl, rfl⟩ | ⟨rfl, rfl⟩
  · exact ⟨rfl, prologue_ok_of_input rfl rfl⟩
  · exact ⟨rfl, prologue_ok_of_input rfl rfl⟩

theorem vwReadField_of_vwDecode {k : VwKind} {s : State} {x : VwField}
    (h : vwDecode s k s.cur.toNat s.ilen.toNat = .ok x) :
    vwReadField k s = .ok {
      fields := [(0, x.value), (1, x.width), (2, x.code)]
      cur := s.cur.toNat + x.width
      flags := {
        noncanon := !vwCanon s.params k x.value x.width
        trail := decide (s.cur.toNat + x.width < s.ilen.toNat) } } := by
  rw [vwReadField, h]
  rfl

theorem vwReadField_raises {k : VwKind} {s : State} {c : Cause} {n : Nat}
    (h : vwDecode s k s.cur.toNat s.ilen.toNat = raising c n) : vwReadField k s = raising c n := by
  rw [vwReadField, h, raising_bind]

/-- No byte to read the code from (30_encoding.md R85). -/
theorem vwDecode_empty {s : State} {k : VwKind} {p stop : Nat} (h : stop < p + 1) :
    vwDecode s k p stop = raising .malformedField p := by
  rw [vwDecode, need_bind, if_pos h]

/-- A reserved code (30_encoding.md R85). -/
theorem vwDecode_reserved {s : State} {k : VwKind} {p stop : Nat} (h : p + 1 ≤ stop)
    (hcode : vwWidth s.params k ((ibufByte s p).toNat / 2 ^ (8 - vwBits k)) = none) :
    vwDecode s k p stop = raising .invalidDiscriminant p := by
  rw [vwDecode, need_bind, if_neg (Nat.not_lt.mpr h)]
  simp only [hcode]

/-- A field cut short (30_encoding.md R85). -/
theorem vwDecode_cut {s : State} {k : VwKind} {p stop w : Nat} (h : p + 1 ≤ stop)
    (hcode : vwWidth s.params k ((ibufByte s p).toNat / 2 ^ (8 - vwBits k)) = some w) (hcut : stop < p + w) :
    vwDecode s k p stop = raising .malformedField p := by
  rw [vwDecode, need_bind, if_neg (Nat.not_lt.mpr h)]
  simp only [hcode, need_bind, if_pos hcut]

/-! ### Variable-width writes -/

/-- `VWWR2` and `VWWR3` differ in the pattern alone (40_primitives.md R124, R125). -/
theorem exec_varWidthWrite {k : VwKind} {i : Instr} (s : State)
    (h : (k, i) ∈ [(VwKind.seq2, Instr.vwwr2), (VwKind.addr3, Instr.vwwr3)]) :
    exec i s = runEncode i s (vwEncode s.params k (aVal s 0)) ∧
      (s.olen.toNat ≤ s.params.obufSize → prologue i s = .ok ()) := by
  simp only [List.mem_cons, Prod.mk.injEq, List.not_mem_nil, or_false] at h
  rcases h with ⟨rfl, rfl⟩ | ⟨rfl, rfl⟩
  · exact ⟨rfl, prologue_ok_of_output rfl rfl⟩
  · exact ⟨rfl, prologue_ok_of_output rfl rfl⟩

/-! ### Two's complement -/

/-- The top bit of an `n`-bit number says whether it reaches `2^(n-1)`. -/
theorem testBit_top {n u : Nat} (hn : 1 ≤ n) (hu : u < 2 ^ n) : u.testBit (n - 1) = decide (2 ^ (n - 1) ≤ u) := by
  obtain ⟨m, rfl⟩ := Nat.exists_eq_add_of_le' hn
  rw [Nat.add_sub_cancel]
  by_cases h : 2 ^ m ≤ u
  · rw [decide_eq_true h]
    exact Nat.testBit_of_two_pow_le_and_two_pow_add_one_gt h hu
  · rw [decide_eq_false h]
    exact Nat.testBit_eq_false_of_lt (Nat.not_le.mp h)

/-- `sext_n(u)` as 40_primitives.md R128 says it. -/
theorem sext32_eq {n u : Nat} (hn : 1 ≤ n) (hu : u < 2 ^ n) :
    sext32 n u = if u < 2 ^ (n - 1) then u else u + 2 ^ 32 - 2 ^ n := by
  rw [sext32, testBit_top hn hu]
  by_cases h : u < 2 ^ (n - 1)
  · rw [if_pos h, if_neg (by simpa using h)]
  · rw [if_neg h, if_pos (by simpa using h)]

/-! ### Operands as numbers -/

/-- An operand register is below `2^32` (10_state.md R23). -/
theorem aVal_lt (s : State) (i : Fin 4) : aVal s i < 2 ^ 32 := (s.a[i]).isLt

/-- A width whose numbers do not hold an operand register is below 32. -/
theorem lt_of_two_pow_le_aVal {s : State} {i : Fin 4} {n : Nat} (h : 2 ^ n ≤ aVal s i) : n < 32 :=
  (Nat.pow_lt_pow_iff_right (by decide)).mp (Nat.lt_of_le_of_lt h (aVal_lt s i))

/-- An operand register is its number. -/
theorem ofNat_aVal (s : State) (i : Fin 4) : BitVec.ofNat 32 (aVal s i) = s.a[i] := by simp [aVal]

/-- `A[0]` after it is written (10_state.md R23). -/
theorem aVal_set_zero (s : State) (x : Word) : aVal { s with a := s.a.set 0 x } 0 = x.toNat := by simp [aVal]

/-- A present field's register holds its value (10_state.md R24). -/
theorem DecodedTo.f_eq {s t : State} {fs : List (Fin 32 × Nat)} {cur : Nat} {flg : Word} (h : DecodedTo s t fs cur flg)
    {i : Fin 32} {v : Nat} (hv : fs.lookup i = some v) : t.f[i] = BitVec.ofNat 32 v := by
  obtain ⟨-, hf, -⟩ := h
  rw [hf, hv, Option.getD_some]

/-- `IDSPLIT` in every state (40_primitives.md R129). -/
theorem exec_idsplit (s : State) :
    ∃ t, exec .idsplit s = .next t ∧ DecodedTo s t [(0, aVal s 0 / 4), (1, aVal s 0 % 4)] s.cur.toNat 0 := by
  rw [← flagWord_none]
  have hp : prologue .idsplit s = .ok () := prologue_ok_of_operand rfl rfl rfl
  exact runDecode_reports hp rfl

/-- `IDSPLIT` of a composed id gives its parts (40_primitives.md R129, R130). -/
theorem exec_idsplit_of_joined {s u : State} {id opc : Nat} (hopc : opc ≤ 3) (ha : aVal s 0 = 4 * id + opc)
    (h : exec .idsplit s = .next u) : u.f[0] = BitVec.ofNat 32 id ∧ u.f[1] = BitVec.ofNat 32 opc := by
  obtain ⟨t, ht, hdec⟩ := exec_idsplit s
  cases ht.symm.trans h
  have hid : aVal s 0 / 4 = id := by omega
  have hop : aVal s 0 % 4 = opc := by omega
  rw [hid, hop] at hdec
  exact ⟨hdec.f_eq (i := 0) rfl, hdec.f_eq (i := 1) rfl⟩

/-- `IDJOIN` past its two tests (40_primitives.md R130). -/
theorem exec_idjoin_composes {s : State} (hopc : aVal s 1 ≤ 3) (hid : aVal s 0 < 2 ^ 30) :
    ∃ t, exec .idjoin s = .next t ∧ DecodedTo s t [(0, 4 * aVal s 0 + aVal s 1)] s.cur.toNat 0 := by
  rw [← flagWord_none]
  have hp : prologue .idjoin s = .ok () := prologue_ok_of_operand rfl rfl rfl
  refine runDecode_reports hp ?_
  rw [raiseIf_bind, if_neg (by simpa using hopc), raiseIf_bind, if_neg (by simpa using hid)]
  rfl

end Sys2Proof.Machine

/-- Settles O24: what the field's decoder answers on each form of the window, and the decode command around it. -/
theorem varWidthRead : Obligations.VarWidthRead := by
  refine ⟨rfl, rfl, fun s k i hki hc hi => ?_⟩
  obtain ⟨hexec, hp⟩ := exec_varWidthRead s hki
  rw [hexec]
  specialize hp hc hi
  have hlen := window_length s
  refine ⟨fun bs rest v hw hf => ?_, fun hw => ?_, fun lead rest hw hcode => ?_, fun lead rest w hw hcode hcut => ?_⟩
  · have hstop := ilen_of_window hw hc
    rw [List.length_append] at hstop
    have hdec := vwDecode_of_field (stop := s.ilen.toNat) hf (ibufBytes_cur hw) (by omega)
    have hread := vwReadField_of_vwDecode hdec
    simp only [vwCanon_of_field hf, Bool.not_not, trail_of_window hw hc] at hread
    rw [← flagWord_decodeFlags]
    exact runDecode_reports hp hread
  · rw [hw, List.length_nil] at hlen
    exact runDecode_raises hp (vwReadField_raises (vwDecode_empty (by omega)))
  · rw [← ibufByte_cur hw] at hcode
    rw [hw, List.length_cons] at hlen
    exact runDecode_raises hp (vwReadField_raises (vwDecode_reserved (by omega) hcode))
  · rw [← ibufByte_cur hw] at hcode
    have hne : 1 ≤ (window s).length := by rw [hw, List.length_cons]; omega
    exact runDecode_raises hp (vwReadField_raises (vwDecode_cut (by omega) hcode (by omega)))

/-- Settles O25: what the field's encoder answers, and the encode command around it. -/
theorem varWidthWrite : Obligations.VarWidthWrite := by
  refine ⟨rfl, rfl, fun s k i hki => ?_⟩
  obtain ⟨hexec, hp⟩ := exec_varWidthWrite s hki
  rw [hexec]
  refine ⟨fun bs hmin hroom => ?_, fun bs hmin hroom ho => ?_, fun hun ho => ?_⟩
  · exact runEncode_completes (hp (by omega)) (vwEncode_of_minimal hmin) hroom
  · exact runEncode_full (hp ho) (vwEncode_of_minimal hmin) hroom
  · exact runEncode_raises (hp ho) (vwEncode_unencodable hun)

/-- Settles O32: the bytes at the cursor are those of the window. -/
theorem fixedWidthRead : Obligations.FixedWidthRead := by
  refine fun s n => ⟨rfl, fun h => exec_raises_of_argument s rfl (.inr ⟨by decide, h⟩), fun h1 h4 hc hi => ?_⟩
  have hp : prologue (.rdbe n) s = .ok () := prologue_ok_of_input (decide_eq_true ⟨h1, h4⟩) rfl hc hi
  have hlen := window_length s
  refine ⟨fun bs rest hw hn => ?_, fun hcut => runDecode_raises hp ?_⟩
  · have hstop := ilen_of_window hw hc
    rw [List.length_append] at hstop
    rw [← flagWord_decodeFlags, ← trail_of_window hw hc, ← ibufBytes_cur hw, ibufBytes_length, hn]
    exact runDecode_reports hp (by rw [need_bind, if_neg (by omega)]; rfl)
  · rw [need_bind, if_pos (by omega)]

/-- Settles O33: the bytes of a number that fits are the one list of that length with its value. -/
theorem fixedWidthWrite : Obligations.FixedWidthWrite := by
  refine fun s n => ⟨rfl, fun h => exec_raises_of_argument s rfl (.inr ⟨by decide, h⟩), fun h1 h4 ho => ?_⟩
  have hp : prologue (.wrbe n) s = .ok () := prologue_ok_of_output (decide_eq_true ⟨h1, h4⟩) rfl ho
  refine ⟨fun hbig => runEncode_raises hp ?_, fun bs hn hv => ?_⟩
  · have hbits := lt_of_two_pow_le_aVal hbig
    have hlt : n.toNat < 4 := by omega
    rw [raiseIf_bind, if_pos (decide_eq_true ⟨hlt, hbig⟩)]
  · have hfit : aVal s 0 < 2 ^ (8 * n.toNat) := by
      rw [← hv, ← hn, Nat.pow_mul]
      exact beNat_lt bs
    have hbody : (raiseIf (decide (n.toNat < 4 ∧ aVal s 0 ≥ 2 ^ (8 * n.toNat))) .encodingConstraint (aVal s 0) >>=
        fun _ => pure (bytesBE (aVal s 0) n.toNat)) = (.ok bs : Result (List Byte)) := by
      rw [raiseIf_bind, if_neg (by simpa using fun _ => hfit), bytesBE_eq_of_beNat hv hn]
      rfl
    rw [← hn]
    exact ⟨fun hroom => runEncode_completes hp hbody hroom, fun hroom => runEncode_full hp hbody hroom⟩

/-- Settles O29: the top bit of an `n`-bit number is its sign. -/
theorem twosComplement : Obligations.TwosComplement := by
  refine fun s n => ⟨rfl, fun h => exec_raises_of_argument s rfl (.inl ⟨by decide, h⟩), fun h1 h32 => ?_⟩
  have hp : prologue (.twoc n) s = .ok () := prologue_ok_of_operand (decide_eq_true ⟨h1, h32⟩) rfl rfl
  refine ⟨fun hfit => ?_, fun hbig => runDecode_raises hp ?_⟩
  · rw [← sext32_eq h1 hfit, ← flagWord_none]
    refine runDecode_reports hp ?_
    rw [raiseIf_bind, if_neg (by simpa using fun _ => hfit)]
    rfl
  · rw [raiseIf_bind, if_pos (decide_eq_true ⟨lt_of_two_pow_le_aVal hbig, hbig⟩)]

/-- Settles O30: `IDSPLIT` has no raise. -/
theorem idSplit : Obligations.IdSplit := ⟨rfl, exec_idsplit⟩

/-- Settles O31: the two tests in order; the composed id is below `2^32`, so that the register holds it whole. -/
theorem idJoin : Obligations.IdJoin := by
  refine ⟨rfl, fun s => ?_⟩
  have hp : prologue .idjoin s = .ok () := prologue_ok_of_operand rfl rfl rfl
  refine ⟨fun hopc => runDecode_raises hp ?_, fun hopc hid => runDecode_raises hp ?_, fun hopc hid => ?_⟩
  · rw [raiseIf_bind, if_pos (decide_eq_true hopc)]
  · rw [raiseIf_bind, if_neg (by simpa using hopc), raiseIf_bind, if_pos (decide_eq_true hid)]
  · obtain ⟨t, ht, hdec⟩ := exec_idjoin_composes hopc hid
    refine ⟨t, ht, hdec, fun u hu => ?_⟩
    have hf : t.f[0] = BitVec.ofNat 32 (4 * aVal s 0 + aVal s 1) := hdec.f_eq (i := 0) rfl
    have ha : aVal { t with a := t.a.set 0 t.f[0] } 0 = 4 * aVal s 0 + aVal s 1 := by
      rw [aVal_set_zero, hf, BitVec.toNat_ofNat, Nat.mod_eq_of_lt (by omega)]
    obtain ⟨h0, h1⟩ := exec_idsplit_of_joined hopc ha hu
    rw [ofNat_aVal] at h0 h1
    exact ⟨h0, h1⟩
end

section
/-! SUPPORT. The bits of a buffer as 40_primitives.md R126 and R127 number them: fields of bits read from `IBUF` and stored
in `OBUF`. -/

open Sys2Proof Sys2Proof.Machine Sys2Proof.Layout

namespace Sys2Proof.Machine

/-! ### Bits of `OBUF` -/

/-- The bit of an output buffer at bit position `q` (40_primitives.md R127), as `ibufBit` is that of `IBUF`. -/
def obufBit (b : Buf) (q : Nat) : Bool := (bufByte .obuf b (q / 8)).getLsbD (bitIndex q)

theorem bitIndex_lt (q : Nat) : bitIndex q < 8 := by unfold bitIndex; omega

/-- A bit position is its byte and its place there (40_primitives.md R126). -/
theorem bitPosition_ext {q q' : Nat} (hbyte : q / 8 = q' / 8) (hbit : bitIndex q = bitIndex q') : q = q' := by
  unfold bitIndex at hbit
  omega

/-- Storing a bit changes that bit alone (40_primitives.md R127). -/
theorem obufBit_obufSetBit (b : Buf) (q q' : Nat) (v : Bool) :
    obufBit (obufSetBit b q v) q' = if q' = q then v else obufBit b q' := by
  rw [obufBit, obufSetBit, bufByte_bufSet]
  by_cases hbyte : q' / 8 = q / 8
  · rw [if_pos hbyte, getLsbD_setBit _ _ _ _ (bitIndex_lt q) (bitIndex_lt q'), obufBit, hbyte]
    by_cases hq : q' = q
    · rw [hq, if_pos rfl, if_pos rfl]
    · rw [if_neg hq, if_neg fun hbit => hq (bitPosition_ext hbyte hbit)]
  · rw [if_neg hbyte, if_neg fun hq => hbyte (congrArg (· / 8) hq), obufBit]

/-- Storing bits leaves those before and after them. -/
theorem obufBit_obufSetBits_outside (b : Buf) (q : Nat) (vs : List Bool) (q' : Nat) (h : q' < q ∨ q + vs.length ≤ q') :
    obufBit (obufSetBits b q vs) q' = obufBit b q' := by
  induction vs generalizing b q with
  | nil => rfl
  | cons v vs ih =>
    rw [List.length_cons] at h
    rw [obufSetBits, ih _ _ (by omega), obufBit_obufSetBit, if_neg (by omega)]

/-- Bits stored are read back in their order. -/
theorem obufBit_obufSetBits_inside (b : Buf) (q : Nat) (vs : List Bool) (i : Nat) (h : i < vs.length) :
    obufBit (obufSetBits b q vs) (q + i) = vs[i] := by
  induction vs generalizing b q i with
  | nil => cases h
  | cons v vs ih =>
    rw [obufSetBits]
    cases i with
    | zero => rw [obufBit_obufSetBits_outside _ _ _ _ (by omega), obufBit_obufSetBit, if_pos (by omega)]; rfl
    | succ i =>
      rw [List.length_cons] at h
      rw [show q + (i + 1) = q + 1 + i by omega, ih _ _ _ (by omega), List.getElem_cons_succ]

/-- The bits of bytes newly taken in start as zero (40_primitives.md R127). -/
theorem obufBit_bufWrite_zeros (b : Buf) (a n q : Nat) :
    obufBit (bufWrite b a (List.replicate n 0)) q = if a ≤ q / 8 ∧ q / 8 < a + n then false else obufBit b q := by
  by_cases h : a ≤ q / 8 ∧ q / 8 < a + n
  · obtain ⟨i, hi⟩ := Nat.exists_eq_add_of_le h.1
    rw [if_pos h, obufBit, hi, bufByte_bufWrite_inside _ _ _ _ _ (by rw [List.length_replicate]; omega),
      List.getElem_replicate, BitVec.ofNat_eq_ofNat, BitVec.getLsbD_zero]
  · rw [if_neg h, obufBit, bufByte_bufWrite_outside _ _ _ _ _ (by rw [List.length_replicate]; omega), obufBit]

@[simp] theorem fieldBits_length (v w : Nat) : (fieldBits v w).length = w := by simp [fieldBits]

theorem fieldBits_getElem (v w i : Nat) (h : i < (fieldBits v w).length) : (fieldBits v w)[i] = v.testBit (w - 1 - i) := by
  simp [fieldBits]

/-- Every bit of `OBUF` after `BFINS`: the field's, a zero taken in, or the old one (40_primitives.md R127). -/
theorem obufBit_insert (b : Buf) (a n p v w q : Nat) :
    obufBit (obufSetBits (bufWrite b a (List.replicate n 0)) p (fieldBits v w)) q =
      if p ≤ q ∧ q < p + w then v.testBit (w - 1 - (q - p))
      else if a ≤ q / 8 ∧ q / 8 < a + n then false else obufBit b q := by
  by_cases h : p ≤ q ∧ q < p + w
  · obtain ⟨i, rfl⟩ := Nat.exists_eq_add_of_le h.1
    rw [if_pos h, obufBit_obufSetBits_inside _ _ _ _ (by rw [fieldBits_length]; omega), fieldBits_getElem,
      Nat.add_sub_cancel_left]
  · rw [if_neg h, obufBit_obufSetBits_outside _ _ _ _ (by rw [fieldBits_length]; omega), obufBit_bufWrite_zeros]

/-! ### A field of bits of `IBUF` -/

/-- The number that `BFEXT` reports (40_primitives.md R126). -/
def extracted (s : State) (p w : Nat) : Nat := bitsNat ((List.range w).map fun i => ibufBit s (p + i))

theorem extracted_lt (s : State) (p w : Nat) : extracted s p w < 2 ^ w := by
  simpa [extracted] using bitsNat_lt ((List.range w).map fun i => ibufBit s (p + i))

theorem testBit_extracted (s : State) {p w i : Nat} (h : i < w) :
    (extracted s p w).testBit (w - 1 - i) = ibufBit s (p + i) := by
  have hbit := testBit_bitsNat ((List.range w).map fun i => ibufBit s (p + i)) i (by simpa using h)
  rw [List.getElem_map, List.getElem_range, List.length_map, List.length_range] at hbit
  exact hbit

/-- `BFEXT` past its tests (40_primitives.md R126). -/
theorem exec_bfext_reports {s : State} {w : BitVec 8} (hp : prologue (.bfext w) s = .ok ())
    (hin : aVal s 0 + w.toNat ≤ 8 * s.ilen.toNat) :
    ∃ t, exec (.bfext w) s = .next t ∧ DecodedTo s t [(0, extracted s (aVal s 0) w.toNat)] s.cur.toNat
      (decodeFlags false false false (decide (s.cur.toNat < s.ilen.toNat))) := by
  rw [← flagWord_decodeFlags]
  refine runDecode_reports hp ?_
  rw [raiseIf_bind, if_neg (by simpa using hin)]
  rfl

/-- The state that `BFINS` completes with (40_primitives.md R127). -/
theorem exec_bfins_stores {s : State} {w : BitVec 8} (hp : prologue (.bfins w) s = .ok ()) (hfit : aVal s 1 < 2 ^ w.toNat)
    (hin : aVal s 0 + w.toNat ≤ 8 * s.params.obufSize) :
    let newlen := max s.olen.toNat ((aVal s 0 + w.toNat + 7) / 8)
    let zeroed := bufWrite s.obuf s.olen.toNat (List.replicate (newlen - s.olen.toNat) 0)
    exec (.bfins w) s = .next (finish { s with
      obuf := obufSetBits zeroed (aVal s 0) (fieldBits (aVal s 1) w.toNat), olen := BitVec.ofNat 16 newlen, flg := 0 }) := by
  intro newlen zeroed
  refine run_completes hp ?_
  rw [raiseIf_bind, if_neg (by simpa using fun _ => hfit), raiseIf_bind, if_neg (by simpa using hin)]
  rfl

end Sys2Proof.Machine

/-- Settles O27: the number is its bits, the first the most significant. -/
theorem bitExtract : Obligations.BitExtract := by
  refine fun s w => ⟨rfl, fun h => exec_raises_of_argument s rfl (.inl ⟨by decide, h⟩), fun h1 h32 hc hi => ?_⟩
  have hp : prologue (.bfext w) s = .ok () := prologue_ok_of_input (decide_eq_true ⟨h1, h32⟩) rfl hc hi
  refine ⟨fun hin => ?_, fun hout => runDecode_raises hp ?_⟩
  · obtain ⟨t, ht, hdec⟩ := exec_bfext_reports hp hin
    exact ⟨t, _, ht, hdec, extracted_lt s _ _, fun i h => testBit_extracted s h⟩
  · rw [raiseIf_bind, if_pos (decide_eq_true hout)]

/-- Settles O28: the tests in order, then every bit of `OBUF` by what storing bits and taking in zeros leave. -/
theorem bitInsert : Obligations.BitInsert := by
  intro s w p v newlen
  refine ⟨rfl, fun h => exec_raises_of_argument s rfl (.inl ⟨by decide, h⟩), fun h1 h32 ho => ?_⟩
  have hp : prologue (.bfins w) s = .ok () := prologue_ok_of_output (decide_eq_true ⟨h1, h32⟩) rfl ho
  refine ⟨fun hbig => run_raises hp ?_, fun hfit hout => run_raises hp ?_, fun hfit hin => ?_⟩
  · rw [raiseIf_bind, if_pos (decide_eq_true hbig)]
  · rw [raiseIf_bind, if_neg (by simpa using fun _ => hfit), raiseIf_bind, if_pos (decide_eq_true hout)]
  · refine ⟨_, exec_bfins_stores hp hfit hin, rfl, fun q => ?_⟩
    have hnew : s.olen.toNat + (newlen - s.olen.toNat) = newlen := Nat.add_sub_cancel' (Nat.le_max_left _ _)
    have hbit := obufBit_insert s.obuf s.olen.toNat (newlen - s.olen.toNat) p v w.toNat q
    rw [hnew] at hbit
    exact hbit
end

section
/-! SUPPORT. One Flex header field (41_flex.md R150): what `TlvParse` answers on a field of 30_encoding.md R93, whole or cut
short, what `TlvEmit` writes, and the two commands that read and write one. -/

open Sys2Proof Sys2Proof.Machine Sys2Proof.Layout

namespace Sys2Proof.Machine

/-- A command that reads `IBUF` and writes `OBUF` (30_encoding.md R83 (3), (4)). -/
theorem prologue_ok_of_input_output {i : Instr} {s : State} (harg : argInRange s.params i = true)
    (hc : s.cur.toNat ≤ s.ilen.toNat) (hi : s.ilen.toNat ≤ s.params.ibufSize) (ho : s.olen.toNat ≤ s.params.obufSize) :
    prologue i s = .ok () :=
  (prologue_ok_iff i s).mpr ⟨harg, fun _ => (inputOk_iff s).mpr ⟨hc, hi⟩, fun _ => (outputOk_iff s).mpr ho⟩

/-! ### The bytes of a header field -/

/-- A legal field says its length by its class, or explicitly (30_encoding.md R93). -/
theorem tlvLegal_cases {x : Tlv} (h : tlvLegal x = true) :
    (x.lc = 3 ∧ x.value.length ≤ 255) ∨ (x.lc < 3 ∧ x.value.length = tlvFixedLen x.lc) := by
  simp only [tlvLegal, decide_eq_true_eq] at h
  rcases h with ⟨hlc, hlen⟩ | ⟨hlc, hlen⟩ | ⟨hlc, hlen⟩ | h
  · exact .inr ⟨by omega, by rw [hlc, hlen]; rfl⟩
  · exact .inr ⟨by omega, by rw [hlc, hlen]; rfl⟩
  · exact .inr ⟨by omega, by rw [hlc, hlen]; rfl⟩
  · exact .inl h

/-- The first byte of a field, written as a sum, is the packed one (30_encoding.md R93). -/
theorem octet_eq_tlvByteBits (lc : Nat) (key : BitVec 6) :
    octet (64 * lc + key.toNat) = tlvByteBits { lengthClass := BitVec.ofNat 2 lc, key := key } := by
  apply BitVec.eq_of_toNat_eq
  have hkey := key.isLt
  rw [tlvByteBits_toNat, BitVec.toNat_ofNat, BitVec.toNat_ofNat]
  dsimp only
  omega

/-- The head of a field: its first byte, and the explicit length where the class is 3 (30_encoding.md R93). -/
theorem tlvHead_eq (x : Tlv) :
    tlvHead x = octet (64 * x.lc + x.key.toNat) :: if x.lc = 3 then [octet x.value.length] else [] := by
  unfold tlvHead
  split
  · next h => rw [h]
  · rfl

theorem tlvHead_length (x : Tlv) : (tlvHead x).length = if x.lc = 3 then 2 else 1 := by
  unfold tlvHead
  split <;> rfl

theorem tlvBytes_length (x : Tlv) : (tlvBytes x).length = (tlvHead x).length + x.value.length := List.length_append

theorem tlvBytes_length_pos (x : Tlv) : 0 < (tlvBytes x).length := by
  rw [tlvBytes_length, tlvHead_length]
  split <;> omega

/-- The field of `TlvEmit` is the layout's: the class its length selects, then the value (41_flex.md R150). -/
theorem tlvEmit_eq_tlvBytes (s : State) (e : TlvEntry) :
    tlvEmit e.key (ibufBytes s e.off.toNat e.len.toNat) = tlvBytes (tlvOfEntry s e) := by
  have hlc : (tlvOfEntry s e).lc = tlvClass e.len.toNat := by
    simp only [tlvOfEntry, tlvClass, ← BitVec.toNat_inj, BitVec.ofNat_eq_ofNat, BitVec.toNat_ofNat, Nat.reducePow,
      Nat.reduceMod]
  rw [tlvEmit, tlvBytes, tlvHead_eq, hlc, octet_eq_tlvByteBits]
  simp only [tlvOfEntry, ibufBytes_length, List.cons_append, List.nil_append]

/-! ### Parsing a header field -/

/-- A header field that stands at `p`, as `TlvParse` reports it (41_flex.md R150). -/
def tlvFieldAt (p : Nat) (x : Tlv) : TlvField :=
  { key := x.key, lc := x.lc, len := x.value.length, voff := p + (tlvHead x).length, next := p + (tlvBytes x).length }

/-- `TlvParse` where the bytes before `stop` are those of a legal field: the head alone says how many bytes the field takes,
and it raises when they pass `stop` (41_flex.md R150). -/
theorem tlvParse_of_head {s : State} {p stop : Nat} {x : Tlv} (hx : tlvLegal x = true)
    (hhead : ∀ i b, (tlvHead x)[i]? = some b → p + i < stop → ibufByte s (p + i) = b) :
    tlvParse s p stop =
      if stop < p + (tlvBytes x).length then raising .malformedField p else .ok (tlvFieldAt p x) := by
  have hpos := tlvBytes_length_pos x
  unfold tlvParse
  rw [need_bind]
  by_cases hempty : stop < p + 1
  · rw [if_pos hempty, if_pos (by omega)]
  have hfirst : tlvByteOf (ibufByte s p) = { lengthClass := BitVec.ofNat 2 x.lc, key := x.key } := by
    have hbyte := hhead 0 _ (by rw [tlvHead_eq]; rfl) (by omega)
    rw [Nat.add_zero, octet_eq_tlvByteBits] at hbyte
    rw [hbyte, tlvByteOf_tlvByteBits]
  rw [if_neg hempty, hfirst, tlvFieldAt, tlvBytes_length, tlvHead_length]
  simp only [need_bind]
  rcases tlvLegal_cases hx with ⟨hlc, hlen⟩ | ⟨hlc, hlen⟩
  · rw [hlc, if_pos rfl, if_pos (show BitVec.ofNat 2 3 = 3 from rfl)]
    by_cases hcut : stop < p + 2
    · rw [if_pos hcut, if_pos (by omega)]
    · have hsecond : (ibufByte s (p + 1)).toNat = x.value.length := by
        rw [hhead 1 (octet x.value.length) (by rw [tlvHead_eq, if_pos hlc]; rfl) (by omega), BitVec.toNat_ofNat]
        omega
      rw [if_neg hcut, hsecond, Result.pure_eq, Nat.add_assoc]
  · have hclass : (BitVec.ofNat 2 x.lc).toNat = x.lc := by rw [BitVec.toNat_ofNat]; omega
    have hne : BitVec.ofNat 2 x.lc ≠ 3 := fun h => by rw [h] at hclass; exact absurd hclass.symm hlc.ne
    rw [if_neg hne, if_neg hlc.ne, hclass, ← hlen, Result.pure_eq, Nat.add_assoc]

/-- `TlvParse` on a stretch of the window that begins as a legal field does, the field ending in it or going on past it. -/
theorem tlvParse_of_window {s : State} {pre tail rest : List Byte} {x : Tlv} (hw : window s = pre ++ tail ++ rest)
    (hx : tlvLegal x = true) (h : tail <+: tlvBytes x ∨ tlvBytes x <+: tail) {p stop : Nat}
    (hp : p = s.cur.toNat + pre.length) (hstop : stop = p + tail.length) :
    tlvParse s p stop =
      if tail.length < (tlvBytes x).length then raising .malformedField p else .ok (tlvFieldAt p x) := by
  subst hp hstop
  rw [tlvParse_of_head hx]
  · simp only [Nat.add_lt_add_iff_left]
  · intro i b hb hi
    have hi : i < tail.length := by omega
    have hbyte : tail[i]? = some b := by
      have hfield : (tlvBytes x)[i]? = some b := by
        rw [tlvBytes, List.getElem?_append_left (List.getElem?_eq_some_iff.mp hb).1, hb]
      rcases h with ⟨more, h⟩ | ⟨more, h⟩
      · rwa [← h, List.getElem?_append_left hi] at hfield
      · rw [← h, List.getElem?_append_left (List.getElem?_eq_some_iff.mp hfield).1, hfield]
    have hlen : pre.length + i < (window s).length := by rw [hw]; simp; omega
    rw [Nat.add_assoc, ibufByte_window s _ hlen, ← Option.some_inj, ← List.getElem?_eq_getElem, hw, List.append_assoc,
      List.getElem?_append_right (Nat.le_add_right _ _), Nat.add_sub_cancel_left, List.getElem?_append_left hi, hbyte]

end Sys2Proof.Machine

/-- Settles O34: what `TlvParse` answers on a field that is whole, and on one cut short. -/
theorem tlvRead : Obligations.TlvRead := by
  refine ⟨rfl, fun s x hc hi hx => ?_⟩
  have hp : prologue .tlvrd s = .ok () := prologue_ok_of_input rfl rfl hc hi
  have hparse := tlvParse_of_window (p := s.cur.toNat) (pre := []) (tail := window s) (rest := [])
    (List.append_nil _).symm hx (hp := rfl) (hstop := ilen_of_window rfl hc)
  refine ⟨fun rest hw => ?_, fun hpre hcut => runDecode_raises hp ?_⟩
  · have hwhole := hparse (.inr ⟨rest, hw.symm⟩)
    rw [if_neg (by rw [hw, List.length_append]; omega)] at hwhole
    rw [← flagWord_decodeFlags, ← trail_of_window hw hc]
    refine runDecode_reports hp ?_
    rw [hwhole, Result.ok_bind, tlvFieldAt, tlvCanon_of_legal hx, Bool.not_not]
    rfl
  · rw [hparse (.inl hpre), if_pos hcut, raising_bind]

/-- Settles O35: the three tests in order; the operands that pass them are a table entry's, whose field `TlvEmit` writes. -/
theorem tlvWrite : Obligations.TlvWrite := by
  refine ⟨rfl, fun s hc hi ho => ?_⟩
  have hp : prologue .tlvwr s = .ok () := prologue_ok_of_input_output rfl hc hi ho
  intro field
  refine ⟨fun hkey => runEncode_raises hp ?_, fun hkey hlen => runEncode_raises hp ?_,
    fun hkey hlen hin => runEncode_raises hp ?_, fun hkey hlen hin => ?_⟩
  · rw [raiseIf_bind, if_pos (decide_eq_true hkey)]
  · rw [raiseIf_bind, if_neg (by simpa using hkey), raiseIf_bind, if_pos (decide_eq_true hlen)]
  · rw [raiseIf_bind, if_neg (by simpa using hkey), raiseIf_bind, if_neg (by simpa using hlen), slice_outside hin,
      raising_bind]
  · have hoff : (BitVec.ofNat 16 (aVal s 1)).toNat = aVal s 1 := by
      have := s.ilen.isLt
      rw [BitVec.toNat_ofNat]
      omega
    have hval : (BitVec.ofNat 8 (aVal s 2)).toNat = aVal s 2 := by
      rw [BitVec.toNat_ofNat]
      omega
    have hbody : (raiseIf (decide (aVal s 0 > 63)) .badOperand (aVal s 0) >>= fun _ =>
        raiseIf (decide (aVal s 2 > 255)) .encodingConstraint (aVal s 2) >>= fun _ =>
        slice s (aVal s 1) (aVal s 2) (aVal s 1) >>= fun bs =>
        pure (tlvEmit (BitVec.ofNat 6 (aVal s 0)) bs)) = (.ok field : Result (List Byte)) := by
      have hemit := tlvEmit_eq_tlvBytes s
        { key := BitVec.ofNat 6 (aVal s 0), off := BitVec.ofNat 16 (aVal s 1), len := BitVec.ofNat 8 (aVal s 2) }
      rw [hoff, hval] at hemit
      rw [raiseIf_bind, if_neg (by simpa using hkey), raiseIf_bind, if_neg (by simpa using hlen), slice_ok hin,
        Result.ok_bind, hemit]
      rfl
    exact ⟨runEncode_completes hp hbody, runEncode_full hp hbody⟩
end

section
/-! SUPPORT. `FLEXDEC` (41_flex.md R154): its loop over the header's fields, what it has gathered after fields that stand in the
window, and the state it completes with. -/

open Sys2Proof Sys2Proof.Machine Sys2Proof.Layout

namespace Sys2Proof.Machine

/-! ### One field of the loop -/

/-- What `FLEXDEC` has gathered after one more field (41_flex.md R154). -/
def flexAdd (p : Params) (acc : FlexAcc) (t : TlvField) : FlexAcc :=
  { fields := if flexKnown p t.key then acc.fields ++ [t] else acc.fields
    skipped := if flexKnown p t.key then acc.skipped else acc.skipped + 1
    noncanon := acc.noncanon || !tlvCanon t.lc t.len }

theorem flexAdd_of_known {p : Params} {t : TlvField} (acc : FlexAcc) (hk : flexKnown p t.key = true) :
    flexAdd p acc t =
      { fields := acc.fields ++ [t], skipped := acc.skipped, noncanon := acc.noncanon || !tlvCanon t.lc t.len } := by
  rw [flexAdd, if_pos hk, if_pos hk]

theorem flexAdd_of_unknown {p : Params} {t : TlvField} (acc : FlexAcc) (hk : ¬flexKnown p t.key = true) :
    flexAdd p acc t =
      { fields := acc.fields, skipped := acc.skipped + 1, noncanon := acc.noncanon || !tlvCanon t.lc t.len } := by
  rw [flexAdd, if_neg hk, if_neg hk]

/-- The tests that `FLEXDEC` makes of a field at `p` before it stores it (41_flex.md R154). -/
def flexAdmit (s : State) (acc : FlexAcc) (p : Nat) (t : TlvField) : Result Unit :=
  if flexKnown s.params t.key then
    raiseIf (acc.fields.any fun x => x.key == t.key) .duplicateKey p >>= fun _ =>
      raiseIf (acc.fields.length == s.params.tlvMax) .capacity p
  else .ok ()

/-- The loop before the header's end: one field, its tests, then the rest (41_flex.md R154). -/
theorem flexLoop_of_lt {s : State} {hend p : Nat} (fuel : Nat) (acc : FlexAcc) (h : p < hend) :
    flexLoop s hend (fuel + 1) p acc =
      tlvParse s p hend >>= fun t =>
        flexAdmit s acc p t >>= fun _ => flexLoop s hend fuel t.next (flexAdd s.params acc t) := by
  rw [flexLoop, if_pos h]
  congr 1
  funext t
  rw [flexAdmit, flexAdd]
  split
  · simp only [raiseIf_bind]
    split
    · rfl
    · simp only [raiseIf_bind]
  · rfl

/-- The loop at the header's end (41_flex.md R154). -/
theorem flexLoop_of_le {s : State} {hend p : Nat} (fuel : Nat) (acc : FlexAcc) (h : hend ≤ p) :
    flexLoop s hend fuel p acc = .ok acc := by
  cases fuel with
  | zero => rfl
  | succ fuel => rw [flexLoop, if_neg (Nat.not_lt.mpr h)]

theorem any_key_iff (fs : List TlvField) (k : BitVec 6) :
    (fs.any fun x => x.key == k) = true ↔ k ∈ fs.map (·.key) := by
  simp only [List.any_eq_true, List.mem_map, beq_iff_eq]

/-- A field is stored or skipped without a raise when its key is unknown, or new with room in the table (41_flex.md R154). -/
theorem flexAdmit_ok_iff (s : State) (acc : FlexAcc) (p : Nat) (t : TlvField) :
    flexAdmit s acc p t = .ok () ↔
      (flexKnown s.params t.key = true → t.key ∉ acc.fields.map (·.key) ∧ acc.fields.length ≠ s.params.tlvMax) := by
  unfold flexAdmit
  split
  · next hk => simp only [raiseIf_bind, hk, ← any_key_iff, true_imp_iff]; split <;> simp_all [raiseIf_ok_iff, raising]
  · next hk => simp [hk]

theorem flexAdmit_duplicate {s : State} {acc : FlexAcc} {p : Nat} {t : TlvField} (hk : flexKnown s.params t.key = true)
    (h : t.key ∈ acc.fields.map (·.key)) : flexAdmit s acc p t = raising .duplicateKey p := by
  rw [flexAdmit, if_pos hk, raiseIf_bind, if_pos ((any_key_iff _ _).mpr h)]

theorem flexAdmit_full {s : State} {acc : FlexAcc} {p : Nat} {t : TlvField} (hk : flexKnown s.params t.key = true)
    (hnew : t.key ∉ acc.fields.map (·.key)) (hfull : acc.fields.length = s.params.tlvMax) :
    flexAdmit s acc p t = raising .capacity p := by
  rw [flexAdmit, if_pos hk, raiseIf_bind, if_neg (mt (any_key_iff _ _).mp hnew), hfull, beq_self_eq_true, raiseIf_true]

/-! ### Fields that stand in the window -/

/-- What `FLEXDEC` has gathered after fields that stand from offset `off` on (41_flex.md R154). -/
def flexGather (p : Params) : Nat → List Tlv → FlexAcc → FlexAcc
  | _, [], acc => acc
  | off, x :: xs, acc => flexGather p (off + (tlvBytes x).length) xs (flexAdd p acc (tlvFieldAt off x))

/-- The fields of known keys (41_flex.md R154). -/
abbrev knownTlvs (p : Params) (xs : List Tlv) : List Tlv := xs.filter fun x => flexKnown p x.key

/-- A field adds its key to those stored when it is known (41_flex.md R154). -/
theorem flexAdd_keys (p : Params) (off : Nat) (x : Tlv) (xs : List Tlv) (acc : FlexAcc) :
    (flexAdd p acc (tlvFieldAt off x)).fields.map (·.key) ++ (knownTlvs p xs).map (·.key) =
      acc.fields.map (·.key) ++ (knownTlvs p (x :: xs)).map (·.key) := by
  by_cases hk : flexKnown p x.key = true <;> simp [flexAdd, tlvFieldAt, hk]

theorem flexGather_keys (p : Params) (off : Nat) (xs : List Tlv) (acc : FlexAcc) :
    (flexGather p off xs acc).fields.map (·.key) = acc.fields.map (·.key) ++ (knownTlvs p xs).map (·.key) := by
  induction xs generalizing off acc with
  | nil => simp [flexGather]
  | cons x xs ih => rw [flexGather, ih, flexAdd_keys]

/-- The table entries of the fields gathered (41_flex.md R154). -/
theorem flexGather_entries (p : Params) (off : Nat) (xs : List Tlv) (acc : FlexAcc) :
    (flexGather p off xs acc).fields.map tlvEntryOf = acc.fields.map tlvEntryOf ++ tlvEntries p off xs := by
  induction xs generalizing off acc with
  | nil => simp [flexGather, tlvEntries]
  | cons x xs ih =>
    rw [flexGather, ih, tlvEntries]
    by_cases hk : flexKnown p x.key = true <;> simp [flexAdd, tlvFieldAt, tlvEntryOf, hk]

/-- Every field is stored or counted as skipped (41_flex.md R154). -/
theorem flexGather_skipped (p : Params) (off : Nat) (xs : List Tlv) (acc : FlexAcc) :
    (flexGather p off xs acc).skipped + (knownTlvs p xs).length = acc.skipped + xs.length := by
  induction xs generalizing off acc with
  | nil => simp [flexGather]
  | cons x xs ih =>
    have hrest := ih (off + (tlvBytes x).length) (flexAdd p acc (tlvFieldAt off x))
    rw [flexGather]
    by_cases hk : flexKnown p x.key = true <;>
      simp [flexAdd, tlvFieldAt, knownTlvs, hk] at hrest ⊢ <;> omega

theorem flexGather_noncanon (p : Params) (off : Nat) (xs : List Tlv) (acc : FlexAcc)
    (hlegal : ∀ x ∈ xs, tlvLegal x = true) :
    (flexGather p off xs acc).noncanon = (acc.noncanon || xs.any tlvNoncanon) := by
  induction xs generalizing off acc with
  | nil => simp [flexGather]
  | cons x xs ih =>
    rw [List.forall_mem_cons] at hlegal
    rw [flexGather, ih _ _ hlegal.2, flexAdd, tlvFieldAt, tlvCanon_of_legal hlegal.1, Bool.not_not, List.any_cons,
      Bool.or_assoc]

/-- The loop walks over legal fields that stand in the header, known keys distinct and not more than the table holds. -/
theorem flexLoop_fields {s : State} {pre tail rest : List Byte} {xs : List Tlv} {p hend : Nat} {acc : FlexAcc} (fuel : Nat)
    (hw : window s = pre ++ (xs.flatMap tlvBytes ++ tail) ++ rest) (hp : p = s.cur.toNat + pre.length)
    (hend' : hend = p + (xs.flatMap tlvBytes ++ tail).length) (hlegal : ∀ x ∈ xs, tlvLegal x = true)
    (hkeys : (acc.fields.map (·.key) ++ (knownTlvs s.params xs).map (·.key)).Nodup)
    (hroom : (acc.fields.map (·.key) ++ (knownTlvs s.params xs).map (·.key)).length ≤ s.params.tlvMax) :
    flexLoop s hend (xs.length + fuel) p acc =
      flexLoop s hend fuel (p + (xs.flatMap tlvBytes).length) (flexGather s.params p xs acc) := by
  induction xs generalizing pre p acc with
  | nil => simp [flexGather]
  | cons x xs ih =>
    rw [List.forall_mem_cons] at hlegal
    have hparse := tlvParse_of_window hw hlegal.1 (.inr ⟨xs.flatMap tlvBytes ++ tail, by simp⟩) hp hend'
    rw [if_neg (by simp)] at hparse
    have hadmit : flexAdmit s acc p (tlvFieldAt p x) = .ok () := by
      rw [flexAdmit_ok_iff]
      intro hk
      change flexKnown s.params x.key = true at hk
      simp only [knownTlvs, List.filter_cons, hk, if_true, List.map_cons, List.length_append, List.length_cons,
        List.length_map] at hkeys hroom
      exact ⟨fun hmem => List.disjoint_of_nodup_append hkeys hmem List.mem_cons_self, by omega⟩
    have hpos := tlvBytes_length_pos x
    have hlen : ((x :: xs).flatMap tlvBytes ++ tail).length =
        (tlvBytes x).length + (xs.flatMap tlvBytes ++ tail).length := by simp
    rw [← flexAdd_keys s.params p] at hkeys hroom
    rw [List.length_cons, Nat.add_right_comm, flexLoop_of_lt _ _ (by omega), hparse, Result.ok_bind, hadmit, Result.ok_bind,
      show (tlvFieldAt p x).next = p + (tlvBytes x).length from rfl,
      ih (pre := pre ++ tlvBytes x) (by rw [hw]; simp) (by rw [hp, List.length_append, Nat.add_assoc])
        (by omega) hlegal.2 hkeys hroom, flexGather, List.flatMap_cons, List.length_append, Nat.add_assoc]

/-! ### The frame around the header -/

/-- What `FLEXDEC` reports for a header of `hl` bytes (41_flex.md R151, R154). -/
def flexReport (s : State) (hl : Nat) (acc : FlexAcc) : Decoded :=
  let hend := s.cur.toNat + 1 + hl
  let idr := beNat (ibufBytes s (hend + 2) 2)
  { fields := [(0, hl), (1, beNat (ibufBytes s hend 2)), (2, idr), (3, idr / 4), (4, idr % 4), (7, acc.fields.length),
      (8, acc.skipped)] ++ sliceFields 5 6 (hend + 4) (s.ilen.toNat - (hend + 4))
    cur := s.ilen.toNat
    flags := { noncanon := acc.noncanon, unknownKey := decide (acc.skipped > 0) } }

/-- The state `FLEXDEC` completes with, but for `STATUS` (41_flex.md R154). -/
def flexWritten (s : State) (hl : Nat) (acc : FlexAcc) : State :=
  writeDecoded { s with
    tlv := storeTlv s.tlv (acc.fields.map tlvEntryOf), tlvn := BitVec.ofNat 7 acc.fields.length } (flexReport s hl acc)

/-- `FLEXDEC` by its two tests of the window and its loop, `hl` being the header length that the window says. -/
theorem flexDecode_eq {s : State} {hl : Nat} (hhl : (ibufByte s s.cur.toNat).toNat = hl) :
    flexDecode s =
      if s.ilen.toNat - s.cur.toNat < 5 ∨ s.ilen.toNat < s.cur.toNat + 1 + hl + 4 then raising .malformedField s.cur.toNat
      else flexLoop s (s.cur.toNat + 1 + hl) (hl + 1) (s.cur.toNat + 1) {} >>= fun acc => .ok (flexWritten s hl acc) := by
  subst hhl
  unfold flexDecode
  simp only [raiseIf_bind, decide_eq_true_eq]
  by_cases hshort : s.ilen.toNat - s.cur.toNat < 5
  · rw [if_pos hshort, if_pos (.inl hshort)]
  · rw [if_neg hshort]
    by_cases hcut : s.ilen.toNat < s.cur.toNat + 1 + (ibufByte s s.cur.toNat).toNat + 4
    · rw [if_pos hcut, if_pos (.inr hcut)]
    · rw [if_neg hcut, if_neg (not_or.mpr ⟨hshort, hcut⟩)]
      rfl

/-- A field takes at least a byte. -/
theorem length_le_flatMap_tlvBytes (xs : List Tlv) : xs.length ≤ (xs.flatMap tlvBytes).length := by
  induction xs with
  | nil => simp
  | cons x xs ih =>
    have hpos := tlvBytes_length_pos x
    rw [List.flatMap_cons, List.length_append, List.length_cons]
    omega

/-- The window of a frame says its header's length in its first byte (30_encoding.md R92). -/
theorem headerLength_of_window {s : State} {hdr rest : List Byte} (hw : window s = [octet hdr.length] ++ hdr ++ rest)
    (hhdr : hdr.length ≤ 255) : (ibufByte s s.cur.toNat).toNat = hdr.length := by
  rw [ibufByte_cur (lead := octet hdr.length) (rest := hdr ++ rest) hw, BitVec.toNat_ofNat]
  omega

/-- `FLEXDEC` on a frame whose header begins with legal fields: what it answers is what its loop does from the next field
on. -/
theorem flexDecode_after_fields {s : State} {xs : List Tlv} {hdr tail rest : List Byte} (hc : s.cur.toNat ≤ s.ilen.toNat)
    (hw : window s = [octet hdr.length] ++ hdr ++ rest) (hsplit : hdr = xs.flatMap tlvBytes ++ tail)
    (hhdr : hdr.length ≤ 255) (hrest : 4 ≤ rest.length) (hlegal : ∀ x ∈ xs, tlvLegal x = true)
    (hkeys : ((knownTlvs s.params xs).map (·.key)).Nodup) (hroom : (knownTlvs s.params xs).length ≤ s.params.tlvMax) :
    ∃ fuel, flexDecode s =
      flexLoop s (s.cur.toNat + 1 + (xs.flatMap tlvBytes).length + tail.length) (fuel + 1)
          (s.cur.toNat + 1 + (xs.flatMap tlvBytes).length) (flexGather s.params (s.cur.toNat + 1) xs {}) >>=
        fun acc => .ok (flexWritten s hdr.length acc) := by
  have hilen := ilen_of_window hw hc
  have hlen : hdr.length = (xs.flatMap tlvBytes).length + tail.length := by rw [hsplit, List.length_append]
  have hcount := length_le_flatMap_tlvBytes xs
  simp only [List.length_append, List.length_cons, List.length_nil] at hilen
  obtain ⟨fuel, hfuel⟩ : ∃ fuel, hdr.length + 1 = xs.length + (fuel + 1) := ⟨hdr.length - xs.length, by omega⟩
  have hloop := flexLoop_fields (pre := [octet hdr.length]) (acc := {}) (fuel + 1)
    (by rw [← hsplit]; exact hw) rfl rfl hlegal hkeys (by simpa using hroom)
  rw [← hsplit, hlen] at hloop
  refine ⟨fuel, ?_⟩
  rw [flexDecode_eq (headerLength_of_window hw hhdr), if_neg (by omega), hfuel, hlen, Nat.add_assoc _ _ tail.length]
  exact congrArg (· >>= _) hloop

/-- The registers of a frame by the pieces of its window (41_flex.md R151). -/
theorem flexReport_of_window {s : State} {hdr cls id data : List Byte} (acc : FlexAcc) (hc : s.cur.toNat ≤ s.ilen.toNat)
    (hw : window s = [octet hdr.length] ++ hdr ++ cls ++ id ++ data) (hcls : cls.length = 2) (hid : id.length = 2) :
    flexReport s hdr.length acc =
      { fields := [(0, hdr.length), (1, beNat cls), (2, beNat id), (3, beNat id / 4), (4, beNat id % 4),
          (7, acc.fields.length), (8, acc.skipped)] ++ sliceAt 5 6 (s.cur.toNat + 1 + hdr.length + 4) data.length
        cur := s.ilen.toNat
        flags := { noncanon := acc.noncanon, unknownKey := decide (acc.skipped > 0) } } := by
  have hilen := ilen_of_window hw hc
  have hreadCls : ibufBytes s (s.cur.toNat + 1 + hdr.length) 2 = cls := by
    have hread := ibufBytes_of_window (pre := [octet hdr.length] ++ hdr) (bs := cls) (rest := id ++ data) (by rw [hw]; simp)
    rwa [hcls, show s.cur.toNat + ([octet hdr.length] ++ hdr).length = s.cur.toNat + 1 + hdr.length by simp; omega] at hread
  have hreadId : ibufBytes s (s.cur.toNat + 1 + hdr.length + 2) 2 = id := by
    have hread := ibufBytes_of_window (pre := [octet hdr.length] ++ hdr ++ cls) (bs := id) (rest := data) hw
    rwa [hid, show s.cur.toNat + ([octet hdr.length] ++ hdr ++ cls).length = s.cur.toNat + 1 + hdr.length + 2 by
      simp [hcls]; omega] at hread
  simp only [List.length_append, List.length_cons, List.length_nil, hcls, hid] at hilen
  rw [flexReport, hreadCls, hreadId, sliceFields_eq,
    show s.ilen.toNat - (s.cur.toNat + 1 + hdr.length + 4) = data.length by omega]

theorem storeTlv_getElem (tbl : Vector TlvEntry 64) (es : List TlvEntry) (i : Fin 64) :
    (storeTlv tbl es)[i] = (es[i.val]?).getD tbl[i] := by simp [storeTlv]

end Sys2Proof.Machine

/-- Settles O36: the loop gathers the fields of the header and ends with it. -/
theorem flexDecode : Obligations.FlexDecode := by
  intro s xs cls id data hc hi _ hlegal hcls hid hdr known entries hw hhdr hkeys hroom
  have hp : prologue .flexdec s = .ok () := prologue_ok_of_input rfl rfl hc hi
  obtain ⟨fuel, hbody⟩ := flexDecode_after_fields (tail := []) (rest := cls ++ id ++ data) hc (by rw [hw]; simp [hdr])
    (List.append_nil _).symm hhdr (by simp [hcls, hid]; omega) hlegal hkeys hroom
  rw [flexLoop_of_le _ _ (by simp), Result.ok_bind] at hbody
  have hskip := flexGather_skipped s.params (s.cur.toNat + 1) xs {}
  have hcanon := flexGather_noncanon s.params (s.cur.toNat + 1) xs {} hlegal
  have hstored := flexGather_entries s.params (s.cur.toNat + 1) xs {}
  have hlen := congrArg List.length (flexGather_keys s.params (s.cur.toNat + 1) xs {})
  generalize flexGather s.params (s.cur.toNat + 1) xs {} = acc at *
  simp only [List.map_nil, List.nil_append, List.length_map, Bool.false_or, Nat.zero_add] at hskip hcanon hstored hlen
  change acc.skipped + known.length = xs.length at hskip
  change acc.fields.length = known.length at hlen
  have hreport := flexReport_of_window acc hc hw hcls hid
  rw [hlen, hcanon, show acc.skipped = xs.length - known.length by omega,
    show decide (xs.length - known.length > 0) = decide (known.length < xs.length) by simp] at hreport
  refine ⟨_, storeTlv s.tlv entries, run_completes hp hbody, storeTlv_getElem s.tlv entries, ?_⟩
  rw [flexWritten, hstored, hlen, hreport, ← flagWord_decodeFlags]
  exact decodedTo_finish { s with tlv := storeTlv s.tlv entries, tlvn := BitVec.ofNat 7 known.length } _

/-- Settles O37: the two tests of the window; then the loop stands at the next field, which is cut short, met before, or has
no room in the table. -/
theorem flexDecodeRaises : Obligations.FlexDecodeRaises := by
  intro s hc hi raises
  have hp : prologue .flexdec s = .ok () := prologue_ok_of_input rfl rfl hc hi
  have hlen := window_length s
  refine ⟨fun hshort => run_raises hp ?_, fun hl rest hw hcut => run_raises hp ?_, ?_⟩
  · rw [flexDecode_eq rfl, if_pos (.inl (by omega))]
  · rw [hw, List.length_cons] at hlen
    rw [flexDecode_eq (congrArg _ (ibufByte_cur hw)), if_pos (.inr (by omega))]
  intro xs y tail rest hlegal hy hdr keys next hw hhdr hrest hkeys hroom
  obtain ⟨fuel, hbody⟩ := flexDecode_after_fields (tail := tail) (rest := rest) hc (by rw [hw]; simp [hdr]) rfl hhdr hrest
    hlegal hkeys (by simpa [keys] using hroom)
  have hmet : (flexGather s.params (s.cur.toNat + 1) xs {}).fields.map (·.key) = keys := flexGather_keys _ _ _ _
  have hparse := tlvParse_of_window (p := next) (stop := next + tail.length) (pre := [octet (hdr ++ tail).length] ++ hdr)
    (tail := tail) (rest := rest) (hw.trans (by simp)) hy (hp := by simp [next]; omega) (hstop := rfl)
  have hnonempty : tlvBytes y <+: tail → next < next + tail.length := fun hpre => by
    have hpos := tlvBytes_length_pos y
    have hle := hpre.length_le
    omega
  refine ⟨fun hne hpre hcut => run_raises hp ?_, fun hpre hk hmem => run_raises hp ?_,
    fun hpre hk hnew hfull => run_raises hp ?_⟩
  · rw [hbody, flexLoop_of_lt _ _ (by have := List.length_pos_of_ne_nil hne; omega), hparse (.inl hpre), if_pos hcut]
    rfl
  · rw [hbody, flexLoop_of_lt _ _ (hnonempty hpre), hparse (.inr hpre), if_neg hpre.length_le.not_gt, Result.ok_bind,
      flexAdmit_duplicate hk (hmet ▸ hmem)]
    rfl
  · rw [hbody, flexLoop_of_lt _ _ (hnonempty hpre), hparse (.inr hpre), if_neg hpre.length_le.not_gt, Result.ok_bind,
      flexAdmit_full hk (hmet ▸ hnew) (by rw [← hfull, ← hmet, List.length_map])]
    rfl
end

section
/-! SUPPORT. `FLEXENC` (41_flex.md R155): its tests in order, and the frame it appends where none fails. -/

open Sys2Proof Sys2Proof.Machine Sys2Proof.Layout

namespace Sys2Proof.Machine

/-! ### Tests in order -/

/-- What an encoder answers that makes the tests `l` in order and then does `m`: "the first failure is reported" (43_frame.md
R199). -/
def afterChecks {α : Type} (l : List Check) (m : Result α) : Result α :=
  ((firstFailing l).map fun x => raising x.1 x.2).getD m

theorem afterChecks_of_some {α : Type} {l : List Check} {c : Cause} {n : Nat} (m : Result α)
    (h : firstFailing l = some (c, n)) : afterChecks l m = raising c n := by
  rw [afterChecks, h]
  rfl

theorem afterChecks_of_none {α : Type} {l : List Check} (m : Result α) (h : firstFailing l = none) :
    afterChecks l m = m := by
  rw [afterChecks, h]
  rfl

theorem afterChecks_append {α : Type} (l l' : List Check) (m : Result α) :
    afterChecks (l ++ l') m = afterChecks l (afterChecks l' m) := by
  unfold afterChecks
  rw [firstFailing_append]
  cases firstFailing l <;> rfl

theorem afterChecks_bind {α β : Type} (l : List Check) (m : Result α) (f : α → Result β) :
    (afterChecks l m >>= f) = afterChecks l (m >>= f) := by
  unfold afterChecks
  cases firstFailing l <;> rfl

/-- One test: `if bad then raise C(info)`. -/
theorem raiseIf_bind_eq_afterChecks {α : Type} (bad : Bool) (c : Cause) (n : Nat) (f : Unit → Result α) :
    (raiseIf bad c n >>= f) = afterChecks [⟨bad, c, n⟩] (f ()) := by
  cases bad <;> rfl

/-- One test: that a slice operand lies in the valid bytes (00_scope.md R15). -/
theorem slice_eq_afterChecks (s : State) (o n info : Nat) :
    slice s o n info = afterChecks [⟨decide (s.ilen.toNat < o + n), .badOperand, info⟩] (.ok (ibufBytes s o n)) := by
  rcases slice_cases s o n info with ⟨h, hin⟩ | ⟨h, hout⟩
  · rw [h, decide_eq_false (Nat.not_lt.mpr hin)]
    rfl
  · rw [h, decide_eq_true hout]
    rfl

theorem firstFailing_eq_none_iff (l : List Check) : firstFailing l = none ↔ ∀ c ∈ l, c.fails = false := by
  simp [firstFailing]

/-! ### The frame -/

/-- The two tests of entry `i` of a table (41_flex.md R155). -/
def entryChecks (s : State) (table : List TlvEntry) (e : TlvEntry) (i : Nat) : List Check :=
  [⟨(table.take i).any fun e' => e'.key == e.key, .duplicateKey, i⟩,
    ⟨decide (s.ilen.toNat < e.off.toNat + e.len.toNat), .badOperand, i⟩]

/-- The data slice of the frame (41_flex.md R155). -/
def flexData (s : State) : List Byte := if presBit s 5 then ibufBytes s (fVal s 5) (fVal s 6) else []

/-- The frame that `FLEXENC` appends (41_flex.md R155). -/
def flexFrame (s : State) : List Byte :=
  [octet (flexHeader s).length] ++ flexHeader s ++ bytesBE (fVal s 1) 2 ++ bytesBE (fVal s 2) 2 ++ flexData s

/-- The tests of `FLEXENC`, those of its table by entry (41_flex.md R155). -/
theorem flexChecks_eq (s : State) :
    flexChecks s =
      [⟨decide (s.params.tlvMax < s.tlvn.toNat), .badOperand, s.tlvn.toNat⟩]
        ++ (flexEntries s).zipIdx.flatMap (fun x => entryChecks s (flexEntries s) x.1 x.2)
        ++ [⟨decide (255 < (flexHeader s).length), .encodingConstraint, (flexHeader s).length⟩,
          ⟨decide (2 ^ 16 ≤ fVal s 1), .encodingConstraint, fVal s 1⟩,
          ⟨decide (2 ^ 16 ≤ fVal s 2), .encodingConstraint, fVal s 2⟩]
        ++ (if presBit s 5 then [sliceCheck s 5 6 (fVal s 5)] else []) := rfl

/-- The loop of `FLEXENC` from the entries after `pre` on, `seen` being the keys of `pre`. -/
theorem flexEncFields_eq {s : State} {table pre es : List TlvEntry} {seen : List (BitVec 6)} (htable : table = pre ++ es)
    (hseen : ∀ k, seen.contains k = pre.any fun e => e.key == k) :
    flexEncFields s pre.length seen es =
      afterChecks ((es.zipIdx pre.length).flatMap fun x => entryChecks s table x.1 x.2)
        (.ok (es.flatMap fun e => tlvBytes (tlvOfEntry s e))) := by
  induction es generalizing pre seen with
  | nil => rfl
  | cons e es ih =>
    have hrest := ih (pre := pre ++ [e]) (seen := e.key :: seen) (by simp [htable]) fun k => by
      rw [List.contains_cons, hseen, List.any_append, Bool.or_comm, List.any_cons, List.any_nil, Bool.or_false, Bool.beq_comm]
    rw [List.length_append, List.length_singleton] at hrest
    have hpre : table.take pre.length = pre := by rw [htable, List.take_left]
    rw [flexEncFields, raiseIf_bind_eq_afterChecks, slice_eq_afterChecks, afterChecks_bind, hrest, Result.ok_bind,
      afterChecks_bind, Result.ok_bind, tlvEmit_eq_tlvBytes, hseen, List.zipIdx_cons, List.flatMap_cons, List.flatMap_cons,
      afterChecks_append, entryChecks, hpre, ← afterChecks_append]
    rfl

/-- The data slice, where it is asked for, after its test (41_flex.md R155). -/
theorem flexData_eq (s : State) :
    gatedBytes (presBit s 5) (slice s (fVal s 5) (fVal s 6) (fVal s 5)) =
      afterChecks (if presBit s 5 then [sliceCheck s 5 6 (fVal s 5)] else []) (.ok (flexData s)) := by
  unfold flexData
  cases presBit s 5
  · rfl
  · exact slice_eq_afterChecks s _ _ _

/-- `FLEXENC` makes its tests in order and gives its frame (41_flex.md R155). -/
theorem flexEncode_eq (s : State) : flexEncode s = afterChecks (flexChecks s) (.ok (flexFrame s)) := by
  have hfields : flexEncFields s 0 [] (flexEntries s) = _ := flexEncFields_eq (pre := []) rfl fun _ => rfl
  rw [flexEncode]
  change (raiseIf _ _ _ >>= fun _ => flexEncFields s 0 [] (flexEntries s) >>= _) = _
  rw [hfields, flexData_eq, flexChecks_eq, afterChecks_append, afterChecks_append, afterChecks_append]
  simp only [raiseIf_bind_eq_afterChecks, afterChecks_bind, Result.ok_bind, ← afterChecks_append]
  rfl

end Sys2Proof.Machine

/-- Settles O38: the tests of the layout are those of the loop and around it, in the same order. -/
theorem flexEncode : Obligations.FlexEncode := by
  refine ⟨rfl, fun s hc hi ho => ?_⟩
  have hp : prologue .flexenc s = .ok () := prologue_ok_of_input_output rfl hc hi ho
  have hbody := flexEncode_eq s
  refine ⟨fun cause info hfail => ?_, fun cls id hpass hcls hclsVal hid hidVal => ?_⟩
  · rw [afterChecks_of_some _ hfail] at hbody
    exact runEncode_raises hp hbody
  · intro data frame
    have hframe : flexFrame s = frame := by
      rw [flexFrame, bytesBE_eq_of_beNat hclsVal hcls, bytesBE_eq_of_beNat hidVal hid]
      rfl
    rw [afterChecks_of_none _ hpass, hframe] at hbody
    exact ⟨runEncode_completes hp hbody, runEncode_full hp hbody⟩
end

section
/-! SUPPORT. The round trip of 41_flex.md R156 (a): what `FLEXDEC` has gathered names its header byte for byte where no field
was skipped and none was in a longer class than its length needs, so that `FLEXENC` writes the window again. -/

open Sys2Proof Sys2Proof.Machine Sys2Proof.Layout

namespace Sys2Proof.Machine

/-! ### A canonical field is written back -/

theorem tlvByteBits_tlvByteOf (b : Byte) : tlvByteBits (tlvByteOf b) = b := by
  apply BitVec.eq_of_toNat_eq
  have hb := b.isLt
  rw [tlvByteBits_toNat, tlvByteOf_lengthClass, tlvByteOf_key]
  omega

/-- A field is read into 8 bits of length (30_encoding.md R93). -/
theorem tlvParse_len_le {s : State} {p stop : Nat} {t : TlvField} (h : tlvParse s p stop = .ok t) : t.len ≤ 255 := by
  obtain ⟨-, -, -, -, -, -, ⟨-, -, hlen⟩ | ⟨hlc, -, hlen⟩⟩ := tlvParse_ok h
  · have hb := (ibufByte s (p + 1)).isLt
    omega
  · have hpow : 2 ^ t.lc ≤ 2 ^ 2 := Nat.pow_le_pow_right (by decide) (by omega)
    rw [hlen, tlvFixedLen]
    omega

/-- The table entry of a canonical field says its bytes (41_flex.md R155, R156). -/
theorem tlvBytes_of_parsed {s : State} {p stop : Nat} {t : TlvField} (h : tlvParse s p stop = .ok t)
    (hcanon : tlvCanon t.lc t.len = true) (hstop : stop < 2 ^ 16) :
    tlvBytes (tlvOfEntry s (tlvEntryOf t)) = ibufBytes s p (t.next - p) := by
  have hlen := tlvParse_len_le h
  obtain ⟨hnext, hsum, -, -, hkey, hlc, hform⟩ := tlvParse_ok h
  have hclass : tlvClass t.len = t.lc := (beq_iff_eq.mp hcanon).symm
  have hoffVal : (tlvEntryOf t).off.toNat = t.voff := by
    rw [tlvEntryOf, BitVec.toNat_ofNat]
    omega
  have hlenVal : (tlvEntryOf t).len.toNat = t.len := by
    rw [tlvEntryOf, BitVec.toNat_ofNat]
    omega
  have hfirst : tlvByteBits { lengthClass := BitVec.ofNat 2 t.lc, key := t.key } = ibufByte s p := by
    rw [hlc, hkey, BitVec.ofNat_toNat, BitVec.setWidth_eq]
    exact tlvByteBits_tlvByteOf _
  rw [← tlvEmit_eq_tlvBytes, hoffVal, hlenVal, tlvEmit, ibufBytes_length, hclass, show (tlvEntryOf t).key = t.key from rfl,
    hfirst]
  rcases hform with ⟨h3, hoff, hlenByte⟩ | ⟨h3, hoff, -⟩
  · have hsecond : BitVec.ofNat 8 t.len = ibufByte s (p + 1) := by rw [hlenByte, BitVec.ofNat_toNat, BitVec.setWidth_eq]
    rw [if_pos h3, hsecond, hoff, show t.next - p = 2 + t.len by omega, ibufBytes_append]
    rfl
  · rw [if_neg h3.ne, hoff, show t.next - p = 1 + t.len by omega, ibufBytes_append]
    rfl

/-! ### What the loop keeps -/

/-- What holds of the fields gathered between the offsets `start` and `p` of `IBUF` (41_flex.md R154): distinct keys that the
table holds, values that end by `p`, and the bytes themselves where nothing was skipped and every field was canonical. -/
structure FlexSound (s : State) (start p : Nat) (acc : FlexAcc) : Prop where
  ordered : start ≤ p
  distinct : (acc.fields.map (·.key)).Nodup
  room : acc.fields.length ≤ s.params.tlvMax
  inside : ∀ t ∈ acc.fields, t.voff + t.len ≤ p ∧ t.len ≤ 255
  bytes : acc.noncanon = false → acc.skipped = 0 →
    (acc.fields.flatMap fun t => tlvBytes (tlvOfEntry s (tlvEntryOf t))) = ibufBytes s start (p - start)

theorem flexSound_start (s : State) (p : Nat) : FlexSound s p p {} where
  ordered := le_rfl
  distinct := List.nodup_nil
  room := Nat.zero_le _
  inside := by simp
  bytes := by simp [ibufBytes, bufRead_zero]

theorem FlexSound.flexAdd {s : State} {start p stop : Nat} {acc : FlexAcc} {t : TlvField} (h : FlexSound s start p acc)
    (hparse : tlvParse s p stop = .ok t) (hadmit : flexAdmit s acc p t = .ok ()) (hstop : stop < 2 ^ 16) :
    FlexSound s start t.next (flexAdd s.params acc t) := by
  have hlen := tlvParse_len_le hparse
  obtain ⟨hnext, hsum, hoff, -⟩ := tlvParse_ok hparse
  have hstart := h.ordered
  have hold : ∀ x ∈ acc.fields, x.voff + x.len ≤ t.next ∧ x.len ≤ 255 := fun x hx => by
    have := h.inside x hx
    omega
  by_cases hk : flexKnown s.params t.key = true
  · obtain ⟨hnew, hfull⟩ := (flexAdmit_ok_iff s acc p t).mp hadmit hk
    have hroom := h.room
    rw [flexAdd_of_known acc hk]
    refine ⟨by omega, ?_, ?_, ?_, fun hnc hskip => ?_⟩
    · simpa [List.nodup_append, h.distinct] using hnew
    · rw [List.length_append, List.length_singleton]
      omega
    · rw [List.forall_mem_append, List.forall_mem_singleton]
      exact ⟨hold, by omega⟩
    · obtain ⟨hncOld, hcanon⟩ := Bool.or_eq_false_iff.mp hnc
      rw [Bool.not_eq_false'] at hcanon
      rw [List.flatMap_append, List.flatMap_singleton, h.bytes hncOld hskip, tlvBytes_of_parsed hparse hcanon hstop,
        show t.next - start = (p - start) + (t.next - p) by omega, ibufBytes_append, Nat.add_sub_cancel' hstart]
  · rw [flexAdd_of_unknown acc hk]
    exact ⟨by omega, h.distinct, h.room, hold, fun _ hskip => absurd hskip (Nat.succ_ne_zero _)⟩

/-- The loop, given as many turns as the header has bytes left, ends at the header's end with sound fields. -/
theorem flexLoop_sound {s : State} {start hend p fuel : Nat} {acc acc' : FlexAcc} (h : FlexSound s start p acc)
    (hp : p ≤ hend) (hfuel : hend - p < fuel) (hstop : hend < 2 ^ 16) (hloop : flexLoop s hend fuel p acc = .ok acc') :
    FlexSound s start hend acc' := by
  induction fuel generalizing p acc with
  | zero => omega
  | succ fuel ih =>
    rcases Nat.lt_or_ge p hend with hlt | hge
    · rw [flexLoop_of_lt _ _ hlt] at hloop
      obtain ⟨t, hparse, hloop⟩ := (Result.bind_ok_iff _ _ _).mp hloop
      obtain ⟨_, hadmit, hloop⟩ := (Result.bind_ok_iff _ _ _).mp hloop
      obtain ⟨hnext, hsum, hoff, -⟩ := tlvParse_ok hparse
      exact ih (h.flexAdd hparse hadmit hstop) hnext (by omega) hloop
    · rw [flexLoop_of_le _ _ hge] at hloop
      cases hloop
      rwa [Nat.le_antisymm hp hge] at h

/-- What `FLEXDEC` has done when it completes (41_flex.md R154). -/
theorem exec_flexdec_completed {s t : State} (h : exec .flexdec s = .next t) (hdone : t.status = statusDone) :
    ∃ hl acc, t = finish (flexWritten s hl acc) ∧ s.ilen.toNat ≤ s.params.ibufSize ∧
      (ibufByte s s.cur.toNat).toNat = hl ∧ s.cur.toNat + 1 + hl + 4 ≤ s.ilen.toNat ∧
      FlexSound s (s.cur.toNat + 1) (s.cur.toNat + 1 + hl) acc := by
  rcases run_cases h with ⟨r, -, rfl⟩ | ⟨u, hp, hbody, rfl⟩
  · exact absurd hdone.symm statusDone_ne_statusErr
  · rw [flexDecode_eq rfl] at hbody
    split at hbody
    · cases hbody
    · next hwindow =>
      obtain ⟨acc, hloop, hu⟩ := (Result.bind_ok_iff _ _ _).mp hbody
      cases hu
      have hilen := s.ilen.isLt
      have hin := (inputOk_iff s).mp (((prologue_ok_iff _ s).mp hp).2.1 rfl)
      exact ⟨_, acc, rfl, hin.2, rfl, by omega, flexLoop_sound (flexSound_start s _) (by omega) (by omega) (by omega) hloop⟩

/-! ### The operands that `FLEXDEC` leaves for `FLEXENC` -/

theorem flagWord_noncanon (x : FlagSet) : (flagWord x).getLsbD 1 = x.noncanon := by
  simp only [flagWord, BitVec.getLsbD_append]
  simp

theorem flagWord_unknownKey (x : FlagSet) : (flagWord x).getLsbD 2 = x.unknownKey := by
  simp only [flagWord, BitVec.getLsbD_append]
  simp

theorem beNat_two_lt (s : State) (a : Nat) : beNat (ibufBytes s a 2) < 2 ^ 16 := by
  simpa using beNat_lt (ibufBytes s a 2)

theorem storeTlv_take (tbl : Vector TlvEntry 64) {es : List TlvEntry} (h : es.length ≤ 64) :
    (storeTlv tbl es).toList.take es.length = es := by
  apply List.ext_getElem
  · simpa using h
  · intro i h1 h2
    simp [storeTlv, h2]

/-- The state in which `FLEXENC` is issued: `FLEXDEC` has completed and the host has cleared `OLEN` (41_flex.md R156). -/
def flexDecoded (s : State) (hl : Nat) (acc : FlexAcc) : State := { finish (flexWritten s hl acc) with olen := 0 }

section
variable (s : State) (hl : Nat) (acc : FlexAcc)

@[simp] theorem flexDecoded_ibuf : (flexDecoded s hl acc).ibuf = s.ibuf := by
  simp only [flexDecoded, flexWritten, finish_ibuf, writeDecoded_ibuf]

@[simp] theorem flexDecoded_params : (flexDecoded s hl acc).params = s.params := by
  simp only [flexDecoded, flexWritten, finish_params, writeDecoded_params]

@[simp] theorem flexDecoded_ilen : (flexDecoded s hl acc).ilen = s.ilen := by
  simp only [flexDecoded, flexWritten, finish_ilen, writeDecoded_ilen]

@[simp] theorem flexDecoded_olen : (flexDecoded s hl acc).olen = 0 := by
  simp only [flexDecoded]

/-- The whole window is consumed (41_flex.md R154). -/
@[simp] theorem flexDecoded_cur : (flexDecoded s hl acc).cur = s.ilen := by
  simp only [flexDecoded, flexWritten, finish_cur, writeDecoded_cur, flexReport, BitVec.ofNat_toNat, BitVec.setWidth_eq]

theorem ibufBytes_flexDecoded (a n : Nat) :
    ibufBytes (flexDecoded s hl acc) a n = ibufBytes s a n := by rw [ibufBytes, flexDecoded_ibuf, ibufBytes]

theorem tlvOfEntry_flexDecoded (e : TlvEntry) :
    tlvOfEntry (flexDecoded s hl acc) e = tlvOfEntry s e := by simp only [tlvOfEntry, ibufBytes_flexDecoded]

variable {s hl acc} in
/-- A register reported holds its value (10_state.md R24). -/
theorem fVal_flexDecoded {i : Fin 32} {v : Nat} (h : (flexReport s hl acc).fields.lookup i = some v) (hv : v < 2 ^ 32) :
    fVal (flexDecoded s hl acc) i = v := by
  change ((resultRegs (flexReport s hl acc).fields)[i]).toNat = _
  rw [resultRegs_getElem, h, Option.getD_some, BitVec.toNat_ofNat, Nat.mod_eq_of_lt hv]

theorem presBit_flexDecoded (i : Fin 32) :
    presBit (flexDecoded s hl acc) i = ((flexReport s hl acc).fields.lookup i).isSome :=
  presMask_getLsbD _ _

/-- `F[1]` is the class of the frame (41_flex.md R151). -/
theorem fVal_one_flexDecoded :
    fVal (flexDecoded s hl acc) 1 = beNat (ibufBytes s (s.cur.toNat + 1 + hl) 2) := by
  have hlt := beNat_two_lt s (s.cur.toNat + 1 + hl)
  exact fVal_flexDecoded rfl (by omega)

/-- `F[2]` is the raw id of the frame (41_flex.md R151). -/
theorem fVal_two_flexDecoded :
    fVal (flexDecoded s hl acc) 2 = beNat (ibufBytes s (s.cur.toNat + 1 + hl + 2) 2) := by
  have hlt := beNat_two_lt s (s.cur.toNat + 1 + hl + 2)
  exact fVal_flexDecoded rfl (by omega)

/-- The data slice is named in `F[5]` and `F[6]`, and is present when it is not empty (41_flex.md R151). -/
theorem dataSlice_flexDecoded (hin : s.cur.toNat + 1 + hl + 4 ≤ s.ilen.toNat) :
    (presBit (flexDecoded s hl acc) 5 = false ∧ s.ilen.toNat = s.cur.toNat + 1 + hl + 4) ∨
    (presBit (flexDecoded s hl acc) 5 = true ∧ fVal (flexDecoded s hl acc) 5 = s.cur.toNat + 1 + hl + 4 ∧
      fVal (flexDecoded s hl acc) 6 = s.ilen.toNat - (s.cur.toNat + 1 + hl + 4)) := by
  have hilen := s.ilen.isLt
  have hlook : ∀ i : Fin 32, i = 5 ∨ i = 6 → (flexReport s hl acc).fields.lookup i =
      (sliceFields 5 6 (s.cur.toNat + 1 + hl + 4) (s.ilen.toNat - (s.cur.toNat + 1 + hl + 4))).lookup i := by
    rintro i (rfl | rfl) <;> rfl
  rw [presBit_flexDecoded, hlook 5 (.inl rfl)]
  by_cases hdata : s.ilen.toNat - (s.cur.toNat + 1 + hl + 4) > 0
  · rw [sliceFields, if_pos hdata] at hlook ⊢
    exact .inr ⟨rfl, fVal_flexDecoded (hlook 5 (.inl rfl)) (by omega), fVal_flexDecoded (hlook 6 (.inr rfl)) (by omega)⟩
  · rw [sliceFields, if_neg hdata]
    exact .inl ⟨rfl, by omega⟩

variable {s hl acc}

theorem flexDecoded_tlvn (h : acc.fields.length ≤ 64) : (flexDecoded s hl acc).tlvn.toNat = acc.fields.length := by
  simp only [flexDecoded, flexWritten, finish_tlvn, writeDecoded_tlvn, BitVec.toNat_ofNat]
  omega

theorem flexEntries_flexDecoded (h : acc.fields.length ≤ 64) :
    flexEntries (flexDecoded s hl acc) = acc.fields.map tlvEntryOf := by
  have htake := storeTlv_take s.tlv (es := acc.fields.map tlvEntryOf) (by simpa using h)
  rw [List.length_map] at htake
  rw [flexEntries, flexDecoded_tlvn h]
  simpa only [flexDecoded, flexWritten, finish_tlv, writeDecoded_tlv] using htake

/-- The header is written back byte for byte (41_flex.md R156). -/
theorem flexHeader_flexDecoded (hsound : FlexSound s (s.cur.toNat + 1) (s.cur.toNat + 1 + hl) acc)
    (hroom : acc.fields.length ≤ 64) (hcanon : acc.noncanon = false) (hskip : acc.skipped = 0) :
    flexHeader (flexDecoded s hl acc) = ibufBytes s (s.cur.toNat + 1) hl := by
  have hbytes := hsound.bytes hcanon hskip
  rw [Nat.add_sub_cancel_left] at hbytes
  simp only [flexHeader, flexEntries_flexDecoded hroom, List.flatMap_map, tlvOfEntry_flexDecoded, hbytes]

/-- The data slice is the rest of the window (41_flex.md R154). -/
theorem flexData_flexDecoded (s : State) (hl : Nat) (acc : FlexAcc) (hin : s.cur.toNat + 1 + hl + 4 ≤ s.ilen.toNat) :
    flexData (flexDecoded s hl acc) =
      ibufBytes s (s.cur.toNat + 1 + hl + 4) (s.ilen.toNat - (s.cur.toNat + 1 + hl + 4)) := by
  rw [flexData]
  rcases dataSlice_flexDecoded s hl acc hin with ⟨hpres, hend⟩ | ⟨hpres, hoff, hlen⟩
  · rw [hpres, hend, Nat.sub_self]
    rfl
  · rw [hpres, if_pos rfl, hoff, hlen, ibufBytes_flexDecoded]

/-- The window of a frame, piece by piece (30_encoding.md R92). -/
theorem window_eq_frame (s : State) (hl : Nat) (hin : s.cur.toNat + 1 + hl + 4 ≤ s.ilen.toNat) :
    window s = [ibufByte s s.cur.toNat] ++ ibufBytes s (s.cur.toNat + 1) hl ++ ibufBytes s (s.cur.toNat + 1 + hl) 2
      ++ ibufBytes s (s.cur.toNat + 1 + hl + 2) 2
      ++ ibufBytes s (s.cur.toNat + 1 + hl + 4) (s.ilen.toNat - (s.cur.toNat + 1 + hl + 4)) := by
  rw [window, show s.ilen.toNat - s.cur.toNat = 1 + hl + 2 + 2 + (s.ilen.toNat - (s.cur.toNat + 1 + hl + 4)) by omega,
    ibufBytes_append, ibufBytes_append, ibufBytes_append, ibufBytes_append]
  simp only [← Nat.add_assoc]
  rfl

/-- The frame that `FLEXENC` writes is the window (41_flex.md R156). -/
theorem flexFrame_flexDecoded (hhl : (ibufByte s s.cur.toNat).toNat = hl)
    (hin : s.cur.toNat + 1 + hl + 4 ≤ s.ilen.toNat)
    (hhdr : flexHeader (flexDecoded s hl acc) = ibufBytes s (s.cur.toNat + 1) hl) :
    flexFrame (flexDecoded s hl acc) = window s := by
  have hlead : octet hl = ibufByte s s.cur.toNat := by rw [← hhl, octet, BitVec.ofNat_toNat, BitVec.setWidth_eq]
  rw [flexFrame, hhdr, ibufBytes_length, hlead, fVal_one_flexDecoded, fVal_two_flexDecoded, flexData_flexDecoded s hl acc hin,
    bytesBE_eq_of_beNat rfl (ibufBytes_length _ _ _), bytesBE_eq_of_beNat rfl (ibufBytes_length _ _ _),
    window_eq_frame s hl hin]

/-- The entries of a table with distinct keys and slices in the valid bytes pass their tests (41_flex.md R155). -/
theorem entryChecks_pass {u : State} {table : List TlvEntry} (hkeys : (table.map (·.key)).Nodup)
    (hin : ∀ e ∈ table, e.off.toNat + e.len.toNat ≤ u.ilen.toNat) :
    ∀ c ∈ table.zipIdx.flatMap (fun x => entryChecks u table x.1 x.2), c.fails = false := by
  intro c hc
  obtain ⟨⟨e, i⟩, he, hc⟩ := List.mem_flatMap.mp hc
  obtain ⟨hi, rfl⟩ := List.getElem?_eq_some_iff.mp (List.mk_mem_zipIdx_iff_getElem?.mp he)
  simp only [entryChecks, List.mem_cons, List.not_mem_nil, or_false] at hc
  rcases hc with rfl | rfl
  · refine List.any_eq_false.mpr fun e' he' hsame => ?_
    obtain ⟨j, hj, rfl⟩ := List.mem_take_iff_getElem.mp he'
    have hij : j = i := (hkeys.getElem_inj_iff (hi := by simp; omega) (hj := by simpa using hi)).mp
      (by simpa using hsame)
    omega
  · exact decide_eq_false (Nat.not_lt.mpr (hin _ (List.getElem_mem hi)))

/-- The entries of sound fields have distinct keys and slices before the header's end. -/
theorem FlexSound.entries {start p : Nat} (h : FlexSound s start p acc) :
    ((acc.fields.map tlvEntryOf).map (·.key)).Nodup ∧
      ∀ e ∈ acc.fields.map tlvEntryOf, e.off.toNat + e.len.toNat ≤ p := by
  refine ⟨by simpa [tlvEntryOf, Function.comp_def] using h.distinct, fun e he => ?_⟩
  obtain ⟨t, ht, rfl⟩ := List.mem_map.mp he
  obtain ⟨hin, -⟩ := h.inside t ht
  exact (Nat.add_le_add (BitVec.toNat_ofNat _ _ ▸ Nat.mod_le _ _) (BitVec.toNat_ofNat _ _ ▸ Nat.mod_le _ _)).trans hin

/-- No test of `FLEXENC` fails on what `FLEXDEC` leaves (41_flex.md R156). -/
theorem flexChecks_flexDecoded (hhl : hl ≤ 255) (hin : s.cur.toNat + 1 + hl + 4 ≤ s.ilen.toNat)
    (hsound : FlexSound s (s.cur.toNat + 1) (s.cur.toNat + 1 + hl) acc) (hroom : acc.fields.length ≤ 64)
    (hhdr : flexHeader (flexDecoded s hl acc) = ibufBytes s (s.cur.toNat + 1) hl) :
    firstFailing (flexChecks (flexDecoded s hl acc)) = none := by
  have hcls := beNat_two_lt s (s.cur.toNat + 1 + hl)
  have hid := beNat_two_lt s (s.cur.toNat + 1 + hl + 2)
  have hilen := s.ilen.isLt
  obtain ⟨hkeys, hslices⟩ := hsound.entries
  rw [flexChecks_eq, firstFailing_eq_none_iff, flexEntries_flexDecoded hroom, hhdr, fVal_one_flexDecoded,
    fVal_two_flexDecoded, ibufBytes_length, flexDecoded_tlvn hroom, flexDecoded_params]
  simp only [List.forall_mem_append, List.forall_mem_cons, List.not_mem_nil, IsEmpty.forall_iff, implies_true, and_true,
    decide_eq_false_iff_not, Nat.not_lt, Nat.not_le]
  refine ⟨⟨⟨hsound.room, entryChecks_pass hkeys fun e he => ?_⟩, hhl, hcls, hid⟩, ?_⟩
  · have hbefore := hslices e he
    rw [flexDecoded_ilen]
    omega
  · rcases dataSlice_flexDecoded s hl acc hin with ⟨hpres, -⟩ | ⟨hpres, hoff, hlen⟩
    · simp [hpres]
    · simp only [hpres, if_true, sliceCheck, hoff, hlen, flexDecoded_ilen, List.forall_mem_singleton,
        decide_eq_false_iff_not]
      omega

end

end Sys2Proof.Machine

/-- Settles O39: the decoder's fields are sound, so that the encoder's tests pass and its frame is the window. -/
theorem flexRoundTrip : Obligations.FlexRoundTrip := by
  intro s t hv hexec hdone hnc huk hroom
  obtain ⟨hl, acc, rfl, hi, hhl, hin, hsound⟩ := exec_flexdec_completed hexec hdone
  have hcanon : acc.noncanon = false := (flagWord_noncanon (flexReport s hl acc).flags).symm.trans hnc
  have hskip : acc.skipped = 0 := by
    have hfalse : decide (acc.skipped > 0) = false := (flagWord_unknownKey (flexReport s hl acc).flags).symm.trans huk
    simpa using hfalse
  have htable : acc.fields.length ≤ 64 := by
    have hmax : s.params.tlvMax ≤ 64 := by
      simp only [Params.valid, Bool.and_eq_true, decide_eq_true_eq] at hv
      omega
    exact hsound.room.trans hmax
  have hhdr := flexHeader_flexDecoded hsound htable hcanon hskip
  have hp : prologue .flexenc (flexDecoded s hl acc) = .ok () :=
    prologue_ok_of_input_output rfl (by simp) (by simpa using hi) (by simp)
  have hbody := flexEncode_eq (flexDecoded s hl acc)
  rw [afterChecks_of_none _ (flexChecks_flexDecoded (by have := (ibufByte s s.cur.toNat).isLt; omega) hin hsound htable hhdr),
    flexFrame_flexDecoded hhl hin hhdr] at hbody
  have hfits : HasRoom (flexDecoded s hl acc) (window s).length := by simpa [HasRoom] using hroom
  exact runEncode_completes hp hbody hfits
end

section
/-! SUPPORT. What stands in `IBUF` from an offset up to `ILEN`: a parser that has taken one piece of a header finds the next
one so (42_asl.md R172). -/

open Sys2Proof Sys2Proof.Machine

namespace Sys2Proof.Machine

/-- The bytes of `IBUF` from offset `p` up to `ILEN` are `bs`. -/
def Ahead (s : State) (p : Nat) (bs : List Byte) : Prop :=
  s.ilen.toNat = p + bs.length ∧ ibufBytes s p bs.length = bs

section
variable {s : State} {p : Nat} {bs cs : List Byte} {b : Byte}

/-- The window is what stands at the cursor. -/
theorem ahead_window (hc : s.cur.toNat ≤ s.ilen.toNat) (hw : window s = bs) : Ahead s s.cur.toNat bs :=
  ⟨ilen_of_window hw hc, ibufBytes_cur (rest := []) (by rw [hw, List.append_nil])⟩

theorem Ahead.append (h : Ahead s p (bs ++ cs)) : ibufBytes s p bs.length = bs ∧ Ahead s (p + bs.length) cs := by
  obtain ⟨hlen, hread⟩ := h
  rw [List.length_append] at hlen hread
  rw [ibufBytes_append] at hread
  obtain ⟨hbs, hcs⟩ := List.append_inj hread (ibufBytes_length s p bs.length)
  exact ⟨hbs, by rw [hlen, Nat.add_assoc], hcs⟩

theorem Ahead.read (h : Ahead s p (bs ++ cs)) : ibufBytes s p bs.length = bs := h.append.1

theorem Ahead.skip (h : Ahead s p (bs ++ cs)) : Ahead s (p + bs.length) cs := h.append.2

theorem ibufBytes_one (s : State) (p : Nat) : ibufBytes s p 1 = [ibufByte s p] := rfl

theorem Ahead.byte (h : Ahead s p (b :: cs)) : ibufByte s p = b :=
  List.singleton_inj.mp ((ibufBytes_one s p).symm.trans (Ahead.read (bs := [b]) h))

/-- All that is ahead, as `PFX` is given it (42_asl.md R170). -/
theorem Ahead.all (h : Ahead s p bs) : ibufBytes s p (s.ilen.toNat - p) = bs := by
  obtain ⟨hlen, hread⟩ := h
  rw [hlen, Nat.add_sub_cancel_left, hread]

/-- `Need` passes for what is ahead (00_scope.md R13). -/
theorem Ahead.need {n : Nat} (h : Ahead s p bs) (hn : n ≤ bs.length) : need p n s.ilen.toNat = .ok () := by
  rw [need_ok_iff, h.1]
  exact Nat.add_le_add_left hn p

end

end Sys2Proof.Machine
end

section
/-! SUPPORT. `ASLDEC` (42_asl.md R172), block by block: what each block's parser answers where the block's bytes stand ahead,
and the header as their sequence. -/

open Sys2Proof Sys2Proof.Machine Sys2Proof.Layout

namespace Sys2Proof.Machine

/-! ### The flag byte -/

/-- One bit of a byte, as a field of one bit (30_encoding.md R94). -/
theorem extractLsb'_one_toNat (g : Byte) (i : Nat) : (g.extractLsb' i 1).toNat = (g.getLsbD i).toNat := by
  rw [toNat_extract, BitVec.getLsbD, Nat.toNat_testBit, Nat.pow_one]

theorem bit_eq_one_iff (b : BitVec 1) : b = 1 ↔ b.toNat = 1 := BitVec.toNat_eq

/-- With `app_enc_ena` set decoding stops after the flag byte (42_asl.md R172). -/
theorem aslDecode_encrypted {s : State} {g : Byte} {rest : List Byte} (h : Ahead s s.cur.toNat (g :: rest))
    (henc : (aslFlagsOf g).appEncEna = 1) :
    aslDecode s = .ok {
      fields := aslFlagFields g ++ sliceAt 24 25 (s.cur.toNat + 1) rest.length
      cur := s.ilen.toNat
      flags := { encrypted := true } } := by
  have hrest : s.ilen.toNat - (s.cur.toNat + 1) = rest.length := by
    rw [h.1, List.length_cons]
    omega
  simp only [aslDecode, h.need (n := 1) (by simp), Result.ok_bind, h.byte, henc, if_true, sliceFields_eq, hrest,
    Result.pure_eq]

end Sys2Proof.Machine

/-- Settles O40: the flag byte alone is read, and the rest of the window is the slice. -/
theorem aslDecodeEncrypted : Obligations.AslDecodeEncrypted := by
  intro s hc hi
  have hp : prologue .asldec s = .ok () := prologue_ok_of_input rfl rfl hc hi
  refine ⟨fun hw => runDecode_raises hp ?_, fun g rest hw hg => ?_⟩
  · have hempty := ilen_of_window hw hc
    rw [List.length_nil] at hempty
    rw [aslDecode]
    simp only [need_bind, if_pos (show s.ilen.toNat < s.cur.toNat + 1 by omega)]
  · have henc : (aslFlagsOf g).appEncEna.toNat = 1 := (extractLsb'_one_toNat g 4).trans (by rw [hg]; rfl)
    have hbody := aslDecode_encrypted (ahead_window hc hw) ((bit_eq_one_iff _).mpr henc)
    rw [← flagWord_decodeFlags]
    simp only [aslFlagFields, henc] at hbody
    simp only [← extractLsb'_one_toNat]
    exact runDecode_reports hp hbody
end

section
/-! SUPPORT. `ASLDEC` on a header that is not encrypted (42_asl.md R172): each optional block where its bytes stand ahead, the
header as their sequence, and the blocks that raise. -/

open Sys2Proof Sys2Proof.Machine Sys2Proof.Layout

namespace Sys2Proof.Machine

/-! ### The blocks before the blob -/

/-- The flag byte of a header that is not encrypted, by its flags (30_encoding.md R94). -/
theorem aslFlagsOf_octet {x : Asl} (hx : aslHeadLegal x = true) :
    aslFlagsOf (octet (aslFlagByte x)) =
      { versionInc := BitVec.ofNat 1 x.versionInc, respReq := BitVec.ofNat 1 x.respReq, seqnInc := BitVec.ofNat 1 x.seqnInc
        appEncEna := 0, statusHdrInc := BitVec.ofNat 1 x.statusHdrInc, nwDataBlobInc := BitVec.ofNat 1 x.blobInc } := by
  simp only [aslHeadLegal, decide_eq_true_eq] at hx
  simp only [aslFlagsOf, AslFlagByte.mk.injEq]
  refine ⟨?_, ?_, ?_, ?_, ?_, ?_⟩ <;>
  · apply BitVec.eq_of_toNat_eq
    simp only [toNat_extract, aslFlagByte, BitVec.ofNat_eq_ofNat, BitVec.toNat_ofNat]
    omega

theorem aslFlagByte_lt {x : Asl} (hx : aslHeadLegal x = true) : aslFlagByte x < 256 := by
  simp only [aslHeadLegal, decide_eq_true_eq] at hx
  rw [aslFlagByte]
  omega

theorem toNat_ofNat_one {n : Nat} (h : n < 2) : (BitVec.ofNat 1 n).toNat = n := by
  rw [BitVec.toNat_ofNat, Nat.mod_eq_of_lt (by omega)]

theorem ofNat_one_eq_one_iff {n : Nat} (h : n < 2) : BitVec.ofNat 1 n = 1 ↔ n = 1 := by
  rw [bit_eq_one_iff, toNat_ofNat_one h]

/-- An optional block, its bytes `bs` being there only if its flag is 1. -/
theorem gated_of_flag {n p : Nat} {bs : List Byte} {m : Result Parsed} {fs : Fields} {nc : Bool}
    (hm : n = 1 → m = .ok { fields := fs, next := p + bs.length, noncanon := nc }) (habsent : n ≠ 1 → bs = []) :
    gated (decide (n = 1)) p m = .ok { fields := ifSet n fs, next := p + bs.length, noncanon := (n == 1) && nc } := by
  by_cases h : n = 1
  · rw [decide_eq_true h, gated_true, hm h, h]
    rfl
  · rw [decide_eq_false h, gated_false, ifSet_of_ne h, habsent h, beq_false_of_ne h]
    rfl

/-- The version block (42_asl.md R172). -/
theorem aslVersionParse_ahead {s : State} {p version minor : Nat} {rest : List Byte} (hv : version < 4) (hm : minor < 64)
    (h : Ahead s p (octet (64 * version + minor) :: rest)) :
    aslVersionParse s p = .ok { fields := [(7, version), (8, minor)], next := p + 1 } := by
  simp only [aslVersionParse, h.need (n := 1) (by simp), Result.ok_bind, h.byte, aslVersionOf_version,
    aslVersionOf_classMajorMinor, BitVec.toNat_ofNat, Result.pure_eq]
  rw [show (64 * version + minor) % 2 ^ 8 / 64 % 4 = version by omega,
    show (64 * version + minor) % 2 ^ 8 % 64 = minor by omega]

/-- The sequence-number block of `x` at offset `p` as it is reported, empty where it is absent (42_asl.md R171, R172). -/
def aslSeqnPart (q : Params) (x : Asl) (p : Nat) : Parsed where
  fields := ifSet x.seqnInc [(9, x.seqnVal), (10, x.seqn.length)]
  next := p + x.seqn.length
  noncanon := (x.seqnInc == 1) && vwNarrower q .seq2 x.seqnVal x.seqn.length

/-- The sequence-number block, there or not (42_asl.md R172). -/
theorem aslSeqn_ahead {s : State} {p : Nat} {x : Asl} {rest : List Byte} (hx : aslLegal1 s.params x = true)
    (h : Ahead s p (x.seqn ++ rest)) :
    gated (decide (x.seqnInc = 1)) p (aslSeqnParse s p) = .ok (aslSeqnPart s.params x p) := by
  simp only [aslLegal1, Bool.and_eq_true] at hx
  obtain ⟨-, hseqn⟩ := hx
  refine gated_of_flag (fun h1 => ?_) fun h0 => by simpa [h0] using hseqn
  rw [if_pos h1] at hseqn
  have hend : p + x.seqn.length ≤ s.ilen.toNat := by
    rw [h.1, List.length_append]
    omega
  rw [aslSeqnParse, vwDecode_of_field hseqn h.read hend, Result.ok_bind, vwCanon_of_field hseqn, Bool.not_not]
  rfl

/-! ### The blob and `additional_app_data` -/

/-- A blob that one of the table's prefixes announces (42_asl.md R170). -/
theorem lenPrefixed_ahead {s : State} {p : Nat} {pfx : Option PrefixTable} {pre bs rest : List Byte}
    (hf : prefixFree (pfx.getD []) = true) (hl : blobLegal pfx 1 pre bs = true) (h : Ahead s p (pre ++ bs ++ rest)) :
    lenPrefixed s pfx p =
      .ok { off := p + pre.length, len := bs.length, next := p + pre.length + bs.length } := by
  rw [List.append_assoc] at h
  cases pfx with
  | none => simp [blobLegal] at hl
  | some t =>
    have hmem : (pre, bs.length) ∈ t := by simpa [blobLegal] using hl
    rw [Option.getD_some] at hf
    simp only [lenPrefixed, h.all, prefixRead_of_mem hf hmem, h.skip.need (n := bs.length) (by simp), Result.ok_bind,
      Result.pure_eq]

/-- None of the prefixes stands there (42_asl.md R170). -/
theorem lenPrefixed_unrecognised {s : State} {p : Nat} {table : PrefixTable} {rest : List Byte} (h : Ahead s p rest)
    (hnone : ∀ e ∈ table, ¬e.1 <+: rest) : lenPrefixed s (some table) p = raising .malformedField p := by
  simp only [lenPrefixed, h.all, prefixRead_eq_none hnone]

/-- Both tables of a lawful configuration answer by the bytes read (00_scope.md R10 (a)). -/
theorem prefixFree_of_valid {q : Params} (hv : q.valid = true) :
    prefixFree (q.aslBlobPrefix.getD []) = true ∧ prefixFree (q.aslAadPrefix.getD []) = true := by
  simp only [Params.valid, Bool.and_eq_true] at hv
  tauto

/-- A blob that is not announced takes no bytes (30_encoding.md R95). -/
theorem blobLegal_absent {pfx : Option PrefixTable} {flag : Nat} {pre bs : List Byte} (h : blobLegal pfx flag pre bs = true)
    (h0 : flag ≠ 1) : pre = [] ∧ bs = [] := by
  simpa [blobLegal, h0] using h

/-- What the parsers of the two blobs share: offset and length go to the registers `o` and `l` (42_asl.md R171, R172). -/
def blobParse (s : State) (pfx : Option PrefixTable) (o l : Fin 32) (p : Nat) : Result Parsed := do
  let x ← lenPrefixed s pfx p
  pure { fields := [(o, x.off), (l, x.len)], next := x.next }

theorem aslBlobParse_eq (s : State) (p : Nat) : aslBlobParse s p = blobParse s s.params.aslBlobPrefix 11 12 p := rfl

theorem aslAadParse_eq (s : State) (p : Nat) : aslAadParse s p = blobParse s s.params.aslAadPrefix 16 17 p := rfl

/-- A blob, there or not (42_asl.md R172). -/
theorem blobParse_ahead {s : State} {p flag : Nat} {pfx : Option PrefixTable} {pre bs rest : List Byte} (o l : Fin 32)
    (hf : prefixFree (pfx.getD []) = true) (hl : blobLegal pfx flag pre bs = true) (h : Ahead s p (pre ++ bs ++ rest)) :
    gated (decide (flag = 1)) p (blobParse s pfx o l p) = .ok {
      fields := ifSet flag [(o, p + pre.length), (l, bs.length)]
      next := p + (pre ++ bs).length } := by
  have hgate := gated_of_flag (n := flag) (p := p) (bs := pre ++ bs) (m := blobParse s pfx o l p)
    (fs := [(o, p + pre.length), (l, bs.length)]) (nc := false) (fun h1 => ?_) fun h0 => ?_
  · rw [hgate, Bool.and_false]
  · rw [blobParse, lenPrefixed_ahead hf (h1 ▸ hl) h, Result.ok_bind, List.length_append, ← Nat.add_assoc]
    rfl
  · obtain ⟨hpre, hbs⟩ := blobLegal_absent hl h0
    rw [hpre, hbs, List.nil_append]

/-- A blob that is announced and cannot be located (42_asl.md R170). -/
theorem blobParse_raises {s : State} {p : Nat} {pfx : Option PrefixTable} {c : Cause} {n : Nat} (o l : Fin 32)
    (h : lenPrefixed s pfx p = raising c n) : blobParse s pfx o l p = raising c n := by
  rw [blobParse, h, raising_bind]

/-! ### The status block -/

/-- What follows `status_code` in the status block of `x`, `q` being the offset after it (42_asl.md R172). -/
def aslStatusTail (s : State) (x : Asl) (q : Nat) : Result Parsed := do
  let aad ← gated (decide (x.aadInc = 1)) q (aslAadParse s q)
  pure { fields := [(13, x.codeInc), (14, x.aadInc)] ++ ifSet x.codeInc [(15, beNat x.code)] ++ aad.fields, next := aad.next }

/-- The status byte and `status_code` (42_asl.md R172). -/
theorem aslStatusParse_ahead {s : State} {p : Nat} {x : Asl} {rest : List Byte} (hx : aslLegal2 s.params x = true)
    (hstat : x.statusHdrInc = 1)
    (h : Ahead s p (octet (128 * x.codeInc + 64 * x.aadInc + x.statusPad) :: (x.code ++ rest))) :
    aslStatusParse s p = aslStatusTail s x (p + 1 + x.code.length) := by
  simp only [aslLegal2, Bool.and_eq_true, decide_eq_true_eq, hstat, true_and] at hx
  obtain ⟨-, hcode, haad, hpad, hlen⟩ := hx
  have hcodeInc : (aslStatusOf (octet (128 * x.codeInc + 64 * x.aadInc + x.statusPad))).statusCodeInc.toNat = x.codeInc := by
    rw [aslStatusOf_statusCodeInc, BitVec.toNat_ofNat]
    omega
  have haadInc :
      (aslStatusOf (octet (128 * x.codeInc + 64 * x.aadInc + x.statusPad))).additionalAppDataInc.toNat = x.aadInc := by
    rw [aslStatusOf_additionalAppDataInc, BitVec.toNat_ofNat]
    omega
  have hnext : Ahead s (p + 1) (x.code ++ rest) := Ahead.skip (bs := [_]) h
  have hgate : gated (decide (x.codeInc = 1)) (p + 1) (aslCodeParse s (p + 1)) = .ok {
      fields := ifSet x.codeInc [(15, beNat x.code)], next := p + 1 + x.code.length } := by
    have hflag := gated_of_flag (n := x.codeInc) (p := p + 1) (bs := x.code) (m := aslCodeParse s (p + 1))
      (fs := [(15, beNat x.code)]) (nc := false) (fun h1 => ?_) fun h0 => ?_
    · rw [hflag, Bool.and_false]
    · rw [if_pos h1] at hlen
      rw [aslCodeParse, ← hlen, hnext.need (by simp), Result.ok_bind, hnext.read]
      rfl
    · rw [if_neg h0] at hlen
      exact List.eq_nil_of_length_eq_zero hlen
  simp only [aslStatusParse, h.need (n := 1) (by simp), Result.ok_bind, h.byte, bit_eq_one_iff, hcodeInc, haadInc, hgate,
    aslStatusTail]

/-- The status block up to `status_code`, empty where it is absent (30_encoding.md R95). -/
def aslStatusBytes (x : Asl) : List Byte :=
  ifSet x.statusHdrInc [octet (128 * x.codeInc + 64 * x.aadInc + x.statusPad)] ++ x.code

theorem aslStatusBytes_present {x : Asl} (hstat : x.statusHdrInc = 1) :
    aslStatusBytes x = octet (128 * x.codeInc + 64 * x.aadInc + x.statusPad) :: x.code := by
  rw [aslStatusBytes, hstat, ifSet_one, List.singleton_append]

theorem aslStatusBytes_absent {p : Params} {x : Asl} (hx : aslLegal2 p x = true) (hstat : x.statusHdrInc ≠ 1) :
    aslStatusBytes x = [] := by
  simp only [aslLegal2, Bool.and_eq_true, decide_eq_true_eq, hstat, false_and, if_false] at hx
  obtain ⟨-, -, -, -, hlen⟩ := hx
  rw [aslStatusBytes, ifSet_of_ne hstat, List.eq_nil_of_length_eq_zero hlen, List.nil_append]

theorem aslBytes2_eq_status (x : Asl) :
    aslBytes2 x = aslBytes1 x ++ (x.blobPrefix ++ x.blob) ++ aslStatusBytes x := by
  simp only [aslBytes2_eq, aslStatusBytes, List.append_assoc]

/-- The status block, there or not (42_asl.md R172). -/
theorem aslStatus_ahead {s : State} {p : Nat} {x : Asl} {rest : List Byte} (hv : s.params.valid = true)
    (hx : aslLegal s.params x = true) (h : Ahead s p (aslStatusBytes x ++ (x.aadPrefix ++ x.aad ++ rest))) :
    gated (decide (x.statusHdrInc = 1)) p (aslStatusParse s p) = .ok {
      fields := ifSet x.statusHdrInc ([(13, x.codeInc), (14, x.aadInc)] ++ ifSet x.codeInc [(15, beNat x.code)]
        ++ ifSet x.aadInc [(16, p + (aslStatusBytes x).length + x.aadPrefix.length), (17, x.aad.length)])
      next := p + (aslStatusBytes x).length + (x.aadPrefix ++ x.aad).length } := by
  simp only [aslLegal, Bool.and_eq_true] at hx
  obtain ⟨⟨hx, haad⟩, -⟩ := hx
  by_cases hstat : x.statusHdrInc = 1
  · have hlen : p + 1 + x.code.length = p + (aslStatusBytes x).length := by
      rw [aslStatusBytes_present hstat, List.length_cons]
      omega
    have hparse := aslStatusParse_ahead hx hstat (by rwa [aslStatusBytes_present hstat, List.cons_append] at h)
    rw [hstat, Nat.one_mul] at haad
    rw [hstat, decide_eq_true rfl, gated_true, hparse, hlen, aslStatusTail, aslAadParse_eq,
      blobParse_ahead 16 17 (prefixFree_of_valid hv).2 haad h.skip]
    rfl
  · obtain ⟨hpre, hbs⟩ := blobLegal_absent haad fun h1 => hstat (Nat.eq_one_of_mul_eq_one_right h1)
    rw [decide_eq_false hstat, gated_false, ifSet_of_ne hstat, aslStatusBytes_absent hx hstat, hpre, hbs]
    rfl

/-! ### The opcode/address block -/

/-- The opcode/address byte, field by field (30_encoding.md R96). -/
theorem aslOpaddrOf_octet {x : Asl} (hopc : x.opc < 4) (hpad : x.addrPad < 2) (hext : x.ext < 2) (hcf : x.cf < 4)
    (hidf : x.idf < 4) :
    (octet (aslAddrByte x)).toNat = aslAddrByte x ∧
    aslOpaddrOf (octet (aslAddrByte x)) =
      { opc := BitVec.ofNat 2 x.opc, ext := BitVec.ofNat 1 x.ext, cf := BitVec.ofNat 2 x.cf, idf := BitVec.ofNat 2 x.idf } := by
  simp only [aslOpaddrOf, AslOpaddrByte.mk.injEq]
  refine ⟨?_, ?_, ?_, ?_, ?_⟩
  · rw [BitVec.toNat_ofNat, aslAddrByte]
    omega
  all_goals
    apply BitVec.eq_of_toNat_eq
    simp only [toNat_extract, aslAddrByte, BitVec.toNat_ofNat]
    omega

/-- The opcode/address block, inline or extended (42_asl.md R172, 30_encoding.md R96). -/
theorem aslOpaddr_ahead {s : State} {p : Nat} {x : Asl} {rest : List Byte} (hx : aslLegal s.params x = true)
    (h : Ahead s p (octet (aslAddrByte x) :: (x.cls ++ x.id ++ rest))) :
    aslOpaddrParse s p = .ok {
      fields := [(18, x.opc), (19, x.ext), (20, aslClass x), (21, x.cls.length), (22, aslId x), (23, x.id.length),
        (26, aslAddrByte x)]
      next := p + 1 + x.cls.length + x.id.length
      noncanon := (x.ext == 1) &&
        (decide (minBytes (aslClass x) < x.cls.length) || decide (minBytes (aslId x) < x.id.length)) } := by
  simp only [aslLegal, Bool.and_eq_true, decide_eq_true_eq] at hx
  obtain ⟨-, hopc, hpad, hext, hcf, hidf, hcls, hid⟩ := hx
  obtain ⟨hbyte, hfields⟩ := aslOpaddrOf_octet hopc hpad hext hcf hidf
  have hopc2 : (BitVec.ofNat 2 x.opc).toNat = x.opc := Nat.mod_eq_of_lt hopc
  have hcf2 : (BitVec.ofNat 2 x.cf).toNat = x.cf := Nat.mod_eq_of_lt hcf
  have hidf2 : (BitVec.ofNat 2 x.idf).toNat = x.idf := Nat.mod_eq_of_lt hidf
  unfold aslOpaddrParse
  simp only [h.need (n := 1) (by simp), Result.ok_bind, h.byte, hfields, hbyte, hopc2, hcf2, hidf2]
  have hnext : Ahead s (p + 1) (x.cls ++ x.id ++ rest) := Ahead.skip (bs := [_]) h
  rw [List.append_assoc] at hnext
  interval_cases hE : x.ext
  · simp only [aslClass, aslId, hE, hcls, hid]
    rfl
  · have hcw : x.cf + 1 = x.cls.length := hcls.symm
    have hiw : x.idf + 1 = x.id.length := hid.symm
    rw [if_neg (by decide), hcw, hiw, hnext.need (by simp), Result.ok_bind, hnext.skip.need (by simp), Result.ok_bind,
      hnext.read, hnext.skip.read]
    simp [aslClass, aslId, hE, Result.pure_eq]

/-! ### The blocks in sequence -/

/-- `F[0..8]` of a header: flag byte and version block (42_asl.md R171). -/
def aslHeadFields (x : Asl) : Fields :=
  [(0, aslFlagByte x), (1, x.versionInc), (2, x.respReq), (3, x.seqnInc), (4, 0), (5, x.statusHdrInc), (6, x.blobInc)]
    ++ ifSet x.versionInc [(7, x.version), (8, x.classMajorMinor)]

/-- What `ASLDEC` does after the sequence-number block `seqn` of `x` (42_asl.md R172). -/
def aslFromBlob (s : State) (x : Asl) (seqn : Parsed) : Result Decoded := do
  let blob ← gated (decide (x.blobInc = 1)) seqn.next (aslBlobParse s seqn.next)
  let stat ← gated (decide (x.statusHdrInc = 1)) blob.next (aslStatusParse s blob.next)
  let addr ← aslOpaddrParse s stat.next
  pure {
    fields := aslHeadFields x ++ seqn.fields ++ blob.fields ++ stat.fields ++ addr.fields
      ++ sliceFields 24 25 addr.next (s.ilen.toNat - addr.next)
    cur := s.ilen.toNat
    flags := { noncanon := seqn.noncanon || addr.noncanon } }

/-- What `ASLDEC` does after the version block of `x`, from offset `p` on (42_asl.md R172). -/
def aslFromSeqn (s : State) (x : Asl) (p : Nat) : Result Decoded := do
  let seqn ← gated (decide (x.seqnInc = 1)) p (aslSeqnParse s p)
  aslFromBlob s x seqn

/-- The flag byte and the version block are read (42_asl.md R172). -/
theorem aslDecode_head {s : State} {x : Asl} {rest : List Byte} (hx : aslHeadLegal x = true)
    (h : Ahead s s.cur.toNat ((aslHead x).flatten ++ rest)) :
    aslDecode s = aslFromSeqn s x (s.cur.toNat + (aslHead x).flatten.length) := by
  have hflags := aslFlagsOf_octet hx
  have hbyte : (octet (aslFlagByte x)).toNat = aslFlagByte x := by
    rw [BitVec.toNat_ofNat, Nat.mod_eq_of_lt (aslFlagByte_lt hx)]
  simp only [aslHeadLegal, decide_eq_true_eq] at hx
  obtain ⟨hver, hresp, hseqn, hstat, hblob, -, hversion, hminor⟩ := hx
  simp only [aslHead, List.flatten_cons, List.flatten_nil, List.append_nil, List.singleton_append] at h
  have hnext : Ahead s (s.cur.toNat + 1) (ifSet x.versionInc [octet (64 * x.version + x.classMajorMinor)] ++ rest) :=
    Ahead.skip (bs := [_]) h
  have hgate : gated (decide (x.versionInc = 1)) (s.cur.toNat + 1) (aslVersionParse s (s.cur.toNat + 1)) = .ok {
      fields := ifSet x.versionInc [(7, x.version), (8, x.classMajorMinor)]
      next := s.cur.toNat + (aslHead x).flatten.length } := by
    have hflag := gated_of_flag (n := x.versionInc) (p := s.cur.toNat + 1)
      (bs := ifSet x.versionInc [octet (64 * x.version + x.classMajorMinor)]) (m := aslVersionParse s (s.cur.toNat + 1))
      (fs := [(7, x.version), (8, x.classMajorMinor)]) (nc := false) (fun h1 => ?_) fun h0 => ifSet_of_ne h0 _
    · rw [hflag, Bool.and_false]
      simp [aslHead, Nat.add_assoc, Nat.add_comm 1]
    · rw [h1, ifSet_one] at hnext
      rw [aslVersionParse_ahead hversion hminor hnext, h1]
      rfl
  unfold aslDecode
  simp only [h.need (n := 1) (by simp), Result.ok_bind, h.byte, aslFlagFields, hflags, hbyte, ofNat_one_eq_one_iff hver,
    ofNat_one_eq_one_iff hseqn, ofNat_one_eq_one_iff hblob, ofNat_one_eq_one_iff hstat, toNat_ofNat_one hver,
    toNat_ofNat_one hresp, toNat_ofNat_one hseqn, toNat_ofNat_one hblob, toNat_ofNat_one hstat, hgate]
  rfl

/-- The blocks before the blob are read (42_asl.md R172). -/
theorem aslDecode_seqn {s : State} {x : Asl} {rest : List Byte} (hx : aslLegal1 s.params x = true)
    (h : Ahead s s.cur.toNat (aslBytes1 x ++ rest)) :
    aslDecode s = aslFromBlob s x (aslSeqnPart s.params x (s.cur.toNat + (aslHead x).flatten.length)) := by
  have hhead : aslHeadLegal x = true := by
    simp only [aslLegal1, Bool.and_eq_true] at hx
    obtain ⟨hhead, -⟩ := hx
    exact hhead
  rw [aslBytes1_eq, List.append_assoc] at h
  rw [aslDecode_head hhead h, aslFromSeqn, aslSeqn_ahead hx h.skip, Result.ok_bind]

/-- Where the blob block starts (30_encoding.md R95). -/
theorem aslSeqnPart_next (q : Params) (x : Asl) (p : Nat) :
    (aslSeqnPart q x (p + (aslHead x).flatten.length)).next = p + (aslBytes1 x).length := by
  rw [aslSeqnPart, aslBytes1_eq, List.length_append, Nat.add_assoc]

theorem aslLegal2_of_legal {q : Params} {x : Asl} (hx : aslLegal q x = true) : aslLegal2 q x = true := by
  simp only [aslLegal, Bool.and_eq_true] at hx
  obtain ⟨⟨hx2, -⟩, -⟩ := hx
  exact hx2

theorem aslLegal2_spec {q : Params} {x : Asl} (hx : aslLegal2 q x = true) :
    aslLegal1 q x = true ∧ blobLegal q.aslBlobPrefix x.blobInc x.blobPrefix x.blob = true := by
  simp only [aslLegal2, Bool.and_eq_true] at hx
  obtain ⟨hpair, -⟩ := hx
  exact hpair

/-- The whole header is read, and what follows is the slice (42_asl.md R172). -/
theorem aslDecode_clear {s : State} {x : Asl} {rest : List Byte} (hv : s.params.valid = true)
    (hx : aslLegal s.params x = true) (h : Ahead s s.cur.toNat (aslBytes x ++ rest)) :
    aslDecode s = .ok {
      fields := aslFields s.cur.toNat x ++ sliceAt 24 25 (s.cur.toNat + (aslBytes x).length) rest.length
      cur := s.ilen.toNat
      flags := { noncanon := aslNoncanon s.params x } } := by
  obtain ⟨hx1, hblob⟩ := aslLegal2_spec (aslLegal2_of_legal hx)
  have hslice : s.ilen.toNat - (s.cur.toNat + (aslBytes x).length) = rest.length := by
    rw [h.skip.1, Nat.add_sub_cancel_left]
  have hbytes : aslBytes x = aslBytes2 x ++ (x.aadPrefix ++ x.aad) ++ octet (aslAddrByte x) :: (x.cls ++ x.id) := by
    simp [aslBytes_eq]
  have hat2 : s.cur.toNat + (aslBytes1 x).length + (x.blobPrefix ++ x.blob).length + (aslStatusBytes x).length =
      s.cur.toNat + (aslBytes2 x).length := by
    simp only [aslBytes2_eq_status, List.length_append]
    omega
  have hend : s.cur.toNat + (aslBytes2 x).length + (x.aadPrefix ++ x.aad).length + 1 + x.cls.length + x.id.length =
      s.cur.toNat + (aslBytes x).length := by
    simp only [hbytes, List.length_append, List.length_cons]
    omega
  rw [hbytes, aslBytes2_eq_status] at h
  simp only [List.append_assoc (aslBytes1 x), List.append_assoc (x.blobPrefix ++ x.blob),
    List.append_assoc (aslStatusBytes x), List.append_assoc (x.aadPrefix ++ x.aad), List.cons_append] at h
  have hblobGate := blobParse_ahead 11 12 (prefixFree_of_valid hv).1 hblob h.skip
  have hstatGate := aslStatus_ahead hv hx h.skip.skip
  have haddr := h.skip.skip.skip
  rw [hat2] at hstatGate haddr
  rw [aslDecode_seqn hx1 h, aslFromBlob, aslSeqnPart_next, aslBlobParse_eq, hblobGate, Result.ok_bind, hstatGate,
    Result.ok_bind, aslOpaddr_ahead hx haddr.skip, Result.ok_bind]
  simp only [hend, hslice, sliceFields_eq]
  rfl

end Sys2Proof.Machine

/-- Settles O41: the blocks are read one after the other; a reserved width code stands after the version block. -/
theorem aslDecodeClear : Obligations.AslDecodeClear := by
  intro s x hc hi
  have hp : prologue .asldec s = .ok () := prologue_ok_of_input rfl rfl hc hi
  refine ⟨fun rest hv hx hw => ?_, fun lead rest hx hseqn hw hcode => runDecode_raises hp ?_⟩
  · rw [← flagWord_decodeFlags]
    exact runDecode_reports hp (aslDecode_clear hv hx (ahead_window hc hw))
  · have hahead := ahead_window hc hw
    have hlead := hahead.skip
    rw [aslDecode_head hx hahead, aslFromSeqn, decide_eq_true hseqn, gated_true, aslSeqnParse,
      vwDecode_reserved (by rw [hlead.1, List.length_cons]; omega) (by rwa [hlead.byte])]
    rfl

namespace Sys2Proof.Machine

/-! ### A blob that cannot be located -/

/-- The blob is announced, and `LenPrefixed` raises (42_asl.md R170, R172). -/
theorem aslDecode_blob_raises {s : State} {x : Asl} {rest : List Byte} {c : Cause} {n : Nat}
    (hx : aslLegal1 s.params x = true) (hinc : x.blobInc = 1) (h : Ahead s s.cur.toNat (aslBytes1 x ++ rest))
    (hraise : lenPrefixed s s.params.aslBlobPrefix (s.cur.toNat + (aslBytes1 x).length) = raising c n) :
    aslDecode s = raising c n := by
  rw [aslDecode_seqn hx h, aslFromBlob, aslSeqnPart_next, decide_eq_true hinc, gated_true, aslBlobParse_eq,
    blobParse_raises 11 12 hraise, raising_bind]

/-- `additional_app_data` is announced, and `LenPrefixed` raises (42_asl.md R170, R172). -/
theorem aslDecode_aad_raises {s : State} {x : Asl} {rest : List Byte} {c : Cause} {n : Nat} (hv : s.params.valid = true)
    (hx : aslLegal2 s.params x = true) (hstat : x.statusHdrInc = 1) (hinc : x.aadInc = 1)
    (h : Ahead s s.cur.toNat (aslBytes2 x ++ rest))
    (hraise : lenPrefixed s s.params.aslAadPrefix (s.cur.toNat + (aslBytes2 x).length) = raising c n) :
    aslDecode s = raising c n := by
  obtain ⟨hx1, hblob⟩ := aslLegal2_spec hx
  have hat2 : s.cur.toNat + (aslBytes1 x).length + (x.blobPrefix ++ x.blob).length + 1 + x.code.length =
      s.cur.toNat + (aslBytes2 x).length := by
    simp only [aslBytes2_eq_status, aslStatusBytes_present hstat, List.length_append, List.length_cons]
    omega
  rw [aslBytes2_eq_status, aslStatusBytes_present hstat] at h
  simp only [List.append_assoc (aslBytes1 x), List.append_assoc (x.blobPrefix ++ x.blob), List.cons_append] at h
  rw [aslDecode_seqn hx1 h, aslFromBlob, aslSeqnPart_next, aslBlobParse_eq,
    blobParse_ahead 11 12 (prefixFree_of_valid hv).1 hblob h.skip, Result.ok_bind, decide_eq_true hstat, gated_true,
    aslStatusParse_ahead hx hstat h.skip.skip, hat2, aslStatusTail, decide_eq_true hinc, gated_true, aslAadParse_eq,
    blobParse_raises 16 17 hraise, raising_bind, raising_bind]

end Sys2Proof.Machine
end

section
/-! SUPPORT. `ASLENC` (42_asl.md R173): its tests in order, the bytes it appends where none fails, and the canonical header as
those bytes. -/

open Sys2Proof Sys2Proof.Machine Sys2Proof.Layout

namespace Sys2Proof.Machine

/-! ### Tests and bytes of the parts -/

/-- `Fit` as a test (42_asl.md R173). -/
theorem fit_bind_eq_afterChecks {α : Type} (s : State) (i : Fin 32) (n : Nat) (f : Unit → Result α) :
    (fit s i n >>= f) = afterChecks [fitCheck s i n] (f ()) :=
  raiseIf_bind_eq_afterChecks _ _ _ f

/-- An optional part of an encoding makes its tests only if it is there. -/
theorem gatedBytes_afterChecks (n : Nat) (l : List Check) (bs : List Byte) :
    gatedBytes (decide (n = 1)) (afterChecks l (.ok bs)) = afterChecks (ifSet n l) (.ok (ifSet n bs)) := by
  by_cases h : n = 1
  · rw [h]
    rfl
  · rw [decide_eq_false h, ifSet_of_ne h, ifSet_of_ne h]
    rfl

/-- The bytes of `VWEncode(k, v)`, none where no width class holds `v` (30_encoding.md R86). -/
def vwBytes (p : Params) (k : VwKind) (v : Nat) : List Byte := (vwEncode p k v).toOption.getD []

theorem vwEncode_eq_afterChecks (s : State) (k : VwKind) (i : Fin 32) :
    vwEncode s.params k (fVal s i) = afterChecks [vwCheck s k i] (.ok (vwBytes s.params k (fVal s i))) := by
  by_cases h : vwUnencodable s.params k (fVal s i) = true
  · rw [vwEncode_unencodable h, afterChecks_of_some]
    simp [vwCheck, h]
  · rw [afterChecks_of_none _ (by simp [vwCheck, h])]
    rcases vwEncode_cases s.params k (fVal s i) with ⟨-, hall⟩ | ⟨w, c, he, -⟩
    · refine absurd ?_ h
      simp only [vwUnencodable, List.all_eq_true, List.mem_range]
      intro c hc
      cases hw : vwWidth s.params k c with
      | none => rfl
      | some w => exact decide_eq_true (hall c w hc hw)
    · rw [vwBytes, he]
      rfl

theorem vwBytes_of_minimal {p : Params} {k : VwKind} {v : Nat} {bs : List Byte} (h : vwMinimal p k bs v = true) :
    vwBytes p k v = bs ∧ vwUnencodable p k v = false := by
  have he := vwEncode_of_minimal h
  refine ⟨by rw [vwBytes, he]; rfl, ?_⟩
  by_contra hne
  rw [vwEncode_unencodable (Bool.not_eq_false _ ▸ hne)] at he
  cases he

/-- The bytes of a blob operand: what the inverse function writes for its length, then the slice (42_asl.md R173). -/
def blobEmit (s : State) (enc : Option PrefixEncTable) (o l : Fin 32) : List Byte :=
  (prefixWrite (enc.getD []) (fVal s l)).getD [] ++ ibufBytes s (fVal s o) (fVal s l)

theorem lenPrefixedEnc_eq (s : State) (enc : Option PrefixEncTable) (o l : Fin 32) :
    lenPrefixedEnc s enc o l = afterChecks (blobChecks s enc o l) (.ok (blobEmit s enc o l)) := by
  cases enc with
  | none => rfl
  | some t =>
    change (slice s _ _ _ >>= _) = afterChecks ([⟨false, .unsupported, o.val⟩] ++ ([sliceCheck s o l o.val] ++ _)) _
    rw [slice_eq_afterChecks, afterChecks_bind, Result.ok_bind, afterChecks_append, afterChecks_append]
    cases h : prefixWrite t (fVal s l) <;> simp [blobEmit, h] <;> rfl

/-! ### The parts of the header -/

/-- The tests of the status block of `ASLENC` before `additional_app_data` (42_asl.md R173). -/
def aslCodeChecks (s : State) : List Check :=
  [fitCheck s 13 1, fitCheck s 14 1] ++ ifSet (fVal s 13) [fitCheck s 15 (8 * s.params.aslStatusCodeBytes)]

/-- The tests of the status block of `ASLENC` (42_asl.md R173). -/
def aslStatusChecks (s : State) : List Check :=
  aslCodeChecks s ++ ifSet (fVal s 14) (blobChecks s s.params.aslAadPrefixEnc 16 17)

/-- The bytes of the status block of `ASLENC` (42_asl.md R173). -/
def aslStatusOut (s : State) : List Byte :=
  [aslStatusBits { statusCodeInc := BitVec.ofNat 1 (fVal s 13), additionalAppDataInc := BitVec.ofNat 1 (fVal s 14) }]
    ++ ifSet (fVal s 13) (bytesBE (fVal s 15) s.params.aslStatusCodeBytes)
    ++ ifSet (fVal s 14) (blobEmit s s.params.aslAadPrefixEnc 16 17)

theorem aslStatusEmit_eq (s : State) : aslStatusEmit s = afterChecks (aslStatusChecks s) (.ok (aslStatusOut s)) := by
  simp only [aslStatusEmit, aslCodeEmit, fit_bind_eq_afterChecks, Result.pure_eq, gatedBytes_afterChecks, lenPrefixedEnc_eq,
    afterChecks_bind, Result.ok_bind, ← afterChecks_append, aslStatusChecks, aslCodeChecks, aslStatusOut]
  rfl

/-- The bytes of the opcode/address block of `ASLENC` (42_asl.md R173). -/
def aslOpaddrOut (s : State) : List Byte :=
  if fVal s 19 = 0 then
    [aslOpaddrBits {
      opc := BitVec.ofNat 2 (fVal s 18), ext := 0, cf := BitVec.ofNat 2 (fVal s 20), idf := BitVec.ofNat 2 (fVal s 22) }]
  else
    [aslOpaddrBits {
        opc := BitVec.ofNat 2 (fVal s 18), ext := 1, cf := BitVec.ofNat 2 (minBytes (fVal s 20) - 1)
        idf := BitVec.ofNat 2 (minBytes (fVal s 22) - 1) }]
      ++ bytesBE (fVal s 20) (minBytes (fVal s 20)) ++ bytesBE (fVal s 22) (minBytes (fVal s 22))

/-- The tests of the opcode/address block of `ASLENC` (42_asl.md R173). -/
def aslOpaddrChecks (s : State) : List Check :=
  [fitCheck s 18 2, fitCheck s 19 1] ++ (if fVal s 19 = 0 then [fitCheck s 20 2, fitCheck s 22 2] else [])

theorem aslOpaddrEmit_eq (s : State) : aslOpaddrEmit s = afterChecks (aslOpaddrChecks s) (.ok (aslOpaddrOut s)) := by
  rw [aslOpaddrEmit, aslOpaddrChecks, aslOpaddrOut]
  by_cases h : fVal s 19 = 0
  · simp only [if_pos h, fit_bind_eq_afterChecks, ← afterChecks_append]
    rfl
  · simp only [if_neg h, fit_bind_eq_afterChecks, ← afterChecks_append]
    rfl

/-- The tests of the version and sequence-number blocks of `ASLENC` (42_asl.md R173). -/
def aslHeadChecks (s : State) : List Check :=
  ifSet (fVal s 1) [fitCheck s 7 2, fitCheck s 8 6] ++ ifSet (fVal s 3) [vwCheck s .seq2 9]

/-- The bytes of the version block of `ASLENC` (42_asl.md R173). -/
def aslVersionOut (s : State) : List Byte :=
  [aslVersionBits { version := BitVec.ofNat 2 (fVal s 7), classMajorMinor := BitVec.ofNat 6 (fVal s 8) }]

/-- The bytes of `ASLENC` after the flag byte and before the payload (42_asl.md R173). -/
def aslBlocksOut (s : State) : List Byte :=
  ifSet (fVal s 1) (aslVersionOut s) ++ ifSet (fVal s 3) (vwBytes s.params .seq2 (fVal s 9))
    ++ ifSet (fVal s 6) (blobEmit s s.params.aslBlobPrefixEnc 11 12) ++ ifSet (fVal s 5) (aslStatusOut s) ++ aslOpaddrOut s

/-- The tests of `ASLENC` after the flags and before the payload (42_asl.md R173). -/
def aslBlocksChecks (s : State) : List Check :=
  aslHeadChecks s ++ ifSet (fVal s 6) (blobChecks s s.params.aslBlobPrefixEnc 11 12) ++ ifSet (fVal s 5) (aslStatusChecks s)
    ++ aslOpaddrChecks s

theorem aslVersionEmit_eq (s : State) :
    aslVersionEmit s = afterChecks [fitCheck s 7 2, fitCheck s 8 6] (.ok (aslVersionOut s)) := by
  simp only [aslVersionEmit, fit_bind_eq_afterChecks, ← afterChecks_append]
  rfl

theorem aslBlocksEmit_eq (s : State) : aslBlocksEmit s = afterChecks (aslBlocksChecks s) (.ok (aslBlocksOut s)) := by
  simp only [aslBlocksEmit, aslVersionEmit_eq, vwEncode_eq_afterChecks, lenPrefixedEnc_eq, aslStatusEmit_eq,
    aslOpaddrEmit_eq, gatedBytes_afterChecks, afterChecks_bind, Result.ok_bind, ← afterChecks_append, Result.pure_eq,
    aslBlocksChecks, aslHeadChecks, aslBlocksOut, List.append_assoc]

/-- The tests of the flags (42_asl.md R173). -/
def aslFlagChecks (s : State) : List Check :=
  [fitCheck s 1 1, fitCheck s 2 1, fitCheck s 3 1, fitCheck s 4 1, fitCheck s 5 1, fitCheck s 6 1]

/-- The test of the payload slice, where `PRES[24] = 1` (42_asl.md R173). -/
def aslPayloadChecks (s : State) : List Check := if presBit s 24 then [sliceCheck s 24 25 24] else []

theorem aslChecks_eq (s : State) :
    aslChecks s = aslFlagChecks s ++ (if fVal s 4 = 0 then aslBlocksChecks s else []) ++ aslPayloadChecks s := by
  unfold aslChecks aslFlagChecks aslPayloadChecks aslBlocksChecks aslHeadChecks aslStatusChecks aslCodeChecks aslOpaddrChecks
  simp only [List.append_assoc]

/-- The bytes that `ASLENC` appends where no test fails (42_asl.md R173). -/
def aslOut (s : State) : List Byte :=
  [aslFlagsEmit s] ++ (if fVal s 4 = 0 then aslBlocksOut s else [])
    ++ (if presBit s 24 then ibufBytes s (fVal s 24) (fVal s 25) else [])

/-- `ASLENC` makes its tests in order and gives its bytes (42_asl.md R173). -/
theorem aslEncode_eq (s : State) : aslEncode s = afterChecks (aslChecks s) (.ok (aslOut s)) := by
  have hblocks : gatedBytes (decide (fVal s 4 = 0)) (aslBlocksEmit s) =
      afterChecks (if fVal s 4 = 0 then aslBlocksChecks s else []) (.ok (if fVal s 4 = 0 then aslBlocksOut s else [])) := by
    by_cases h : fVal s 4 = 0
    · simp only [decide_eq_true h, gatedBytes_true, if_pos h, aslBlocksEmit_eq]
    · simp only [decide_eq_false h, gatedBytes_false, if_neg h]
      rfl
  have hpayload : gatedBytes (presBit s 24) (slice s (fVal s 24) (fVal s 25) 24) =
      afterChecks (aslPayloadChecks s) (.ok (if presBit s 24 then ibufBytes s (fVal s 24) (fVal s 25) else [])) := by
    unfold aslPayloadChecks
    cases presBit s 24
    · rfl
    · exact slice_eq_afterChecks s _ _ _
  rw [aslChecks_eq]
  simp only [aslEncode, fit_bind_eq_afterChecks, hblocks, hpayload, afterChecks_bind, Result.ok_bind, ← afterChecks_append,
    Result.pure_eq, aslOut, aslFlagChecks, List.append_assoc]
  rfl

end Sys2Proof.Machine
end

section
/-! SUPPORT. When the tests of `ASLENC` pass, and the bytes of its parts where the operand registers hold a canonical header
(42_asl.md R173). -/

open Sys2Proof Sys2Proof.Machine Sys2Proof.Layout

namespace Sys2Proof.Machine

/-! ### Tests that pass -/

theorem firstFailing_cons_eq_none_iff (c : Check) (l : List Check) :
    firstFailing (c :: l) = none ↔ c.fails = false ∧ firstFailing l = none := by
  rw [firstFailing_cons]
  cases c.fails <;> simp

theorem firstFailing_append_eq_none_iff (l m : List Check) :
    firstFailing (l ++ m) = none ↔ firstFailing l = none ∧ firstFailing m = none := by
  rw [firstFailing_append, Option.or_eq_none_iff]

theorem firstFailing_ifSet_eq_none_iff (n : Nat) (l : List Check) :
    firstFailing (ifSet n l) = none ↔ (n = 1 → firstFailing l = none) := by
  by_cases h : n = 1
  · simp [h]
  · simp [h, ifSet_of_ne h]

theorem fitCheck_fails_eq_false_iff (s : State) (i : Fin 32) (n : Nat) : (fitCheck s i n).fails = false ↔ fVal s i < 2 ^ n := by
  rw [fitCheck, decide_eq_false_iff_not, Nat.not_le]

/-- The tests of the flags pass for one-bit values (42_asl.md R173). -/
theorem aslFlagChecks_pass_iff (s : State) :
    firstFailing (aslFlagChecks s) = none ↔
      fVal s 1 < 2 ∧ fVal s 2 < 2 ∧ fVal s 3 < 2 ∧ fVal s 4 < 2 ∧ fVal s 5 < 2 ∧ fVal s 6 < 2 := by
  simp only [aslFlagChecks, firstFailing_cons_eq_none_iff, fitCheck_fails_eq_false_iff, firstFailing_nil, and_true, Nat.pow_one]

/-- The tests of the version and sequence-number blocks pass (42_asl.md R173). -/
theorem aslHeadChecks_pass_iff (s : State) :
    firstFailing (aslHeadChecks s) = none ↔
      (fVal s 1 = 1 → fVal s 7 < 4 ∧ fVal s 8 < 64) ∧ (fVal s 3 = 1 → vwUnencodable s.params .seq2 (fVal s 9) = false) := by
  simp only [aslHeadChecks, firstFailing_append_eq_none_iff, firstFailing_ifSet_eq_none_iff, firstFailing_cons_eq_none_iff,
    fitCheck_fails_eq_false_iff, firstFailing_nil, and_true, vwCheck]
  norm_num

/-- The tests of the status byte and `status_code` pass (42_asl.md R173). -/
theorem aslCodeChecks_pass_iff (s : State) :
    firstFailing (aslCodeChecks s) = none ↔
      fVal s 13 < 2 ∧ fVal s 14 < 2 ∧ (fVal s 13 = 1 → fVal s 15 < 2 ^ (8 * s.params.aslStatusCodeBytes)) := by
  simp only [aslCodeChecks, firstFailing_append_eq_none_iff, firstFailing_ifSet_eq_none_iff, firstFailing_cons_eq_none_iff,
    fitCheck_fails_eq_false_iff, firstFailing_nil, and_true, and_assoc, Nat.pow_one]

/-- The tests of a blob operand pass: its slice is valid and the inverse function answers (42_asl.md R173). -/
theorem blobChecks_pass_iff (s : State) (enc : Option PrefixEncTable) (o l : Fin 32) :
    firstFailing (blobChecks s enc o l) = none ↔
      fVal s o + fVal s l ≤ s.ilen.toNat ∧ ∃ table pre, enc = some table ∧ prefixWrite table (fVal s l) = some pre := by
  simp only [blobChecks, sliceCheck, firstFailing_cons_eq_none_iff, firstFailing_nil, and_true, decide_eq_false_iff_not,
    Nat.not_lt]
  cases enc with
  | none => simp
  | some t => simp [Option.isNone_eq_false_iff, Option.isSome_iff_exists]

/-- The tests of the opcode/address block pass: inline class and id are below 4 (42_asl.md R173). -/
theorem aslOpaddrChecks_pass_iff (s : State) :
    firstFailing (aslOpaddrChecks s) = none ↔
      fVal s 18 < 4 ∧ fVal s 19 < 2 ∧ (fVal s 19 = 0 → fVal s 20 < 4 ∧ fVal s 22 < 4) := by
  rw [aslOpaddrChecks, firstFailing_append_eq_none_iff]
  by_cases h : fVal s 19 = 0
  all_goals
    simp only [h, if_true, if_false, firstFailing_cons_eq_none_iff, fitCheck_fails_eq_false_iff, firstFailing_nil]
    norm_num [h]

/-- A blob whose inverse function is absent (42_asl.md R173). -/
theorem firstFailing_blobChecks_none (s : State) (o l : Fin 32) :
    firstFailing (blobChecks s none o l) = some (.unsupported, o.val) := rfl

end Sys2Proof.Machine

/-- Settles O42: the blocks before the announced blob are read, or their tests pass, and then `PFX` is absent
or answers none. -/
theorem aslBlobUnsupported : Obligations.AslBlobUnsupported := by
  refine ⟨fun s x rest hc hi => ?_, fun s hc hi ho h1 h2 h3 h4 h5 h6 hver hseqn => ?_⟩
  · have hp : prologue .asldec s = .ok () := prologue_ok_of_input rfl rfl hc hi
    refine ⟨fun hx hinc hw => ?_, fun hv hx hstat hinc hw => ?_⟩
    · have hahead := ahead_window hc hw
      exact ⟨fun hnone => runDecode_raises hp (aslDecode_blob_raises hx hinc hahead (hnone ▸ rfl)),
        fun table htable hno => runDecode_raises hp
          (aslDecode_blob_raises hx hinc hahead (htable ▸ lenPrefixed_unrecognised hahead.skip hno))⟩
    · have hahead := ahead_window hc hw
      exact ⟨fun hnone => runDecode_raises hp (aslDecode_aad_raises hv hx hstat hinc hahead (hnone ▸ rfl)),
        fun table htable hno => runDecode_raises hp
          (aslDecode_aad_raises hv hx hstat hinc hahead (htable ▸ lenPrefixed_unrecognised hahead.skip hno))⟩
  · have hp : prologue .aslenc s = .ok () := prologue_ok_of_input_output rfl hc hi ho
    have hraises : ∀ {info : Nat}, firstFailing (aslChecks s) = some (.unsupported, info) →
        ∃ t, exec .aslenc s = .next t ∧ Raised s t 0x00000031 .unsupported info :=
      fun hfail => runEncode_raises hp ((aslEncode_eq s).trans (afterChecks_of_some _ hfail))
    have hflags := (aslFlagChecks_pass_iff s).mpr ⟨h1, h2, h3, by omega, h5, h6⟩
    have hhead := (aslHeadChecks_pass_iff s).mpr ⟨hver, hseqn⟩
    refine ⟨fun hblob hnone => hraises ?_, fun hblob hstat h13 h15 hinc hnone => hraises ?_⟩
    · rw [aslChecks_eq, if_pos h4, aslBlocksChecks, hblob, hnone]
      simp [firstFailing_append, hflags, hhead, firstFailing_blobChecks_none]
    · have hblobs : firstFailing (ifSet (fVal s 6) (blobChecks s s.params.aslBlobPrefixEnc 11 12)) = none :=
        (firstFailing_ifSet_eq_none_iff _ _).mpr fun h => (blobChecks_pass_iff _ _ _ _).mpr (hblob h)
      have hcode := (aslCodeChecks_pass_iff s).mpr ⟨h13, by omega, h15⟩
      rw [aslChecks_eq, if_pos h4, aslBlocksChecks, hstat, aslStatusChecks, hinc, hnone]
      simp [firstFailing_append, hflags, hhead, hblobs, hcode, firstFailing_blobChecks_none]

namespace Sys2Proof.Machine

/-! ### A canonical header in the operand registers -/

/-- What `Layout.aslCanonical` says, condition by condition (42_asl.md R173). -/
structure AslCanonical (p : Params) (x : Asl) : Prop where
  versionInc : x.versionInc < 2
  respReq : x.respReq < 2
  seqnInc : x.seqnInc < 2
  statusHdrInc : x.statusHdrInc < 2
  blobInc : x.blobInc < 2
  flagPad : x.flagPad = 0
  version : x.version < 4
  classMajorMinor : x.classMajorMinor < 64
  codeInc : x.codeInc < 2
  aadInc : x.aadInc < 2
  statusPad : x.statusPad = 0
  opc : x.opc < 4
  addrPad : x.addrPad = 0
  ext : x.ext < 2
  cf : x.cf < 4
  idf : x.idf < 4
  clsLength : x.cls.length = if x.ext = 1 then x.cf + 1 else 0
  idLength : x.id.length = if x.ext = 1 then x.idf + 1 else 0
  minimal : x.ext = 1 → x.cls.length = minBytes (aslClass x) ∧ x.id.length = minBytes (aslId x)
  codeLength : x.code.length = if x.statusHdrInc = 1 ∧ x.codeInc = 1 then p.aslStatusCodeBytes else 0
  seqn : (if x.seqnInc = 1 then vwMinimal p .seq2 x.seqn x.seqnVal else x.seqn == []) = true
  blob : blobCanonical p.aslBlobPrefixEnc x.blobInc x.blobPrefix x.blob = true
  aad : blobCanonical p.aslAadPrefixEnc (x.statusHdrInc * x.aadInc) x.aadPrefix x.aad = true

theorem aslCanonical_spec {p : Params} {x : Asl} (h : aslCanonical p x = true) : AslCanonical p x := by
  simp only [aslCanonical, Bool.and_eq_true, decide_eq_true_eq, and_assoc] at h
  obtain ⟨_, _, _, _, _, _, _, _, _, _, _, _, _, _, _, _, _, _, _, _, _, _, _⟩ := h
  constructor <;> assumption

/-- What `Layout.aslHeld` says, condition by condition (42_asl.md R173). -/
structure AslHeld (s : State) (x : Asl) : Prop where
  versionInc : fVal s 1 = x.versionInc
  respReq : fVal s 2 = x.respReq
  seqnInc : fVal s 3 = x.seqnInc
  clear : fVal s 4 = 0
  statusHdrInc : fVal s 5 = x.statusHdrInc
  blobInc : fVal s 6 = x.blobInc
  version : x.versionInc = 1 → fVal s 7 = x.version ∧ fVal s 8 = x.classMajorMinor
  seqn : x.seqnInc = 1 → fVal s 9 = x.seqnVal
  status : x.statusHdrInc = 1 → fVal s 13 = x.codeInc ∧ fVal s 14 = x.aadInc
  code : x.statusHdrInc = 1 ∧ x.codeInc = 1 → fVal s 15 = beNat x.code
  opc : fVal s 18 = x.opc
  ext : fVal s 19 = x.ext
  cls : fVal s 20 = aslClass x
  id : fVal s 22 = aslId x
  blob : x.blobInc = 1 → sliceHeld s 11 12 x.blob = true
  aad : x.statusHdrInc = 1 → x.aadInc = 1 → sliceHeld s 16 17 x.aad = true

theorem aslHeld_spec {s : State} {x : Asl} (h : aslHeld s x = true) : AslHeld s x := by
  simp only [aslHeld, Bool.and_eq_true, decide_eq_true_eq, and_assoc, Bool.or_eq_true, bne_iff_ne, ne_eq,
    ← imp_iff_not_or] at h
  obtain ⟨_, _, _, _, _, _, _, _, _, _, _, _, _, _, _, haad⟩ := h
  have _ : x.statusHdrInc = 1 → x.aadInc = 1 → sliceHeld s 16 17 x.aad = true := fun h1 h2 =>
    haad.resolve_left fun hne => hne h1 h2
  constructor <;> assumption

/-- A slice operand that is held passes its test (00_scope.md R15). -/
theorem sliceHeld_spec {s : State} {o l : Fin 32} {bs : List Byte} (h : sliceHeld s o l bs = true) :
    fVal s l = bs.length ∧ fVal s o + fVal s l ≤ s.ilen.toNat ∧ ibufBytes s (fVal s o) (fVal s l) = bs := by
  simp only [sliceHeld, decide_eq_true_eq] at h
  obtain ⟨hlen, hin, hbytes⟩ := h
  exact ⟨hlen, by rw [hlen]; exact hin, by rw [hlen]; exact hbytes⟩

/-- The flag byte (30_encoding.md R94). -/
theorem aslFlagsEmit_eq {s : State} (h : firstFailing (aslFlagChecks s) = none) :
    aslFlagsEmit s = octet (128 * fVal s 1 + 64 * fVal s 2 + 32 * fVal s 3 + 16 * fVal s 4 + 8 * fVal s 5 + 4 * fVal s 6) := by
  rw [aslFlagChecks_pass_iff] at h
  apply BitVec.eq_of_toNat_eq
  simp only [aslFlagsEmit, aslFlagsBits_toNat, BitVec.toNat_ofNat]
  omega

/-- The version byte (30_encoding.md R95). -/
theorem aslVersionOut_eq {s : State} (hm : fVal s 8 < 64) :
    aslVersionOut s = [octet (64 * fVal s 7 + fVal s 8)] := by
  rw [aslVersionOut]
  congr 1
  apply BitVec.eq_of_toNat_eq
  simp only [aslVersionBits_toNat, BitVec.toNat_ofNat]
  omega

/-- A blob, there or not, in the form the encoder writes (42_asl.md R173). -/
theorem blob_of_canonical {s : State} {enc : Option PrefixEncTable} {o l : Fin 32} {flag : Nat} {pre bs : List Byte}
    (hc : blobCanonical enc flag pre bs = true) (hh : flag = 1 → sliceHeld s o l bs = true) :
    firstFailing (ifSet flag (blobChecks s enc o l)) = none ∧ ifSet flag (blobEmit s enc o l) = pre ++ bs := by
  by_cases h1 : flag = 1
  · obtain ⟨hlen, hin, hbytes⟩ := sliceHeld_spec (hh h1)
    cases enc with
    | none => simp [blobCanonical, h1] at hc
    | some t =>
      have hpre : prefixWrite t (fVal s l) = some pre := by simpa [blobCanonical, h1, hlen] using hc
      rw [h1, ifSet_one, ifSet_one, blobEmit, hbytes, Option.getD_some, hpre]
      exact ⟨(blobChecks_pass_iff s _ o l).mpr ⟨hin, t, pre, rfl, hpre⟩, rfl⟩
  · have habsent : pre = [] ∧ bs = [] := by simpa [blobCanonical, h1] using hc
    obtain ⟨hpre, hbs⟩ := habsent
    rw [ifSet_of_ne h1, ifSet_of_ne h1, hpre, hbs]
    exact ⟨rfl, rfl⟩

section
variable {s : State} {x : Asl}

/-- The version and sequence-number blocks (42_asl.md R173). -/
theorem aslHead_of_canonical (hx : AslCanonical s.params x) (hh : AslHeld s x) :
    firstFailing (aslHeadChecks s) = none ∧
    ifSet (fVal s 1) (aslVersionOut s) = ifSet x.versionInc [octet (64 * x.version + x.classMajorMinor)] ∧
    ifSet (fVal s 3) (vwBytes s.params .seq2 (fVal s 9)) = x.seqn := by
  have hversion : x.versionInc = 1 → fVal s 7 < 4 ∧ fVal s 8 < 64 := fun h1 => by
    obtain ⟨h7, h8⟩ := hh.version h1
    exact ⟨h7 ▸ hx.version, h8 ▸ hx.classMajorMinor⟩
  have hseqn : x.seqnInc = 1 → vwBytes s.params .seq2 (fVal s 9) = x.seqn ∧
      vwUnencodable s.params .seq2 (fVal s 9) = false := fun h1 => by
    rw [hh.seqn h1]
    exact vwBytes_of_minimal (by simpa only [h1, if_true] using hx.seqn)
  rw [aslHeadChecks_pass_iff, hh.versionInc, hh.seqnInc]
  refine ⟨⟨hversion, fun h1 => (hseqn h1).2⟩, ?_, ?_⟩
  · by_cases h1 : x.versionInc = 1
    · obtain ⟨h7, h8⟩ := hh.version h1
      rw [aslVersionOut_eq (hversion h1).2, h7, h8]
    · rw [ifSet_of_ne h1, ifSet_of_ne h1]
  · by_cases h1 : x.seqnInc = 1
    · rw [h1, ifSet_one, (hseqn h1).1]
    · have hnone : x.seqn = [] := by simpa [h1] using hx.seqn
      rw [ifSet_of_ne h1, hnone]

/-- The status block with `additional_app_data` (42_asl.md R173). -/
theorem aslStatus_of_canonical (hx : AslCanonical s.params x) (hh : AslHeld s x) :
    firstFailing (ifSet (fVal s 5) (aslStatusChecks s)) = none ∧
    ifSet (fVal s 5) (aslStatusOut s) = aslStatusBytes x ++ (x.aadPrefix ++ x.aad) := by
  have hcanon := hx.aad
  rw [hh.statusHdrInc]
  by_cases h1 : x.statusHdrInc = 1
  · obtain ⟨h13, h14⟩ := hh.status h1
    rw [h1, Nat.one_mul] at hcanon
    obtain ⟨haadPass, haadOut⟩ := blob_of_canonical hcanon (hh.aad h1)
    have hlen := hx.codeLength
    simp only [h1, true_and] at hlen
    have hcode : x.codeInc = 1 → fVal s 15 = beNat x.code ∧ x.code.length = s.params.aslStatusCodeBytes := fun hinc =>
      ⟨hh.code ⟨h1, hinc⟩, by rw [hlen, if_pos hinc]⟩
    rw [h1, ifSet_one, ifSet_one, aslStatusChecks, firstFailing_append_eq_none_iff, aslCodeChecks_pass_iff, aslStatusOut, h13,
      h14, haadOut, aslStatusBytes_present h1]
    refine ⟨⟨⟨hx.codeInc, hx.aadInc, fun hinc => ?_⟩, haadPass⟩, ?_⟩
    · obtain ⟨h15, hbytes⟩ := hcode hinc
      rw [h15, ← hbytes, Nat.pow_mul]
      exact beNat_lt x.code
    · have hbyte : aslStatusBits { statusCodeInc := BitVec.ofNat 1 x.codeInc, additionalAppDataInc := BitVec.ofNat 1 x.aadInc } =
          octet (128 * x.codeInc + 64 * x.aadInc + x.statusPad) := by
        apply BitVec.eq_of_toNat_eq
        simp only [aslStatusBits_toNat, BitVec.toNat_ofNat, hx.statusPad]
        have hc := hx.codeInc
        have ha := hx.aadInc
        omega
      have hcodeOut : ifSet x.codeInc (bytesBE (fVal s 15) s.params.aslStatusCodeBytes) = x.code := by
        by_cases hinc : x.codeInc = 1
        · obtain ⟨h15, hbytes⟩ := hcode hinc
          rw [hinc, ifSet_one, bytesBE_eq_of_beNat h15.symm hbytes]
        · rw [if_neg hinc] at hlen
          rw [ifSet_of_ne hinc, List.eq_nil_of_length_eq_zero hlen]
      rw [hbyte, hcodeOut, List.singleton_append]
  · have hcode : x.code = [] := List.eq_nil_of_length_eq_zero (by rw [hx.codeLength, if_neg fun h => h1 h.1])
    obtain ⟨-, haad⟩ := blob_of_canonical (s := s) (o := 16) (l := 17) hcanon fun h =>
      absurd (Nat.eq_one_of_mul_eq_one_right h) h1
    rw [ifSet_of_ne fun h => h1 (Nat.eq_one_of_mul_eq_one_right h)] at haad
    rw [ifSet_of_ne h1, ifSet_of_ne h1, aslStatusBytes, ifSet_of_ne h1, hcode, ← haad]
    exact ⟨rfl, rfl⟩

/-- The opcode/address block (42_asl.md R173, 30_encoding.md R96). -/
theorem aslOpaddr_of_canonical (hx : AslCanonical s.params x) (hh : AslHeld s x) :
    firstFailing (aslOpaddrChecks s) = none ∧ aslOpaddrOut s = octet (aslAddrByte x) :: (x.cls ++ x.id) := by
  have hopc := hx.opc
  have hcf := hx.cf
  have hidf := hx.idf
  have hext := hx.ext
  have hcls := hx.clsLength
  have hid := hx.idLength
  rw [aslOpaddrChecks_pass_iff, aslOpaddrOut, hh.opc, hh.ext, hh.cls, hh.id]
  by_cases h1 : x.ext = 1
  · obtain ⟨hcw, hiw⟩ := hx.minimal h1
    rw [if_pos h1] at hcls hid
    have hbyte : aslOpaddrBits { opc := BitVec.ofNat 2 x.opc, ext := 1, cf := BitVec.ofNat 2 (x.cls.length - 1)
                                 idf := BitVec.ofNat 2 (x.id.length - 1) } = octet (aslAddrByte x) := by
      apply BitVec.eq_of_toNat_eq
      simp only [aslOpaddrBits_toNat, BitVec.ofNat_eq_ofNat, BitVec.toNat_ofNat, aslAddrByte, hx.addrPad, h1, hcls, hid]
      omega
    refine ⟨⟨hopc, hext, by omega⟩, ?_⟩
    rw [if_neg (by omega), ← hcw, ← hiw, hbyte, bytesBE_eq_of_beNat (by rw [aslClass, if_pos h1]) rfl,
      bytesBE_eq_of_beNat (by rw [aslId, if_pos h1]) rfl]
    rfl
  · have h0 : x.ext = 0 := by omega
    rw [if_neg h1] at hcls hid
    rw [aslClass, if_neg h1, aslId, if_neg h1, if_pos h0, List.eq_nil_of_length_eq_zero hcls,
      List.eq_nil_of_length_eq_zero hid]
    have hbyte : aslOpaddrBits { opc := BitVec.ofNat 2 x.opc, ext := 0, cf := BitVec.ofNat 2 x.cf, idf := BitVec.ofNat 2 x.idf }
        = octet (aslAddrByte x) := by
      apply BitVec.eq_of_toNat_eq
      simp only [aslOpaddrBits_toNat, BitVec.ofNat_eq_ofNat, BitVec.toNat_ofNat, aslAddrByte, hx.addrPad, h0]
      omega
    exact ⟨⟨hopc, hext, fun _ => ⟨hcf, hidf⟩⟩, by rw [hbyte]; rfl⟩

/-- The whole header (42_asl.md R173). -/
theorem aslBlocks_of_canonical (hx : AslCanonical s.params x) (hh : AslHeld s x) :
    firstFailing (aslFlagChecks s) = none ∧ firstFailing (aslBlocksChecks s) = none ∧
      aslFlagsEmit s :: aslBlocksOut s = aslBytes x := by
  have hflags : firstFailing (aslFlagChecks s) = none := by
    rw [aslFlagChecks_pass_iff, hh.versionInc, hh.respReq, hh.seqnInc, hh.clear, hh.statusHdrInc, hh.blobInc]
    exact ⟨hx.versionInc, hx.respReq, hx.seqnInc, Nat.two_pos, hx.statusHdrInc, hx.blobInc⟩
  obtain ⟨hheadPass, hversionOut, hseqnOut⟩ := aslHead_of_canonical hx hh
  obtain ⟨hblobPass, hblobOut⟩ := blob_of_canonical hx.blob hh.blob
  obtain ⟨hstatusPass, hstatusOut⟩ := aslStatus_of_canonical hx hh
  obtain ⟨haddrPass, haddrOut⟩ := aslOpaddr_of_canonical hx hh
  refine ⟨hflags, ?_, ?_⟩
  · simp only [aslBlocksChecks, firstFailing_append_eq_none_iff, hh.blobInc]
    exact ⟨⟨⟨hheadPass, hblobPass⟩, hstatusPass⟩, haddrPass⟩
  · rw [aslBlocksOut, hversionOut, hseqnOut, hh.blobInc, hblobOut, hstatusOut, haddrOut, aslFlagsEmit_eq hflags,
      hh.versionInc, hh.respReq, hh.seqnInc, hh.clear, hh.statusHdrInc, hh.blobInc]
    simp [aslBytes_eq, aslBytes2_eq_status, aslBytes1_eq, aslHead, aslFlagByte, hx.flagPad]

end

/-- The payload slice, where `PRES[24] = 1` (42_asl.md R173). -/
theorem aslPayload_of_held {s : State} {tail : List Byte}
    (h : if presBit s 24 then sliceHeld s 24 25 tail = true else tail = []) :
    firstFailing (aslPayloadChecks s) = none ∧ (if presBit s 24 then ibufBytes s (fVal s 24) (fVal s 25) else []) = tail := by
  rw [aslPayloadChecks]
  cases hpres : presBit s 24 with
  | false =>
    rw [hpres, if_neg Bool.false_ne_true] at h
    exact ⟨rfl, h.symm⟩
  | true =>
    rw [hpres, if_pos rfl] at h
    obtain ⟨-, hin, hbytes⟩ := sliceHeld_spec h
    exact ⟨(firstFailing_cons_eq_none_iff _ _).mpr ⟨decide_eq_false (Nat.not_lt.mpr hin), rfl⟩, hbytes⟩

end Sys2Proof.Machine

/-- Settles O43: the tests of the layout are those of the parts in order; a canonical header passes them and is what the parts
write. -/
theorem aslEncode : Obligations.AslEncode := by
  refine ⟨rfl, fun s hc hi ho => ?_⟩
  have hp : prologue .aslenc s = .ok () := prologue_ok_of_input_output rfl hc hi ho
  have hbody := aslEncode_eq s
  refine ⟨fun cause info hfail => runEncode_raises hp (hbody.trans (afterChecks_of_some _ hfail)), fun tail htail => ?_⟩
  obtain ⟨hpayPass, hpayOut⟩ := aslPayload_of_held htail
  refine ⟨fun x hcanon hheld => ?_, fun h1 h2 h3 h4 h5 h6 => ?_⟩
  · have hh := aslHeld_spec hheld
    obtain ⟨hflags, hblocks, hbytes⟩ := aslBlocks_of_canonical (aslCanonical_spec hcanon) hh
    have hpass : firstFailing (aslChecks s) = none := by
      rw [aslChecks_eq, if_pos hh.clear, firstFailing_append_eq_none_iff, firstFailing_append_eq_none_iff]
      exact ⟨⟨hflags, hblocks⟩, hpayPass⟩
    have hout : aslOut s = aslBytes x ++ tail := by
      rw [aslOut, if_pos hh.clear, hpayOut, List.singleton_append, hbytes]
    rw [afterChecks_of_none _ hpass, hout] at hbody
    exact ⟨runEncode_completes hp hbody, runEncode_full hp hbody⟩
  · have hflags := (aslFlagChecks_pass_iff s).mpr ⟨h1, h2, h3, by omega, h5, h6⟩
    have hpass : firstFailing (aslChecks s) = none := by
      rw [aslChecks_eq, if_neg (by omega), List.append_nil, firstFailing_append_eq_none_iff]
      exact ⟨hflags, hpayPass⟩
    have hout : aslOut s =
        octet (128 * fVal s 1 + 64 * fVal s 2 + 32 * fVal s 3 + 16 + 8 * fVal s 5 + 4 * fVal s 6) :: tail := by
      rw [aslOut, if_neg (by omega), hpayOut, aslFlagsEmit_eq hflags, h4]
      rfl
    rw [afterChecks_of_none _ hpass, hout] at hbody
    exact ⟨runEncode_completes hp hbody, runEncode_full hp hbody⟩
end

section
/-! SUPPORT. `LLDEC` (43_frame.md R190, R192): a variable-width field and an optional address where their bytes stand ahead, the
link-layer header as their sequence, and the reserved codes. -/

open Sys2Proof Sys2Proof.Machine Sys2Proof.Layout

namespace Sys2Proof.Machine

/-! ### Variable-width fields of a header -/

/-- A field that stands at `p` is reported as value and width (43_frame.md R190). -/
theorem vwParse_ahead {s : State} {k : VwKind} {p val : Nat} {bs rest : List Byte} (v w : Fin 32)
    (hf : vwField s.params k bs val = true) (h : Ahead s p (bs ++ rest)) :
    vwParse s k v w p = .ok {
      fields := [(v, val), (w, bs.length)], next := p + bs.length, noncanon := vwNarrower s.params k val bs.length } := by
  have hend : p + bs.length ≤ s.ilen.toNat := by
    rw [h.1, List.length_append]
    omega
  rw [vwParse, vwDecode_of_field hf h.read hend, Result.ok_bind, vwCanon_of_field hf, Bool.not_not]
  rfl

/-- A reserved width code is raised at its field (30_encoding.md R85). -/
theorem vwParse_reserved {s : State} {k : VwKind} {p : Nat} {lead : Byte} {rest : List Byte} (v w : Fin 32)
    (hcode : vwWidth s.params k (lead.toNat / 2 ^ (8 - vwBits k)) = none) (h : Ahead s p (lead :: rest)) :
    vwParse s k v w p = raising .invalidDiscriminant p := by
  rw [vwParse, vwDecode_reserved (by rw [h.1, List.length_cons]; omega) (by rwa [h.byte]), raising_bind]

/-- An address at offset `p` as it is reported, absent in a cloud format (43_frame.md R190, R191). -/
def addrPart (q : Params) (fmt : Nat) (v w : Fin 32) (bs : List Byte) (val p : Nat) : Parsed where
  fields := if fmtIsCloud q fmt then [] else [(v, val), (w, bs.length)]
  next := p + bs.length
  noncanon := !fmtIsCloud q fmt && vwNarrower q .addr3 val bs.length

/-- An address, there or not (43_frame.md R190). -/
theorem addr_ahead {s : State} {fmt p val : Nat} {bs rest : List Byte} (v w : Fin 32)
    (hl : addrLegal s.params fmt bs val = true) (h : Ahead s p (bs ++ rest)) :
    gated (!fmtIsCloud s.params fmt) p (vwParse s .addr3 v w p) = .ok (addrPart s.params fmt v w bs val p) := by
  rw [addrLegal] at hl
  rw [addrPart]
  cases hcloud : fmtIsCloud s.params fmt with
  | true =>
    rw [hcloud, if_pos rfl, beq_iff_eq] at hl
    rw [hl]
    rfl
  | false =>
    rw [hcloud, if_neg Bool.false_ne_true] at hl
    exact vwParse_ahead v w hl h

/-! ### The fixed part -/

/-- What `Layout.linkFixedLegal` says, condition by condition (30_encoding.md R88). -/
structure LinkFixedLegal (q : Params) (x : Link) : Prop where
  frameType : x.frameType < 8
  frameTypeMax : x.frameType ≤ q.frameTypeMax
  protocolVersion : x.protocolVersion < 16
  srcFormat : x.srcFormat < 4
  dstFormat : x.dstFormat < 4
  ackReq : x.ackReq < 2
  broadcastAck : x.broadcastAck < 2
  pad : x.pad < 8

theorem linkFixedLegal_spec {q : Params} {x : Link} (hx : linkFixedLegal q x = true) : LinkFixedLegal q x := by
  simp only [linkFixedLegal, decide_eq_true_eq] at hx
  obtain ⟨_, _, _, _, _, _, _, _⟩ := hx
  constructor <;> assumption

theorem linkLegal_spec {q : Params} {x : Link} (hx : linkLegal q x = true) :
    linkFixedLegal q x = true ∧ addrLegal q x.srcFormat x.src x.srcVal = true ∧
      addrLegal q x.dstFormat x.dst x.dstVal = true ∧ vwField q .seq2 x.seqn x.seqnVal = true := by
  simpa only [linkLegal, Bool.and_eq_true, and_assoc] using hx

/-- The fixed part, field by field (30_encoding.md R88). -/
theorem linkFixedOf_bytes {q : Params} {x : Link} (hx : LinkFixedLegal q x) :
    linkFixedOf (BitVec.ofNat 16 (beNat (linkFixedBytes x))) =
      { frameType := BitVec.ofNat 3 x.frameType, protocolVersion := BitVec.ofNat 4 x.protocolVersion
        srcFormat := BitVec.ofNat 2 x.srcFormat, dstFormat := BitVec.ofNat 2 x.dstFormat
        ackReq := BitVec.ofNat 1 x.ackReq, broadcastAck := BitVec.ofNat 1 x.broadcastAck } := by
  obtain ⟨_, -, _, _, _, _, _, _⟩ := hx
  have hword : beNat (linkFixedBytes x) = linkWord x := by
    simp only [linkFixedBytes, linkWord, beNat_cons, beNat_nil, BitVec.toNat_ofNat, List.length_cons, List.length_nil]
    omega
  rw [hword]
  simp only [linkFixedOf, LinkFixed.mk.injEq]
  refine ⟨?_, ?_, ?_, ?_, ?_, ?_⟩ <;>
  · apply BitVec.eq_of_toNat_eq
    simp only [toNat_extract, linkWord, BitVec.toNat_ofNat]
    omega

/-- `F[0..5]` of a header (43_frame.md R191). -/
def linkFixedFields (q : Params) (x : Link) : Fields :=
  [(0, x.frameType), (1, x.protocolVersion), (2, x.srcFormat), (3, x.dstFormat)]
    ++ (if x.frameType = q.frameTypeAck then [] else [(4, x.ackReq)]) ++ [(5, x.broadcastAck)]

/-- What `LLParse(p)` does after the fixed part of `x` (43_frame.md R190). -/
def llAfterFixed (s : State) (x : Link) (p : Nat) : Result Parsed := do
  let src ← gated (!fmtIsCloud s.params x.srcFormat) (p + 2) (vwParse s .addr3 6 7 (p + 2))
  let dst ← gated (!fmtIsCloud s.params x.dstFormat) src.next (vwParse s .addr3 8 9 src.next)
  let seqn ← vwParse s .seq2 10 11 dst.next
  pure {
    fields := linkFixedFields s.params x ++ src.fields ++ dst.fields ++ seqn.fields
    next := seqn.next
    noncanon := src.noncanon || dst.noncanon || seqn.noncanon }

/-- The fixed part is read (43_frame.md R190). -/
theorem llParse_fixed {s : State} {p : Nat} {x : Link} {rest : List Byte} (hx : linkFixedLegal s.params x = true)
    (h : Ahead s p (linkFixedBytes x ++ rest)) : llParse s p = llAfterFixed s x p := by
  have hread : ibufBytes s p 2 = linkFixedBytes x := h.read
  have hfixed := linkFixedLegal_spec hx
  have hfields := linkFixedOf_bytes hfixed
  obtain ⟨_, hmax, _, _, _, _, _, _⟩ := hfixed
  have hft : (BitVec.ofNat 3 x.frameType).toNat = x.frameType := Nat.mod_eq_of_lt (by omega)
  have hpv : (BitVec.ofNat 4 x.protocolVersion).toNat = x.protocolVersion := Nat.mod_eq_of_lt (by omega)
  have hsf : (BitVec.ofNat 2 x.srcFormat).toNat = x.srcFormat := Nat.mod_eq_of_lt (by omega)
  have hdf : (BitVec.ofNat 2 x.dstFormat).toNat = x.dstFormat := Nat.mod_eq_of_lt (by omega)
  have har : (BitVec.ofNat 1 x.ackReq).toNat = x.ackReq := Nat.mod_eq_of_lt (by omega)
  have hba : (BitVec.ofNat 1 x.broadcastAck).toNat = x.broadcastAck := Nat.mod_eq_of_lt (by omega)
  unfold llParse
  simp only [h.need (n := 2) (by simp [linkFixedBytes]), Result.ok_bind, hread, hfields, hft, hpv, hsf, hdf, har, hba,
    raiseIf_bind, decide_eq_true_eq, if_neg (Nat.not_lt.mpr hmax), gt_iff_lt]
  rfl

/-! ### The header -/

/-- A link-layer header at offset `p` as it is reported (43_frame.md R191). -/
def linkPart (q : Params) (x : Link) (p : Nat) : Parsed where
  fields := linkFields q x
  next := p + (linkBytes x).length
  noncanon := linkNoncanon q x

/-- The whole header is read (43_frame.md R190). -/
theorem llParse_ahead {s : State} {p : Nat} {x : Link} {rest : List Byte} (hx : linkLegal s.params x = true)
    (h : Ahead s p (linkBytes x ++ rest)) : llParse s p = .ok (linkPart s.params x p) := by
  obtain ⟨hfixed, hsrc, hdst, hseqn⟩ := linkLegal_spec hx
  simp only [linkBytes_eq, List.append_assoc] at h
  have hend : p + 2 + x.src.length + x.dst.length + x.seqn.length = p + (linkBytes x).length := by
    simp only [linkBytes_eq, List.length_append, linkFixedBytes, List.length_cons, List.length_nil]
    omega
  have hat : Ahead s (p + 2) (x.src ++ (x.dst ++ (x.seqn ++ rest))) := h.skip
  rw [llParse_fixed hfixed h, llAfterFixed, addr_ahead 6 7 hsrc hat, Result.ok_bind]
  simp only [addrPart]
  rw [addr_ahead 8 9 hdst hat.skip, Result.ok_bind]
  simp only [addrPart]
  rw [vwParse_ahead 10 11 hseqn hat.skip.skip, Result.ok_bind, hend]
  rfl

/-! ### Reserved codes -/

/-- A reserved `frame_type` (30_encoding.md R100). -/
theorem llParse_reserved_frameType {s : State} {p : Nat} {b0 b1 : Byte} {rest : List Byte}
    (hmax : s.params.frameTypeMax < b0.toNat / 32) (h : Ahead s p (b0 :: b1 :: rest)) :
    llParse s p = raising .invalidDiscriminant p := by
  have hread : ibufBytes s p 2 = [b0, b1] := Ahead.read (bs := [b0, b1]) h
  have hword : (BitVec.ofNat 16 (beNat [b0, b1])).toNat / 8192 % 8 = b0.toNat / 32 := by
    have h0 := b0.isLt
    have h1 := b1.isLt
    simp only [beNat_cons, beNat_nil, BitVec.toNat_ofNat, List.length_cons, List.length_nil]
    omega
  unfold llParse
  simp only [h.need (n := 2) (by simp), Result.ok_bind, hread, raiseIf_bind, linkFixedOf_frameType, hword, decide_eq_true_eq,
    gt_iff_lt, if_pos hmax]

section
variable {s : State} {p : Nat} {x : Link} {lead : Byte} {rest : List Byte} (hx : linkFixedLegal s.params x = true)
include hx

/-- A reserved width code of the source address (43_frame.md R192). -/
theorem llParse_reserved_src (hcloud : fmtIsCloud s.params x.srcFormat = false)
    (hcode : vwWidth s.params .addr3 (lead.toNat / 32) = none) (h : Ahead s p (linkFixedBytes x ++ lead :: rest)) :
    llParse s p = raising .invalidDiscriminant (p + 2) := by
  have hat : Ahead s (p + 2) (lead :: rest) := h.skip
  rw [llParse_fixed hx h, llAfterFixed, hcloud, Bool.not_false, gated_true, vwParse_reserved 6 7 hcode hat, raising_bind]

variable (hsrc : addrLegal s.params x.srcFormat x.src x.srcVal = true)
include hsrc

/-- A reserved width code of the destination address (43_frame.md R192). -/
theorem llParse_reserved_dst (hcloud : fmtIsCloud s.params x.dstFormat = false)
    (hcode : vwWidth s.params .addr3 (lead.toNat / 32) = none) (h : Ahead s p (linkFixedBytes x ++ (x.src ++ lead :: rest))) :
    llParse s p = raising .invalidDiscriminant (p + 2 + x.src.length) := by
  have hat : Ahead s (p + 2) (x.src ++ lead :: rest) := h.skip
  rw [llParse_fixed hx h, llAfterFixed, addr_ahead 6 7 hsrc hat, Result.ok_bind]
  simp only [addrPart]
  rw [hcloud, Bool.not_false, gated_true, vwParse_reserved 8 9 hcode hat.skip, raising_bind]

/-- A reserved width code of `seqn_num` (43_frame.md R192). -/
theorem llParse_reserved_seqn (hdst : addrLegal s.params x.dstFormat x.dst x.dstVal = true)
    (hcode : vwWidth s.params .seq2 (lead.toNat / 64) = none)
    (h : Ahead s p (linkFixedBytes x ++ (x.src ++ (x.dst ++ lead :: rest)))) :
    llParse s p = raising .invalidDiscriminant (p + 2 + x.src.length + x.dst.length) := by
  have hat : Ahead s (p + 2) (x.src ++ (x.dst ++ lead :: rest)) := h.skip
  rw [llParse_fixed hx h, llAfterFixed, addr_ahead 6 7 hsrc hat, Result.ok_bind]
  simp only [addrPart]
  rw [addr_ahead 8 9 hdst hat.skip, Result.ok_bind]
  simp only [addrPart]
  rw [vwParse_reserved 10 11 hcode hat.skip.skip, raising_bind]

end

/-! ### The commands -/

/-- A single-layer decode of a header that stands at the cursor (43_frame.md R192 to R194). -/
theorem layerDecode_ahead {s : State} {m : Result Parsed} {fs : Fields} {nc : Bool} {bs rest : List Byte}
    (hm : m = .ok { fields := fs, next := s.cur.toNat + bs.length, noncanon := nc }) (hw : window s = bs ++ rest)
    (hc : s.cur.toNat ≤ s.ilen.toNat) :
    layerDecode s m = .ok {
      fields := fs, cur := s.cur.toNat + bs.length, flags := { noncanon := nc, trail := rest != [] } } := by
  rw [layerDecode, hm, ← trail_of_window hw hc]
  rfl

theorem layerDecode_raises {s : State} {m : Result Parsed} {c : Cause} {n : Nat} (h : m = raising c n) :
    layerDecode s m = raising c n := by
  rw [layerDecode, h, raising_bind]

/-- `LLDEC` and `FRAMEDEC` raise what the link-layer parser raises (43_frame.md R192, R195). -/
theorem exec_raises_of_llParse {s : State} {i : Instr} {w : Word} {n : Nat}
    (hiw : (i, w) ∈ [(Instr.lldec, (0x00000040 : Word)), (Instr.framedec, 0x00000043)])
    (hc : s.cur.toNat ≤ s.ilen.toNat) (hi : s.ilen.toNat ≤ s.params.ibufSize)
    (h : llParse s s.cur.toNat = raising .invalidDiscriminant n) :
    ∃ t, exec i s = .next t ∧ Raised s t w .invalidDiscriminant n := by
  simp only [List.mem_cons, Prod.mk.injEq, List.not_mem_nil, or_false] at hiw
  rcases hiw with ⟨rfl, rfl⟩ | ⟨rfl, rfl⟩
  · exact runDecode_raises (prologue_ok_of_input rfl rfl hc hi) (layerDecode_raises h)
  · exact runDecode_raises (prologue_ok_of_input rfl rfl hc hi) (by rw [frameDecode, h, raising_bind])

end Sys2Proof.Machine

/-- Settles O44: the parts of the header are read one after the other, up to the one whose code is reserved. -/
theorem linkDecode : Obligations.LinkDecode := by
  intro s hc hi
  refine ⟨fun x rest hx hw => ?_, fun i w hiw => ?_⟩
  · have hp : prologue .lldec s = .ok () := prologue_ok_of_input rfl rfl hc hi
    rw [← flagWord_decodeFlags]
    exact runDecode_reports hp (layerDecode_ahead (llParse_ahead hx (ahead_window hc hw)) hw hc)
  · refine ⟨fun b0 b1 rest hw hmax => ?_, fun x lead rest hx => ⟨fun hcloud hcode hw => ?_, fun hsrc => ?_⟩⟩
    · exact exec_raises_of_llParse hiw hc hi (llParse_reserved_frameType hmax (ahead_window hc hw))
    · exact exec_raises_of_llParse hiw hc hi (llParse_reserved_src hx hcloud hcode (ahead_window hc hw))
    · refine ⟨fun hcloud hcode hw => ?_, fun hdst hcode hw => ?_⟩
      · rw [List.append_assoc] at hw
        exact exec_raises_of_llParse hiw hc hi (llParse_reserved_dst hx hsrc hcloud hcode (ahead_window hc hw))
      · rw [List.append_assoc, List.append_assoc] at hw
        exact exec_raises_of_llParse hiw hc hi (llParse_reserved_seqn hx hsrc hdst hcode (ahead_window hc hw))
end

section
/-! SUPPORT. `NLDEC` and `PLDEC` (43_frame.md R193, R194): the network-layer and presentation-layer headers where their bytes
stand ahead, and the reserved codes. -/

open Sys2Proof Sys2Proof.Machine Sys2Proof.Layout

namespace Sys2Proof.Machine

/-! ### Network-layer header -/

/-- What `Layout.netLegal` says, condition by condition (30_encoding.md R89). -/
structure NetLegal (q : Params) (x : Net) : Prop where
  isFragment : x.isFragment < 2
  framePldType : x.framePldType < 2
  encrEna : x.encrEna < 2
  code : x.code < 8
  pad : x.pad < 4
  info : x.info < 256
  size : authSize q x.code = some x.auth.length

theorem netLegal_spec {q : Params} {x : Net} (hx : netLegal q x = true) : NetLegal q x := by
  simp only [netLegal, Bool.and_eq_true, decide_eq_true_eq, beq_iff_eq, and_assoc] at hx
  obtain ⟨_, _, _, _, _, _, _⟩ := hx
  constructor <;> assumption

/-- The leading byte of a network-layer header (30_encoding.md R89). -/
def netLead (x : Net) : Byte :=
  octet (128 * x.isFragment + 64 * x.framePldType + 32 * x.encrEna + 4 * x.code + x.pad)

/-- The leading byte, field by field (30_encoding.md R89). -/
theorem netByteOf_lead {q : Params} {x : Net} (hx : NetLegal q x) :
    netByteOf (netLead x) =
      { isFragment := BitVec.ofNat 1 x.isFragment, framePldType := BitVec.ofNat 1 x.framePldType
        encrEna := BitVec.ofNat 1 x.encrEna, authCode := BitVec.ofNat 3 x.code } := by
  obtain ⟨_, _, _, _, _, -, -⟩ := hx
  simp only [netByteOf, NetByte.mk.injEq]
  refine ⟨?_, ?_, ?_, ?_⟩ <;>
  · apply BitVec.eq_of_toNat_eq
    simp only [toNat_extract, netLead, BitVec.toNat_ofNat]
    omega

/-- `fragment_info`, there or not (43_frame.md R190). -/
theorem info_ahead {s : State} {p flag info : Nat} {rest : List Byte} (hflag : flag < 2) (hinfo : info < 256)
    (h : Ahead s p (ifSet flag [octet info] ++ rest)) :
    gated (decide (flag = 1)) p (byteParse s 16 p) = .ok { fields := ifSet flag [(16, info)], next := p + flag } := by
  have hgate := gated_of_flag (n := flag) (p := p) (bs := ifSet flag [octet info]) (m := byteParse s 16 p) (fs := [(16, info)])
    (nc := false) (fun h1 => ?_) fun h0 => ifSet_of_ne h0 _
  · have hlen : (ifSet flag [octet info]).length = flag := by interval_cases flag <;> rfl
    rw [hgate, Bool.and_false, hlen]
  · rw [h1, ifSet_one] at h ⊢
    have hbyte : (octet info).toNat = info := Nat.mod_eq_of_lt hinfo
    simp only [byteParse, h.need (n := 1) (by simp), Result.ok_bind, h.byte, hbyte]
    rfl

/-- The authentication code, there or not (43_frame.md R190). -/
theorem auth_ahead {s : State} {p : Nat} {auth rest : List Byte} (h : Ahead s p (auth ++ rest)) :
    gated (decide (auth.length > 0)) p (authParse s auth.length p) =
      .ok { fields := if auth.length = 0 then [] else [(17, p)], next := p + auth.length } := by
  by_cases h0 : auth.length = 0
  · rw [decide_eq_false (by omega), gated_false, if_pos h0, h0]
    rfl
  · rw [decide_eq_true (by omega), gated_true, if_neg h0, authParse, h.need (by simp)]
    rfl

/-- What follows the leading byte, and what follows `fragment_info` (30_encoding.md R89). -/
theorem Ahead.net {s : State} {p : Nat} {x : Net} {rest : List Byte} (hfrag : x.isFragment < 2)
    (h : Ahead s p (netBytes x ++ rest)) :
    Ahead s (p + 1) (ifSet x.isFragment [octet x.info] ++ (x.auth ++ rest)) ∧
    Ahead s (p + 1 + x.isFragment) (x.auth ++ rest) := by
  rw [netBytes_eq, List.cons_append, List.append_assoc] at h
  have hinfo : Ahead s (p + 1) (ifSet x.isFragment [octet x.info] ++ (x.auth ++ rest)) := Ahead.skip (bs := [_]) h
  have hlen : (ifSet x.isFragment [octet x.info]).length = x.isFragment := by interval_cases x.isFragment <;> rfl
  exact ⟨hinfo, by simpa only [hlen] using hinfo.skip⟩

/-- The whole header is read (43_frame.md R190). -/
theorem nlParse_ahead {s : State} {p : Nat} {x : Net} {rest : List Byte} (hx : netLegal s.params x = true)
    (h : Ahead s p (netBytes x ++ rest)) :
    nlParse s p = .ok ({ fields := netFields p x, next := p + (netBytes x).length }, x.encrEna == 1) := by
  have hlegal := netLegal_spec hx
  have hfields := netByteOf_lead hlegal
  obtain ⟨hfrag, hpld, henc, hcode, -, hinfo, hsize⟩ := hlegal
  have hcodeVal : (BitVec.ofNat 3 x.code).toNat = x.code := Nat.mod_eq_of_lt hcode
  obtain ⟨hinfoAt, hauthAt⟩ := h.net hfrag
  have hend : p + 1 + x.isFragment + x.auth.length = p + (netBytes x).length := by
    have hauthEnd := hauthAt.1
    have hrestEnd := h.skip.1
    rw [List.length_append] at hauthEnd
    omega
  rw [netBytes_eq, List.cons_append] at h
  have hbyte : ibufByte s p = netLead x := h.byte
  unfold nlParse
  simp only [h.need (n := 1) (by simp), Result.ok_bind, hbyte, hfields, hcodeVal, hsize, ofNat_one_eq_one_iff hfrag,
    ofNat_one_eq_one_iff henc, toNat_ofNat_one hfrag, toNat_ofNat_one hpld, toNat_ofNat_one henc,
    info_ahead hfrag hinfo hinfoAt, auth_ahead hauthAt, hend]
  rfl

/-- A reserved `auth_code_size` code (43_frame.md R190). -/
theorem nlParse_reserved {s : State} {p : Nat} {n : Byte} {rest : List Byte}
    (hcode : authSize s.params (n.toNat / 4 % 8) = none) (h : Ahead s p (n :: rest)) :
    nlParse s p = raising .invalidDiscriminant p := by
  unfold nlParse
  simp only [h.need (n := 1) (by simp), Result.ok_bind, h.byte, netByteOf_authCode, hcode]

/-! ### Presentation-layer header -/

/-- What `Layout.presHeadLegal` says, condition by condition (30_encoding.md R90). -/
structure PresHeadLegal (x : Pres) : Prop where
  opc : x.opc < 4
  seqnInc : x.seqnInc < 2
  rspReq : x.rspReq < 2
  addrEnc : x.addrEnc < 16
  ext : x.ext.length = x.addrEnc - 0xB

theorem presHeadLegal_spec {x : Pres} (hx : presHeadLegal x = true) : PresHeadLegal x := by
  simp only [presHeadLegal, decide_eq_true_eq] at hx
  obtain ⟨_, _, _, _, _⟩ := hx
  constructor <;> assumption

theorem presLegal_spec {q : Params} {x : Pres} (hx : presLegal q x = true) :
    presHeadLegal x = true ∧ (if x.seqnInc = 1 then vwField q .seq2 x.seqn x.seqnVal else x.seqn == []) = true := by
  simpa only [presLegal, Bool.and_eq_true] using hx

/-- The leading byte of a presentation-layer header (30_encoding.md R90). -/
def presLead (x : Pres) : Byte := octet (64 * x.opc + 32 * x.seqnInc + 16 * x.rspReq + x.addrEnc)

/-- The leading byte, field by field (30_encoding.md R90). -/
theorem presByteOf_lead {x : Pres} (hx : PresHeadLegal x) :
    presByteOf (presLead x) =
      { opc := BitVec.ofNat 2 x.opc, seqnInc := BitVec.ofNat 1 x.seqnInc, rspReq := BitVec.ofNat 1 x.rspReq
        addrEnc := BitVec.ofNat 4 x.addrEnc } := by
  obtain ⟨_, _, _, _, -⟩ := hx
  simp only [presByteOf, PresByte.mk.injEq]
  refine ⟨?_, ?_, ?_, ?_⟩ <;>
  · apply BitVec.eq_of_toNat_eq
    simp only [toNat_extract, presLead, BitVec.toNat_ofNat]
    omega

/-- The address, inline or extended (30_encoding.md R91). -/
theorem addrDecode_ahead {s : State} {p : Nat} {x : Pres} {rest : List Byte} (hx : PresHeadLegal x)
    (h : Ahead s p (x.ext ++ rest)) : addrDecode s x.addrEnc p s.ilen.toNat = .ok (presAddr x, x.ext.length) := by
  have hlen := hx.ext
  rw [addrDecode, presAddr]
  by_cases hinline : x.addrEnc ≤ 0xB
  · rw [if_pos hinline, if_pos hinline, hlen, Nat.sub_eq_zero_of_le hinline]
  · rw [if_neg hinline, if_neg hinline, ← hlen, h.need (by simp), Result.ok_bind, h.read]
    rfl

/-- `F[18..23]` of a header (43_frame.md R191). -/
def presHeadFields (x : Pres) : Fields :=
  [(18, x.opc), (19, x.seqnInc), (20, x.rspReq), (21, x.addrEnc), (22, presAddr x), (23, x.ext.length)]

/-- What `PLParse(p)` does after the address of `x`, from offset `p` on (43_frame.md R190). -/
def plAfterHead (s : State) (x : Pres) (p : Nat) : Result Parsed := do
  let seqn ← gated (decide (x.seqnInc = 1)) p (vwParse s .seq2 24 25 p)
  pure { fields := presHeadFields x ++ seqn.fields, next := seqn.next, noncanon := seqn.noncanon }

/-- The leading byte and the address are read (43_frame.md R190). -/
theorem plParse_head {s : State} {p : Nat} {x : Pres} {rest : List Byte} (hx : presHeadLegal x = true)
    (h : Ahead s p ((presHead x).flatten ++ rest)) :
    plParse s p = plAfterHead s x (p + (presHead x).flatten.length) := by
  have hlegal := presHeadLegal_spec hx
  have hend : p + (presHead x).flatten.length = p + 1 + x.ext.length := by
    rw [presHead_flatten, List.length_cons]
    omega
  rw [presHead_flatten, List.cons_append] at h
  have hbyte : ibufByte s p = presLead x := h.byte
  have hext : Ahead s (p + 1) (x.ext ++ rest) := Ahead.skip (bs := [_]) h
  have hopc : (BitVec.ofNat 2 x.opc).toNat = x.opc := Nat.mod_eq_of_lt hlegal.opc
  have haddr : (BitVec.ofNat 4 x.addrEnc).toNat = x.addrEnc := Nat.mod_eq_of_lt hlegal.addrEnc
  unfold plParse
  simp only [h.need (n := 1) (by simp), Result.ok_bind, hbyte, presByteOf_lead hlegal, haddr, hopc,
    addrDecode_ahead hlegal hext, ofNat_one_eq_one_iff hlegal.seqnInc, toNat_ofNat_one hlegal.seqnInc,
    toNat_ofNat_one hlegal.rspReq, hend]
  rfl

/-- The whole header is read (43_frame.md R190). -/
theorem plParse_ahead {s : State} {p : Nat} {x : Pres} {rest : List Byte} (hx : presLegal s.params x = true)
    (h : Ahead s p (presBytes x ++ rest)) :
    plParse s p = .ok {
      fields := presFields x, next := p + (presBytes x).length, noncanon := presNoncanon s.params x } := by
  obtain ⟨hhead, hseqn⟩ := presLegal_spec hx
  have hend : p + (presBytes x).length = p + (presHead x).flatten.length + x.seqn.length := by
    rw [presBytes_eq, List.length_append, Nat.add_assoc]
  rw [presBytes_eq, List.append_assoc] at h
  have hgate := gated_of_flag (n := x.seqnInc) (fs := [(24, x.seqnVal), (25, x.seqn.length)])
    (fun h1 => vwParse_ahead 24 25 (by rwa [if_pos h1] at hseqn) h.skip) fun h0 => by simpa [h0] using hseqn
  rw [plParse_head hhead h, plAfterHead, hgate, hend]
  rfl

/-- A reserved width code of `seqn` (43_frame.md R190). -/
theorem plParse_reserved {s : State} {p : Nat} {x : Pres} {lead : Byte} {rest : List Byte} (hx : presHeadLegal x = true)
    (hinc : x.seqnInc = 1) (hcode : vwWidth s.params .seq2 (lead.toNat / 64) = none)
    (h : Ahead s p ((presHead x).flatten ++ lead :: rest)) :
    plParse s p = raising .invalidDiscriminant (p + (presHead x).flatten.length) := by
  rw [plParse_head hx h, plAfterHead, decide_eq_true hinc, gated_true, vwParse_reserved 24 25 hcode h.skip, raising_bind]

end Sys2Proof.Machine

/-- Settles O45: the leading byte's code gives the size of the authentication code, or is reserved. -/
theorem netDecode : Obligations.NetDecode := by
  intro s hc hi
  have hp : prologue .nldec s = .ok () := prologue_ok_of_input rfl rfl hc hi
  refine ⟨fun x rest hx hw => ?_, fun n rest hw hcode => ?_⟩
  · rw [← flagWord_decodeFlags]
    exact runDecode_reports hp (layerDecode_ahead (by rw [nlParse_ahead hx (ahead_window hc hw)]; rfl) hw hc)
  · exact runDecode_raises hp (layerDecode_raises (by rw [nlParse_reserved hcode (ahead_window hc hw), raising_bind]))

/-- Settles O46: the leading byte and the address are read, then `seqn` if it is there. -/
theorem presDecode : Obligations.PresDecode := by
  intro s x hc hi
  have hp : prologue .pldec s = .ok () := prologue_ok_of_input rfl rfl hc hi
  refine ⟨fun rest hx hw => ?_, fun lead rest hx hinc hw hcode => ?_⟩
  · rw [← flagWord_decodeFlags]
    exact runDecode_reports hp (layerDecode_ahead (plParse_ahead hx (ahead_window hc hw)) hw hc)
  · exact runDecode_raises hp (layerDecode_raises (plParse_reserved hx hinc hcode (ahead_window hc hw)))
end

section
/-! SUPPORT. `FRAMEDEC` (43_frame.md R195): the headers one after the other, and what is left as the payload slice. -/

open Sys2Proof Sys2Proof.Machine Sys2Proof.Layout

namespace Sys2Proof.Machine

/-- What `FRAMEDEC` does after the link-layer and network-layer headers (43_frame.md R195). -/
def frameFromPres (s : State) (ll nl : Parsed) (enc : Bool) : Result Decoded := do
  let pl ← gated (!enc) nl.next (plParse s nl.next)
  pure {
    fields := ll.fields ++ nl.fields ++ pl.fields ++ sliceFields 26 27 pl.next (s.ilen.toNat - pl.next)
    cur := s.ilen.toNat
    flags := { noncanon := ll.noncanon || pl.noncanon, encrypted := enc } }

section
variable {s : State} {ll : Link} {nl : Net} {rest : List Byte} (hll : linkLegal s.params ll = true)
include hll

/-- The network-layer header raises (43_frame.md R195). -/
theorem frameDecode_reserved_auth {n : Byte} (hcode : authSize s.params (n.toNat / 4 % 8) = none)
    (h : Ahead s s.cur.toNat (linkBytes ll ++ n :: rest)) :
    frameDecode s = raising .invalidDiscriminant (s.cur.toNat + (linkBytes ll).length) := by
  rw [frameDecode, llParse_ahead hll h, Result.ok_bind]
  simp only [linkPart]
  rw [nlParse_reserved hcode h.skip, raising_bind]

/-- The link-layer and network-layer headers are read (43_frame.md R195). -/
theorem frameDecode_headers (hnl : netLegal s.params nl = true)
    (h : Ahead s s.cur.toNat (linkBytes ll ++ (netBytes nl ++ rest))) :
    frameDecode s = frameFromPres s (linkPart s.params ll s.cur.toNat)
      { fields := netFields (s.cur.toNat + (linkBytes ll).length) nl
        next := s.cur.toNat + (linkBytes ll).length + (netBytes nl).length } (nl.encrEna == 1) := by
  rw [frameDecode, llParse_ahead hll h, Result.ok_bind]
  simp only [linkPart]
  rw [nlParse_ahead hnl h.skip, Result.ok_bind]
  rfl

/-- A presentation-layer header is there unless `encr_ena` is set (43_frame.md R195). -/
theorem frameDecode_ahead {pl : Pres} (hnl : netLegal s.params nl = true)
    (hpl : nl.encrEna = 0 → presLegal s.params pl = true)
    (h : Ahead s s.cur.toNat (linkBytes ll ++ (netBytes nl ++ ((if nl.encrEna = 0 then presBytes pl else []) ++ rest)))) :
    frameDecode s = .ok {
      fields := linkFields s.params ll ++ netFields (s.cur.toNat + (linkBytes ll).length) nl
        ++ (if nl.encrEna = 0 then presFields pl else [])
        ++ sliceAt 26 27 (s.cur.toNat + (linkBytes ll).length + (netBytes nl).length
          + (if nl.encrEna = 0 then presBytes pl else []).length) rest.length
      cur := s.ilen.toNat
      flags := {
        encrypted := nl.encrEna == 1
        noncanon := linkNoncanon s.params ll || (nl.encrEna == 0 && presNoncanon s.params pl) } } := by
  have hat := h.skip.skip
  have hrest := hat.skip.1
  have hflag : nl.encrEna < 2 := (netLegal_spec hnl).encrEna
  rw [frameDecode_headers hll hnl h, frameFromPres]
  by_cases henc : nl.encrEna = 0
  · simp only [henc, if_true] at hat hrest ⊢
    rw [show (0 == 1) = false from rfl, Bool.not_false, gated_true, plParse_ahead (hpl henc) hat, Result.ok_bind]
    simp only [hrest, Nat.add_sub_cancel_left, sliceFields_eq]
    rfl
  · rw [if_neg henc] at hrest
    rw [if_neg henc, if_neg henc, show nl.encrEna = 1 by omega, show (1 == 1) = true from rfl, Bool.not_true, gated_false,
      Result.ok_bind]
    simp only [hrest, List.length_nil, Nat.add_zero, Nat.add_sub_cancel_left, sliceFields_eq]
    rfl

/-- `seqn` of the presentation-layer header raises (43_frame.md R195). -/
theorem frameDecode_reserved_seqn {pl : Pres} {lead : Byte} (hnl : netLegal s.params nl = true) (henc : nl.encrEna = 0)
    (hpl : presHeadLegal pl = true) (hinc : pl.seqnInc = 1) (hcode : vwWidth s.params .seq2 (lead.toNat / 64) = none)
    (h : Ahead s s.cur.toNat (linkBytes ll ++ (netBytes nl ++ ((presHead pl).flatten ++ lead :: rest)))) :
    frameDecode s = raising .invalidDiscriminant
      (s.cur.toNat + (linkBytes ll).length + (netBytes nl).length + (presHead pl).flatten.length) := by
  rw [frameDecode_headers hll hnl h, frameFromPres, henc, show (0 == 1) = false from rfl, Bool.not_false, gated_true,
    plParse_reserved hpl hinc hcode h.skip.skip, raising_bind]

end

end Sys2Proof.Machine

/-- Settles O47: each header is read where the one before it ends. -/
theorem frameDecode : Obligations.FrameDecode := by
  intro s ll hc hi hll
  have hp : prologue .framedec s = .ok () := prologue_ok_of_input rfl rfl hc hi
  refine ⟨fun nl pl rest hnl hpl hw => ?_, fun n rest hw hcode => ?_, fun nl pl lead rest hnl henc hpl hinc hcode hw => ?_⟩
  · rw [List.append_assoc, List.append_assoc] at hw
    rw [← flagWord_decodeFlags]
    exact runDecode_reports hp (frameDecode_ahead hll hnl hpl (ahead_window hc hw))
  · exact runDecode_raises hp (frameDecode_reserved_auth hll hcode (ahead_window hc hw))
  · rw [List.append_assoc, List.append_assoc] at hw
    exact runDecode_raises hp (frameDecode_reserved_seqn hll hnl henc hpl hinc hcode (ahead_window hc hw))
end

section
/-! SUPPORT. `LLENC`, `NLENC` and `PLENC` (43_frame.md R196 to R198): the tests of each in order, the bytes it appends where
none fails, and the canonical header as those bytes. -/

open Sys2Proof Sys2Proof.Machine Sys2Proof.Layout

namespace Sys2Proof.Machine

/-- An optional part of an encoding, by a condition: its tests are made only if it is there. -/
theorem gatedBytes_decide_afterChecks (c : Prop) [Decidable c] (l : List Check) (bs : List Byte) :
    gatedBytes (decide c) (afterChecks l (.ok bs)) = afterChecks (if c then l else []) (.ok (if c then bs else [])) := by
  by_cases h : c
  · rw [decide_eq_true h, if_pos h, if_pos h]
    rfl
  · rw [decide_eq_false h, if_neg h, if_neg h]
    rfl

theorem vwCheck_pass_iff (s : State) (k : VwKind) (i : Fin 32) :
    firstFailing [vwCheck s k i] = none ↔ vwUnencodable s.params k (fVal s i) = false := by
  rw [firstFailing_cons_eq_none_iff, vwCheck]
  exact and_iff_left rfl

/-- The field of a variable-width operand that is held (30_encoding.md R86). -/
theorem vw_of_canonical {s : State} {k : VwKind} {i : Fin 32} {v : Nat} {bs : List Byte}
    (hc : vwMinimal s.params k bs v = true) (hh : fVal s i = v) :
    firstFailing [vwCheck s k i] = none ∧ vwBytes s.params k (fVal s i) = bs := by
  obtain ⟨hbytes, hpass⟩ := vwBytes_of_minimal hc
  rw [vwCheck_pass_iff, hh]
  exact ⟨hpass, hbytes⟩

/-- A command that makes the tests `l` in order and then appends `bs` (43_frame.md R196 to R199). -/
theorem exec_of_afterChecks {i : Instr} {s : State} {body : Result (List Byte)} {l : List Check} {out : List Byte}
    (hp : prologue i s = .ok ()) (hbody : body = afterChecks l (.ok out)) :
    (∀ cause info, firstFailing l = some (cause, info) →
      ∃ t, runEncode i s body = .next t ∧ Raised s t (commandWord i) cause info) ∧
    ∀ bs, firstFailing l = none ∧ out = bs →
      (HasRoom s bs.length → ∃ t, runEncode i s body = .next t ∧ Appended s t bs 0) ∧
      (¬HasRoom s bs.length →
        ∃ t, runEncode i s body = .next t ∧ Raised s t (commandWord i) .capacity s.olen.toNat) := by
  refine ⟨fun cause info hfail => runEncode_raises hp (hbody.trans (afterChecks_of_some _ hfail)), ?_⟩
  rintro bs ⟨hpass, rfl⟩
  have hok := hbody.trans (afterChecks_of_none _ hpass)
  exact ⟨runEncode_completes hp hok, runEncode_full hp hok⟩

/-! ### Link-layer header -/

/-- The bytes of an address operand, none in a cloud format (43_frame.md R196). -/
def addrOut (s : State) (fmt v : Fin 32) : List Byte :=
  if fmtIsCloud s.params (fVal s fmt) then [] else vwBytes s.params .addr3 (fVal s v)

/-- The tests of an address operand, none in a cloud format (43_frame.md R196). -/
def addrChecks (s : State) (fmt v : Fin 32) : List Check :=
  if fmtIsCloud s.params (fVal s fmt) then [] else [vwCheck s .addr3 v]

theorem addrEmit_eq (s : State) (fmt v : Fin 32) :
    addrEmit s fmt v = afterChecks (addrChecks s fmt v) (.ok (addrOut s fmt v)) := by
  rw [addrEmit, addrChecks, addrOut, vwEncode_eq_afterChecks]
  cases fmtIsCloud s.params (fVal s fmt) <;> rfl

/-- The tests of the fixed part (43_frame.md R196). -/
def linkFixedChecks (s : State) : List Check :=
  [fitCheck s 0 3, fitCheck s 1 4, fitCheck s 2 2, fitCheck s 3 2, fitCheck s 4 1, fitCheck s 5 1,
    ⟨decide (s.params.frameTypeMax < fVal s 0), .encodingConstraint, 0⟩]

theorem linkChecks_eq (s : State) :
    linkChecks s = linkFixedChecks s ++ addrChecks s 2 6 ++ addrChecks s 3 8 ++ [vwCheck s .seq2 10] := rfl

/-- The fixed part that the operand registers give, `ack_req` 0 in an ack frame (43_frame.md R196). -/
def linkFixedOut (s : State) : LinkFixed where
  frameType := BitVec.ofNat 3 (fVal s 0)
  protocolVersion := BitVec.ofNat 4 (fVal s 1)
  srcFormat := BitVec.ofNat 2 (fVal s 2)
  dstFormat := BitVec.ofNat 2 (fVal s 3)
  ackReq := BitVec.ofNat 1 (if fVal s 0 = s.params.frameTypeAck then 0 else fVal s 4)
  broadcastAck := BitVec.ofNat 1 (fVal s 5)

/-- The bytes that `LLEmit()` gives where no test fails (43_frame.md R196). -/
def linkOut (s : State) : List Byte :=
  bytesBE (linkFixedBits (linkFixedOut s)).toNat 2 ++ addrOut s 2 6 ++ addrOut s 3 8 ++ vwBytes s.params .seq2 (fVal s 10)

/-- `LLEmit()` makes its tests in order and gives its bytes (43_frame.md R196). -/
theorem llEmit_eq (s : State) : llEmit s = afterChecks (linkChecks s) (.ok (linkOut s)) := by
  rw [linkChecks_eq]
  simp only [llEmit, fit_bind_eq_afterChecks, raiseIf_bind_eq_afterChecks, addrEmit_eq, vwEncode_eq_afterChecks,
    afterChecks_bind, Result.ok_bind, ← afterChecks_append, Result.pure_eq, linkFixedChecks, linkOut, List.append_assoc]
  rfl

/-- What `Layout.linkCanonical` says beyond `Layout.linkLegal`, condition by condition (43_frame.md R196). -/
structure LinkCanonical (q : Params) (x : Link) : Prop where
  legal : linkLegal q x = true
  pad : x.pad = 0
  ackReq : x.frameType = q.frameTypeAck → x.ackReq = 0
  src : fmtIsCloud q x.srcFormat = false → vwMinimal q .addr3 x.src x.srcVal = true
  dst : fmtIsCloud q x.dstFormat = false → vwMinimal q .addr3 x.dst x.dstVal = true
  seqn : vwMinimal q .seq2 x.seqn x.seqnVal = true

theorem linkCanonical_spec {q : Params} {x : Link} (hx : linkCanonical q x = true) : LinkCanonical q x := by
  simp only [linkCanonical, Bool.and_eq_true, beq_iff_eq, Bool.or_eq_true, or_iff_not_imp_left, Bool.not_eq_true, bne_iff_ne,
    ne_eq, not_not, and_assoc] at hx
  obtain ⟨_, _, _, _, _, _⟩ := hx
  constructor <;> assumption

/-- What `Layout.linkHeld` says, condition by condition (43_frame.md R196). -/
structure LinkHeld (s : State) (x : Link) : Prop where
  frameType : fVal s 0 = x.frameType
  protocolVersion : fVal s 1 = x.protocolVersion
  srcFormat : fVal s 2 = x.srcFormat
  dstFormat : fVal s 3 = x.dstFormat
  ackFits : fVal s 4 < 2
  ackReq : x.frameType ≠ s.params.frameTypeAck → fVal s 4 = x.ackReq
  broadcastAck : fVal s 5 = x.broadcastAck
  seqn : fVal s 10 = x.seqnVal
  src : fmtIsCloud s.params x.srcFormat = false → fVal s 6 = x.srcVal
  dst : fmtIsCloud s.params x.dstFormat = false → fVal s 8 = x.dstVal

theorem linkHeld_iff {s : State} {x : Link} : linkHeld s x = true ↔ LinkHeld s x := by
  simp only [linkHeld, Bool.and_eq_true, decide_eq_true_eq, Bool.or_eq_true, beq_iff_eq, or_iff_not_imp_left, Bool.not_eq_true,
    and_assoc]
  exact ⟨fun ⟨h0, h1, h2, h3, h4, hack, h5, h10, hsrc, hdst⟩ => ⟨h0, h1, h2, h3, h4, hack, h5, h10, hsrc, hdst⟩,
    fun ⟨h0, h1, h2, h3, h4, hack, h5, h10, hsrc, hdst⟩ => ⟨h0, h1, h2, h3, h4, hack, h5, h10, hsrc, hdst⟩⟩

/-- An address operand that is held (43_frame.md R196). -/
theorem addr_of_canonical {s : State} {fmt v : Fin 32} {code val : Nat} {bs : List Byte} (hfmt : fVal s fmt = code)
    (hl : addrLegal s.params code bs val = true)
    (hc : fmtIsCloud s.params code = false → vwMinimal s.params .addr3 bs val = true)
    (hh : fmtIsCloud s.params code = false → fVal s v = val) :
    firstFailing (addrChecks s fmt v) = none ∧ addrOut s fmt v = bs := by
  rw [addrLegal] at hl
  rw [addrChecks, addrOut, hfmt]
  cases hcloud : fmtIsCloud s.params code with
  | true =>
    rw [hcloud, if_pos rfl, beq_iff_eq] at hl
    exact ⟨rfl, hl.symm⟩
  | false => exact vw_of_canonical (hc hcloud) (hh hcloud)

/-- The fixed part that is held (43_frame.md R196). -/
theorem linkFixed_of_canonical {s : State} {x : Link} (hx : LinkCanonical s.params x) (hh : LinkHeld s x) :
    firstFailing (linkFixedChecks s) = none ∧ bytesBE (linkFixedBits (linkFixedOut s)).toNat 2 = linkFixedBytes x := by
  obtain ⟨hft, hmax, hpv, hsf, hdf, har, hba, -⟩ := linkFixedLegal_spec (linkLegal_spec hx.legal).1
  constructor
  · simp only [linkFixedChecks, firstFailing_cons_eq_none_iff, fitCheck_fails_eq_false_iff, firstFailing_nil, hh.frameType,
      hh.protocolVersion, hh.srcFormat, hh.dstFormat, hh.broadcastAck, decide_eq_false_iff_not, and_true]
    have h4 := hh.ackFits
    omega
  · have hack : (if x.frameType = s.params.frameTypeAck then 0 else fVal s 4) = x.ackReq := by
      split
      · next h => exact (hx.ackReq h).symm
      · next h => exact hh.ackReq h
    have hword : (linkFixedBits (linkFixedOut s)).toNat = linkWord x := by
      simp only [linkFixedBits_toNat, linkFixedOut, hh.frameType, hh.protocolVersion, hh.srcFormat, hh.dstFormat,
        hh.broadcastAck, hack, BitVec.toNat_ofNat, linkWord, hx.pad]
      omega
    rw [hword, bytesBE_two, linkFixedBytes]
    congr 2
    apply BitVec.eq_of_toNat_eq
    rw [BitVec.toNat_ofNat, BitVec.toNat_ofNat]
    omega

/-- The whole header (43_frame.md R196). -/
theorem link_of_canonical {s : State} {x : Link} (hx : linkCanonical s.params x = true) (hh : linkHeld s x = true) :
    firstFailing (linkChecks s) = none ∧ linkOut s = linkBytes x := by
  have hx := linkCanonical_spec hx
  have hh := linkHeld_iff.mp hh
  obtain ⟨-, hsrc, hdst, -⟩ := linkLegal_spec hx.legal
  obtain ⟨hfixedPass, hfixedOut⟩ := linkFixed_of_canonical hx hh
  obtain ⟨hsrcPass, hsrcOut⟩ := addr_of_canonical hh.srcFormat hsrc hx.src hh.src
  obtain ⟨hdstPass, hdstOut⟩ := addr_of_canonical hh.dstFormat hdst hx.dst hh.dst
  obtain ⟨hseqnPass, hseqnOut⟩ := vw_of_canonical hx.seqn hh.seqn
  rw [linkChecks_eq, linkOut, hfixedOut, hsrcOut, hdstOut, hseqnOut, linkBytes_eq]
  simp only [firstFailing_append_eq_none_iff]
  exact ⟨⟨⟨⟨hfixedPass, hsrcPass⟩, hdstPass⟩, hseqnPass⟩, trivial⟩

/-! ### Network-layer header -/

/-- The code chosen for an authentication code size: none when no code has the size, else the smallest that has it
(43_frame.md R197). -/
theorem authCodeOf_eq_none_iff (q : Params) (size : Nat) :
    authCodeOf q size = none ↔ ((List.range 8).all fun c => authSize q c != some size) = true := by
  simp [authCodeOf]

theorem authCodeOf_of_smallest {q : Params} {size code : Nat} (hlt : code < 8) (hcode : authSize q code = some size)
    (hmin : ∀ c < 8, authSize q c = some size → code ≤ c) : authCodeOf q size = some code := by
  rw [authCodeOf, List.find?_range_eq_some]
  refine ⟨by simpa using hcode, List.mem_range.mpr hlt, fun c hc => ?_⟩
  have hne : authSize q c ≠ some size := fun h => Nat.not_le.mpr hc (hmin c (hc.trans hlt) h)
  simpa using hne

/-- The leading byte that the operand registers give (43_frame.md R197). -/
def netByteOut (s : State) : Byte :=
  netByteBits {
    isFragment := BitVec.ofNat 1 (fVal s 12), framePldType := BitVec.ofNat 1 (fVal s 13)
    encrEna := BitVec.ofNat 1 (fVal s 14), authCode := BitVec.ofNat 3 ((authCodeOf s.params (fVal s 15)).getD 0) }

/-- The bytes that `NLEmit()` gives where no test fails (43_frame.md R197). -/
def netOut (s : State) : List Byte :=
  [netByteOut s] ++ ifSet (fVal s 12) [octet (fVal s 16)]
    ++ (if 0 < fVal s 15 then ibufBytes s (fVal s 17) (fVal s 15) else [])

/-- The tests of the flags (43_frame.md R197). -/
def netFlagChecks (s : State) : List Check := [fitCheck s 12 1, fitCheck s 13 1, fitCheck s 14 1]

/-- The test of the authentication code size (43_frame.md R197). -/
def authSizeCheck (s : State) : Check :=
  ⟨(List.range 8).all fun c => authSize s.params c != some (fVal s 15), .encodingConstraint, 15⟩

theorem netChecks_eq (s : State) :
    netChecks s = netFlagChecks s ++ [authSizeCheck s] ++ ifSet (fVal s 12) [fitCheck s 16 8]
      ++ (if 0 < fVal s 15 then [sliceCheck s 17 15 17] else []) := rfl

/-- `NLEmit()` makes its tests in order and gives its bytes (43_frame.md R197). -/
theorem nlEmit_eq (s : State) : nlEmit s = afterChecks (netChecks s) (.ok (netOut s)) := by
  have hslice : slice s (fVal s 17) (fVal s 15) 17 =
      afterChecks [sliceCheck s 17 15 17] (.ok (ibufBytes s (fVal s 17) (fVal s 15))) := slice_eq_afterChecks s _ _ _
  rw [netChecks_eq]
  simp only [nlEmit, fit_bind_eq_afterChecks, Result.pure_eq, hslice, gt_iff_lt,
    gatedBytes_decide_afterChecks, afterChecks_bind, Result.ok_bind, ← afterChecks_append, List.append_assoc]
  rw [afterChecks_append (netFlagChecks s), afterChecks_append [authSizeCheck s], netOut, netByteOut]
  cases hcode : authCodeOf s.params (fVal s 15) with
  | none =>
    rw [afterChecks_of_some (l := [authSizeCheck s]) _
      (by rw [firstFailing_cons, authSizeCheck, if_pos ((authCodeOf_eq_none_iff _ _).mp hcode)])]
    rfl
  | some code =>
    have hpass : (authSizeCheck s).fails = false := by
      by_contra h
      rw [Bool.not_eq_false] at h
      rw [(authCodeOf_eq_none_iff _ _).mpr h] at hcode
      cases hcode
    rw [afterChecks_of_none (l := [authSizeCheck s]) _ ((firstFailing_cons_eq_none_iff _ _).mpr ⟨hpass, rfl⟩)]
    rfl

/-- What `Layout.netCanonical` says beyond `Layout.netLegal` (43_frame.md R197). -/
structure NetCanonical (q : Params) (x : Net) : Prop where
  legal : netLegal q x = true
  pad : x.pad = 0
  smallest : authCodeOf q x.auth.length = some x.code

theorem netCanonical_spec {q : Params} {x : Net} (hx : netCanonical q x = true) : NetCanonical q x := by
  simp only [netCanonical, Bool.and_eq_true, beq_iff_eq, List.all_eq_true, List.mem_range, decide_eq_true_eq, and_assoc] at hx
  obtain ⟨hlegal, hpad, hmin⟩ := hx
  obtain ⟨-, -, -, hcode, -, -, hsize⟩ := netLegal_spec hlegal
  exact ⟨hlegal, hpad, authCodeOf_of_smallest hcode hsize hmin⟩

/-- What `Layout.netHeld` says, condition by condition (43_frame.md R197). -/
structure NetHeld (s : State) (x : Net) : Prop where
  isFragment : fVal s 12 = x.isFragment
  framePldType : fVal s 13 = x.framePldType
  encrEna : fVal s 14 = x.encrEna
  size : fVal s 15 = x.auth.length
  info : x.isFragment = 1 → fVal s 16 = x.info
  auth : 0 < x.auth.length →
    fVal s 17 + x.auth.length ≤ s.ilen.toNat ∧ ibufBytes s (fVal s 17) x.auth.length = x.auth

theorem netHeld_iff {s : State} {x : Net} : netHeld s x = true ↔ NetHeld s x := by
  simp only [netHeld, decide_eq_true_eq]
  exact ⟨fun ⟨h12, h13, h14, h15, h16, h17⟩ => ⟨h12, h13, h14, h15, h16, h17⟩,
    fun ⟨h12, h13, h14, h15, h16, h17⟩ => ⟨h12, h13, h14, h15, h16, h17⟩⟩

/-- The authentication code that is held (43_frame.md R197). -/
theorem auth_of_held {s : State} {x : Net} (hh : NetHeld s x) :
    firstFailing (if 0 < fVal s 15 then [sliceCheck s 17 15 17] else []) = none ∧
    (if 0 < fVal s 15 then ibufBytes s (fVal s 17) (fVal s 15) else []) = x.auth := by
  rw [hh.size]
  by_cases h : 0 < x.auth.length
  · obtain ⟨hin, hbytes⟩ := hh.auth h
    rw [if_pos h, if_pos h]
    refine ⟨(firstFailing_cons_eq_none_iff _ _).mpr ⟨decide_eq_false ?_, rfl⟩, hbytes⟩
    rw [hh.size]
    exact Nat.not_lt.mpr hin
  · rw [if_neg h, if_neg h, List.eq_nil_of_length_eq_zero (Nat.eq_zero_of_not_pos h)]
    exact ⟨rfl, rfl⟩

/-- The whole header (43_frame.md R197). -/
theorem net_of_canonical {s : State} {x : Net} (hx : netCanonical s.params x = true) (hh : netHeld s x = true) :
    firstFailing (netChecks s) = none ∧ netOut s = netBytes x := by
  obtain ⟨hlegal, hpad, hsmall⟩ := netCanonical_spec hx
  obtain ⟨hfrag, hpld, henc, hcode, -, hinfo, -⟩ := netLegal_spec hlegal
  have hh := netHeld_iff.mp hh
  obtain ⟨hauthPass, hauthOut⟩ := auth_of_held hh
  rw [netChecks_eq, netOut, hauthOut, hh.isFragment]
  simp only [firstFailing_append_eq_none_iff]
  refine ⟨⟨⟨⟨?_, ?_⟩, ?_⟩, hauthPass⟩, ?_⟩
  · simp only [netFlagChecks, firstFailing_cons_eq_none_iff, fitCheck_fails_eq_false_iff, firstFailing_nil, hh.isFragment,
      hh.framePldType, hh.encrEna]
    exact ⟨hfrag, hpld, henc, trivial⟩
  · refine (firstFailing_cons_eq_none_iff _ _).mpr ⟨?_, rfl⟩
    by_contra h
    rw [Bool.not_eq_false] at h
    rw [← hh.size, (authCodeOf_eq_none_iff _ _).mpr h] at hsmall
    cases hsmall
  · rw [firstFailing_ifSet_eq_none_iff, firstFailing_cons_eq_none_iff, fitCheck_fails_eq_false_iff]
    exact fun h1 => ⟨(hh.info h1).trans_lt hinfo, rfl⟩
  · have hbyte : netByteOut s = netLead x := by
      apply BitVec.eq_of_toNat_eq
      simp only [netByteOut, netByteBits_toNat, hh.isFragment, hh.framePldType, hh.encrEna, hh.size, hsmall, Option.getD_some,
        BitVec.toNat_ofNat, netLead, hpad]
      omega
    have hinfoOut : ifSet x.isFragment [octet (fVal s 16)] = ifSet x.isFragment [octet x.info] := by
      by_cases h1 : x.isFragment = 1
      · rw [hh.info h1]
      · rw [ifSet_of_ne h1, ifSet_of_ne h1]
    rw [hbyte, hinfoOut, netBytes_eq, List.append_assoc]
    rfl

/-! ### Presentation-layer header -/

/-- The test of the address (43_frame.md R198). -/
def presAddrCheck (s : State) : Check :=
  if fVal s 21 ≤ 0xB then ⟨fVal s 22 != fVal s 21, .encodingConstraint, 22⟩ else fitCheck s 22 (8 * (fVal s 21 - 0xB))

/-- The bytes of the extended address, none when it is inline (43_frame.md R198). -/
def presExtOut (s : State) : List Byte := bytesBE (fVal s 22) (fVal s 21 - 0xB)

theorem plAddrEmit_eq (s : State) : plAddrEmit s = afterChecks [presAddrCheck s] (.ok (presExtOut s)) := by
  rw [plAddrEmit, presAddrCheck, presExtOut]
  by_cases h : fVal s 21 ≤ 0xB
  · rw [if_pos h, if_pos h, raiseIf_bind_eq_afterChecks, Nat.sub_eq_zero_of_le h, bne, Bool.beq_eq_decide_eq, decide_not]
    rfl
  · rw [if_neg h, if_neg h, fit_bind_eq_afterChecks]
    rfl

/-- The tests of the leading byte's fields (43_frame.md R198). -/
def presByteChecks (s : State) : List Check := [fitCheck s 18 2, fitCheck s 19 1, fitCheck s 20 1, fitCheck s 21 4]

theorem presChecks_eq (s : State) :
    presChecks s = presByteChecks s ++ [presAddrCheck s] ++ ifSet (fVal s 19) [vwCheck s .seq2 24] := rfl

/-- The leading byte that the operand registers give (43_frame.md R198). -/
def presByteOut (s : State) : Byte :=
  presByteBits {
    opc := BitVec.ofNat 2 (fVal s 18), seqnInc := BitVec.ofNat 1 (fVal s 19), rspReq := BitVec.ofNat 1 (fVal s 20)
    addrEnc := BitVec.ofNat 4 (fVal s 21) }

/-- The bytes that `PLEmit()` gives where no test fails (43_frame.md R198). -/
def presOut (s : State) : List Byte :=
  [presByteOut s] ++ presExtOut s ++ ifSet (fVal s 19) (vwBytes s.params .seq2 (fVal s 24))

/-- `PLEmit()` makes its tests in order and gives its bytes (43_frame.md R198). -/
theorem plEmit_eq (s : State) : plEmit s = afterChecks (presChecks s) (.ok (presOut s)) := by
  rw [presChecks_eq]
  simp only [plEmit, fit_bind_eq_afterChecks, plAddrEmit_eq, vwEncode_eq_afterChecks, gatedBytes_afterChecks,
    afterChecks_bind, Result.ok_bind, ← afterChecks_append, Result.pure_eq, presByteChecks, List.append_assoc]
  rfl

theorem presCanonical_spec {q : Params} {x : Pres} (hx : presCanonical q x = true) :
    presLegal q x = true ∧ (x.seqnInc = 1 → vwMinimal q .seq2 x.seqn x.seqnVal = true) := by
  simpa only [presCanonical, Bool.and_eq_true, Bool.or_eq_true, bne_iff_ne, ne_eq, ← imp_iff_not_or] using hx

/-- What `Layout.presHeld` says, condition by condition (43_frame.md R198). -/
structure PresHeld (s : State) (x : Pres) : Prop where
  opc : fVal s 18 = x.opc
  seqnInc : fVal s 19 = x.seqnInc
  rspReq : fVal s 20 = x.rspReq
  addrEnc : fVal s 21 = x.addrEnc
  addr : fVal s 22 = presAddr x
  seqn : x.seqnInc = 1 → fVal s 24 = x.seqnVal

theorem presHeld_iff {s : State} {x : Pres} : presHeld s x = true ↔ PresHeld s x := by
  simp only [presHeld, decide_eq_true_eq]
  exact ⟨fun ⟨h18, h19, h20, h21, h22, h24⟩ => ⟨h18, h19, h20, h21, h22, h24⟩,
    fun ⟨h18, h19, h20, h21, h22, h24⟩ => ⟨h18, h19, h20, h21, h22, h24⟩⟩

/-- The address that is held, inline or extended (43_frame.md R198, 30_encoding.md R91). -/
theorem presAddr_of_held {s : State} {x : Pres} (hx : PresHeadLegal x) (hh : PresHeld s x) :
    (presAddrCheck s).fails = false ∧ presExtOut s = x.ext := by
  have hlen := hx.ext
  rw [presAddrCheck, presExtOut, hh.addr, hh.addrEnc, presAddr]
  by_cases h : x.addrEnc ≤ 0xB
  · rw [if_pos h, if_pos h, List.eq_nil_of_length_eq_zero (hlen.trans (Nat.sub_eq_zero_of_le h)), Nat.sub_eq_zero_of_le h]
    exact ⟨bne_self_eq_false _, rfl⟩
  · rw [if_neg h, if_neg h, fitCheck_fails_eq_false_iff, hh.addr, presAddr, if_neg h, ← hlen, bytesBE_beNat, Nat.pow_mul]
    exact ⟨beNat_lt x.ext, rfl⟩

/-- The whole header (43_frame.md R198). -/
theorem pres_of_canonical {s : State} {x : Pres} (hx : presCanonical s.params x = true) (hh : presHeld s x = true) :
    firstFailing (presChecks s) = none ∧ presOut s = presBytes x := by
  obtain ⟨hlegal, hminimal⟩ := presCanonical_spec hx
  obtain ⟨hhead, habsent⟩ := presLegal_spec hlegal
  have hhead := presHeadLegal_spec hhead
  have hh := presHeld_iff.mp hh
  obtain ⟨haddrPass, haddrOut⟩ := presAddr_of_held hhead hh
  obtain ⟨hopc, hinc, hrsp, haddr, -⟩ := hhead
  rw [presChecks_eq, presOut, haddrOut, hh.seqnInc]
  simp only [firstFailing_append_eq_none_iff]
  refine ⟨⟨⟨?_, (firstFailing_cons_eq_none_iff _ _).mpr ⟨haddrPass, rfl⟩⟩, ?_⟩, ?_⟩
  · simp only [presByteChecks, firstFailing_cons_eq_none_iff, fitCheck_fails_eq_false_iff, firstFailing_nil, hh.opc,
      hh.seqnInc, hh.rspReq, hh.addrEnc]
    exact ⟨hopc, hinc, hrsp, haddr, trivial⟩
  · rw [firstFailing_ifSet_eq_none_iff]
    exact fun h1 => (vw_of_canonical (hminimal h1) (hh.seqn h1)).1
  · have hbyte : presByteOut s = presLead x := by
      apply BitVec.eq_of_toNat_eq
      simp only [presByteOut, presByteBits_toNat, hh.opc, hh.seqnInc, hh.rspReq, hh.addrEnc, BitVec.toNat_ofNat, presLead]
      omega
    have hseqnOut : ifSet x.seqnInc (vwBytes s.params .seq2 (fVal s 24)) = x.seqn := by
      by_cases h1 : x.seqnInc = 1
      · rw [h1, ifSet_one, (vw_of_canonical (hminimal h1) (hh.seqn h1)).2]
      · rw [if_neg h1, beq_iff_eq] at habsent
        rw [ifSet_of_ne h1, habsent]
    rw [hbyte, hseqnOut, presBytes_eq, presHead_flatten]
    rfl

end Sys2Proof.Machine

/-- Settles O49: the tests are the layout's in order; a header that is held passes them and is what `LLEmit()` gives. -/
theorem linkEncode : Obligations.LinkEncode := by
  refine ⟨rfl, fun s ho => ?_⟩
  have hp : prologue .llenc s = .ok () := prologue_ok_of_output rfl rfl ho
  obtain ⟨hraises, hgives⟩ := exec_of_afterChecks hp (llEmit_eq s)
  exact ⟨hraises, fun x hx hh => hgives _ (link_of_canonical hx hh)⟩

/-- Settles O50: the tests are the layout's in order; a header that is held passes them and is what `NLEmit()` gives. -/
theorem netEncode : Obligations.NetEncode := by
  refine ⟨rfl, fun s hc hi ho => ?_⟩
  have hp : prologue .nlenc s = .ok () := prologue_ok_of_input_output rfl hc hi ho
  obtain ⟨hraises, hgives⟩ := exec_of_afterChecks hp (nlEmit_eq s)
  exact ⟨hraises, fun x hx hh => hgives _ (net_of_canonical hx hh)⟩

/-- Settles O51: the tests are the layout's in order; a header that is held passes them and is what `PLEmit()` gives. -/
theorem presEncode : Obligations.PresEncode := by
  refine ⟨rfl, fun s ho => ?_⟩
  have hp : prologue .plenc s = .ok () := prologue_ok_of_output rfl rfl ho
  obtain ⟨hraises, hgives⟩ := exec_of_afterChecks hp (plEmit_eq s)
  exact ⟨hraises, fun x hx hh => hgives _ (pres_of_canonical hx hh)⟩
end

section
/-! SUPPORT. `FRAMEENC` (43_frame.md R199): its tests in order, the bytes it appends where none fails, and the frame whose
headers and payload are held. -/

open Sys2Proof Sys2Proof.Machine Sys2Proof.Layout

namespace Sys2Proof.Machine

/-- An optional slice operand: its test is made only if it is there (00_scope.md R15). -/
theorem gatedSlice_eq (s : State) (b : Bool) (o l : Fin 32) (info : Nat) :
    gatedBytes b (slice s (fVal s o) (fVal s l) info) =
      afterChecks (if b then [sliceCheck s o l info] else []) (.ok (if b then ibufBytes s (fVal s o) (fVal s l) else [])) := by
  cases b
  · rfl
  · exact slice_eq_afterChecks s _ _ _

/-- The bytes that `FRAMEENC` appends where no test fails (43_frame.md R199). -/
def frameOut (s : State) : List Byte :=
  linkOut s ++ netOut s ++ (if fVal s 14 = 0 then presOut s else [])
    ++ (if presBit s 26 then ibufBytes s (fVal s 26) (fVal s 27) else [])

/-- `FRAMEENC` makes its tests in order and gives its bytes (43_frame.md R199). -/
theorem frameEncode_eq (s : State) : frameEncode s = afterChecks (frameChecks s) (.ok (frameOut s)) := by
  simp only [frameEncode, llEmit_eq, nlEmit_eq, plEmit_eq, gatedBytes_decide_afterChecks, gatedSlice_eq, afterChecks_bind,
    Result.ok_bind, ← afterChecks_append, Result.pure_eq, frameChecks, frameOut, List.append_assoc]

/-- The payload slice, where `PRES[26] = 1` (43_frame.md R199). -/
theorem payload_of_held {s : State} {data : List Byte}
    (h : if presBit s 26 then sliceHeld s 26 27 data = true else data = []) :
    firstFailing (if presBit s 26 then [sliceCheck s 26 27 26] else []) = none ∧
    (if presBit s 26 then ibufBytes s (fVal s 26) (fVal s 27) else []) = data := by
  cases hpres : presBit s 26 with
  | false =>
    rw [hpres, if_neg Bool.false_ne_true] at h
    exact ⟨rfl, h.symm⟩
  | true =>
    rw [hpres, if_pos rfl] at h
    obtain ⟨-, hin, hbytes⟩ := sliceHeld_spec h
    exact ⟨(firstFailing_cons_eq_none_iff _ _).mpr ⟨decide_eq_false (Nat.not_lt.mpr hin), rfl⟩, hbytes⟩

/-- The whole frame (43_frame.md R199). -/
theorem frame_of_canonical {s : State} {ll : Link} {nl : Net} {pl : Pres} {data : List Byte}
    (hll : linkCanonical s.params ll = true) (hllHeld : linkHeld s ll = true) (hnl : netCanonical s.params nl = true)
    (hnlHeld : netHeld s nl = true) (hpl : nl.encrEna = 0 → presCanonical s.params pl = true ∧ presHeld s pl = true)
    (hdata : if presBit s 26 then sliceHeld s 26 27 data = true else data = []) :
    firstFailing (frameChecks s) = none ∧
    frameOut s = linkBytes ll ++ netBytes nl ++ (if nl.encrEna = 0 then presBytes pl else []) ++ data := by
  obtain ⟨hllPass, hllOut⟩ := link_of_canonical hll hllHeld
  obtain ⟨hnlPass, hnlOut⟩ := net_of_canonical hnl hnlHeld
  obtain ⟨hdataPass, hdataOut⟩ := payload_of_held hdata
  have henc : fVal s 14 = nl.encrEna := (netHeld_iff.mp hnlHeld).encrEna
  rw [frameChecks, frameOut, hllOut, hnlOut, hdataOut, henc]
  simp only [firstFailing_append_eq_none_iff]
  by_cases h : nl.encrEna = 0
  · obtain ⟨hplPass, hplOut⟩ := pres_of_canonical (hpl h).1 (hpl h).2
    rw [if_pos h, if_pos h, if_pos h, hplOut]
    exact ⟨⟨⟨⟨hllPass, hnlPass⟩, hplPass⟩, hdataPass⟩, rfl⟩
  · rw [if_neg h, if_neg h, if_neg h]
    exact ⟨⟨⟨⟨hllPass, hnlPass⟩, rfl⟩, hdataPass⟩, rfl⟩

end Sys2Proof.Machine

/-- Settles O52: the tests are those of the headers and the payload in order; what is held passes them and is the frame. -/
theorem frameEncode : Obligations.FrameEncode := by
  refine ⟨rfl, fun s hc hi ho => ?_⟩
  have hp : prologue .frameenc s = .ok () := prologue_ok_of_input_output rfl hc hi ho
  obtain ⟨hraises, hgives⟩ := exec_of_afterChecks hp (frameEncode_eq s)
  exact ⟨hraises, fun ll nl pl data hll hllHeld hnl hnlHeld hpl hdata =>
    hgives _ (frame_of_canonical hll hllHeld hnl hnlHeld hpl hdata)⟩
end

section
/-! SUPPORT. The round trip of 43_frame.md R199: the registers in which `FRAMEDEC` reports a frame hold its headers and its
payload as `FRAMEENC` wants them. -/

open Sys2Proof Sys2Proof.Machine Sys2Proof.Layout

namespace Sys2Proof.Machine

/-! ### Values that fit a register -/

/-- In a lawful configuration a width class has at most four bytes (00_scope.md R9, 30_encoding.md R85). -/
theorem vwWidth_le_four {p : Params} {k : VwKind} {c w : Nat} (hv : p.valid = true) (h : vwWidth p k c = some w) : w ≤ 4 := by
  obtain ⟨h2, h3⟩ := widths_lawful hv
  have hlawful : widthLawful (some w) = true := by
    cases k with
    | seq2 => exact h2 _ (Vector.mem_of_getElem? ((Option.getD_eq_iff.mp h).resolve_right (by simp)))
    | addr3 => exact h3 _ (Vector.mem_of_getElem? ((Option.getD_eq_iff.mp h).resolve_right (by simp)))
  simp only [widthLawful, Bool.and_eq_true, decide_eq_true_eq] at hlawful
  exact hlawful.2

/-- In a lawful configuration the value of a variable-width field fits a register (30_encoding.md R85). -/
theorem vwField_lt {p : Params} {k : VwKind} {bs : List Byte} {v : Nat} (hv : p.valid = true)
    (h : vwField p k bs v = true) : v < 2 ^ 32 := by
  obtain ⟨lead, rest, -, -, hw, hlt, -⟩ := vwField_spec h
  have hle := vwWidth_le_four hv hw
  exact hlt.trans_le (Nat.pow_le_pow_right Nat.two_pos (by omega))

theorem presAddr_lt {x : Pres} (hx : PresHeadLegal x) : presAddr x < 2 ^ 32 := by
  have haddr := hx.addrEnc
  have hlen := hx.ext
  rw [presAddr]
  split
  · omega
  · calc beNat x.ext < 256 ^ x.ext.length := beNat_lt x.ext
      _ ≤ 256 ^ 4 := Nat.pow_le_pow_right (by decide) (by omega)
      _ = 2 ^ 32 := by norm_num

/-! ### The registers of each header -/

/-- No register outside those of a piece is reported by it. -/
theorem lookup_eq_none_of_ne {fs : Fields} {i : Fin 32} (h : ∀ e ∈ fs, e.1.val ≠ i.val) : fs.lookup i = none := by
  rw [List.lookup_eq_none_iff]
  exact fun e he => bne_iff_ne.mpr fun heq => h e he (congrArg Fin.val heq.symm)

theorem linkFields_lookup_none (q : Params) (x : Link) {i : Fin 32} (hi : 11 < i.val) : (linkFields q x).lookup i = none := by
  have hreg : ∀ e ∈ linkFields q x, e.1.val ≤ 11 := by
    unfold linkFields
    split_ifs <;> simp
  exact lookup_eq_none_of_ne fun e he => ((hreg e he).trans_lt hi).ne

theorem netFields_lookup_none (p : Nat) (x : Net) {i : Fin 32} (hi : i.val < 12 ∨ 17 < i.val ∧ i.val < 28) :
    (netFields p x).lookup i = none := by
  have hreg : ∀ e ∈ netFields p x, 12 ≤ e.1.val ∧ e.1.val ≤ 17 ∨ e.1.val = 28 := by
    unfold netFields ifSet
    split_ifs <;> simp
  exact lookup_eq_none_of_ne fun e he => by
    have := hreg e he
    omega

/-- The presentation-layer header of a frame as it is reported, absent when `encr_ena` is set (43_frame.md R195). -/
def framePresFields (nl : Net) (pl : Pres) : Fields := if nl.encrEna = 0 then presFields pl else []

theorem framePresFields_lookup_none (nl : Net) (pl : Pres) {i : Fin 32} (hi : i.val < 18 ∨ 25 < i.val) :
    (framePresFields nl pl).lookup i = none := by
  have hreg : ∀ e ∈ framePresFields nl pl, 18 ≤ e.1.val ∧ e.1.val ≤ 25 := by
    unfold framePresFields presFields ifSet
    split_ifs <;> simp
  exact lookup_eq_none_of_ne fun e he => by
    have := hreg e he
    omega

theorem payloadFields_lookup_none (off len : Nat) {i : Fin 32} (hi : i.val < 26) : (sliceAt 26 27 off len).lookup i = none := by
  have hreg : ∀ e ∈ sliceAt 26 27 off len, 26 ≤ e.1.val := by
    unfold sliceAt
    split_ifs <;> simp
  exact lookup_eq_none_of_ne fun e he => (hi.trans_le (hreg e he)).ne'

/-- What `FRAMEDEC` reports of headers `ll`, `nl` at offset `p`, `pl` and a payload of `n` bytes at offset `off` (43_frame.md
R195). -/
def frameFields (q : Params) (ll : Link) (nl : Net) (pl : Pres) (p off n : Nat) : Fields :=
  linkFields q ll ++ netFields p nl ++ framePresFields nl pl ++ sliceAt 26 27 off n

section
variable (q : Params) (ll : Link) (nl : Net) (pl : Pres) (p off n : Nat) {i : Fin 32}

theorem frameFields_lookup_link (hi : i.val < 12) :
    (frameFields q ll nl pl p off n).lookup i = (linkFields q ll).lookup i := by
  rw [frameFields, List.lookup_append, List.lookup_append, List.lookup_append, netFields_lookup_none p nl (.inl hi),
    framePresFields_lookup_none nl pl (by omega), payloadFields_lookup_none off n (by omega), Option.or_none, Option.or_none,
    Option.or_none]

theorem frameFields_lookup_net (hi : 11 < i.val ∧ i.val < 18) :
    (frameFields q ll nl pl p off n).lookup i = (netFields p nl).lookup i := by
  rw [frameFields, List.lookup_append, List.lookup_append, List.lookup_append, linkFields_lookup_none q ll hi.1,
    framePresFields_lookup_none nl pl (.inl hi.2), payloadFields_lookup_none off n (by omega), Option.none_or, Option.or_none,
    Option.or_none]

theorem frameFields_lookup_pres (hi : 17 < i.val ∧ i.val < 26) :
    (frameFields q ll nl pl p off n).lookup i = (framePresFields nl pl).lookup i := by
  rw [frameFields, List.lookup_append, List.lookup_append, List.lookup_append, linkFields_lookup_none q ll (by omega),
    netFields_lookup_none p nl (by omega), payloadFields_lookup_none off n hi.2, Option.none_or, Option.none_or,
    Option.or_none]

theorem frameFields_lookup_payload (hi : 25 < i.val ∧ i.val < 28) :
    (frameFields q ll nl pl p off n).lookup i = (sliceAt 26 27 off n).lookup i := by
  rw [frameFields, List.lookup_append, List.lookup_append, List.lookup_append, linkFields_lookup_none q ll (by omega),
    netFields_lookup_none p nl (by omega), framePresFields_lookup_none nl pl (.inr hi.1), Option.none_or, Option.none_or,
    Option.none_or]

end

/-! ### Registers that hold a header -/

/-- The number in register `i` is what `fs` reports there, 0 where it reports nothing (10_state.md R24). -/
def Reports (u : State) (fs : Fields) (i : Fin 32) : Prop := fVal u i = (fs.lookup i).getD 0 % 2 ^ 32

theorem Reports.eq {u : State} {fs : Fields} {i : Fin 32} {v : Nat} (h : Reports u fs i) (hv : fs.lookup i = some v)
    (hlt : v < 2 ^ 32) : fVal u i = v := by
  rw [h, hv, Option.getD_some, Nat.mod_eq_of_lt hlt]

theorem Reports.of_lookup_eq {u : State} {fs gs : Fields} {i : Fin 32} (h : Reports u fs i)
    (hlook : fs.lookup i = gs.lookup i) : Reports u gs i := by
  rw [Reports, ← hlook]
  exact h

/-- `ack_req` is absent from an ack frame (43_frame.md R191). -/
theorem linkFields_lookup_ackReq (q : Params) (x : Link) :
    (linkFields q x).lookup 4 = if x.frameType = q.frameTypeAck then none else some x.ackReq := by
  unfold linkFields
  split_ifs <;> rfl

theorem linkFields_lookup_broadcastAck (q : Params) (x : Link) : (linkFields q x).lookup 5 = some x.broadcastAck := by
  unfold linkFields
  split_ifs <;> rfl

theorem linkFields_lookup_src {q : Params} {x : Link} (h : fmtIsCloud q x.srcFormat = false) :
    (linkFields q x).lookup 6 = some x.srcVal := by
  simp only [linkFields, h, Bool.false_eq_true, if_false]
  split <;> rfl

theorem linkFields_lookup_dst {q : Params} {x : Link} (h : fmtIsCloud q x.dstFormat = false) :
    (linkFields q x).lookup 8 = some x.dstVal := by
  simp only [linkFields, h, Bool.false_eq_true, if_false]
  split_ifs <;> rfl

theorem linkFields_lookup_seqn (q : Params) (x : Link) : (linkFields q x).lookup 10 = some x.seqnVal := by
  unfold linkFields
  split_ifs <;> rfl

/-- An address that is there fits a register (30_encoding.md R85). -/
theorem addrLegal_lt {q : Params} {fmt val : Nat} {bs : List Byte} (hv : q.valid = true) (hl : addrLegal q fmt bs val = true)
    (hcloud : fmtIsCloud q fmt = false) : val < 2 ^ 32 := by
  rw [addrLegal, hcloud, if_neg Bool.false_ne_true] at hl
  exact vwField_lt hv hl

/-- The link-layer header that was reported is held (43_frame.md R199). -/
theorem linkHeld_of_reports {u : State} {x : Link} (hv : u.params.valid = true) (hx : linkLegal u.params x = true)
    (h : ∀ i : Fin 32, i.val < 12 → Reports u (linkFields u.params x) i) : LinkHeld u x := by
  obtain ⟨hfixed, hsrc, hdst, hseqn⟩ := linkLegal_spec hx
  obtain ⟨hft, -, hpv, hsf, hdf, har, hba, -⟩ := linkFixedLegal_spec hfixed
  constructor
  case frameType => exact (h 0 (by decide)).eq rfl (by omega)
  case protocolVersion => exact (h 1 (by decide)).eq rfl (by omega)
  case srcFormat => exact (h 2 (by decide)).eq rfl (by omega)
  case dstFormat => exact (h 3 (by decide)).eq rfl (by omega)
  case ackFits =>
    have h4 := h 4 (by decide)
    rw [Reports, linkFields_lookup_ackReq] at h4
    split_ifs at h4
    · rw [h4, Option.getD_none]
      decide
    · rw [h4, Option.getD_some]
      omega
  case ackReq => exact fun hne => (h 4 (by decide)).eq (by rw [linkFields_lookup_ackReq, if_neg hne]) (by omega)
  case broadcastAck => exact (h 5 (by decide)).eq (linkFields_lookup_broadcastAck _ x) (by omega)
  case seqn => exact (h 10 (by decide)).eq (linkFields_lookup_seqn _ x) (vwField_lt hv hseqn)
  case src => exact fun hcloud => (h 6 (by decide)).eq (linkFields_lookup_src hcloud) (addrLegal_lt hv hsrc hcloud)
  case dst => exact fun hcloud => (h 8 (by decide)).eq (linkFields_lookup_dst hcloud) (addrLegal_lt hv hdst hcloud)

/-- The network-layer header that was reported is held, its authentication code where it stands (43_frame.md R199). -/
theorem netHeld_of_reports {u : State} {p : Nat} {x : Net} {rest : List Byte} (hx : NetLegal u.params x)
    (hat : Ahead u p (netBytes x ++ rest)) (h : ∀ i : Fin 32, 11 < i.val ∧ i.val < 18 → Reports u (netFields p x) i) :
    NetHeld u x := by
  obtain ⟨hfrag, hpld, henc, -, -, hinfo, -⟩ := hx
  have hauth := (hat.net hfrag).2
  have hend := hauth.1
  rw [List.length_append] at hend
  have hilen := u.ilen.isLt
  constructor
  case isFragment => exact (h 12 (by decide)).eq rfl (by omega)
  case framePldType => exact (h 13 (by decide)).eq rfl (by omega)
  case encrEna => exact (h 14 (by decide)).eq rfl (by omega)
  case size => exact (h 15 (by decide)).eq rfl (by omega)
  case info => exact fun h1 => (h 16 (by decide)).eq (by rw [netFields, h1]; rfl) (by omega)
  case auth =>
    intro hpos
    have hoff : fVal u 17 = p + 1 + x.isFragment :=
      (h 17 (by decide)).eq (by unfold netFields ifSet; rw [if_neg hpos.ne']; split_ifs <;> rfl) (by omega)
    rw [hoff]
    exact ⟨by omega, hauth.read⟩

/-- The presentation-layer header that was reported is held (43_frame.md R199). -/
theorem presHeld_of_reports {u : State} {x : Pres} (hv : u.params.valid = true) (hx : presLegal u.params x = true)
    (h : ∀ i : Fin 32, 17 < i.val ∧ i.val < 26 → Reports u (presFields x) i) : PresHeld u x := by
  obtain ⟨hhead, hseqn⟩ := presLegal_spec hx
  have hhead := presHeadLegal_spec hhead
  have hopc := hhead.opc
  have hinc := hhead.seqnInc
  have hrsp := hhead.rspReq
  have haddr := hhead.addrEnc
  constructor
  case opc => exact (h 18 (by decide)).eq rfl (by omega)
  case seqnInc => exact (h 19 (by decide)).eq rfl (by omega)
  case rspReq => exact (h 20 (by decide)).eq rfl (by omega)
  case addrEnc => exact (h 21 (by decide)).eq rfl (by omega)
  case addr => exact (h 22 (by decide)).eq rfl (presAddr_lt hhead)
  case seqn =>
    intro h1
    rw [if_pos h1] at hseqn
    exact (h 24 (by decide)).eq (by rw [presFields, h1]; rfl) (vwField_lt hv hseqn)

/-- The payload that was reported is held, and is absent when it is empty (43_frame.md R199). -/
theorem payloadHeld_of_reports {u : State} {off : Nat} {data : List Byte} (hat : Ahead u off data)
    (hpres : presBit u 26 = ((sliceAt 26 27 off data.length).lookup 26).isSome)
    (h : ∀ i : Fin 32, 25 < i.val ∧ i.val < 28 → Reports u (sliceAt 26 27 off data.length) i) :
    if presBit u 26 then sliceHeld u 26 27 data = true else data = [] := by
  obtain ⟨hend, hread⟩ := hat
  have hilen := u.ilen.isLt
  by_cases hempty : data.length = 0
  · rw [sliceAt, if_pos hempty] at hpres
    rw [hpres]
    exact List.eq_nil_of_length_eq_zero hempty
  · rw [sliceAt, if_neg hempty] at hpres h
    have hoff : fVal u 26 = off := (h 26 (by decide)).eq rfl (by omega)
    have hlen : fVal u 27 = data.length := (h 27 (by decide)).eq rfl (by omega)
    rw [hpres]
    change sliceHeld u 26 27 data = true
    rw [sliceHeld, hoff, hlen]
    exact decide_eq_true ⟨rfl, hend.ge, hread⟩

/-! ### The state in which `FRAMEENC` is issued -/

/-- `u` is `s` after a decode command has reported `fs` and consumed the window, and the host has cleared `OLEN`
(43_frame.md R199). -/
structure ReadyToEncode (s u : State) (fs : Fields) : Prop where
  params : u.params = s.params
  ibuf : u.ibuf = s.ibuf
  ilen : u.ilen = s.ilen
  cur : u.cur = s.ilen
  olen : u.olen = 0
  reports : ∀ i, Reports u fs i
  present : ∀ i, presBit u i = (fs.lookup i).isSome

theorem readyToEncode_of_decodedTo {s t : State} {fs : Fields} {flg : Word} (h : DecodedTo s t fs s.ilen.toNat flg) :
    ReadyToEncode s { t with olen := 0 } fs := by
  obtain ⟨hframe, hregs, hpres⟩ := h
  constructor
  case params => rw [hframe]
  case ibuf => rw [hframe]
  case ilen => rw [hframe]
  case cur => rw [hframe]; exact BitVec.ofNat_toNat _ _
  case olen => rfl
  case reports =>
    intro i
    change t.f[i].toNat = _
    rw [hregs, BitVec.toNat_ofNat]
  case present => exact hpres

/-- The window is still there (43_frame.md R195). -/
theorem ReadyToEncode.ahead {s u : State} {fs : Fields} (h : ReadyToEncode s u fs) {p : Nat} {bs : List Byte}
    (hat : Ahead s p bs) : Ahead u p bs := by
  obtain ⟨hlen, hread⟩ := hat
  refine ⟨by rw [h.ilen]; exact hlen, ?_⟩
  rw [ibufBytes, h.ibuf]
  exact hread

/-- `FRAMEENC` gives back a canonical frame whose report and bytes it finds (43_frame.md R199). -/
theorem frameOut_of_reported {u : State} {ll : Link} {nl : Net} {pl : Pres} {data : List Byte} {p off : Nat}
    (hv : u.params.valid = true) (hll : linkCanonical u.params ll = true) (hnl : netCanonical u.params nl = true)
    (hpl : nl.encrEna = 0 → presCanonical u.params pl = true)
    (hreports : ∀ i, Reports u (frameFields u.params ll nl pl p off data.length) i)
    (hpresent : presBit u 26 = ((frameFields u.params ll nl pl p off data.length).lookup 26).isSome)
    {rest : List Byte} (hnet : Ahead u p (netBytes nl ++ rest)) (hdata : Ahead u off data) :
    firstFailing (frameChecks u) = none ∧
    frameOut u = linkBytes ll ++ netBytes nl ++ (if nl.encrEna = 0 then presBytes pl else []) ++ data := by
  refine frame_of_canonical hll (linkHeld_iff.mpr ?_) hnl (netHeld_iff.mpr ?_)
    (fun henc => ⟨hpl henc, presHeld_iff.mpr ?_⟩) ?_
  · exact linkHeld_of_reports hv (linkCanonical_spec hll).legal fun i hi =>
      (hreports i).of_lookup_eq (frameFields_lookup_link _ ll nl pl p off _ hi)
  · exact netHeld_of_reports (netLegal_spec (netCanonical_spec hnl).legal) hnet fun i hi =>
      (hreports i).of_lookup_eq (frameFields_lookup_net _ ll nl pl p off _ hi)
  · exact presHeld_of_reports hv (presCanonical_spec (hpl henc)).1 fun i hi =>
      (hreports i).of_lookup_eq (by rw [frameFields_lookup_pres _ ll nl pl p off _ hi, framePresFields, if_pos henc])
  · rw [frameFields_lookup_payload _ ll nl pl p off _ (by decide)] at hpresent
    exact payloadHeld_of_reports hdata hpresent fun i hi =>
      (hreports i).of_lookup_eq (frameFields_lookup_payload _ ll nl pl p off _ hi)

end Sys2Proof.Machine

/-- Settles O53: what `FRAMEDEC` reports of a canonical frame holds its headers and its payload, which `FRAMEENC` then
appends. -/
theorem frameRoundTrip : Obligations.FrameRoundTrip := by
  intro s t ll nl pl rest hv hc hi hll hnl hpl hw hroom hexec
  obtain ⟨t', hexec', hdecoded⟩ := (frameDecode s ll hc hi (linkCanonical_spec hll).legal).1 nl pl rest
    (netCanonical_spec hnl).legal (fun henc => (presCanonical_spec (hpl henc)).1) hw
  obtain rfl : t = t' := Host.Outcome.next.inj (hexec.symm.trans hexec')
  have hready : ReadyToEncode s { t with olen := 0 }
      (frameFields s.params ll nl pl (s.cur.toNat + (linkBytes ll).length) _ rest.length) := readyToEncode_of_decodedTo hdecoded
  generalize ({ t with olen := 0 } : State) = u at hready ⊢
  have hat := hready.ahead (ahead_window hc hw)
  obtain ⟨hparams, -, hilen, hcur, holen, hreports, hpresent⟩ := hready
  simp only [List.append_assoc] at hat
  rw [← hparams] at hv hll hnl hpl hi hroom hreports hpresent
  obtain ⟨hpass, hout⟩ := frameOut_of_reported hv hll hnl hpl hreports (hpresent 26) hat.skip hat.skip.skip.skip
  have hp : prologue .frameenc u = .ok () :=
    prologue_ok_of_input_output rfl (by rw [hcur, hilen]) (by rw [hilen]; exact hi) (by rw [holen]; exact Nat.zero_le _)
  have hfits : HasRoom u (window s).length := by
    rw [HasRoom, holen]
    exact (Nat.zero_add _).trans_le hroom
  exact ((exec_of_afterChecks hp (frameEncode_eq u)).2 _ ⟨hpass, hout.trans hw.symm⟩).1 hfits
end

section
/-! SUPPORT. Which causes a piece of pseudocode can raise (60_exceptions.md R261, R262): the shared operations by what they
are made of, then the parsers and encoders of the command families. -/

open Sys2Proof Sys2Proof.Machine

namespace Sys2Proof.Machine

/-- Every raise of `m` has one of the causes `cs`. -/
def RaisesOnly {α : Type} (cs : List Cause) (m : Result α) : Prop := ∀ r, m = .error r → r.cause ∈ cs

section
variable {α β : Type} {cs : List Cause}

/-! ### Shared operations -/

@[simp] theorem raisesOnly_ok (a : α) : RaisesOnly cs (.ok a) := nofun

@[simp] theorem raisesOnly_pure (a : α) : RaisesOnly cs (pure a) := nofun

@[simp] theorem raisesOnly_raising_iff {c : Cause} {n : Nat} : RaisesOnly cs (raising c n : Result α) ↔ c ∈ cs := by
  refine ⟨fun h => h _ rfl, fun h r hr => ?_⟩
  rw [raising_eq, Except.error.injEq] at hr
  rwa [← hr]

@[simp] theorem raisesOnly_bind_iff {m : Result α} {f : α → Result β} :
    RaisesOnly cs (m >>= f) ↔ RaisesOnly cs m ∧ ∀ a, m = .ok a → RaisesOnly cs (f a) := by
  simp only [RaisesOnly, Result.bind_error_iff]
  exact ⟨fun h => ⟨fun r hr => h r (.inl hr), fun a ha r hr => h r (.inr ⟨a, ha, hr⟩)⟩,
    fun ⟨hm, hf⟩ r hr => hr.elim (hm r) fun ⟨a, ha, hr⟩ => hf a ha r hr⟩

@[simp] theorem raisesOnly_map_iff {m : Result α} {g : α → β} : RaisesOnly cs (g <$> m) ↔ RaisesOnly cs m := by
  rw [map_eq_pure_bind, raisesOnly_bind_iff]
  exact and_iff_left fun _ _ => raisesOnly_pure _

@[simp] theorem raisesOnly_ite_iff {c : Prop} [Decidable c] {m m' : Result α} :
    RaisesOnly cs (if c then m else m') ↔ (c → RaisesOnly cs m) ∧ (¬c → RaisesOnly cs m') := by
  by_cases h : c <;> simp [h]

@[simp] theorem raisesOnly_raiseIf_iff {b : Bool} {c : Cause} {n : Nat} :
    RaisesOnly cs (raiseIf b c n) ↔ (b = true → c ∈ cs) := by
  simp [raiseIf]

@[simp] theorem raisesOnly_need_iff {p n stop : Nat} :
    RaisesOnly cs (need p n stop) ↔ (stop < p + n → .malformedField ∈ cs) := by
  simp [need]

@[simp] theorem raisesOnly_fit_iff {s : State} {i : Fin 32} {n : Nat} :
    RaisesOnly cs (fit s i n) ↔ (2 ^ n ≤ fVal s i → .encodingConstraint ∈ cs) := by
  simp [fit]

@[simp] theorem raisesOnly_slice_iff {s : State} {o n info : Nat} :
    RaisesOnly cs (slice s o n info) ↔ (s.ilen.toNat < o + n → .badOperand ∈ cs) := by
  simp [slice]

@[simp] theorem raisesOnly_gated_iff {g : Bool} {p : Nat} {m : Result Parsed} :
    RaisesOnly cs (gated g p m) ↔ (g = true → RaisesOnly cs m) := by
  simp [gated]

@[simp] theorem raisesOnly_gatedBytes_iff {g : Bool} {m : Result (List Byte)} :
    RaisesOnly cs (gatedBytes g m) ↔ (g = true → RaisesOnly cs m) := by
  simp [gatedBytes]

@[simp] theorem raisesOnly_append_iff {s : State} {bs : List Byte} :
    RaisesOnly cs (append s bs) ↔ (s.params.obufSize < s.olen.toNat + bs.length → .capacity ∈ cs) := by
  simp [append]

@[simp] theorem raisesOnly_writeEncoded_iff {s : State} {bs : List Byte} {x : FlagSet} :
    RaisesOnly cs (writeEncoded s bs x) ↔ (s.params.obufSize < s.olen.toNat + bs.length → .capacity ∈ cs) := by
  simp [writeEncoded]

/-! ### Fields -/

@[simp] theorem raisesOnly_vwDecode {s : State} {k : VwKind} {p stop : Nat}
    (h : [.malformedField, .invalidDiscriminant] ⊆ cs) : RaisesOnly cs (vwDecode s k p stop) := by
  simp only [List.cons_subset] at h
  unfold vwDecode
  refine raisesOnly_bind_iff.mpr ⟨by simp [h], fun _ _ => ?_⟩
  dsimp only
  split <;> simp [h]

@[simp] theorem raisesOnly_vwEncode {p : Params} {k : VwKind} {v : Nat} (h : .encodingConstraint ∈ cs) :
    RaisesOnly cs (vwEncode p k v) := by
  unfold vwEncode
  split <;> simp [h]

@[simp] theorem raisesOnly_addrDecode {s : State} {e p stop : Nat} (h : .malformedField ∈ cs) :
    RaisesOnly cs (addrDecode s e p stop) := by
  simp [addrDecode, h]

@[simp] theorem raisesOnly_lenPrefixed {s : State} {pfx : Option PrefixTable} {p : Nat}
    (h : [.unsupported, .malformedField] ⊆ cs) : RaisesOnly cs (lenPrefixed s pfx p) := by
  simp only [List.cons_subset] at h
  rcases lenPrefixed_cases s pfx p with ⟨-, h'⟩ | ⟨t, -, ⟨-, h'⟩ | ⟨k, n, -, ⟨-, h'⟩ | ⟨-, h'⟩⟩⟩
  all_goals simp [h', h]

@[simp] theorem raisesOnly_lenPrefixedEnc {s : State} {pfx : Option PrefixEncTable} {o l : Fin 32}
    (h : [.unsupported, .badOperand, .encodingConstraint] ⊆ cs) : RaisesOnly cs (lenPrefixedEnc s pfx o l) := by
  simp only [List.cons_subset] at h
  unfold lenPrefixedEnc
  split
  · simp [h]
  · refine raisesOnly_bind_iff.mpr ⟨by simp [h], fun _ _ => ?_⟩
    split <;> simp [h]

@[simp] theorem raisesOnly_tlvParse {s : State} {p stop : Nat} (h : .malformedField ∈ cs) :
    RaisesOnly cs (tlvParse s p stop) := fun _ hr => by
  rwa [tlvParse_error hr]

/-! ### Flex frames -/

@[simp] theorem raisesOnly_flexAdmit {s : State} {acc : FlexAcc} {p : Nat} {t : TlvField}
    (h : [.duplicateKey, .capacity] ⊆ cs) : RaisesOnly cs (flexAdmit s acc p t) := by
  simp only [List.cons_subset] at h
  simp [flexAdmit, h]

@[simp] theorem raisesOnly_flexLoop {s : State} {hend fuel p : Nat} {acc : FlexAcc}
    (h : [.malformedField, .duplicateKey, .capacity] ⊆ cs) : RaisesOnly cs (flexLoop s hend fuel p acc) := by
  induction fuel generalizing p acc with
  | zero => exact raisesOnly_ok acc
  | succ fuel ih =>
    rcases Nat.lt_or_ge p hend with hlt | hge
    · rw [flexLoop_of_lt _ _ hlt]
      simp only [List.cons_subset] at h
      simp [h, ih]
    · rw [flexLoop_of_le _ _ hge]
      exact raisesOnly_ok acc

theorem raisesOnly_flexDecode (s : State) : RaisesOnly [.malformedField, .duplicateKey, .capacity] (flexDecode s) := by
  simp [flexDecode]

@[simp] theorem raisesOnly_flexEncFields {s : State} {i : Nat} {seen : List (BitVec 6)} {es : List TlvEntry}
    (h : [.duplicateKey, .badOperand] ⊆ cs) : RaisesOnly cs (flexEncFields s i seen es) := by
  induction es generalizing i seen with
  | nil => exact raisesOnly_ok []
  | cons e es ih =>
    simp only [List.cons_subset] at h
    simp [flexEncFields, h, ih]

theorem raisesOnly_flexEncode (s : State) :
    RaisesOnly [.badOperand, .duplicateKey, .encodingConstraint] (flexEncode s) := by
  simp [flexEncode]

/-! ### Unified ASL headers -/

theorem raisesOnly_aslDecode (s : State) :
    RaisesOnly [.malformedField, .invalidDiscriminant, .unsupported] (aslDecode s) := by
  simp [aslDecode, aslVersionParse, aslSeqnParse, aslBlobParse, aslCodeParse, aslAadParse, aslStatusParse, aslOpaddrParse]

theorem raisesOnly_aslEncode (s : State) : RaisesOnly [.badOperand, .encodingConstraint, .unsupported] (aslEncode s) := by
  simp [aslEncode, aslBlocksEmit, aslVersionEmit, aslStatusEmit, aslOpaddrEmit, aslCodeEmit]

/-! ### Legacy frames -/

@[simp] theorem raisesOnly_vwParse {s : State} {k : VwKind} {v w : Fin 32} {p : Nat}
    (h : [.malformedField, .invalidDiscriminant] ⊆ cs) : RaisesOnly cs (vwParse s k v w p) := by
  simp [vwParse, h]

@[simp] theorem raisesOnly_llParse {s : State} {p : Nat} (h : [.malformedField, .invalidDiscriminant] ⊆ cs) :
    RaisesOnly cs (llParse s p) := by
  simp only [List.cons_subset] at h
  simp [llParse, h]

@[simp] theorem raisesOnly_nlParse {s : State} {p : Nat} (h : [.malformedField, .invalidDiscriminant] ⊆ cs) :
    RaisesOnly cs (nlParse s p) := by
  simp only [List.cons_subset] at h
  unfold nlParse
  refine raisesOnly_bind_iff.mpr ⟨by simp [h], fun _ _ => ?_⟩
  dsimp only
  split <;> simp [h, byteParse, authParse]

@[simp] theorem raisesOnly_plParse {s : State} {p : Nat} (h : [.malformedField, .invalidDiscriminant] ⊆ cs) :
    RaisesOnly cs (plParse s p) := by
  simp only [List.cons_subset] at h
  simp [plParse, h]

theorem raisesOnly_frameDecode (s : State) : RaisesOnly [.malformedField, .invalidDiscriminant] (frameDecode s) := by
  simp [frameDecode]

@[simp] theorem raisesOnly_llEmit {s : State} (h : .encodingConstraint ∈ cs) : RaisesOnly cs (llEmit s) := by
  simp [llEmit, addrEmit, h]

@[simp] theorem raisesOnly_nlEmit {s : State} (h : [.encodingConstraint, .badOperand] ⊆ cs) :
    RaisesOnly cs (nlEmit s) := by
  simp only [List.cons_subset] at h
  unfold nlEmit
  simp only [raisesOnly_bind_iff, raisesOnly_fit_iff]
  refine ⟨by simp [h], fun _ _ => ⟨by simp [h], fun _ _ => ⟨by simp [h], fun _ _ => ?_⟩⟩⟩
  split <;> simp [h]

@[simp] theorem raisesOnly_plEmit {s : State} (h : .encodingConstraint ∈ cs) : RaisesOnly cs (plEmit s) := by
  simp [plEmit, plAddrEmit, h]

theorem raisesOnly_frameEncode (s : State) : RaisesOnly [.encodingConstraint, .badOperand] (frameEncode s) := by
  simp [frameEncode]

/-! ### AMA fragments -/

@[simp] theorem raisesOnly_amaParse {s : State} {base : Nat} (h : [.malformedField, .invalidDiscriminant] ⊆ cs) :
    RaisesOnly cs (amaParse s base) := by
  simp only [List.cons_subset] at h
  simp [amaParse, h]

theorem raisesOnly_amaReceive (c : Nat) (s : State) :
    RaisesOnly [.malformedField, .invalidDiscriminant, .capacity, .fragmentSequence] (amaReceive c s) := by
  simp [amaReceive, ctxInitial, ctxAppend]

end

end Sys2Proof.Machine
end

section
/-! SUPPORT. What keeps the invariant of the block (Sys2Proof/Safety.lean): each shared operation on the state, the accesses
of the host port, and a command by what its body raises and writes. -/

open Sys2Proof Sys2Proof.Machine

namespace Sys2Proof.Machine

/-! ### Raises -/

/-- The causes a command can raise (60_exceptions.md R262): all but `IllegalCommand`, which a word that is no command
raises, and `UnknownCommandClass`, which nothing raises (R263). -/
def commandCauses : List Cause :=
  [.malformedField, .invalidDiscriminant, .fragmentSequence, .encodingConstraint, .badOperand, .capacity, .badState,
    .unsupported, .duplicateKey]

theorem ne_unknownCommandClass_of_mem {c : Cause} (h : c ∈ commandCauses) : c ≠ .unknownCommandClass := by
  rintro rfl
  simp [commandCauses] at h

theorem RaisesOnly.mono {α : Type} {cs cs' : List Cause} {m : Result α} (h : RaisesOnly cs m) (hsub : cs ⊆ cs') :
    RaisesOnly cs' m := fun r hr => hsub (h r hr)

/-- Pseudocode that completes has passed its test (00_scope.md R13). -/
theorem raiseIf_bind_ok_iff {α : Type} {b : Bool} {c : Cause} {n : Nat} {f : Unit → Result α} {a : α} :
    (raiseIf b c n >>= f) = .ok a ↔ b = false ∧ f () = .ok a := by
  cases b <;> simp [raising_eq]

/-- A cause that is produced sets a bit of `stickyMask` (60_exceptions.md R261, R263). -/
theorem sticky_bit_legal {c : Cause} (h : c ≠ .unknownCommandClass) :
    (1#32 <<< (causeCode c).toNat) &&& ~~~stickyMask = 0 := by
  cases c with
  | unknownCommandClass => exact absurd rfl h
  | _ => decide

section
variable {s : State}

theorem Inv.takeRaise (h : Inv s) (w : Word) {r : Raise} (hr : r.cause ≠ .unknownCommandClass) :
    Inv (takeRaise s w r) :=
  { h with
    statusLegal := .inr (.inr rfl)
    stickyLegal := by
      rw [takeRaise_esticky, BitVec.and_or_distrib_right, h.stickyLegal, sticky_bit_legal hr]
      rfl
    causeLegal := .inr ⟨r.cause, hr, rfl⟩ }

/-! ### Registers, contexts, buffers -/

theorem Inv.finish (h : Inv s) : Inv (finish s) := { h with statusLegal := .inr (.inl rfl) }

/-- A context whose bytes are forgotten meets the laws of a context (44_ama.md R228, R230). -/
theorem ctxInv_idleCtx (p : Params) (x : Ctx) : CtxInv p (idleCtx x) := ctxInv_idle p _

theorem Inv.setCtx (h : Inv s) (c : Nat) {x : Ctx} (hx : CtxInv s.params x) : Inv (setCtx s c x) :=
  { h with
    ctxCount := by rw [setCtx_ctxs, List.length_set]; exact h.ctxCount
    ctxInv := fun y hy => (mem_setCtx hy).elim (fun he => he ▸ hx) (h.ctxInv y) }

theorem Inv.abortCtx (h : Inv s) (c : Nat) : Inv (abortCtx s c) := h.setCtx c (ctxInv_idleCtx _ _)

/-- Every context read by its index meets the laws, one that is not there being idle (44_ama.md R230). -/
theorem Inv.ctxAt (h : Inv s) (c : Nat) : CtxInv s.params (ctxAt s c) := by
  by_cases hc : c < s.ctxs.length
  · exact h.ctxInv _ (ctxAt_mem hc)
  · rw [Machine.ctxAt, List.getD_eq_default _ _ (by omega)]
    exact ctxInv_idle _ _

/-- The result registers, the cursor and the flags are free but for the high bits of `FLG` (10_state.md R29). -/
theorem Inv.setResult (h : Inv s) (f : Vector Word 32) (pres : Word) (cur : Half) {flg : Word}
    (hflg : flg.toNat < 2 ^ 7) : Inv { s with f := f, pres := pres, cur := cur, flg := flg } :=
  { h with flgHigh := hflg }

theorem Inv.writeDecoded (h : Inv s) (d : Decoded) : Inv (writeDecoded s d) := by
  unfold Machine.writeDecoded
  exact h.setResult _ _ _ (flagWord_lt d.flags)

/-- New contents of `IBUF`, with its window (45_system.md R253, R254). -/
theorem Inv.setInput (h : Inv s) {b : Buf} (hb : Memory.wf s.params.ibufSize b = true) (ilen cur olen : Half) :
    Inv { s with ibuf := b, ilen := ilen, cur := cur, olen := olen, flg := 0 } :=
  { h with ibufWf := hb, flgHigh := show (0 : Word).toNat < 2 ^ 7 by decide }

/-- New contents of `OBUF`, with its length. -/
theorem Inv.setOutput (h : Inv s) {b : Buf} (hb : Memory.wf s.params.obufSize b = true) (olen : Half) {flg : Word}
    (hflg : flg.toNat < 2 ^ 7) : Inv { s with obuf := b, olen := olen, flg := flg } :=
  { h with obufWf := hb, flgHigh := hflg }

theorem Inv.setFrag (h : Inv s) {x : Frag} (hx : FragInv s.params x) : Inv { s with tx := x } :=
  { h with fragInv := hx }

/-- `Append` writes inside `OBUF` (00_scope.md R13). -/
theorem Inv.append (h : Inv s) {bs : List Byte} (hr : HasRoom s bs.length) (x : FlagSet) :
    Inv { s with
      obuf := bufWrite s.obuf s.olen.toNat bs, olen := BitVec.ofNat 16 (s.olen.toNat + bs.length), flg := flagWord x } :=
  h.setOutput (Memory.wf_bufWrite _ _ _ _ h.obufWf hr) _ (flagWord_lt x)

/-- The soft reset: every register at its reset value, every context idle (45_system.md R252). -/
theorem Inv.softReset (h : Inv s) : Inv (softReset s) where
  paramsValid := h.paramsValid
  ctxCount := by rw [softReset_ctxs, List.length_map]; exact h.ctxCount
  ctxInv x hx := by
    obtain ⟨y, -, rfl⟩ := List.mem_map.mp hx
    exact ctxInv_idleCtx _ y
  fragInv := fragInv_idle _
  ibufWf := h.ibufWf
  obufWf := h.obufWf
  statusLegal := .inl rfl
  flgHigh := show (0 : Word).toNat < 2 ^ 7 by decide
  stickyLegal := show (0 : Word) &&& ~~~stickyMask = 0 by decide
  causeLegal := .inl rfl
  tlvHigh i _ := by simp

/-- The platform's reset is the soft reset and forgets `IBUF` and `OBUF` too (70_reset_and_hazards.md R290). -/
theorem Inv.platformReset (h : Inv s) : Inv (platformReset s) :=
  { h.softReset with ibufWf := Memory.wf_bufForget _ _, obufWf := Memory.wf_bufForget _ _ }

/-! ### The host port -/

theorem Inv.hostQueue (h : Inv s) (q : List HostOp) : Inv { s with hostQueue := q } := { h with }

/-- A write to `ESTICKY` clears bits and sets none (10_state.md R33). -/
theorem regWrite_esticky (s : State) (i : Nat) (w : Word) :
    (regWrite s i w).esticky = s.esticky ∨ (regWrite s i w).esticky = s.esticky &&& ~~~w := by
  unfold regWrite tlvUpdate
  repeat' split
  all_goals simp

theorem Inv.regWrite (h : Inv s) (i : Nat) (w : Word) : Inv (regWrite s i w) := by
  have hsticky : (Machine.regWrite s i w).esticky &&& ~~~stickyMask = 0 := by
    rcases regWrite_esticky s i w with he | he
    · rw [he, h.stickyLegal]
    · rw [he, BitVec.and_assoc, BitVec.and_comm (~~~w), ← BitVec.and_assoc, h.stickyLegal]
      exact BitVec.zero_and
  have htlv := fun k hk => (regWrite_tlv_of_le s i w k hk).trans (h.tlvHigh k hk)
  rw [regWrite_frame s i w]
  exact { h with stickyLegal := hsticky, tlvHigh := htlv }

theorem Inv.hostBufWrite (h : Inv s) (b : BufId) (a : Nat) (v : Byte) : Inv (hostBufWrite s b a v) := by
  cases b with
  | ibuf =>
    by_cases ha : a < s.params.ibufSize
    · rw [hostBufWrite_ibuf v ha]
      exact { h with ibufWf := Memory.wf_bufSet _ _ _ _ h.ibufWf ha }
    · rwa [hostBufWrite_ibuf_outside v (Nat.not_lt.mp ha)]
  | obuf =>
    by_cases ha : a < s.params.obufSize
    · rw [hostBufWrite_obuf v ha]
      exact { h with obufWf := Memory.wf_bufSet _ _ _ _ h.obufWf ha }
    · rwa [hostBufWrite_obuf_outside v (Nat.not_lt.mp ha)]
  | rbuf c => exact h

theorem Inv.hostAccess (h : Inv s) (op : HostOp) : Inv (hostAccess s op) := by
  cases op with
  | regRead | bufRead => exact { h with }
  | regWrite i w => exact h.regWrite i w
  | bufWrite b a v => exact h.hostBufWrite b a v
  | platformReset => exact h.platformReset

/-! ### Commands by their form -/

variable {i : Instr} {t : State}

/-- A command keeps the invariant if what it leaves on a raise and what it completes with do. -/
theorem inv_of_runCommand {g : State → State} {body : Result State} (h : Inv s) (hg : Inv (g s))
    (ht : runCommand i s g body = .next t) (hc : RaisesOnly commandCauses body)
    (hb : ∀ u, prologue i s = .ok () → body = .ok u → Inv (finish u)) : Inv t := by
  rcases runCommand_cases ht with ⟨r, hp, rfl⟩ | ⟨r, -, hr, rfl⟩ | ⟨u, hp, hu, rfl⟩
  · exact h.takeRaise _ (by rw [prologue_error_cause hp]; decide)
  · exact hg.takeRaise _ (ne_unknownCommandClass_of_mem (hc r hr))
  · exact hb u hp hu

theorem inv_of_run {body : Result State} (h : Inv s) (ht : run i s body = .next t) (hc : RaisesOnly commandCauses body)
    (hb : ∀ u, prologue i s = .ok () → body = .ok u → Inv (finish u)) : Inv t :=
  inv_of_runCommand h h ht hc hb

theorem inv_of_runDecode {body : Result Decoded} (h : Inv s) (ht : runDecode i s body = .next t)
    (hc : RaisesOnly commandCauses body) : Inv t := by
  refine inv_of_run h ht (by simpa using hc) fun u _ hu => ?_
  obtain ⟨d, -, hd⟩ := (Result.bind_ok_iff _ _ _).mp hu
  cases hd
  exact (h.writeDecoded d).finish

/-- What an encode command writes, if it has room (00_scope.md R13). -/
theorem Inv.writeEncoded {bs : List Byte} {x : FlagSet} {u : State} (h : Inv s) (hu : writeEncoded s bs x = .ok u) :
    Inv u := by
  by_cases hr : HasRoom s bs.length
  · rw [writeEncoded_ok hu]
    exact h.append hr x
  · rw [Machine.writeEncoded, append_full hr] at hu
    cases hu

theorem inv_of_runEncode {body : Result (List Byte)} (h : Inv s) (ht : runEncode i s body = .next t)
    (hc : RaisesOnly commandCauses body) : Inv t := by
  refine inv_of_run h ht ?_ fun u _ hu => ?_
  · rw [raisesOnly_bind_iff]
    exact ⟨hc, fun bs _ => by simp [commandCauses]⟩
  · obtain ⟨bs, -, hbs⟩ := (Result.bind_ok_iff _ _ _).mp hu
    exact (h.writeEncoded hbs).finish

end

end Sys2Proof.Machine
end

section
/-! SUPPORT. Every command keeps the invariant, and so does every step. -/

open Sys2Proof Sys2Proof.Machine

namespace Sys2Proof.Machine

/-! ### Buffers -/

theorem Memory.wf_obufSetBits {size : Nat} {b : Buf} (q : Nat) (vs : List Bool) (h : Memory.wf size b = true)
    (hq : q + vs.length ≤ 8 * size) : Memory.wf size (obufSetBits b q vs) = true := by
  induction vs generalizing b q with
  | nil => exact h
  | cons v vs ih =>
    rw [List.length_cons] at hq
    exact ih (q + 1) (Memory.wf_bufSet size b (q / 8) _ h (by omega)) (by omega)

/-! ### Contexts -/

section
variable {s : State} {x y : Ctx} {fr : Fragment}

/-- The state of a context that holds a payload, complete or not (44_ama.md R223). -/
theorem rstate_eq_complete_iff {c : Prop} [Decidable c] :
    (if c then ctxComplete else accumulating) = ctxComplete ↔ c := by
  by_cases h : c <;> simp [h, ctxComplete, accumulating]

theorem rstate_eq_accumulating_iff {c : Prop} [Decidable c] :
    (if c then ctxComplete else accumulating) = accumulating ↔ ¬c := by
  by_cases h : c <;> simp [h, ctxComplete, accumulating]

theorem rstate_ne_awaiting {c : Prop} [Decidable c] : (if c then ctxComplete else accumulating) ≠ awaitingFragment := by
  by_cases h : c <;> simp [h, ctxComplete, accumulating, awaitingFragment]

theorem rstate_ne_three {c : Prop} [Decidable c] : (if c then ctxComplete else accumulating) ≠ 3 := by
  by_cases h : c <;> simp [h, ctxComplete, accumulating]

/-- In a lawful configuration the size of `RBUF[c]` fits a length register (00_scope.md R9). -/
theorem rbufSize_lt {p : Params} (h : p.valid = true) : p.rbufSize < 2 ^ 16 := by
  simp only [Params.valid, Bool.and_eq_true, decide_eq_true_eq] at h
  omega

/-- The context that an accepted INITIAL fragment leaves (44_ama.md R223). -/
def startedCtx (s : State) (x : Ctx) (fr : Fragment) : Ctx where
  rstate := if fr.pktLen = fr.total then ctxComplete else accumulating
  rtotal := BitVec.ofNat 16 fr.total
  rlen := BitVec.ofNat 16 fr.pktLen
  rsid := fr.header.streamId
  rtrxn := fr.header.trxn
  rseq := fr.header.seq
  rbuf := bufWrite (bufForget x.rbuf) 0 (ibufBytes s fr.poff fr.pktLen)

/-- The context that an appended fragment leaves (44_ama.md R223). -/
def appendedCtx (s : State) (x : Ctx) (fr : Fragment) : Ctx :=
  { x with
    rstate := if x.rlen.toNat + fr.pktLen = x.rtotal.toNat then ctxComplete else accumulating
    rlen := BitVec.ofNat 16 (x.rlen.toNat + fr.pktLen)
    rseq := fr.header.seq
    rbuf := bufWrite (bufRefresh x.rbuf) x.rlen.toNat (ibufBytes s fr.poff fr.pktLen) }

theorem ctxInitial_eq (s : State) (x : Ctx) (fr : Fragment) :
    ctxInitial s x fr =
      if s.params.rbufSize < fr.total then raising .capacity (s.cur.toNat + 2)
      else if fr.total < fr.pktLen then raising .fragmentSequence (s.cur.toNat + 4)
      else .ok (startedCtx s x fr) := by
  simp only [ctxInitial, raiseIf_bind, decide_eq_true_eq]
  rfl

theorem ctxAppend_eq (s : State) (x : Ctx) (fr : Fragment) :
    ctxAppend s x fr =
      if x.rstate ≠ accumulating then raising .fragmentSequence s.cur.toNat
      else if x.rtotal.toNat < x.rlen.toNat + fr.pktLen then raising .fragmentSequence (s.cur.toNat + 2)
      else .ok (appendedCtx s x fr) := by
  simp only [ctxAppend, raiseIf_bind, decide_eq_true_eq]
  rfl

/-- An INITIAL fragment that is accepted leaves a context that meets its laws (44_ama.md R225, R230). -/
theorem ctxInv_startedCtx (hv : s.params.valid = true) (htotal : fr.total ≤ s.params.rbufSize)
    (hlen : fr.pktLen ≤ fr.total) : CtxInv s.params (startedCtx s x fr) := by
  have hsize := rbufSize_lt hv
  have hrtotal : (BitVec.ofNat 16 fr.total).toNat = fr.total := Nat.mod_eq_of_lt (by omega)
  have hrlen : (BitVec.ofNat 16 fr.pktLen).toNat = fr.pktLen := Nat.mod_eq_of_lt (by omega)
  have hbytes : (ibufBytes s fr.poff fr.pktLen).length = fr.pktLen := ibufBytes_length _ _ _
  constructor
  case lenLeTotal => simpa only [startedCtx, hrtotal, hrlen] using hlen
  case totalLeSize => simpa only [startedCtx, hrtotal] using htotal
  case completeFull =>
    intro h
    have heq := rstate_eq_complete_iff.mp h
    simp only [startedCtx, heq]
  case accumulatingShort =>
    intro h
    have hne := rstate_eq_accumulating_iff.mp h
    simp only [startedCtx, hrtotal, hrlen]
    omega
  case awaitingZero => exact fun h => absurd h rstate_ne_awaiting
  case stateLegal => exact rstate_ne_three
  case bufWf => exact Memory.wf_bufWrite _ _ _ _ (Memory.wf_bufForget _ _) (by omega)
  case payloadWritten =>
    have hwritten := writtenBelow_bufWrite (bufForget x.rbuf) 0 (ibufBytes s fr.poff fr.pktLen) (writtenBelow_zero _)
    rw [hbytes, Nat.zero_add] at hwritten
    simpa only [startedCtx, hrlen] using hwritten

/-- A fragment that is appended leaves a context that meets its laws (44_ama.md R223, R230). -/
theorem ctxInv_appendedCtx (hx : CtxInv s.params x) (hlen : x.rlen.toNat + fr.pktLen ≤ x.rtotal.toNat) :
    CtxInv s.params (appendedCtx s x fr) := by
  have hrtotal := x.rtotal.isLt
  have hsize := hx.totalLeSize
  have hrlen : (BitVec.ofNat 16 (x.rlen.toNat + fr.pktLen)).toNat = x.rlen.toNat + fr.pktLen :=
    Nat.mod_eq_of_lt (by omega)
  have hbytes : (ibufBytes s fr.poff fr.pktLen).length = fr.pktLen := ibufBytes_length _ _ _
  constructor
  case lenLeTotal => simpa only [appendedCtx, hrlen] using hlen
  case totalLeSize => exact hsize
  case completeFull =>
    intro h
    have heq := rstate_eq_complete_iff.mp h
    exact BitVec.eq_of_toNat_eq (hrlen.trans heq)
  case accumulatingShort =>
    intro h
    have hne := rstate_eq_accumulating_iff.mp h
    simp only [appendedCtx, hrlen]
    omega
  case awaitingZero => exact fun h => absurd h rstate_ne_awaiting
  case stateLegal => exact rstate_ne_three
  case bufWf => exact Memory.wf_bufWrite _ _ _ _ (Memory.wf_bufRefresh _ _ hx.bufWf) (by omega)
  case payloadWritten =>
    have hwritten := writtenBelow_bufWrite (bufRefresh x.rbuf) x.rlen.toNat (ibufBytes s fr.poff fr.pktLen)
      (writtenBelow_bufRefresh _ _ hx.payloadWritten)
    rw [hbytes] at hwritten
    simpa only [appendedCtx, hrlen] using hwritten

theorem ctxInv_of_ctxInitial (hv : s.params.valid = true) (h : ctxInitial s x fr = .ok y) : CtxInv s.params y := by
  simp only [ctxInitial, raiseIf_bind_ok_iff, decide_eq_false_iff_not, not_lt] at h
  obtain ⟨htotal, hlen, hy⟩ := h
  cases hy
  exact ctxInv_startedCtx hv htotal hlen

theorem ctxInv_of_ctxAppend (hx : CtxInv s.params x) (h : ctxAppend s x fr = .ok y) : CtxInv s.params y := by
  simp only [ctxAppend, raiseIf_bind_ok_iff, decide_eq_false_iff_not, not_lt] at h
  obtain ⟨-, hlen, hy⟩ := h
  cases hy
  exact ctxInv_appendedCtx hx hlen

end

/-! ### The fragmenter's state -/

theorem txstate_eq_sending_iff {c : Prop} [Decidable c] : (if c then txIdle else txSending) = txSending ↔ ¬c := by
  by_cases h : c <;> simp [h, txIdle, txSending]

theorem txstate_ne_idle_iff {x : BitVec 1} : ¬x = txIdle ↔ x = txSending := by
  revert x
  decide

/-! ### Commands with writes of their own -/

section
variable {s t : State} (h : Inv s)
include h

/-- `FLG` alone is cleared (45_system.md R251, 44_ama.md R229). -/
theorem Inv.clearFlags : Inv { s with flg := 0 } :=
  h.setResult s.f s.pres s.cur (flg := 0) (by decide)

theorem inv_nop (ht : execNop s = .next t) : Inv t :=
  inv_of_run h ht (raisesOnly_ok _) fun _ _ hu => by cases hu; exact h.clearFlags.finish

theorem inv_srst (ht : execSrst s = .next t) : Inv t :=
  inv_of_run h ht (raisesOnly_ok _) fun _ _ hu => by cases hu; exact h.softReset.finish

theorem inv_idsplit (ht : execIdsplit s = .next t) : Inv t := inv_of_runDecode h ht (raisesOnly_ok _)

theorem inv_idjoin (ht : execIdjoin s = .next t) : Inv t := inv_of_runDecode h ht (by simp [commandCauses])

theorem inv_amaabt {c : BitVec 8} (ht : execAmaabt c s = .next t) : Inv t :=
  inv_of_run h ht (raisesOnly_ok _) fun _ _ hu => by cases hu; exact (h.abortCtx c.toNat).clearFlags.finish

theorem inv_ob2ib (ht : execOb2ib s = .next t) : Inv t := by
  refine inv_of_run h ht (by simp [commandCauses]) fun u _ hu => ?_
  simp only [raiseIf_bind_ok_iff, decide_eq_false_iff_not, not_lt] at hu
  obtain ⟨-, hsize, hu⟩ := hu
  cases hu
  refine (h.setInput (Memory.wf_bufWrite _ _ _ _ h.ibufWf ?_) _ _ _).finish
  rw [obufBytes, bufRead_length]
  exact (Nat.zero_add _).trans_le hsize

theorem inv_rb2ib {c : BitVec 8} (ht : execRb2ib c s = .next t) : Inv t := by
  refine inv_of_run h ht (by simp [commandCauses]) fun u _ hu => ?_
  simp only [raiseIf_bind_ok_iff, decide_eq_false_iff_not, not_lt] at hu
  obtain ⟨-, hsize, hu⟩ := hu
  cases hu
  refine ((h.abortCtx c.toNat).setInput (Memory.wf_bufWrite _ _ _ _ h.ibufWf ?_) _ _ _).finish
  rw [rbufBytes, bufRead_length]
  exact (Nat.zero_add _).trans_le hsize

theorem inv_bfins {w : BitVec 8} (ht : execBfins w s = .next t) : Inv t := by
  refine inv_of_run h ht (by simp [commandCauses]) fun u hp hu => ?_
  obtain ⟨-, -, hout⟩ := (prologue_ok_iff _ s).mp hp
  have holen := (outputOk_iff s).mp (hout rfl)
  simp only [raiseIf_bind_ok_iff, decide_eq_false_iff_not, not_lt] at hu
  obtain ⟨-, hfit, hu⟩ := hu
  cases hu
  refine (h.setOutput ?_ _ (flg := 0) (by decide)).finish
  refine Memory.wf_obufSetBits _ _ (Memory.wf_bufWrite _ _ _ _ h.obufWf ?_) (by rw [fieldBits_length]; exact hfit)
  rw [List.length_replicate]
  omega

/-- New contents of the Flex field table that leave the entries the configuration does not have (10_state.md R34). -/
theorem Inv.setTable {tbl : Vector TlvEntry 64}
    (htbl : ∀ k : Fin 64, s.params.tlvMax ≤ k.val → tbl[k] = { key := 0, off := 0, len := 0 }) (n : BitVec 7) :
    Inv { s with tlv := tbl, tlvn := n } :=
  { h with tlvHigh := htbl }

theorem Inv.flexWritten {hl : Nat} {acc : FlexAcc} (hroom : acc.fields.length ≤ s.params.tlvMax) :
    Inv (flexWritten s hl acc) := by
  have htlv : ∀ k : Fin 64, s.params.tlvMax ≤ k.val →
      (storeTlv s.tlv (acc.fields.map tlvEntryOf))[k] = { key := 0, off := 0, len := 0 } := fun k hk => by
    rw [storeTlv_getElem, List.getElem?_eq_none (by rw [List.length_map]; omega)]
    exact h.tlvHigh k hk
  exact (h.setTable htlv _).writeDecoded _

theorem inv_flexdec (ht : execFlexdec s = .next t) : Inv t := by
  refine inv_of_run h ht ((raisesOnly_flexDecode s).mono (by decide)) fun u hp hu => ?_
  obtain ⟨hl, acc, heq, -, -, -, hsound⟩ := exec_flexdec_completed (run_completes hp hu) rfl
  rw [heq]
  exact (h.flexWritten hsound.room).finish

theorem inv_amarx {c : BitVec 8} (ht : execAmarx c s = .next t) : Inv t := by
  refine inv_of_runCommand h (h.abortCtx c.toNat) ht ((raisesOnly_amaReceive c.toNat s).mono (by decide)) fun u _ hu => ?_
  obtain ⟨fr, -, hfr⟩ := (Result.bind_ok_iff _ _ _).mp hu
  split at hfr
  · obtain ⟨x, hx, hu⟩ := (Result.bind_ok_iff _ _ _).mp hfr
    cases hu
    exact ((h.setCtx _ (ctxInv_of_ctxInitial h.paramsValid hx)).writeDecoded _).finish
  · obtain ⟨x, hx, hu⟩ := (Result.bind_ok_iff _ _ _).mp hfr
    cases hu
    exact ((h.setCtx _ (ctxInv_of_ctxAppend (h.ctxAt _) hx)).writeDecoded _).finish

/-- A fragmenter's next fragment leaves the invariant if the fragmenter's new registers meet its laws (44_ama.md R233). -/
theorem Inv.fragment {bs : List Byte} {fl : FlagSet} {x : Frag} {u : State}
    (hu : (Machine.writeEncoded s bs fl >>= fun t => pure { t with tx := x }) = .ok u) (hx : FragInv s.params x) :
    Inv u := by
  obtain ⟨t, ht, hu⟩ := (Result.bind_ok_iff _ _ _).mp hu
  have hparams : t.params = s.params := by rw [writeEncoded_ok ht]
  cases hu
  exact (h.writeEncoded ht).setFrag (hparams ▸ hx)

theorem inv_amatxi (ht : execAmatxi s = .next t) : Inv t := by
  refine inv_of_run h ht (by simp [commandCauses]) fun u hp hu => ?_
  obtain ⟨-, hin, -⟩ := (prologue_ok_iff _ s).mp hp
  obtain ⟨hcur, hsize⟩ := (inputOk_iff s).mp (hin rfl)
  have hilen := s.ilen.isLt
  simp only [raiseIf_bind_ok_iff, decide_eq_false_iff_not] at hu
  obtain ⟨hchunk, -, -, -, hu⟩ := hu
  refine (h.fragment hu ⟨fun hs => ?_, fun _ => ?_, hsize⟩).finish
  · have hmore := txstate_eq_sending_iff.mp hs
    dsimp only
    rw [BitVec.toNat_ofNat, Nat.mod_eq_of_lt (by omega)]
    omega
  · rw [BitVec.toNat_ofNat, Nat.mod_eq_of_lt (by omega)]
    omega

theorem inv_amatxc (ht : execAmatxc s = .next t) : Inv t := by
  refine inv_of_run h ht (by simp [commandCauses]) fun u _ hu => ?_
  simp only [raiseIf_bind_ok_iff, decide_eq_false_iff_not, decide_eq_true_eq] at hu
  obtain ⟨hidle, hu⟩ := hu
  have hsending := txstate_ne_idle_iff.mp hidle
  have hleft := h.fragInv.sendingLeft hsending
  have hend := s.tx.txend.isLt
  refine (h.fragment hu ⟨fun hs => ?_, fun _ => h.fragInv.sendingChunk hsending, h.fragInv.endLeSize⟩).finish
  have hmore := txstate_eq_sending_iff.mp hs
  dsimp only
  rw [BitVec.toNat_ofNat, Nat.mod_eq_of_lt (by omega)]
  omega

/-! ### Commands and steps -/

theorem Inv.exec {i : Instr} (ht : exec i s = .next t) : Inv t := by
  cases i with
  | nop => exact inv_nop h ht
  | srst => exact inv_srst h ht
  | ob2ib => exact inv_ob2ib h ht
  | rb2ib c => exact inv_rb2ib h ht
  | vwrd2 | vwrd3 => exact inv_of_runDecode h ht (by simp [vwReadField, commandCauses])
  | vwwr2 | vwwr3 => exact inv_of_runEncode h ht (by simp [commandCauses])
  | bfext w => exact inv_of_runDecode h ht (by simp [commandCauses])
  | bfins w => exact inv_bfins h ht
  | twoc n => exact inv_of_runDecode h ht (by simp [commandCauses])
  | idsplit => exact inv_idsplit h ht
  | idjoin => exact inv_idjoin h ht
  | rdbe n => exact inv_of_runDecode h ht (by simp [commandCauses])
  | wrbe n => exact inv_of_runEncode h ht (by simp [commandCauses])
  | tlvrd => exact inv_of_runDecode h ht (by simp [commandCauses])
  | tlvwr => exact inv_of_runEncode h ht (by simp [commandCauses])
  | flexdec => exact inv_flexdec h ht
  | flexenc => exact inv_of_runEncode h ht ((raisesOnly_flexEncode s).mono (by decide))
  | asldec => exact inv_of_runDecode h ht ((raisesOnly_aslDecode s).mono (by decide))
  | aslenc => exact inv_of_runEncode h ht ((raisesOnly_aslEncode s).mono (by decide))
  | lldec | nldec | pldec => exact inv_of_runDecode h ht (by simp [layerDecode, commandCauses])
  | framedec => exact inv_of_runDecode h ht ((raisesOnly_frameDecode s).mono (by decide))
  | llenc | nlenc | plenc => exact inv_of_runEncode h ht (by simp [commandCauses])
  | frameenc => exact inv_of_runEncode h ht ((raisesOnly_frameEncode s).mono (by decide))
  | amahdr => exact inv_of_runDecode h ht (by simp [commandCauses])
  | amarx c => exact inv_amarx h ht
  | amaabt c => exact inv_amaabt h ht
  | amatxi => exact inv_amatxi h ht
  | amatxc => exact inv_amatxc h ht
  | llFixed _ | nlByte _ | plByte _ | flexTlvByte _ | aslFlags _ | aslVersion _ | aslStatus _ | aslOpaddr _ | amaHdr _
  | vw2Lead _ | vw3Lead _ => cases ht

theorem Inv.runWord {w : Word} (ht : runWord w s = .next t) : Inv t := by
  cases hd : decode w with
  | ok i =>
    rw [runWord_of_ok hd] at ht
    exact h.exec ht
  | error e =>
    rw [runWord_of_error hd] at ht
    cases ht
    exact h.takeRaise w (nofun)

end

end Sys2Proof.Machine

/-- Settles O13: a step waits, executes a word or performs another access, and each of these keeps the invariant. -/
theorem stepKeepsInvariant : Obligations.StepKeepsInvariant := by
  intro s t h ht
  cases hq : s.hostQueue with
  | nil =>
    rw [step_of_nil hq] at ht
    cases ht
    exact h
  | cons op rest =>
    cases hop : commandWrite op with
    | none =>
      rw [step_of_access hq hop] at ht
      cases ht
      exact (h.hostQueue rest).hostAccess op
    | some w =>
      simp only [step, hq, hop] at ht
      exact (h.hostQueue rest).runWord ht
end

section
/-! SUPPORT. `AmaParse` (44_ama.md R220) on what stands ahead: a legal fragment, and each of its raises in
order; then `AMAHDR`. -/

open Sys2Proof Sys2Proof.Machine Sys2Proof.Layout

namespace Sys2Proof.Machine

/-! ### The fragment header -/

/-- What `Layout.amaLegal` says, condition by condition (30_encoding.md R97 to R100). -/
structure AmaLegal (x : Ama) : Prop where
  streamId : x.streamId < 16
  trxn : x.trxn < 16
  seq : x.seq < 16
  type : x.type < 3
  ack : x.ack < 2
  ext : x.ext < 2
  total : x.total < 65536
  payload : x.payload.length < 256

theorem amaLegal_spec {x : Ama} (hx : amaLegal x = true) : AmaLegal x := by
  obtain ⟨_, _, _, _, _, _, _, _⟩ := of_decide_eq_true hx
  constructor <;> assumption

/-- The header of a fragment, field by field (30_encoding.md R97). -/
def amaHeader (x : Ama) : AmaHeader where
  streamId := BitVec.ofNat 4 x.streamId
  trxn := BitVec.ofNat 4 x.trxn
  seq := BitVec.ofNat 4 x.seq
  type := BitVec.ofNat 2 x.type
  ack := BitVec.ofNat 1 x.ack
  ext := BitVec.ofNat 1 x.ext

/-- The fields of the two header bytes (30_encoding.md R97). -/
theorem amaHeaderOf_bytes {x : Ama} (hx : AmaLegal x) :
    amaHeaderOf (octet (16 * x.streamId + x.trxn) ++ octet (16 * x.seq + 4 * x.type + 2 * x.ack + x.ext))
      = amaHeader x := by
  obtain ⟨_, _, _, _, _, _, -, -⟩ := hx
  simp only [amaHeaderOf, amaHeader, AmaHeader.mk.injEq]
  refine ⟨?_, ?_, ?_, ?_, ?_, ?_⟩ <;>
  · apply BitVec.eq_of_toNat_eq
    simp only [toNat_extract, toNat_append_add, BitVec.toNat_ofNat]
    omega

/-- The type of a fragment stands in bits 3:2 of its second byte (30_encoding.md R97). -/
theorem amaHeaderOf_type_eq_iff (b0 b1 : Byte) (n : BitVec 2) :
    (amaHeaderOf (b0 ++ b1)).type = n ↔ b1.toNat / 4 % 4 = n.toNat := by
  have hb := b1.isLt
  rw [← BitVec.toNat_inj, amaHeaderOf_type, toNat_append_add]
  omega

/-- Type 3 is no legal type (30_encoding.md R97), and 0 is an INITIAL fragment (44_ama.md R220). -/
theorem amaHeader_type {x : Ama} (hx : AmaLegal x) :
    ((amaHeader x).type = 0 ↔ x.type = 0) ∧ (amaHeader x).type ≠ 3 := by
  have htype := hx.type
  have hval : (amaHeader x).type.toNat = x.type := Nat.mod_eq_of_lt (by omega)
  refine ⟨by rw [← BitVec.toNat_inj, hval]; rfl, fun h3 => ?_⟩
  rw [h3] at hval
  exact htype.ne hval.symm

/-- `total_trxn_len`, which an INITIAL fragment alone holds (30_encoding.md R98). -/
def amaTotalBytes (x : Ama) : List Byte := if x.type = 0 then [octet (x.total / 256), octet (x.total % 256)] else []

theorem amaHead_eq (x : Ama) :
    amaHead x = [octet (16 * x.streamId + x.trxn), octet (16 * x.seq + 4 * x.type + 2 * x.ack + x.ext)]
      ++ (amaTotalBytes x ++ [octet x.payload.length]) := by
  simp [amaHead, amaTotalBytes]

theorem amaHead_length (x : Ama) : (amaHead x).length = 2 + (amaTotalBytes x).length + 1 := by
  rw [amaHead_eq, List.length_append, List.length_append, Nat.add_assoc]
  rfl

theorem amaTotalBytes_initial {x : Ama} (h : x.type = 0) :
    amaTotalBytes x = [octet (x.total / 256), octet (x.total % 256)] := if_pos h

theorem amaTotalBytes_continuation {x : Ama} (h : x.type ≠ 0) : amaTotalBytes x = [] := if_neg h

theorem beNat_total {n : Nat} (h : n < 65536) : beNat [octet (n / 256), octet (n % 256)] = n := by
  simp [beNat]
  omega

/-- A fragment at offset `p` as `AmaParse` gives it (44_ama.md R220). -/
def amaFragment (p : Nat) (x : Ama) : Fragment where
  header := amaHeader x
  total := if x.type = 0 then x.total else 0
  pktLen := x.payload.length
  poff := p + (amaHead x).length

/-- `F[0..9]` of a parsed fragment are those of the layout (44_ama.md R221). -/
theorem fragmentFields_amaFragment {p : Nat} {x : Ama} (hx : AmaLegal x) :
    fragmentFields (amaFragment p x) = amaFields p x := by
  obtain ⟨hzero, -⟩ := amaHeader_type hx
  obtain ⟨hstream, htrxn, hseq, htype, hack, hext, -, -⟩ := hx
  have hmod (k : Nat) {n : Nat} (h : n < 2 ^ k) : (BitVec.ofNat k n).toNat = n := Nat.mod_eq_of_lt h
  simp only [fragmentFields, amaFragment, hzero, sliceFields_eq, amaFields]
  simp only [amaHeader, hmod 4 hstream, hmod 4 htrxn, hmod 4 hseq, hmod 2 (Nat.lt_succ_of_lt htype),
    hmod 1 hack, hmod 1 hext]
  split
  · rfl
  · rfl

/-! ### `AmaParse` -/

section
variable {s : State} {p : Nat} {rest : List Byte}

/-- Check 1: a window of at most two bytes (44_ama.md R220). -/
theorem amaParse_short (h : s.ilen.toNat - p ≤ 2) : amaParse s p = raising .malformedField p := by
  rw [amaParse, raiseIf_bind, if_pos (decide_eq_true h)]

/-- Check 2: the type 3 (44_ama.md R220). -/
theorem amaParse_invalidType {b0 b1 : Byte} (h : Ahead s p (b0 :: b1 :: rest)) (hrest : rest ≠ [])
    (htype : b1.toNat / 4 % 4 = 3) : amaParse s p = raising .invalidDiscriminant (p + 1) := by
  have hlen := h.1
  have hpos := List.length_pos_of_ne_nil hrest
  simp only [List.length_cons] at hlen
  have hread : ibufByte s (p + 1) = b1 := (h.skip (bs := [b0])).byte
  have h3 := (amaHeaderOf_type_eq_iff b0 b1 3).mpr htype
  simp only [amaParse, raiseIf_bind, decide_eq_true_eq, h.byte, hread]
  rw [if_neg (by omega), if_pos h3]

/-- Check 3: an INITIAL fragment of at most five bytes (44_ama.md R220). -/
theorem amaParse_initialShort {b0 b1 : Byte} (h : Ahead s p (b0 :: b1 :: rest)) (hrest : rest ≠ [])
    (htype : b1.toNat / 4 % 4 = 0) (hshort : rest.length ≤ 3) : amaParse s p = raising .malformedField p := by
  have hlen := h.1
  have hpos := List.length_pos_of_ne_nil hrest
  simp only [List.length_cons] at hlen
  have hread : ibufByte s (p + 1) = b1 := (h.skip (bs := [b0])).byte
  have h0 := (amaHeaderOf_type_eq_iff b0 b1 0).mpr htype
  have h3 := mt (amaHeaderOf_type_eq_iff b0 b1 3).mp (by rw [htype]; decide)
  simp only [amaParse, raiseIf_bind, decide_eq_true_eq, h.byte, hread]
  rw [if_neg (by omega), if_neg h3, if_pos ⟨h0, by omega⟩]

/-- A legal fragment is parsed whole (44_ama.md R220). -/
theorem amaParse_ahead {x : Ama} (hx : amaLegal x = true) (h : Ahead s p (amaHead x ++ (x.payload ++ rest)))
    (hlong : x.type = 0 → 5 < s.ilen.toNat - p) : amaParse s p = .ok (amaFragment p x) := by
  have hlegal := amaLegal_spec hx
  obtain ⟨hzero, h3⟩ := amaHeader_type hlegal
  have hend := h.skip.1
  have hpay : (octet x.payload.length).toNat = x.payload.length := Nat.mod_eq_of_lt hlegal.payload
  have hlen := amaHead_length x
  rw [List.length_append, hlen] at hend
  rw [amaHead_eq, List.append_assoc, List.append_assoc] at h
  have hsecond : ibufByte s (p + 1) = octet (16 * x.seq + 4 * x.type + 2 * x.ack + x.ext) := (h.skip (bs := [_])).byte
  have hlenByte : ibufByte s (p + 2 + (amaTotalBytes x).length) = octet x.payload.length := h.skip.skip.byte
  have hoff : (if x.type = 0 then p + 4 else p + 2) = p + 2 + (amaTotalBytes x).length := by
    split
    · next h0 => rw [amaTotalBytes_initial h0]; rfl
    · next h0 => rw [amaTotalBytes_continuation h0]; rfl
  have htotal : (if x.type = 0 then beNat (ibufBytes s (p + 2) 2) else 0) = if x.type = 0 then x.total else 0 := by
    split
    · next h0 =>
      rw [amaTotalBytes_initial h0] at h
      rw [show ibufBytes s (p + 2) 2 = [octet (x.total / 256), octet (x.total % 256)] from h.skip.read,
        beNat_total hlegal.total]
    · rfl
  simp only [amaParse, raiseIf_bind, decide_eq_true_eq, h.byte, hsecond, amaHeaderOf_bytes hlegal, hzero, hoff, htotal,
    hlenByte, hpay]
  rw [if_neg (by omega), if_neg h3, if_neg (by omega), if_neg (by omega), amaFragment, hlen]
  simp only [← Nat.add_assoc]
  rfl

end

/-! ### A fragment in the window -/

section
variable {s : State} {x : Ama} {rest : List Byte} (hw : window s = amaHead x ++ x.payload ++ rest)
include hw

/-- The payload of the fragment, read where it stands. -/
theorem amaFragment_payload :
    ibufBytes s (amaFragment s.cur.toNat x).poff (amaFragment s.cur.toNat x).pktLen = x.payload :=
  ibufBytes_of_window hw

variable (hc : s.cur.toNat ≤ s.ilen.toNat)
include hc

theorem amaParse_window (hx : amaLegal x = true) (hlong : x.type = 0 → 5 < (window s).length) :
    amaParse s s.cur.toNat = .ok (amaFragment s.cur.toNat x) := by
  rw [window_length] at hlong
  exact amaParse_ahead hx (ahead_window hc (hw.trans (List.append_assoc _ _ _))) hlong

/-- `TRAIL` says whether bytes are left after the payload (44_ama.md R222, R223). -/
theorem amaFragment_trail : decide ((amaFragment s.cur.toNat x).poff + (amaFragment s.cur.toNat x).pktLen < s.ilen.toNat)
    = (rest != []) := by
  rw [← trail_of_window hw hc, List.length_append, ← Nat.add_assoc]
  rfl

end

end Sys2Proof.Machine

/-- Settles O54: what `AmaParse` answers on a legal fragment and at each of its checks. -/
theorem fragmentHeader : Obligations.FragmentHeader := by
  intro s hc hi
  have hp : prologue .amahdr s = .ok () := prologue_ok_of_input rfl rfl hc hi
  have hlen := window_length s
  refine ⟨fun x rest hx hw hlong => ?_, fun hshort => ?_,
    fun b0 b1 rest hw hrest => ⟨fun h3 => ?_, fun h0 hshort => ?_⟩⟩
  · rw [← flagWord_decodeFlags]
    refine runDecode_reports hp ?_
    rw [amaParse_window hw hc hx hlong, Result.ok_bind, amaFragment_trail hw hc,
      fragmentFields_amaFragment (amaLegal_spec hx)]
    rfl
  · exact runDecode_raises hp (by rw [amaParse_short (by omega), raising_bind])
  · exact runDecode_raises hp (by rw [amaParse_invalidType (ahead_window hc hw) hrest h3, raising_bind])
  · exact runDecode_raises hp (by rw [amaParse_initialShort (ahead_window hc hw) hrest h0 hshort, raising_bind])
end

section
/-! SUPPORT. `AMARX` (44_ama.md R223): what it completes with on a fragment that its context takes, what it leaves when it
raises (R228); and `AMAABT` (R229). -/

open Sys2Proof Sys2Proof.Machine Sys2Proof.Layout

namespace Sys2Proof.Machine

section
variable {s : State} {c : BitVec 8}

theorem exec_amarx (s : State) (c : BitVec 8) :
    exec (.amarx c) s = runCommand (.amarx c) s (fun t => abortCtx t c.toNat) (amaReceive c.toNat s) := by
  rfl

theorem exec_amaabt (s : State) (c : BitVec 8) :
    exec (.amaabt c) s = run (.amaabt c) s (.ok { abortCtx s c.toNat with flg := 0 }) := by
  rfl

theorem prologue_amarx (hn : c.toNat < s.params.amaNctx) (hc : s.cur.toNat ≤ s.ilen.toNat)
    (hi : s.ilen.toNat ≤ s.params.ibufSize) : prologue (.amarx c) s = .ok () :=
  prologue_ok_of_input (decide_eq_true hn) rfl hc hi

/-- The flags of `AMARX` (44_ama.md R223). -/
theorem flagWord_amarx (done trail : Bool) :
    flagWord { complete := done, needMore := !done, trail := trail }
      = BitVec.ofNat 32 (8 * trail.toNat + (if done then 16 else 32)) := by
  cases done <;> cases trail <;> decide

/-- A raise after the prologue aborts the context (44_ama.md R228). -/
theorem exec_amarx_aborts {cause : Cause} {info : Nat} (hp : prologue (.amarx c) s = .ok ())
    (hb : amaReceive c.toNat s = raising cause info) :
    ∃ t b, exec (.amarx c) s = .next t ∧
      Raised { s with ctxs := s.ctxs.set c.toNat (Ctx.idle b) } t (commandWord (.amarx c)) cause info :=
  ⟨_, _, (exec_amarx s c).trans (runCommand_of_error _ hp hb), raised_takeRaise _ _ _ _⟩

/-- What `AMARX` reports of a fragment that its context has taken (44_ama.md R223). -/
def amaReport (s : State) (fields : Fields) (y : Ctx) (trail : Bool) : Decoded where
  fields := fields ++ [(10, (decide (y.rlen = y.rtotal)).toNat), (11, y.rlen.toNat), (12, y.rtotal.toNat)]
  cur := s.ilen.toNat
  flags := { complete := decide (y.rlen = y.rtotal), needMore := !decide (y.rlen = y.rtotal), trail := trail }

/-- A raise of `AmaParse` is one of `AMARX` (44_ama.md R223). -/
theorem amaReceive_of_parse_raising {cause : Cause} {info : Nat} (n : Nat)
    (h : amaParse s s.cur.toNat = raising cause info) : amaReceive n s = raising cause info := by
  rw [amaReceive, h, raising_bind]

section
variable {ctx : Ctx} {x : Ama} {rest : List Byte} (hw : window s = amaHead x ++ x.payload ++ rest)
  (hc : s.cur.toNat ≤ s.ilen.toNat) (hx : amaLegal x = true) (hlong : x.type = 0 → 5 < (window s).length) {n : Nat}
  (hctx : ctxAt s n = ctx)
include hw hc hx hlong hctx

/-- `AMARX` on a legal fragment: what its context does with it, then the report (44_ama.md R223). -/
theorem amaReceive_of_window :
    amaReceive n s =
      (if x.type = 0 then ctxInitial s ctx (amaFragment s.cur.toNat x) else ctxAppend s ctx (amaFragment s.cur.toNat x))
        >>= fun y => .ok (writeDecoded (setCtx s n y) (amaReport s (amaFields s.cur.toNat x) y (rest != []))) := by
  have hlegal := amaLegal_spec hx
  have hzero : (amaFragment s.cur.toNat x).header.type = 0 ↔ x.type = 0 := (amaHeader_type hlegal).1
  rw [amaReceive, amaParse_window hw hc hx hlong, Result.ok_bind, hctx]
  simp only [hzero, amaFragment_trail hw hc, fragmentFields_amaFragment hlegal]
  split <;> rfl

theorem amaReceive_initial (h0 : x.type = 0) :
    amaReceive n s = ctxInitial s ctx (amaFragment s.cur.toNat x) >>= fun y =>
      .ok (writeDecoded (setCtx s n y) (amaReport s (amaFields s.cur.toNat x) y (rest != []))) := by
  rw [amaReceive_of_window hw hc hx hlong hctx, if_pos h0]

theorem amaReceive_continuation (h0 : x.type ≠ 0) :
    amaReceive n s = ctxAppend s ctx (amaFragment s.cur.toNat x) >>= fun y =>
      .ok (writeDecoded (setCtx s n y) (amaReport s (amaFields s.cur.toNat x) y (rest != []))) := by
  rw [amaReceive_of_window hw hc hx hlong hctx, if_neg h0]

end

/-- The context that a legal INITIAL fragment starts, in the terms of the layout (44_ama.md R223). -/
theorem startedCtx_of_window {x : Ama} {rest : List Byte} (hw : window s = amaHead x ++ x.payload ++ rest) (ctx : Ctx)
    (h0 : x.type = 0) :
    startedCtx s ctx (amaFragment s.cur.toNat x) = {
      rstate := if x.payload.length == x.total then 2 else 1, rtotal := BitVec.ofNat 16 x.total
      rlen := BitVec.ofNat 16 x.payload.length, rsid := BitVec.ofNat 4 x.streamId, rtrxn := BitVec.ofNat 4 x.trxn
      rseq := BitVec.ofNat 4 x.seq, rbuf := bufWrite (bufForget ctx.rbuf) 0 x.payload } := by
  rw [startedCtx, amaFragment_payload hw, amaFragment, if_pos h0]
  simp only [beq_iff_eq]
  rfl

/-- The context that a legal continuation leaves, in the terms of the layout (44_ama.md R223). -/
theorem appendedCtx_of_window {x : Ama} {rest : List Byte} (hw : window s = amaHead x ++ x.payload ++ rest) (ctx : Ctx) :
    appendedCtx s ctx (amaFragment s.cur.toNat x) = { ctx with
      rstate := if ctx.rlen.toNat + x.payload.length == ctx.rtotal.toNat then 2 else 1
      rlen := BitVec.ofNat 16 (ctx.rlen.toNat + x.payload.length), rseq := BitVec.ofNat 4 x.seq
      rbuf := bufWrite (bufRefresh ctx.rbuf) ctx.rlen.toNat x.payload } := by
  rw [appendedCtx, amaFragment_payload hw, amaFragment]
  simp only [beq_iff_eq]
  rfl

/-- The tests of an INITIAL fragment, in the terms of the layout (44_ama.md R223). -/
theorem ctxInitial_amaFragment (ctx : Ctx) (p : Nat) {x : Ama} (h0 : x.type = 0) :
    ctxInitial s ctx (amaFragment p x) =
      if s.params.rbufSize < x.total then raising .capacity (s.cur.toNat + 2)
      else if x.total < x.payload.length then raising .fragmentSequence (s.cur.toNat + 4)
      else .ok (startedCtx s ctx (amaFragment p x)) := by
  have htotal : (amaFragment p x).total = x.total := if_pos h0
  rw [ctxInitial_eq, htotal]
  rfl

/-- The tests of a continuation, in the terms of the layout (44_ama.md R223, R226). -/
theorem ctxAppend_amaFragment (ctx : Ctx) (p : Nat) (x : Ama) :
    ctxAppend s ctx (amaFragment p x) =
      if ctx.rstate ≠ 1 then raising .fragmentSequence s.cur.toNat
      else if ctx.rtotal.toNat < ctx.rlen.toNat + x.payload.length then raising .fragmentSequence (s.cur.toNat + 2)
      else .ok (appendedCtx s ctx (amaFragment p x)) :=
  ctxAppend_eq s ctx (amaFragment p x)

/-- `AMARX` completes with its context replaced and the report written (44_ama.md R223). -/
theorem exec_amarx_reports {y : Ctx} {fields : Fields} {trail : Bool} (hp : prologue (.amarx c) s = .ok ())
    (hb : amaReceive c.toNat s = .ok (writeDecoded (setCtx s c.toNat y) (amaReport s fields y trail)))
    {len total : Nat} (hlen : y.rlen.toNat = len) (htotal : y.rtotal.toNat = total) :
    ∃ t, exec (.amarx c) s = .next t ∧
      DecodedTo { s with ctxs := s.ctxs.set c.toNat y } t
        (fields ++ [(10, (len == total).toNat), (11, len), (12, total)]) s.ilen.toNat
        (BitVec.ofNat 32 (8 * trail.toNat + (if len == total then 16 else 32))) := by
  have hdone : decide (y.rlen = y.rtotal) = (len == total) := by
    rw [← hlen, ← htotal, decide_eq_decide.mpr BitVec.toNat_inj.symm]
    rfl
  refine ⟨_, (exec_amarx s c).trans (runCommand_of_ok _ hp hb), ?_⟩
  have hdec := decodedTo_finish (setCtx s c.toNat y) (amaReport s fields y trail)
  rw [amaReport, flagWord_amarx, hdone, hlen, htotal] at hdec
  rwa [amaReport, hdone, hlen, htotal]

end

end Sys2Proof.Machine

/-- Settles O55: the context is started anew, whatever it held. -/
theorem reassemblyStart : Obligations.ReassemblyStart := by
  intro s c x rest _ hn _ hc hi hx h0 hw hlong htotal hlen done
  have hlegal := amaLegal_spec hx
  have hb := amaReceive_initial hw hc hx (fun _ => hlong) (rfl : ctxAt s c.toNat = _) h0
  rw [ctxInitial_amaFragment _ _ h0, if_neg (Nat.not_lt.mpr htotal), if_neg (Nat.not_lt.mpr hlen), Result.ok_bind,
    startedCtx_of_window hw _ h0] at hb
  obtain ⟨t, ht, hdec⟩ := exec_amarx_reports (prologue_amarx hn hc hi) hb
    (Nat.mod_eq_of_lt (hlegal.payload.trans (by decide))) (Nat.mod_eq_of_lt hlegal.total)
  refine ⟨t, _, ht, hdec, fun i h => ?_⟩
  rw [← bufByte_bufWrite_inside (.rbuf c.toNat) _ 0 x.payload i h, Nat.zero_add]

/-- Settles O56: the context's payload grows at its end. -/
theorem reassemblyAppend : Obligations.ReassemblyAppend := by
  intro s c ctx x rest hn hctx hc hi hx h0 hw hstate hfit hwritten newlen done
  have hb := amaReceive_continuation hw hc hx (fun h => absurd h h0) (ctxAt_of_getElem? hctx) h0
  rw [ctxAppend_amaFragment, if_neg (not_not.mpr hstate), if_neg (Nat.not_lt.mpr hfit), Result.ok_bind,
    appendedCtx_of_window hw] at hb
  obtain ⟨t, ht, hdec⟩ := exec_amarx_reports (prologue_amarx hn hc hi) hb
    (Nat.mod_eq_of_lt (Nat.lt_of_le_of_lt hfit ctx.rtotal.isLt)) rfl
  refine ⟨t, _, ht, hdec, fun i h => ?_, fun i h => bufByte_bufWrite_inside _ _ _ _ _ h⟩
  rw [bufByte_bufWrite_outside _ _ _ _ _ (.inl h), bufByte_bufRefresh _ _ _ _ hwritten h]

/-- Settles O57: each raise is the first test that fails, of `AmaParse` or of the context's. -/
theorem reassemblyErrorsAbort : Obligations.ReassemblyErrorsAbort := by
  intro s c ctx hn hctx hc hi aborts
  have hp := prologue_amarx hn hc hi
  have hlen := window_length s
  refine ⟨fun hshort => ?_, fun b0 b1 rest hw hrest => ⟨fun h3 => ?_, fun h0 hshort => ?_⟩,
    fun x rest hx hw hlong => ?_⟩
  · exact exec_amarx_aborts hp (amaReceive_of_parse_raising _ (amaParse_short (by omega)))
  · exact exec_amarx_aborts hp (amaReceive_of_parse_raising _ (amaParse_invalidType (ahead_window hc hw) hrest h3))
  · have hparse := amaParse_initialShort (ahead_window hc hw) hrest h0 hshort
    exact exec_amarx_aborts hp (amaReceive_of_parse_raising _ hparse)
  · have hinit := amaReceive_initial hw hc hx hlong (ctxAt_of_getElem? hctx)
    have hcont := amaReceive_continuation hw hc hx hlong (ctxAt_of_getElem? hctx)
    refine ⟨fun h0 hstate => ?_, fun h0 hstate hover => ?_, fun h0 hbig => ?_, fun h0 hsize hover => ?_⟩
    · exact exec_amarx_aborts hp (by rw [hcont h0, ctxAppend_amaFragment, if_pos hstate, raising_bind])
    · refine exec_amarx_aborts hp ?_
      rw [hcont h0, ctxAppend_amaFragment, if_neg (not_not.mpr hstate), if_pos hover, raising_bind]
    · exact exec_amarx_aborts hp (by rw [hinit h0, ctxInitial_amaFragment _ _ h0, if_pos hbig, raising_bind])
    · refine exec_amarx_aborts hp ?_
      rw [hinit h0, ctxInitial_amaFragment _ _ h0, if_neg (Nat.not_lt.mpr hsize), if_pos hover, raising_bind]

/-- Settles O58: `AMAABT` has no raise of its own; an argument out of range fails the prologue's first test. -/
theorem contextDiscard : Obligations.ContextDiscard := by
  refine fun s c => ⟨rfl, fun hn => ?_, fun hn => ?_⟩
  · have hfits : ¬ArgFits s.params.amaNctx (opcode (.amaabt c)) (argument (.amaabt c)) := by
      rw [opcode_of_encode rfl, argument_of_encode rfl, not_argFits_iff]
      exact .inr (.inr ⟨by decide, hn⟩)
    have harg : argument (.amaabt c) = c.toNat := argument_of_encode rfl
    exact harg ▸ exec_of_prologue_raising rfl (prologue_argument rfl hfits)
  · have hp : prologue (.amaabt c) s = .ok () := prologue_ok_of_operand (decide_eq_true hn) rfl rfl
    exact ⟨_, (exec_amaabt s c).trans (run_completes hp rfl)⟩
end

section
/-! SUPPORT. The fragmenter (44_ama.md R232, R233): the fragment that `AMATXI` and `AMATXC` append and the
registers they leave. -/

open Sys2Proof Sys2Proof.Machine Sys2Proof.Layout

namespace Sys2Proof.Machine

/-- The last act of `AMATXI` and `AMATXC`: append the fragment, set `LAST`, write the fragmenter (44_ama.md R232,
R233). -/
def sendFragment (s : State) (bs : List Byte) (last : Prop) [Decidable last] (x : Frag) : Result State := do
  let t ← writeEncoded s bs { last := decide last }
  pure { t with tx := x }

theorem flagWord_last (last : Prop) [Decidable last] : flagWord { last := decide last } = if last then 64 else 0 := by
  by_cases h : last
  · rw [if_pos h, decide_eq_true h]
    decide
  · rw [if_neg h, decide_eq_false h]
    decide

section
variable {i : Instr} {s : State}

/-- A command whose tests end in a raise answers that raise. -/
theorem exec_raises_of_run {c : Cause} {info : Nat} (hp : prologue i s = .ok ())
    (h : exec i s = run i s (raising c info)) :
    ∃ t, exec i s = .next t ∧ Raised s t (commandWord i) c info := by
  rw [h]
  exact run_raises hp rfl

/-- A fragment that does not fit raises `Capacity(OLEN)`; one that fits is appended (44_ama.md R232, R233). -/
theorem exec_sends {bs : List Byte} {last : Prop} [Decidable last] {x : Frag} (hp : prologue i s = .ok ())
    (h : exec i s = run i s (sendFragment s bs last x)) :
    (¬HasRoom s bs.length → ∃ t, exec i s = .next t ∧ Raised s t (commandWord i) .capacity s.olen.toNat) ∧
    (HasRoom s bs.length →
      ∃ t, exec i s = .next t ∧ Appended { s with tx := x } t bs (if last then 64 else 0)) := by
  rw [h]
  refine ⟨fun hr => run_raises hp ?_, fun hr => ⟨_, run_completes hp ?_, appended_finish { s with tx := x } bs _⟩⟩
  · rw [sendFragment, writeEncoded, append_full hr]
    rfl
  · rw [sendFragment, writeEncoded, append_ok hr, flagWord_last]
    rfl

end

/-! ### The first fragment -/

/-- The INITIAL fragment of `AMATXI` (44_ama.md R232). -/
def initialFragment (s : State) : List Byte :=
  let len := (window s).length
  let n := min len (aVal s 0)
  [octet (aVal s 1), octet (aVal s 2), octet (len / 256), octet (len % 256), octet n] ++ (window s).take n

/-- The fragmenter after `AMATXI` (44_ama.md R232). -/
def initialFrag (s : State) : Frag where
  txstate := if (window s).length ≤ aVal s 0 then 0 else 1
  txoff := BitVec.ofNat 16 (s.cur.toNat + min (window s).length (aVal s 0))
  txend := s.ilen
  txseq := 1
  txm := BitVec.ofNat 8 (aVal s 0)
  txb0 := BitVec.ofNat 8 (aVal s 1)
  txfl := BitVec.ofNat 2 (aVal s 2)

/-- `AMATXI`: its tests in order, then the fragment (44_ama.md R232). -/
theorem exec_amatxi (s : State) :
    exec .amatxi s = run .amatxi s (
      if aVal s 0 = 0 ∨ 255 < aVal s 0 then raising .badOperand (aVal s 0)
      else if 256 ≤ aVal s 1 then raising .encodingConstraint 1
      else if 4 ≤ aVal s 2 then raising .encodingConstraint 2
      else if (window s).length = 0 then raising .encodingConstraint 0
      else sendFragment s (initialFragment s) ((window s).length ≤ aVal s 0) (initialFrag s)) := by
  have hread : ibufBytes s s.cur.toNat (min (window s).length (aVal s 0))
      = (window s).take (min (window s).length (aVal s 0)) :=
    ibufBytes_window s 0 (min (window s).length (aVal s 0)) (by omega)
  have hlow : octet ((window s).length % 256) = BitVec.ofNat 8 (window s).length :=
    BitVec.eq_of_toNat_eq (Nat.mod_mod _ _)
  change execAmatxi s = _
  unfold execAmatxi initialFragment initialFrag
  simp only [raiseIf_bind, decide_eq_true_eq, ← window_length, hread, hlow, inf_eq_left]
  rfl

/-! ### The next fragment -/

/-- The continuation fragment of `AMATXC` (44_ama.md R233). -/
def nextFragment (s : State) : List Byte :=
  let n := min (s.tx.txend.toNat - s.tx.txoff.toNat) s.tx.txm.toNat
  [s.tx.txb0, octet (16 * s.tx.txseq.toNat + 4 * s.params.amaTypeCont + s.tx.txfl.toNat), octet n]
    ++ ibufBytes s s.tx.txoff.toNat n

/-- The fragmenter after `AMATXC` (44_ama.md R233). -/
def nextFrag (s : State) : Frag :=
  { s.tx with
    txstate := if s.tx.txend.toNat - s.tx.txoff.toNat ≤ s.tx.txm.toNat then 0 else 1
    txoff := BitVec.ofNat 16 (s.tx.txoff.toNat + min (s.tx.txend.toNat - s.tx.txoff.toNat) s.tx.txm.toNat)
    txseq := BitVec.ofNat 4 ((s.tx.txseq.toNat + 1) % 16) }

/-- `AMATXC` without a sequence in progress (44_ama.md R233). -/
theorem exec_amatxc_idle {s : State} (h : s.tx.txstate = txIdle) :
    exec .amatxc s = run .amatxc s (raising .badState 0) := by
  change execAmatxc s = _
  rw [execAmatxc, raiseIf_bind, if_pos (decide_eq_true h)]

/-- `AMATXC` with payload left to send (44_ama.md R233). -/
theorem exec_amatxc_sending {s : State} (h : s.tx.txstate = 1) (hleft : s.tx.txoff.toNat < s.tx.txend.toNat) :
    exec .amatxc s = run .amatxc s (
      sendFragment s (nextFragment s) (s.tx.txend.toNat - s.tx.txoff.toNat ≤ s.tx.txm.toNat) (nextFrag s)) := by
  have hidle : ¬s.tx.txstate = txIdle := txstate_ne_idle_iff.mpr h
  have hlast : s.tx.txoff.toNat + min (s.tx.txend.toNat - s.tx.txoff.toNat) s.tx.txm.toNat = s.tx.txend.toNat ↔
      s.tx.txend.toNat - s.tx.txoff.toNat ≤ s.tx.txm.toNat := by omega
  have hseq : s.tx.txseq + 1 = BitVec.ofNat 4 ((s.tx.txseq.toNat + 1) % 16) :=
    BitVec.eq_of_toNat_eq (by simp [BitVec.toNat_add])
  change execAmatxc s = _
  unfold execAmatxc nextFragment nextFrag
  simp only [raiseIf_bind, decide_eq_true_eq, hidle, if_false, hlast, hseq]
  rfl

end Sys2Proof.Machine

/-- Settles O59: the tests in order, then a fragment that fits or does not. -/
theorem fragmenterStart : Obligations.FragmenterStart := by
  refine ⟨rfl, fun s hc hi ho => ?_⟩
  intro m len n raises bytes
  have hp : prologue .amatxi s = .ok () := prologue_ok_of_input_output rfl hc hi ho
  have hexec := exec_amatxi s
  refine ⟨fun hm => ?_, fun h1 h255 ha1 => ?_, fun h1 h255 ha1 ha2 => ?_, fun h1 h255 ha1 ha2 hlen => ?_,
    fun h1 h255 ha1 ha2 hlen => ?_⟩
  · rw [if_pos hm] at hexec
    exact exec_raises_of_run hp hexec
  · rw [if_neg (by omega), if_pos ha1] at hexec
    exact exec_raises_of_run hp hexec
  · rw [if_neg (by omega), if_neg (by omega), if_pos ha2] at hexec
    exact exec_raises_of_run hp hexec
  · rw [if_neg (by omega), if_neg (by omega), if_neg (by omega), if_pos hlen] at hexec
    exact exec_raises_of_run hp hexec
  · rw [if_neg (by omega), if_neg (by omega), if_neg (by omega), if_neg (by omega)] at hexec
    exact exec_sends hp hexec

/-- Settles O60: without a sequence there is nothing to send; in one, a fragment that fits or does not. -/
theorem fragmenterContinue : Obligations.FragmenterContinue := by
  refine ⟨rfl, fun s hc hi ho => ?_⟩
  have hp : prologue .amatxc s = .ok () := prologue_ok_of_input_output rfl hc hi ho
  exact ⟨fun hidle => exec_raises_of_run hp (exec_amatxc_idle hidle),
    fun hsending hleft => exec_sends hp (exec_amatxc_sending hsending hleft)⟩
end

section
/-! SUPPORT. The system and transfer commands (45_system.md R251 to R254): what a soft reset reads as, and the copy that makes
the bytes of another buffer the input. -/

open Sys2Proof Sys2Proof.Machine

namespace Sys2Proof.Machine

/-! ### `NOP` -/

theorem exec_nop (s : State) : exec .nop s = run .nop s (.ok { s with flg := 0 }) := rfl

/-- `NOP` takes no argument (30_encoding.md R82). -/
theorem decode_nop_argument {arg : Byte} (h : arg ≠ 0) : ∃ e, decode (cmdWord 0x00 arg) = .error e := by
  rw [decode_cmdWord, decodeOp_error_iff]
  exact .inr ⟨by decide, h⟩

/-! ### `SRST` -/

theorem exec_srst (s : State) : exec .srst s = run .srst s (.ok (softReset s)) := rfl

theorem softReset_eq (s : State) :
    softReset s = { State.resetWith s.params with
      ctxs := (softReset s).ctxs, ibuf := s.ibuf, obuf := s.obuf, hostQueue := s.hostQueue, hostData := s.hostData } := rfl

/-- A soft reset releases the contexts as the platform's does (45_system.md R252). -/
theorem softReset_ctxs_idle (s : State) : ∀ x ∈ (softReset s).ctxs, ∃ b, x = Ctx.idle b :=
  platformReset_ctxs_idle s

/-- Every register reads 0 once a soft reset is done and before `STATUS` is written (45_system.md R252). -/
theorem regRead_softReset (s : State) (i : Nat) : regRead (softReset s) i = 0 :=
  regRead_reset s.params _ _ _ _ (softReset_ctxs_idle s) i

/-- Completing a command writes `STATUS` and nothing else that the host reads (10_state.md R22). -/
theorem regRead_finish (s : State) (i : Nat) : regRead (finish s) i = if i = 0x01 then statusDone else regRead s i := by
  split
  · next h => rw [h]; rfl
  · unfold regRead
    split <;> first | rfl | contradiction

/-! ### A copy to the start of `IBUF` -/

/-- A copy of the first `n` bytes of a buffer to the start of another: below `n` its source shows, from `n` on what was
there. -/
theorem bufByte_bufWrite_bufRead (id id' : BufId) (b b' : Buf) (n a : Nat) :
    bufByte id (bufWrite b 0 (bufRead id' b' 0 n)) a = if a < n then bufByte id' b' a else bufByte id b a := by
  split
  · next h =>
    have hin := bufByte_bufWrite_inside id b 0 (bufRead id' b' 0 n) a (by simpa using h)
    simpa using hin
  · next h => exact bufByte_bufWrite_outside id b 0 _ a (.inr (by simpa using h))

/-- `OB2IB`: its two tests in order, then the copy (45_system.md R253). -/
theorem exec_ob2ib (s : State) :
    exec .ob2ib s = run .ob2ib s (
      if s.params.obufSize < s.olen.toNat then raising .badOperand s.olen.toNat
      else if s.params.ibufSize < s.olen.toNat then raising .capacity s.olen.toNat
      else .ok { s with
        ibuf := bufWrite s.ibuf 0 (obufBytes s 0 s.olen.toNat), ilen := s.olen, cur := 0, olen := 0, flg := 0 }) := by
  change execOb2ib s = _
  simp only [execOb2ib, raiseIf_bind, decide_eq_true_eq]
  rfl

/-- `RB2IB` on a context that is there: its two tests in order, then the copy and the release (45_system.md R254). -/
theorem exec_rb2ib {s : State} {c : BitVec 8} {x : Ctx} (hx : s.ctxs[c.toNat]? = some x) :
    exec (.rb2ib c) s = run (.rb2ib c) s (
      if x.rstate ≠ 2 then raising .badState x.rstate.toNat
      else if s.params.ibufSize < x.rlen.toNat then raising .capacity x.rlen.toNat
      else .ok { setCtx s c.toNat (idleCtx x) with
        ibuf := bufWrite s.ibuf 0 (bufRead (.rbuf c.toNat) x.rbuf 0 x.rlen.toNat), ilen := x.rlen, cur := 0, flg := 0 }) := by
  change execRb2ib c s = _
  simp only [execRb2ib, raiseIf_bind, decide_eq_true_eq, abortCtx, rbufBytes, ctxAt_of_getElem? hx]
  rfl

/-- A command on a context that is not there raises `BadOperand(c)` (30_encoding.md R82). -/
theorem exec_raises_of_context {i : Instr} {op c : Byte} {s : State} (henc : encode i = some (cmdWord op c))
    (hop : op.toNat ∈ [0x03, 0x51, 0x52]) (h : s.params.amaNctx ≤ c.toNat) :
    ∃ t, exec i s = .next t ∧ Raised s t (cmdWord op c) .badOperand c.toNat := by
  have hwf := wellFormed_of_encode henc
  have hword : commandWord i = cmdWord op c := by rw [commandWord, henc, Option.getD_some]
  have hfits : ¬ArgFits s.params.amaNctx (opcode i) (argument i) := by
    rw [opcode_of_encode henc, argument_of_encode henc, not_argFits_iff]
    exact .inr (.inr ⟨hop, h⟩)
  rw [← hword, ← argument_of_encode henc]
  exact exec_of_prologue_raising hwf (prologue_argument hwf hfits)

end Sys2Proof.Machine

/-- Settles O20: `NOP` raises nowhere, and its opcode takes no argument. -/
theorem nopResult : Obligations.NopResult := by
  refine ⟨rfl, fun s => ⟨?_, fun arg harg => ?_⟩⟩
  · exact (exec_nop s).trans (run_completes (prologue_ok_of_operand rfl rfl rfl) rfl)
  · obtain ⟨e, he⟩ := decode_nop_argument harg
    have hraised := raised_illegalCommand s (cmdWord 0x00 arg)
    rw [toNat_cmdWord] at hraised
    exact ⟨_, runWord_of_error he s, hraised⟩

/-- Settles O21: the state is that of reset but for the buffers and the host's own fields, and completing writes `STATUS`. -/
theorem softResetResult : Obligations.SoftResetResult := by
  refine ⟨rfl, fun s => ⟨finish (softReset s), ?_, ?_, List.length_map _, softReset_ctxs_idle s, fun i => ?_⟩⟩
  · exact (exec_srst s).trans (run_completes (prologue_ok_of_operand rfl rfl rfl) rfl)
  · exact congrArg finish (softReset_eq s)
  · rw [regRead_finish, regRead_softReset]
    rfl

/-- Settles O22: the two tests in order, then the copy. -/
theorem outputBecomesInput : Obligations.OutputBecomesInput := by
  refine ⟨rfl, fun s => ?_⟩
  have hp : prologue .ob2ib s = .ok () := prologue_ok_of_operand rfl rfl rfl
  have hexec := exec_ob2ib s
  refine ⟨fun hout => ?_, fun hout hin => ?_, fun hout hin => ?_⟩
  · rw [if_pos hout] at hexec
    exact exec_raises_of_run hp hexec
  · rw [if_neg (Nat.not_lt.mpr hout), if_pos hin] at hexec
    exact exec_raises_of_run hp hexec
  · rw [if_neg (Nat.not_lt.mpr hout), if_neg (Nat.not_lt.mpr hin)] at hexec
    have hcopy := bufByte_bufWrite_bufRead .ibuf .obuf s.ibuf s.obuf s.olen.toNat
    exact ⟨_, hexec.trans (run_completes hp rfl), rfl, fun a h => (hcopy a).trans (if_pos h),
      fun a h => (hcopy a).trans (if_neg (Nat.not_lt.mpr h))⟩

/-- Settles O23: an argument out of range fails the prologue's first test; past it the two tests in order, then the copy. -/
theorem payloadBecomesInput : Obligations.PayloadBecomesInput := by
  refine fun s c => ⟨rfl, exec_raises_of_context rfl (by decide), fun x hn hx => ?_⟩
  have hp : prologue (.rb2ib c) s = .ok () := prologue_ok_of_operand (decide_eq_true hn) rfl rfl
  have hexec := exec_rb2ib hx
  refine ⟨fun hstate => ?_, fun hstate hlen => ?_, fun hstate hlen => ?_⟩
  · rw [if_pos hstate] at hexec
    exact exec_raises_of_run hp hexec
  · rw [if_neg (not_not.mpr hstate), if_pos hlen] at hexec
    exact exec_raises_of_run hp hexec
  · rw [if_neg (not_not.mpr hstate), if_neg (Nat.not_lt.mpr hlen)] at hexec
    have hcopy := bufByte_bufWrite_bufRead .ibuf (.rbuf c.toNat) s.ibuf x.rbuf x.rlen.toNat
    exact ⟨_, bufForget x.rbuf, hexec.trans (run_completes hp rfl), rfl, fun a h => (hcopy a).trans (if_pos h),
      fun a h => (hcopy a).trans (if_neg (Nat.not_lt.mpr h))⟩
end

section
/-! SUPPORT. What a raise leaves, and which causes a command raises (60_exceptions.md R262, R263, R270): a table of causes by
opcode, which every command keeps. -/

open Sys2Proof Sys2Proof.Machine

namespace Sys2Proof.Machine

/-! ### What a raise leaves -/

/-- A raise that a command takes is one of R270 (60_exceptions.md). -/
theorem raised_of_takeRaise (s : State) (w : Word) (r : Raise) : Raised s (takeRaise s w r) w r.cause r.info.toNat := by
  rw [Raised, BitVec.ofNat_toNat, BitVec.setWidth_eq]
  rfl

/-- The prologue of `AMARX c` passes for a context that is there and a lawful window (30_encoding.md R83). -/
theorem prologue_amarx_ok_iff (c : BitVec 8) (s : State) :
    prologue (.amarx c) s = .ok () ↔
      c.toNat < s.params.amaNctx ∧ s.cur.toNat ≤ s.ilen.toNat ∧ s.ilen.toNat ≤ s.params.ibufSize := by
  simp [prologue_ok_iff, argInRange, readsIbuf, writesObuf, inputOk_iff]

/-- `AMARX` raises in its prologue, or after it with its context aborted (44_ama.md R228). -/
theorem exec_amarx_raised {c : BitVec 8} {s t : State} (h : exec (.amarx c) s = .next t) (he : t.status = statusErr) :
    ∃ cause info,
      if prologue (.amarx c) s = .ok () then
        ∃ b, Raised { s with ctxs := s.ctxs.set c.toNat (Ctx.idle b) } t (commandWord (.amarx c)) cause info
      else Raised s t (commandWord (.amarx c)) cause info := by
  rw [exec_amarx] at h
  rcases runCommand_cases h with ⟨r, hp, rfl⟩ | ⟨r, hp, -, rfl⟩ | ⟨u, -, -, rfl⟩
  · exact ⟨_, _, (if_neg (by simp [hp])).mpr (raised_of_takeRaise s _ r)⟩
  · exact ⟨_, _, (if_pos hp).mpr ⟨_, raised_of_takeRaise (abortCtx s c.toNat) _ r⟩⟩
  · exact absurd he statusDone_ne_statusErr

/-- Every other command that raises leaves its start but for the error registers (60_exceptions.md R270). -/
theorem Answer.raised_of_ne_amarx {i : Instr} {s t : State} (h : Answer i s t) (he : t.status = statusErr)
    (hi : ∀ c, i ≠ .amarx c) : ∃ cause info, Raised s t (commandWord i) cause info := by
  cases h with
  | raised r => exact ⟨_, _, raised_of_takeRaise s _ r⟩
  | aborted c r hc => exact absurd hc (hi c)
  | completed => exact absurd he statusDone_ne_statusErr

end Sys2Proof.Machine

/-- Settles O15: an illegal word, `AMARX` and every other command, each by what it can answer. -/
theorem raiseWritesOnlyErrorRegisters : Obligations.RaiseWritesOnlyErrorRegisters := by
  intro w s t h he
  cases hd : decode w with
  | error e =>
    rw [runWord_of_error hd] at h
    cases h
    exact ⟨_, _, fun _ => raised_illegalCommand s w, nofun⟩
  | ok i =>
    obtain ⟨henc, -⟩ := encode_of_decode hd
    have hword : commandWord i = w := by rw [commandWord, henc, Option.getD_some]
    rw [runWord_of_ok hd] at h
    by_cases hi : ∃ c, i = .amarx c
    · obtain ⟨c, rfl⟩ := hi
      obtain ⟨cause, info, hraised⟩ := exec_amarx_raised h he
      simp only [prologue_amarx_ok_iff, hword] at hraised
      refine ⟨cause, info, fun hne => absurd rfl (hne c), fun d hdc => ?_⟩
      cases hdc
      exact hraised
    · obtain ⟨cause, info, hraised⟩ := (exec_answer h).raised_of_ne_amarx he fun c hc => hi ⟨c, hc⟩
      rw [hword] at hraised
      exact ⟨cause, info, fun _ => hraised, fun c hc => absurd ⟨c, Except.ok.inj hc⟩ hi⟩

namespace Sys2Proof.Machine

/-! ### Which causes a command raises -/

/-- The causes that the command of an opcode can raise besides the `BadOperand` of the prologue (60_exceptions.md R262). -/
def opCauses : Nat → List Cause
  | 0x02 => [.capacity]
  | 0x03 => [.badState, .capacity]
  | 0x10 | 0x11 => [.malformedField, .invalidDiscriminant]
  | 0x12 | 0x13 | 0x15 | 0x1A | 0x21 => [.encodingConstraint, .capacity]
  | 0x14 | 0x19 | 0x20 => [.malformedField]
  | 0x22 => [.malformedField, .duplicateKey, .capacity]
  | 0x23 => [.duplicateKey, .encodingConstraint, .capacity]
  | 0x30 => [.malformedField, .invalidDiscriminant, .unsupported]
  | 0x31 => [.encodingConstraint, .unsupported, .capacity]
  | 0x40 | 0x41 | 0x42 | 0x43 | 0x50 => [.malformedField, .invalidDiscriminant]
  | 0x44 | 0x45 | 0x46 | 0x47 | 0x53 => [.encodingConstraint, .capacity]
  | 0x51 => [.malformedField, .invalidDiscriminant, .capacity, .fragmentSequence]
  | 0x54 => [.badState, .capacity]
  | _ => []

/-- The cause that the command `i` leaves in `CAUSE` is one of the table's (60_exceptions.md R262). -/
def CauseListed (i : Instr) (t : State) : Prop := ∃ c ∈ Cause.badOperand :: opCauses (opcode i), t.cause = causeCode c

section
variable {i : Instr} {s t : State} {op arg : Byte} (he : t.status = statusErr) (henc : encode i = some (cmdWord op arg))
include he henc

/-- A command whose pseudocode raises the table's causes alone: the prologue raises `BadOperand` (30_encoding.md R83). -/
theorem causeListed_of_runCommand {g : State → State} {body : Result State}
    (hc : RaisesOnly (.badOperand :: opCauses op.toNat) body) (h : runCommand i s g body = .next t) : CauseListed i t := by
  rw [CauseListed, opcode_of_encode henc]
  rcases runCommand_cases h with ⟨r, hp, rfl⟩ | ⟨r, -, hr, rfl⟩ | ⟨u, -, -, rfl⟩
  · exact ⟨r.cause, by rw [prologue_error_cause hp]; exact List.mem_cons_self, rfl⟩
  · exact ⟨r.cause, hc r hr, rfl⟩
  · exact absurd he statusDone_ne_statusErr

theorem causeListed_of_run {body : Result State} (hc : RaisesOnly (.badOperand :: opCauses op.toNat) body)
    (h : run i s body = .next t) : CauseListed i t := causeListed_of_runCommand he henc hc h

theorem causeListed_of_runDecode {body : Result Decoded} (hc : RaisesOnly (.badOperand :: opCauses op.toNat) body)
    (h : runDecode i s body = .next t) : CauseListed i t :=
  causeListed_of_run he henc (by simpa using hc) h

/-- An encode command also raises `Capacity` (00_scope.md R13). -/
theorem causeListed_of_runEncode {body : Result (List Byte)} (hcap : .capacity ∈ opCauses op.toNat)
    (hc : RaisesOnly (.badOperand :: opCauses op.toNat) body) (h : runEncode i s body = .next t) : CauseListed i t :=
  causeListed_of_run he henc
    (raisesOnly_bind_iff.mpr ⟨hc, fun _ _ => raisesOnly_writeEncoded_iff.mpr fun _ => List.mem_cons_of_mem _ hcap⟩) h

end

/-- Every command that raises keeps to the table (60_exceptions.md R262). -/
theorem exec_causeListed {i : Instr} {s t : State} (h : exec i s = .next t) (he : t.status = statusErr) :
    CauseListed i t := by
  cases i with
  | llFixed _ | nlByte _ | plByte _ | flexTlvByte _ | aslFlags _ | aslVersion _ | aslStatus _ | aslOpaddr _ | amaHdr _
  | vw2Lead _ | vw3Lead _ => cases h
  | nop | srst | ob2ib | rb2ib _ | bfins _ | amaabt _ | amatxi | amatxc =>
    dsimp only [exec] at h
    exact causeListed_of_run he rfl (by simp [opCauses]) h
  | vwrd2 | vwrd3 | bfext _ | twoc _ | idsplit | idjoin | rdbe _ | tlvrd | lldec | nldec | pldec | amahdr =>
    dsimp only [exec] at h
    exact causeListed_of_runDecode he rfl (by simp [opCauses, vwReadField, layerDecode]) h
  | vwwr2 | vwwr3 | wrbe _ | tlvwr | llenc | nlenc | plenc =>
    exact causeListed_of_runEncode he rfl (by decide) (by simp [opCauses]) h
  | flexdec => exact causeListed_of_run he rfl ((raisesOnly_flexDecode s).mono (by decide)) h
  | flexenc => exact causeListed_of_runEncode he rfl (by decide) ((raisesOnly_flexEncode s).mono (by decide)) h
  | asldec => exact causeListed_of_runDecode he rfl ((raisesOnly_aslDecode s).mono (by decide)) h
  | aslenc => exact causeListed_of_runEncode he rfl (by decide) ((raisesOnly_aslEncode s).mono (by decide)) h
  | framedec => exact causeListed_of_runDecode he rfl ((raisesOnly_frameDecode s).mono (by decide)) h
  | frameenc => exact causeListed_of_runEncode he rfl (by decide) ((raisesOnly_frameEncode s).mono (by decide)) h
  | amarx c =>
    rw [exec_amarx] at h
    exact causeListed_of_runCommand he rfl ((raisesOnly_amaReceive c.toNat s).mono (by decide)) h

/-- The table names no cause that commands do not produce (60_exceptions.md R262, R263). -/
theorem opCauses_subset (op : Nat) : opCauses op ⊆ commandCauses := by
  unfold opCauses
  split <;> decide

/-- What the table says of the opcodes of one row. -/
theorem CauseListed.of_row {i : Instr} {t : State} (h : CauseListed i t) {ops : List Nat} {causes : List Cause}
    (hrow : ∀ op ∈ ops, opCauses op = causes) (hop : opcode i ∈ ops) :
    ∃ c ∈ Cause.badOperand :: causes, t.cause = causeCode c := by
  rwa [CauseListed, hrow _ hop] at h

end Sys2Proof.Machine

/-- Settles O17: the table by opcode, which every command keeps, row by row. -/
theorem causesByCommand : Obligations.CausesByCommand := by
  intro i s t h he op only
  have hlisted := exec_causeListed h he
  and_intros <;> exact hlisted.of_row (by decide)

/-- Settles O18: no row of the table names the cause. -/
theorem unknownCommandClassNeverRaised : Obligations.UnknownCommandClassNeverRaised := by
  intro i s t h he hunknown
  obtain ⟨c, hc, hcause⟩ := exec_causeListed h he
  have hmem : c ∈ commandCauses := List.cons_subset.mpr ⟨by decide, opCauses_subset _⟩ hc
  exact ne_unknownCommandClass_of_mem hmem (causeCode_injective _ _ (hcause.symm.trans hunknown))
end

section
/-! SUPPORT. A header cut short (60_exceptions.md R264, 30_encoding.md R102): a parser that raises at the first field whose
bytes run past `ILEN`, put together from the parsers of the fields. -/

open Sys2Proof Sys2Proof.Machine Sys2Proof.Layout

namespace Sys2Proof.Machine

/-! ### Parsers of a list of fields -/

/-- Where only a part of the fields `ps` stands ahead of `p`, `m` raises `MalformedField` at the first field that is not
whole (60_exceptions.md R264). -/
def RaisesAtCut {α : Type} (s : State) (p : Nat) (ps : List (List Byte)) (m : Result α) : Prop :=
  ∀ bs, Ahead s p bs → bs <+: ps.flatten → bs.length < ps.flatten.length →
    m = raising .malformedField (cutAt p ps bs.length)

section
variable {α β : Type} {s : State} {p : Nat} {x : List Byte} {ps qs : List (List Byte)} {m : Result α}

/-- No part is missing of fields that are all absent. -/
theorem raisesAtCut_of_flatten_eq_nil (h : ps.flatten = []) : RaisesAtCut s p ps m := fun bs _ _ hlt => by
  rw [h] at hlt
  exact absurd hlt (Nat.not_lt_zero _)

/-- One field. -/
theorem raisesAtCut_single
    (h : ∀ bs, Ahead s p bs → bs <+: x → bs.length < x.length → m = raising .malformedField p) :
    RaisesAtCut s p [x] m := fun bs hbs hpre hlt => by
  simp only [List.flatten_cons, List.flatten_nil, List.append_nil] at hpre hlt
  rw [cutAt, if_pos hlt, h bs hbs hpre hlt]

/-- `Need` raises for a field that is not whole (00_scope.md R13). -/
theorem raisesAtCut_need {n : Nat} (f : Unit → Result α) (hn : n = x.length) :
    RaisesAtCut s p [x] (need p n s.ilen.toNat >>= f) := raisesAtCut_single fun bs hbs _ hlt => by
  have hend := hbs.1
  rw [need_bind, if_pos (by omega)]

/-- Fields one after the other: where the first are whole, the parser goes on with the next. -/
theorem RaisesAtCut.append (hps : RaisesAtCut s p ps m)
    (hqs : ∀ rest, Ahead s p (ps.flatten ++ rest) → RaisesAtCut s (p + ps.flatten.length) qs m) :
    RaisesAtCut s p (ps ++ qs) m := by
  intro bs hbs hpre hlt
  rw [List.flatten_append] at hpre hlt
  rcases Nat.lt_or_ge bs.length ps.flatten.length with hin | hout
  · rw [cutAt_append_of_lt _ _ _ _ hin]
    exact hps bs hbs (List.prefix_of_prefix_length_le hpre (List.prefix_append _ _) hin.le) hin
  · obtain ⟨rest, rfl⟩ := List.prefix_of_prefix_length_le (List.prefix_append _ _) hpre hout
    rw [List.length_append, List.length_append] at hlt
    rw [cutAt_append _ _ _ _ hout, List.length_append, Nat.add_sub_cancel_left]
    exact hqs rest hbs rest hbs.skip ((List.prefix_append_right_inj _).mp hpre) (Nat.lt_of_add_lt_add_left hlt)

theorem RaisesAtCut.cons (hx : RaisesAtCut s p [x] m)
    (hqs : ∀ rest, Ahead s p (x ++ rest) → RaisesAtCut s (p + x.length) qs m) : RaisesAtCut s p (x :: qs) m := by
  have hflat : [x].flatten = x := List.append_nil x
  exact RaisesAtCut.append (ps := [x]) hx (by rwa [hflat])

/-- What a piece of pseudocode raises, the whole raises. -/
theorem RaisesAtCut.bind {f : α → Result β} (h : RaisesAtCut s p ps m) : RaisesAtCut s p ps (m >>= f) :=
  fun bs hbs hpre hlt => by rw [h bs hbs hpre hlt, raising_bind]

/-- The parsers of two pieces of a header, one after the other. -/
theorem RaisesAtCut.bind_append {a : α} {f : α → Result β} (hm : RaisesAtCut s p ps m)
    (hok : ∀ rest, Ahead s p (ps.flatten ++ rest) → m = .ok a)
    (hf : RaisesAtCut s (p + ps.flatten.length) qs (f a)) : RaisesAtCut s p (ps ++ qs) (m >>= f) :=
  hm.bind.append fun rest h => by rw [hok rest h]; exact hf

theorem RaisesAtCut.bind_cons {a : α} {f : α → Result β} (hm : RaisesAtCut s p [x] m)
    (hok : ∀ rest, Ahead s p (x ++ rest) → m = .ok a) (hf : RaisesAtCut s (p + x.length) qs (f a)) :
    RaisesAtCut s p (x :: qs) (m >>= f) :=
  hm.bind.cons fun rest h => by rw [hok rest h]; exact hf

/-- A piece that is there only if its gate is set. -/
theorem raisesAtCut_gated {g : Bool} {m : Result Parsed} (hm : g = true → RaisesAtCut s p ps m)
    (habsent : g = false → ps.flatten = []) : RaisesAtCut s p ps (gated g p m) := by
  cases g with
  | true => exact hm rfl
  | false => exact raisesAtCut_of_flatten_eq_nil (habsent rfl)

/-- A decode command on a window that holds only a part of a header. -/
theorem runDecode_raises_at_cut {i : Instr} {body : Result Decoded} (hp : prologue i s = .ok ())
    (h : RaisesAtCut s s.cur.toNat ps body) (hc : s.cur.toNat ≤ s.ilen.toNat) (hpre : window s <+: ps.flatten)
    (hlt : (window s).length < ps.flatten.length) :
    ∃ t, runDecode i s body = .next t ∧
      Raised s t (commandWord i) .malformedField (cutAt s.cur.toNat ps (window s).length) :=
  runDecode_raises hp (h _ (ahead_window hc rfl) hpre hlt)

/-! ### Variable-width fields -/

/-- A variable-width field: the leading byte says its length (30_encoding.md R85). -/
theorem raisesAtCut_vwDecode {k : VwKind} {v : Nat} (hf : vwField s.params k x v = true) :
    RaisesAtCut s p [x] (vwDecode s k p s.ilen.toNat) := by
  obtain ⟨lead, rest, rfl, -, hw, -⟩ := vwField_spec hf
  refine raisesAtCut_single fun bs hbs hpre hlt => ?_
  have hend := hbs.1
  cases bs with
  | nil => exact vwDecode_empty (by rw [hend, List.length_nil]; omega)
  | cons b bs =>
    obtain ⟨rfl, -⟩ := List.cons_prefix_cons.mp hpre
    rw [List.length_cons] at hend
    exact vwDecode_cut (by omega) (by rwa [hbs.byte]) (by rw [List.length_cons] at hlt; omega)

theorem raisesAtCut_vwParse {k : VwKind} {val : Nat} (v w : Fin 32) (hf : vwField s.params k x val = true) :
    RaisesAtCut s p [x] (vwParse s k v w p) := (raisesAtCut_vwDecode hf).bind

end

/-! ### Link-layer header -/

section
variable {s : State} {p : Nat}

theorem raisesAtCut_addr {fmt val : Nat} {bs : List Byte} (v w : Fin 32) (hl : addrLegal s.params fmt bs val = true) :
    RaisesAtCut s p [bs] (gated (!fmtIsCloud s.params fmt) p (vwParse s .addr3 v w p)) := by
  rw [addrLegal] at hl
  cases hcloud : fmtIsCloud s.params fmt with
  | true => exact raisesAtCut_of_flatten_eq_nil (by simpa [hcloud] using hl)
  | false => exact raisesAtCut_vwParse v w (by simpa [hcloud] using hl)

/-- `LLParse(p)` (43_frame.md R190). -/
theorem raisesAtCut_llParse {x : Link} (hx : linkLegal s.params x = true) :
    RaisesAtCut s p (linkPieces x) (llParse s p) := by
  obtain ⟨hfixed, hsrc, hdst, hseqn⟩ := linkLegal_spec hx
  refine RaisesAtCut.cons (raisesAtCut_need _ rfl) fun rest h => ?_
  rw [llParse_fixed hfixed h, llAfterFixed]
  exact (raisesAtCut_addr 6 7 hsrc).bind_cons (fun _ => addr_ahead 6 7 hsrc)
    ((raisesAtCut_addr 8 9 hdst).bind_cons (fun _ => addr_ahead 8 9 hdst) (raisesAtCut_vwParse 10 11 hseqn).bind)

/-! ### Network-layer header -/

/-- The leading byte is read (43_frame.md R190). -/
theorem nlParse_lead {x : Net} {rest : List Byte} (hx : netLegal s.params x = true) (h : Ahead s p (netLead x :: rest)) :
    ∃ f : Parsed → Parsed → Result (Parsed × Bool), nlParse s p = (do
      let info ← gated (decide (x.isFragment = 1)) (p + 1) (byteParse s 16 (p + 1))
      let auth ← gated (decide (x.auth.length > 0)) info.next (authParse s x.auth.length info.next)
      f info auth) := by
  have hlegal := netLegal_spec hx
  have hcode : (BitVec.ofNat 3 x.code).toNat = x.code := Nat.mod_eq_of_lt hlegal.code
  unfold nlParse
  simp only [h.need (n := 1) (by simp), Result.ok_bind, h.byte, netByteOf_lead hlegal, hcode, hlegal.size,
    ofNat_one_eq_one_iff hlegal.isFragment]
  exact ⟨_, rfl⟩

/-- `NLParse(p)` (43_frame.md R190). -/
theorem raisesAtCut_nlParse {x : Net} (hx : netLegal s.params x = true) :
    RaisesAtCut s p (netPieces x) (nlParse s p) := by
  obtain ⟨hfrag, -, -, -, -, hinfo, -⟩ := netLegal_spec hx
  refine RaisesAtCut.cons (raisesAtCut_need _ rfl) fun rest h => ?_
  obtain ⟨f, hf⟩ := nlParse_lead hx h
  have hlen : (ifSet x.isFragment [octet x.info]).length = x.isFragment := by interval_cases x.isFragment <;> rfl
  rw [hf]
  refine RaisesAtCut.bind_cons ?_ (fun _ => info_ahead hfrag hinfo) (RaisesAtCut.bind ?_)
  · refine raisesAtCut_gated (fun h1 => ?_) fun h0 => ?_
    · rw [of_decide_eq_true h1]
      exact raisesAtCut_need _ rfl
    · rw [ifSet_of_ne (of_decide_eq_false h0)]
      rfl
  · dsimp only
    rw [hlen]
    refine raisesAtCut_gated (fun _ => raisesAtCut_need _ rfl) fun h0 => ?_
    simpa using h0

/-! ### Presentation-layer header -/

/-- The leading byte is read (43_frame.md R190). -/
theorem plParse_lead {x : Pres} {rest : List Byte} (hx : presHeadLegal x = true) (h : Ahead s p (presLead x :: rest)) :
    ∃ f : Nat × Nat → Result Parsed, plParse s p = addrDecode s x.addrEnc (p + 1) s.ilen.toNat >>= f := by
  have hlegal := presHeadLegal_spec hx
  have haddr : (BitVec.ofNat 4 x.addrEnc).toNat = x.addrEnc := Nat.mod_eq_of_lt hlegal.addrEnc
  unfold plParse
  simp only [h.need (n := 1) (by simp), Result.ok_bind, h.byte, presByteOf_lead hlegal, haddr]
  exact ⟨_, rfl⟩

/-- The extended address (30_encoding.md R91). -/
theorem raisesAtCut_addrDecode {x : Pres} (hx : PresHeadLegal x) :
    RaisesAtCut s p [x.ext] (addrDecode s x.addrEnc p s.ilen.toNat) := by
  have hlen := hx.ext
  rw [addrDecode]
  by_cases hinline : x.addrEnc ≤ 0xB
  · refine raisesAtCut_of_flatten_eq_nil ?_
    rw [Nat.sub_eq_zero_of_le hinline] at hlen
    simpa using hlen
  · rw [if_neg hinline]
    exact raisesAtCut_need _ hlen.symm

/-- `PLParse(p)` (43_frame.md R190). -/
theorem raisesAtCut_plParse {x : Pres} (hx : presLegal s.params x = true) :
    RaisesAtCut s p (presPieces x) (plParse s p) := by
  obtain ⟨hhead, hseqn⟩ := presLegal_spec hx
  refine RaisesAtCut.append (RaisesAtCut.cons (raisesAtCut_need _ rfl) fun rest h => ?_) fun rest h => ?_
  · obtain ⟨f, hf⟩ := plParse_lead hhead h
    rw [hf]
    exact (raisesAtCut_addrDecode (presHeadLegal_spec hhead)).bind
  · rw [plParse_head hhead h, plAfterHead]
    refine RaisesAtCut.bind (raisesAtCut_gated (fun h1 => ?_) fun h0 => ?_)
    · rw [if_pos (of_decide_eq_true h1)] at hseqn
      exact raisesAtCut_vwParse 24 25 hseqn
    · rw [if_neg (of_decide_eq_false h0)] at hseqn
      simpa using hseqn

/-! ### Legacy frames -/

/-- `FRAMEDEC` (43_frame.md R195). -/
theorem raisesAtCut_frameDecode {ll : Link} {nl : Net} {pl : Pres} (hll : linkLegal s.params ll = true)
    (hnl : netLegal s.params nl = true) (hpl : nl.encrEna = 0 → presLegal s.params pl = true) :
    RaisesAtCut s s.cur.toNat (linkPieces ll ++ netPieces nl ++ (if nl.encrEna = 0 then presPieces pl else []))
      (frameDecode s) := by
  rw [List.append_assoc]
  refine (raisesAtCut_llParse hll).bind_append (fun _ => llParse_ahead hll) ?_
  refine (raisesAtCut_nlParse hnl).bind_append (fun _ => nlParse_ahead hnl) ?_
  refine RaisesAtCut.bind ?_
  split
  · next henc =>
    rw [henc]
    exact raisesAtCut_plParse (hpl henc)
  · exact raisesAtCut_of_flatten_eq_nil rfl

/-! ### Unified ASL header -/

/-- Of two recognised prefixes none starts the other (00_scope.md R10 (a)). -/
theorem prefixFree_eq_of_prefix {t : PrefixTable} (hf : prefixFree t = true) {e e' : List Byte × Nat} (he : e ∈ t)
    (he' : e' ∈ t) (h : e.1 <+: e'.1) : e = e' := by
  simp only [prefixFree, Bool.and_eq_true, decide_eq_true_eq] at hf
  obtain ⟨-, hpairs⟩ := hf
  by_contra hne
  have hsymm : Std.Symm fun e e' : List Byte × Nat =>
      e.1.isPrefixOf e'.1 = false ∧ e'.1.isPrefixOf e.1 = false := ⟨fun _ _ h => h.symm⟩
  have hapart := (hpairs.forall he he' hne).1
  rw [← Bool.not_eq_true, List.isPrefixOf_iff_prefix] at hapart
  exact hapart h

/-- A blob or the prefix that announces it (42_asl.md R170): a part of the prefix is none that the table recognises. -/
theorem raisesAtCut_lenPrefixed {pfx : Option PrefixTable} {pre bs : List Byte} (hf : prefixFree (pfx.getD []) = true)
    (hl : blobLegal pfx 1 pre bs = true) : RaisesAtCut s p [pre, bs] (lenPrefixed s pfx p) := by
  cases pfx with
  | none => simp [blobLegal] at hl
  | some t =>
    have hmem : (pre, bs.length) ∈ t := by simpa [blobLegal] using hl
    rw [Option.getD_some] at hf
    refine (raisesAtCut_single fun part h hpre hlt => ?_).cons fun rest h => ?_
    · refine lenPrefixed_unrecognised h fun e he hstart => ?_
      obtain rfl := prefixFree_eq_of_prefix hf he hmem (hstart.trans hpre)
      exact absurd hstart.length_le hlt.not_ge
    · simp only [lenPrefixed, h.all, prefixRead_of_mem hf hmem]
      exact raisesAtCut_need _ rfl

/-- A blob, there or not (42_asl.md R172). -/
theorem raisesAtCut_blobParse {flag : Nat} {pfx : Option PrefixTable} {pre bs : List Byte} (o l : Fin 32)
    (hf : prefixFree (pfx.getD []) = true) (hl : blobLegal pfx flag pre bs = true) :
    RaisesAtCut s p [pre, bs] (gated (decide (flag = 1)) p (blobParse s pfx o l p)) := by
  refine raisesAtCut_gated (fun h1 => ?_) fun h0 => ?_
  · rw [of_decide_eq_true h1] at hl
    exact (raisesAtCut_lenPrefixed hf hl).bind
  · obtain ⟨rfl, rfl⟩ := blobLegal_absent hl (of_decide_eq_false h0)
    rfl

/-- The flag byte is read, and the version block is next (42_asl.md R172). -/
theorem aslDecode_flag {x : Asl} {rest : List Byte} (hx : aslHeadLegal x = true)
    (h : Ahead s s.cur.toNat (octet (aslFlagByte x) :: rest)) :
    ∃ f : Parsed → Result Decoded, aslDecode s =
      gated (decide (x.versionInc = 1)) (s.cur.toNat + 1) (aslVersionParse s (s.cur.toNat + 1)) >>= f := by
  have hflags := aslFlagsOf_octet hx
  simp only [aslHeadLegal, decide_eq_true_eq] at hx
  obtain ⟨hver, -⟩ := hx
  have hclear : ¬(0 : BitVec 1) = 1 := by decide
  unfold aslDecode
  simp only [h.need (n := 1) (by simp), Result.ok_bind, h.byte, hflags, hclear, if_false, ofNat_one_eq_one_iff hver]
  exact ⟨_, rfl⟩

/-- The flag byte and the version block (42_asl.md R172). -/
theorem raisesAtCut_aslHead {x : Asl} (hx : aslHeadLegal x = true) :
    RaisesAtCut s s.cur.toNat (aslHead x) (aslDecode s) := by
  refine RaisesAtCut.cons (raisesAtCut_need _ rfl) fun rest h => ?_
  obtain ⟨f, hf⟩ := aslDecode_flag hx h
  rw [hf]
  refine RaisesAtCut.bind (raisesAtCut_gated (fun h1 => ?_) fun h0 => ?_)
  · rw [of_decide_eq_true h1]
    exact raisesAtCut_need _ rfl
  · rw [ifSet_of_ne (of_decide_eq_false h0)]
    rfl

/-- The sequence-number block, there or not (42_asl.md R172). -/
theorem raisesAtCut_aslSeqn {x : Asl} (hx : aslLegal1 s.params x = true) :
    RaisesAtCut s p [x.seqn] (gated (decide (x.seqnInc = 1)) p (aslSeqnParse s p)) := by
  simp only [aslLegal1, Bool.and_eq_true] at hx
  obtain ⟨-, hseqn⟩ := hx
  refine raisesAtCut_gated (fun h1 => ?_) fun h0 => ?_
  · rw [if_pos (of_decide_eq_true h1)] at hseqn
    exact (raisesAtCut_vwDecode hseqn).bind
  · rw [if_neg (of_decide_eq_false h0)] at hseqn
    simpa using hseqn

/-- The status byte is read, and `status_code` is next (42_asl.md R172). -/
theorem aslStatusParse_byte {codeInc aadInc pad : Nat} {rest : List Byte} (hcode : codeInc < 2) (haad : aadInc < 2)
    (hpad : pad < 64) (h : Ahead s p (octet (128 * codeInc + 64 * aadInc + pad) :: rest)) :
    ∃ f : Parsed → Result Parsed,
      aslStatusParse s p = gated (decide (codeInc = 1)) (p + 1) (aslCodeParse s (p + 1)) >>= f := by
  have hcodeInc : (aslStatusOf (octet (128 * codeInc + 64 * aadInc + pad))).statusCodeInc.toNat = codeInc := by
    rw [aslStatusOf_statusCodeInc, BitVec.toNat_ofNat]
    omega
  unfold aslStatusParse
  simp only [h.need (n := 1) (by simp), Result.ok_bind, h.byte, bit_eq_one_iff, hcodeInc]
  exact ⟨_, rfl⟩

/-- The status block, there or not (42_asl.md R172). -/
theorem raisesAtCut_aslStatus {x : Asl} (hv : s.params.valid = true) (hx : aslLegal s.params x = true) :
    RaisesAtCut s p
      [ifSet x.statusHdrInc [octet (128 * x.codeInc + 64 * x.aadInc + x.statusPad)], x.code, x.aadPrefix, x.aad]
      (gated (decide (x.statusHdrInc = 1)) p (aslStatusParse s p)) := by
  have hx2 := aslLegal2_of_legal hx
  simp only [aslLegal, Bool.and_eq_true] at hx
  obtain ⟨⟨-, haad⟩, -⟩ := hx
  refine raisesAtCut_gated (fun h1 => ?_) fun h0 => ?_
  · have hstat := of_decide_eq_true h1
    rw [hstat, Nat.one_mul] at haad
    have hfields := hx2
    simp only [aslLegal2, Bool.and_eq_true, decide_eq_true_eq, hstat, true_and] at hfields
    obtain ⟨-, hcodeInc, haadInc, hpad, hlen⟩ := hfields
    have hbyte : RaisesAtCut s p [[octet (128 * x.codeInc + 64 * x.aadInc + x.statusPad)]] (aslStatusParse s p) :=
      raisesAtCut_need _ rfl
    rw [hstat, ifSet_one]
    refine RaisesAtCut.append (ps := [_, x.code]) (hbyte.cons fun rest h => ?_) fun rest h => ?_
    · obtain ⟨f, hf⟩ := aslStatusParse_byte hcodeInc haadInc hpad h
      rw [hf]
      refine RaisesAtCut.bind (raisesAtCut_gated (fun h1 => ?_) fun h0 => ?_)
      · exact raisesAtCut_need _ (by rw [hlen, if_pos (of_decide_eq_true h1)])
      · rw [if_neg (of_decide_eq_false h0)] at hlen
        simpa using hlen
    · have hread := aslStatusParse_ahead (rest := rest) hx2 hstat (by simpa using h)
      have hat : p + 1 + x.code.length =
          p + [[octet (128 * x.codeInc + 64 * x.aadInc + x.statusPad)], x.code].flatten.length := by
        simp [Nat.add_assoc, Nat.add_comm 1]
      rw [hread, hat, aslStatusTail, aslAadParse_eq]
      exact (raisesAtCut_blobParse 16 17 (prefixFree_of_valid hv).2 haad).bind
  · have hstat := of_decide_eq_false h0
    obtain ⟨hpre, hbs⟩ := blobLegal_absent haad fun h1 => hstat (Nat.eq_one_of_mul_eq_one_right h1)
    have hnone := aslStatusBytes_absent hx2 hstat
    rw [aslStatusBytes, List.append_eq_nil_iff] at hnone
    rw [hnone.1, hnone.2, hpre, hbs]
    rfl

/-- The opcode/address block (42_asl.md R172, 30_encoding.md R96). -/
theorem raisesAtCut_aslOpaddr {x : Asl} (hx : aslLegal s.params x = true) :
    RaisesAtCut s p [[octet (aslAddrByte x)], x.cls, x.id] (aslOpaddrParse s p) := by
  simp only [aslLegal, Bool.and_eq_true, decide_eq_true_eq] at hx
  obtain ⟨-, hopc, hpad, hext, hcf, hidf, hcls, hid⟩ := hx
  obtain ⟨-, hfields⟩ := aslOpaddrOf_octet hopc hpad hext hcf hidf
  have hcf2 : (BitVec.ofNat 2 x.cf).toNat = x.cf := Nat.mod_eq_of_lt hcf
  have hidf2 : (BitVec.ofNat 2 x.idf).toNat = x.idf := Nat.mod_eq_of_lt hidf
  have hbyte : RaisesAtCut s p [[octet (aslAddrByte x)]] (aslOpaddrParse s p) := raisesAtCut_need _ rfl
  refine hbyte.cons fun rest h => ?_
  by_cases hE : x.ext = 1
  · rw [if_pos hE] at hcls hid
    rw [hE] at hfields
    unfold aslOpaddrParse
    simp only [h.need (n := 1) (by simp), Result.ok_bind, h.byte, hfields, hcf2, hidf2]
    rw [if_neg (by decide)]
    refine (raisesAtCut_need _ hcls.symm).cons fun rest' h' => ?_
    rw [h'.need (by rw [← hcls]; simp), Result.ok_bind, ← hcls]
    exact raisesAtCut_need _ hid.symm
  · rw [if_neg hE] at hcls hid
    exact raisesAtCut_of_flatten_eq_nil (by
      rw [List.eq_nil_of_length_eq_zero hcls, List.eq_nil_of_length_eq_zero hid]
      rfl)

/-- `ASLDEC` (42_asl.md R172). -/
theorem raisesAtCut_aslDecode {x : Asl} (hv : s.params.valid = true) (hx : aslLegal s.params x = true) :
    RaisesAtCut s s.cur.toNat (aslPieces x) (aslDecode s) := by
  obtain ⟨hx1, hblob⟩ := aslLegal2_spec (aslLegal2_of_legal hx)
  have hhead : aslHeadLegal x = true := by
    simp only [aslLegal1, Bool.and_eq_true] at hx1
    obtain ⟨hhead, -⟩ := hx1
    exact hhead
  have hpieces : aslPieces x = aslHead x ++ x.seqn :: ([x.blobPrefix, x.blob]
      ++ ([ifSet x.statusHdrInc [octet (128 * x.codeInc + 64 * x.aadInc + x.statusPad)], x.code, x.aadPrefix, x.aad]
        ++ [[octet (aslAddrByte x)], x.cls, x.id])) := rfl
  have hblobBytes : [x.blobPrefix, x.blob].flatten = x.blobPrefix ++ x.blob := by simp
  have hstatusBytes :
      [ifSet x.statusHdrInc [octet (128 * x.codeInc + 64 * x.aadInc + x.statusPad)], x.code, x.aadPrefix, x.aad].flatten
        = aslStatusBytes x ++ (x.aadPrefix ++ x.aad) := by simp [aslStatusBytes]
  rw [hpieces]
  refine (raisesAtCut_aslHead hhead).append fun rest h => ?_
  rw [aslDecode_head hhead h, aslFromSeqn]
  refine (raisesAtCut_aslSeqn hx1).bind_cons (fun _ => aslSeqn_ahead hx1) ?_
  rw [aslFromBlob, aslBlobParse_eq]
  refine (raisesAtCut_blobParse 11 12 (prefixFree_of_valid hv).1 hblob).bind_append
    (fun rest h => blobParse_ahead (rest := rest) 11 12 (prefixFree_of_valid hv).1 hblob (by rwa [hblobBytes] at h)) ?_
  rw [hblobBytes]
  refine (raisesAtCut_aslStatus hv hx).bind_append
    (fun rest h => aslStatus_ahead (rest := rest) hv hx (by rwa [hstatusBytes, List.append_assoc] at h)) ?_
  rw [hstatusBytes, List.length_append (as := aslStatusBytes x), ← Nat.add_assoc]
  exact (raisesAtCut_aslOpaddr hx).bind

/-! ### AMA fragment -/

/-- Check 4: a payload cut short raises at `pkt_len`, the last byte of the head (44_ama.md R220). -/
theorem amaParse_payloadCut {x : Ama} {rest : List Byte} (hx : amaLegal x = true) (h : Ahead s p (amaHead x ++ rest))
    (hlong : x.type = 0 → 5 < s.ilen.toNat - p) (hcut : rest.length < x.payload.length) :
    amaParse s p = raising .malformedField (p + (amaHead x).length - 1) := by
  have hlegal := amaLegal_spec hx
  obtain ⟨hzero, h3⟩ := amaHeader_type hlegal
  have hend := h.1
  have hlen := amaHead_length x
  have hpay : (octet x.payload.length).toNat = x.payload.length := Nat.mod_eq_of_lt hlegal.payload
  rw [List.length_append, hlen] at hend
  rw [amaHead_eq, List.append_assoc, List.append_assoc] at h
  have hsecond : ibufByte s (p + 1) = octet (16 * x.seq + 4 * x.type + 2 * x.ack + x.ext) := (h.skip (bs := [_])).byte
  have hlenByte : ibufByte s (p + 2 + (amaTotalBytes x).length) = octet x.payload.length := h.skip.skip.byte
  have hoff : (if x.type = 0 then p + 4 else p + 2) = p + 2 + (amaTotalBytes x).length := by
    split
    · next h0 => rw [amaTotalBytes_initial h0]; rfl
    · next h0 => rw [amaTotalBytes_continuation h0]; rfl
  simp only [amaParse, raiseIf_bind, decide_eq_true_eq, h.byte, hsecond, amaHeaderOf_bytes hlegal, hzero, hoff, hlenByte,
    hpay]
  rw [if_neg (by omega), if_neg h3, if_neg (by omega), if_pos (by omega), hlen, ← Nat.add_assoc, ← Nat.add_assoc,
    Nat.add_sub_cancel]

/-- `AmaParse` on a fragment cut short: the tests of the whole come before that of the payload (44_ama.md R220). -/
theorem amaParse_cut {x : Ama} {bs : List Byte} (hx : amaLegal x = true) (h : Ahead s p bs)
    (hpre : bs <+: amaHead x ++ x.payload) (hlt : bs.length < (amaHead x ++ x.payload).length) :
    amaParse s p = raising .malformedField
      (if bs.length ≤ 2 ∨ (x.type = 0 ∧ bs.length ≤ 5) then p else p + (amaHead x).length - 1) := by
  have hend := h.1
  by_cases hshort : bs.length ≤ 2
  · rw [if_pos (.inl hshort), amaParse_short (by omega)]
  by_cases hinit : x.type = 0 ∧ bs.length ≤ 5
  · obtain ⟨h0, hfive⟩ := hinit
    rw [if_pos (.inr ⟨h0, hfive⟩)]
    rw [amaHead_eq] at hpre
    rcases bs with _ | ⟨b0, _ | ⟨b1, rest⟩⟩
    · exact absurd (Nat.zero_le 2) hshort
    · exact absurd (Nat.le_succ 1) hshort
    · obtain ⟨-, hpre⟩ := List.cons_prefix_cons.mp hpre
      obtain ⟨rfl, -⟩ := List.cons_prefix_cons.mp hpre
      simp only [List.length_cons] at hshort hfive
      refine amaParse_initialShort h (List.ne_nil_of_length_pos (by omega)) ?_ (by omega)
      obtain ⟨-, -, hseq, -, hack, hext, -, -⟩ := amaLegal_spec hx
      rw [BitVec.toNat_ofNat, h0]
      omega
  · have hhead : (amaHead x).length ≤ bs.length := by
      rw [amaHead_length]
      by_cases h0 : x.type = 0
      · rw [amaTotalBytes_initial h0]
        simp only [List.length_cons, List.length_nil]
        omega
      · rw [amaTotalBytes_continuation h0]
        simp only [List.length_nil]
        omega
    obtain ⟨rest, rfl⟩ := List.prefix_of_prefix_length_le (List.prefix_append _ _) hpre hhead
    rw [List.length_append, List.length_append, Nat.add_lt_add_iff_left] at hlt
    rw [if_neg (not_or.mpr ⟨hshort, hinit⟩)]
    exact amaParse_payloadCut hx h (by omega) hlt

end

end Sys2Proof.Machine

/-- Settles O48: the fields of each header are parsed one after the other, up to the first that is not whole. -/
theorem truncatedHeadersRaise : Obligations.TruncatedHeadersRaise := by
  intro s hc hi cut malformed malformedAtCut
  have hp {i : Instr} (harg : argInRange s.params i = true) (hO : writesObuf i = false) : prologue i s = .ok () :=
    prologue_ok_of_input harg hO hc hi
  refine ⟨fun x hx ⟨hpre, hlt⟩ => ?_, fun x hx ⟨hpre, hlt⟩ => ?_, fun x hx ⟨hpre, hlt⟩ => ?_,
    fun ll nl pl hll hnl hpl ⟨hpre, hlt⟩ => ?_, fun x hv hx ⟨hpre, hlt⟩ => ?_, fun x hx ⟨hpre, hlt⟩ => ?_,
    fun hdr cls id hhdr hcls hid ⟨hpre, hlt⟩ => ?_, fun x hx ⟨hpre, hlt⟩ => ?_⟩
  · exact runDecode_raises_at_cut (hp rfl rfl) (raisesAtCut_llParse hx).bind hc hpre hlt
  · exact runDecode_raises_at_cut (hp rfl rfl) (raisesAtCut_nlParse hx).bind.bind hc hpre hlt
  · exact runDecode_raises_at_cut (hp rfl rfl) (raisesAtCut_plParse hx).bind hc hpre hlt
  · exact runDecode_raises_at_cut (hp rfl rfl) (raisesAtCut_frameDecode hll hnl hpl) hc hpre hlt
  · exact runDecode_raises_at_cut (hp rfl rfl) (raisesAtCut_aslDecode hv hx) hc hpre hlt
  · exact (tlvRead.2 s x hc hi hx).2 hpre hlt
  · obtain ⟨hshort, hheader, -⟩ := flexDecodeRaises s hc hi
    cases hw : window s with
    | nil => exact hshort (by simp [hw])
    | cons hl rest =>
      rw [hw] at hpre hlt
      obtain ⟨rfl, -⟩ := List.cons_prefix_cons.mp hpre
      refine hheader _ rest hw ?_
      simp only [List.length_append, List.length_cons, List.length_nil] at hlt
      rw [BitVec.toNat_ofNat]
      omega
  · intro short info
    have hparse : amaParse s s.cur.toNat = raising .malformedField info := amaParse_cut hx (ahead_window hc rfl) hpre hlt
    exact ⟨runDecode_raises (hp rfl rfl) (by rw [hparse, raising_bind]), fun c hn =>
      exec_amarx_aborts (prologue_amarx hn hc hi) (amaReceive_of_parse_raising _ hparse)⟩
end
